-- ==== Sys2Proof/Word.lean ====
section
/-! DEFINITION. The word types of CU-CORE: 32-bit registers and command words, 8-bit buffer bytes (R11, R12 of
00_scope.md: every value is an unsigned integer, the core moves one byte per access). -/

namespace Sys2Proof

/-- A register of the host window or a command word: 32 bits (R32 of 10_state.md, R120 of 30_encoding.md). -/
abbrev Word := BitVec 32

/-- One byte of IBUF, OBUF or EXTBUF (R90 of 20_memory.md). -/
abbrev Byte := BitVec 8

end Sys2Proof
end

