-- ==== Sys2Proof/Config.lean ====
section
/-! DEFINITION. What is fixed for the machine: the constants of R7 and R9 of 00_scope.md, the parameters' type
(R8), and the free values that stand for every `any` of the spec (93_implementation_defined.md section 2). -/

namespace Sys2Proof

namespace Config

/-- The constant the ID register reads (R2 of 00_scope.md, R58 of 10_state.md). -/
def idValue : Word := 0x43550001

/-- `HALF = 2^31` (R9 of 00_scope.md). -/
def half : Nat := 0x80000000

/-- `QUARTER = 2^30` (R9). -/
def quarter : Nat := 0x40000000

/-- `THREE_QUARTER = 3 * 2^30` (R9). -/
def threeQuarter : Nat := 0xC0000000

/-- `ARI_MAX = 2^30 - 257` input bytes (R9; 92_eei_decisions.md D23). -/
def ariMax : Nat := 0x3FFFFEFF

/-- The LZW end-of-stream code (R260 of 43_lzw.md). -/
def eosCode : Nat := 256

/-- The LZW dictionary-reset code (R260). -/
def clearCode : Nat := 257

/-- The first code the LZW dictionaries assign (R260). -/
def firstCode : Nat := 258

/-- One more than the largest LZW code: a dictionary whose next code is this one is full (R260, R264). -/
def codeLimit : Nat := 4096

/-- The arithmetic coder's end symbol (R7). -/
def eofSymbol : Nat := 256

/-- The size of the Huffman node store (R9, R215). -/
def nodeLimit : Nat := 511

/-- The widest IBUF or OBUF a conforming block has (R8). -/
def bufferLimit : Nat := 0x1000000

/-- Names for the places whose value the spec leaves `any`, so that two free values never share an index. -/
inductive Open where
  | ibuf | obuf | extbuf
  | freq | nodeKind | nodeVal | nodeLeft | nodeRight | nodeWt | codeLen | codeBit
  | encPrefix | encSuffix | decPrefix | decSuffix
  | occ | cnt | cum
  | res
  | rdPtr | rdBit | rdEnd
  | nodeCnt | root
  | encNext | encWidth | encPat | encPatV
  | decNext | decPrev | decPrevV
  | total | low | high | pending | value
  | busRead
  deriving DecidableEq, Repr

/-- A FREE VALUE: the spec says `any` and nothing constrains it (93_implementation_defined.md section 2: "the model
draws it freely"). It has no body, so no proof can use a value of it. `what` is the place, `draw` the draw of the
state's counter, `index` the word or byte within the place (DESIGN CHOICE in its form, log 4). -/
opaque freeValue (what : Open) (draw index width : Nat) : BitVec width

end Config

/-- The open parameters of a block (R8 of 00_scope.md): a conforming block fixes each, and no step changes them. -/
structure Params where
  /-- `IBUF_SIZE`, in bytes. -/
  ibufSize : Nat
  /-- `OBUF_SIZE`, in bytes. -/
  obufSize : Nat
  /-- `EXT_MAX`, in bytes. -/
  extMax : Nat
  deriving DecidableEq, Repr

/-- The ranges R8 gives the parameters. -/
abbrev Params.Ok (p : Params) : Prop :=
  (1 ≤ p.ibufSize ∧ p.ibufSize ≤ Config.bufferLimit) ∧ (1 ≤ p.obufSize ∧ p.obufSize ≤ Config.bufferLimit) ∧
    p.extMax ≤ 65535

end Sys2Proof
end

