-- ==== Sys2Proof/Machine/State.lean ====
section
/-! DEFINITION. The state of CU-CORE as plain data (R30 of 10_state.md): the sequencer, the host-visible registers, the
unit state, the three buffers, and the model's own fields (the host's moves to come, the last host read, the counter of
free values). State.reset is the machine right after reset (R390 of 70_reset_and_hazards.md). -/

namespace Sys2Proof.Machine

/-- `SEQ.PHASE` (R31). -/
inductive Phase where
  | idle
  | busy
  deriving DecidableEq, Repr

/-- The command sequencer (R31): it takes the place of a program counter. -/
structure Seq where
  phase : Phase
  /-- `SEQ.CMDWORD`, the accepted command word. -/
  cmdWord : Word
  deriving DecidableEq, Repr

/-- CTRL (R33). -/
structure Ctrl where
  isbin : Bool
  lzwFixed12 : Bool
  lzwFallbackEn : Bool
  ariLenient : Bool
  irqEn : Bool
  deriving DecidableEq, Repr

/-- STATUS without BUSY, which is a view of `SEQ.PHASE` (R34, R35). -/
structure Status where
  done : Bool
  err : Bool
  isbinIn : Bool
  stored : Bool
  lzwEos : Bool
  anomaly : Bool
  rdOvr : Bool
  cmdLost : Bool
  wrLost : Bool
  deriving DecidableEq, Repr

/-- The error codes of R360 of 60_exceptions.md. -/
inductive ErrCode where
  | noError
  | emptyInput
  | corruptTree
  | corruptStream
  | ioFailure
  | invalidContainer
  | sizeLimit
  | illegalCommand
  | stateError
  deriving DecidableEq, Repr

/-- ERRCODE, ERR_CMD and ERR_POS (R37). -/
structure ErrRegs where
  code : ErrCode
  cmd : Word
  pos : Word
  deriving DecidableEq, Repr

/-- EXT_LEN and EXT_OFF (R43). -/
structure ExtRegs where
  len : BitVec 16
  off : Word
  deriving DecidableEq, Repr

/-- UNIT_VALID (R45). -/
structure UnitValid where
  freq : Bool
  tree : Bool
  codes : Bool
  lzwE : Bool
  lzwD : Bool
  ariModel : Bool
  ariEnc : Bool
  ariDec : Bool
  deriving DecidableEq, Repr

/-- A byte buffer or a unit RAM: the words written so far by rising index, and for every index not listed the draw its
`any` contents come from (R59; log 5, log 6). No listed entry stands for an unwritten word, so equal contents are equal
data. -/
structure Store (α : Type) where
  cells : List (Nat × α)
  seed : Nat
  deriving DecidableEq, Repr

/-- A byte buffer: its cells are `Host.Cell`s (R90 of 20_memory.md). -/
abbrev Memory := Store Byte

/-- The bit writer with its output byte pointer OUT_LEN (R46, R42, R193). -/
structure Writer where
  /-- `U.ACC`. -/
  acc : Byte
  /-- `U.NBITS`. -/
  nbits : BitVec 3
  /-- `REG.OUT_LEN`. -/
  outLen : Word
  deriving DecidableEq, Repr

/-- The bit reader (R47). -/
structure Reader where
  /-- `U.RD_PTR`. -/
  ptr : Word
  /-- `U.RD_BIT`. -/
  bit : BitVec 3
  /-- `U.RD_END`. -/
  fin : Word
  deriving DecidableEq, Repr

/-- KIND with VAL, or KIND with LEFT and RIGHT, of one node (R48). The weight is in a RAM of its own (log 19). -/
inductive Node where
  | leaf (val : Byte)
  | internal (left right : BitVec 9)
  deriving DecidableEq, Repr

/-- The Huffman unit (R48). -/
structure Huffman where
  /-- `U.FREQ[0..255]`. -/
  freq : Store Word
  /-- `U.NODE[0..510]`, KIND, VAL, LEFT, RIGHT. -/
  node : Store Node
  /-- `U.NODE[0..510].WT`. -/
  nodeWt : Store Word
  /-- `U.NODECNT`. -/
  nodeCnt : BitVec 10
  /-- `U.ROOT`. -/
  root : BitVec 9
  /-- `U.CODE[0..255]`: STR, first-emitted bit first; LEN is its length. -/
  code : Store (List Bool)
  deriving DecidableEq, Repr

/-- One dictionary entry: (prefix code, last byte) (R50, R52). -/
structure DictEntry where
  pre : BitVec 12
  suf : Byte
  deriving DecidableEq, Repr

/-- The LZW encoder (R50). -/
structure LzwEnc where
  /-- `U.E_PREFIX`, `U.E_SUFFIX` at 258..4095. -/
  dict : Store DictEntry
  /-- `U.E_NEXT`. -/
  next : BitVec 13
  /-- `U.E_WIDTH`. -/
  width : BitVec 4
  /-- `U.E_PAT`. -/
  pat : BitVec 12
  /-- `U.E_PATV`. -/
  patV : Bool
  deriving DecidableEq, Repr

/-- The LZW decoder (R51). -/
structure LzwDec where
  /-- `U.D_PREFIX`, `U.D_SUFFIX` at 258..4095. -/
  dict : Store DictEntry
  /-- `U.D_NEXT`. -/
  next : BitVec 13
  /-- `U.D_PREV`. -/
  prev : BitVec 12
  /-- `U.D_PREVV`. -/
  prevV : Bool
  deriving DecidableEq, Repr

/-- The arithmetic unit (R53, R54, R55). -/
structure Arith where
  /-- `U.OCC[0..255]`. -/
  occ : Store Word
  /-- `U.CNT[0..256]`. -/
  cnt : Store Word
  /-- `U.CUM[0..257]`. -/
  cum : Store Word
  /-- `U.TOTAL`. -/
  total : Word
  /-- `U.LOW`. -/
  low : Word
  /-- `U.HIGH`. -/
  high : Word
  /-- `U.PENDING`. -/
  pending : BitVec 64
  /-- `U.VALUE`. -/
  value : Word
  deriving DecidableEq, Repr

/-- One move of an agent (R408 of 70_reset_and_hazards.md). The host's accesses name the width in bits and the byte
offset in the block's region (R92, R95 of 20_memory.md). -/
inductive Move where
  /-- The core takes its step, if it has one (R160). -/
  | core
  /-- The platform drives reset (R390). -/
  | reset
  /-- A host read. -/
  | read (bits off : Nat)
  /-- A host write. -/
  | write (bits off : Nat) (data : Word)
  deriving DecidableEq, Repr

/-- What the last host read returned (the model's own, log 12). -/
inductive BusReply where
  | nothing
  | word (w : Word)
  | byte (b : Byte)
  deriving DecidableEq, Repr

/-- The machine's state. -/
structure State where
  params : Params
  seq : Seq
  ctrl : Ctrl
  status : Status
  err : ErrRegs
  arg : Word
  res : Word
  inLen : Word
  ext : ExtRegs
  origSize : Word
  valid : UnitValid
  writer : Writer
  reader : Reader
  huf : Huffman
  lzwE : LzwEnc
  lzwD : LzwDec
  ari : Arith
  ibuf : Memory
  obuf : Memory
  extbuf : Memory
  draws : Nat
  tape : List Move
  bus : BusReply
  deriving DecidableEq, Repr

/-- Why the machine stops. Only the host's port raises one; no command does. -/
inductive Fault where
  /-- A host access whose width its space does not take (R95). Raised by the host port; safe: the spec refuses the
  access with a bus error, "a model treats it as a fault of the host agent". -/
  | busErrorWidth
  /-- A host access to REGS at an offset that is no multiple of 4 (R95). Raised by the host port; safe, as above. -/
  | busErrorMisaligned
  /-- A host access outside every space's size (R96). Raised by the host port; safe, as above. -/
  | busErrorUnmapped
  deriving DecidableEq, Repr

/-- Why a command has no meaning in the model. -/
inductive Refusal where
  /-- The command has no meaning yet. Raised by `exec`'s arm alone; safe: the machine stops. No arm raises it now. -/
  | notModelled (mnemonic : String)
  deriving DecidableEq, Repr

def State.setSeq (s : State) (v : Seq) : State := { s with seq := v }
def State.setCtrl (s : State) (v : Ctrl) : State := { s with ctrl := v }
def State.setStatus (s : State) (v : Status) : State := { s with status := v }
def State.setErr (s : State) (v : ErrRegs) : State := { s with err := v }
def State.setArg (s : State) (v : Word) : State := { s with arg := v }
def State.setRes (s : State) (v : Word) : State := { s with res := v }
def State.setInLen (s : State) (v : Word) : State := { s with inLen := v }
def State.setExt (s : State) (v : ExtRegs) : State := { s with ext := v }
def State.setOrigSize (s : State) (v : Word) : State := { s with origSize := v }
def State.setValid (s : State) (v : UnitValid) : State := { s with valid := v }
def State.setWriter (s : State) (v : Writer) : State := { s with writer := v }
def State.setReader (s : State) (v : Reader) : State := { s with reader := v }
def State.setHuf (s : State) (v : Huffman) : State := { s with huf := v }
def State.setLzwE (s : State) (v : LzwEnc) : State := { s with lzwE := v }
def State.setLzwD (s : State) (v : LzwDec) : State := { s with lzwD := v }
def State.setAri (s : State) (v : Arith) : State := { s with ari := v }
def State.setIbuf (s : State) (v : Memory) : State := { s with ibuf := v }
def State.setObuf (s : State) (v : Memory) : State := { s with obuf := v }
def State.setExtbuf (s : State) (v : Memory) : State := { s with extbuf := v }
def State.setDraws (s : State) (v : Nat) : State := { s with draws := v }
def State.setTape (s : State) (v : List Move) : State := { s with tape := v }
def State.setBus (s : State) (v : BusReply) : State := { s with bus := v }

/-- The reset column of R32 and the reset values of R31, R33, R34, R46 to R55, R390. Every RAM and every buffer is
`any`: nothing is listed, and its unwritten contents are drawn afresh under `draw` (R59). -/
def State.resetWith (p : Params) (draw : Nat) (tape : List Move) (bus : BusReply) : State where
  params := p
  seq := { phase := .idle, cmdWord := 0 }
  ctrl := { isbin := false, lzwFixed12 := false, lzwFallbackEn := true, ariLenient := false, irqEn := false }
  status :=
    { done := false, err := false, isbinIn := false, stored := false, lzwEos := false, anomaly := false,
      rdOvr := false, cmdLost := false, wrLost := false }
  err := { code := .noError, cmd := 0, pos := 0 }
  arg := 0
  res := 0
  inLen := 0
  ext := { len := 0, off := 0 }
  origSize := 0
  valid :=
    { freq := false, tree := false, codes := false, lzwE := false, lzwD := false, ariModel := false,
      ariEnc := false, ariDec := false }
  writer := { acc := 0, nbits := 0, outLen := 0 }
  reader := { ptr := 0, bit := 0, fin := 0 }
  huf :=
    { freq := { cells := [], seed := draw }, node := { cells := [], seed := draw },
      nodeWt := { cells := [], seed := draw }, nodeCnt := 0, root := 0, code := { cells := [], seed := draw } }
  lzwE := { dict := { cells := [], seed := draw }, next := 258, width := 9, pat := 0, patV := false }
  lzwD := { dict := { cells := [], seed := draw }, next := 258, prev := 0, prevV := false }
  ari :=
    { occ := { cells := [], seed := draw }, cnt := { cells := [], seed := draw },
      cum := { cells := [], seed := draw }, total := 0, low := 0, high := 0xFFFFFFFF, pending := 0, value := 0 }
  ibuf := { cells := [], seed := draw }
  obuf := { cells := [], seed := draw }
  extbuf := { cells := [], seed := draw }
  draws := draw + 1
  tape := tape
  bus := bus

/-- The parameters of the block `State.reset` describes: the ones the spec's own vectors use (95_test_vectors.md,
Conventions; DESIGN CHOICE, log 3). -/
def Params.standard : Params := { ibufSize := 4096, obufSize := 4096, extMax := 64 }

/-- The machine right after reset: nothing placed, no host move to come (log 2). -/
def State.reset : State := State.resetWith Params.standard 0 [] .nothing

end Sys2Proof.Machine
end

