-- ==== Sys2Proof/Machine/Operands.lean ====
section
/-! DEFINITION. Operand assembly (R121 of 30_encoding.md), the small bit-field helpers the rules share, and the widths
computed from a code counter (R261 of 43_lzw.md). -/

namespace Sys2Proof.Machine

/-- `zext_32` of a 16-bit immediate (R121). -/
def immWord (imm : BitVec 16) : Word := imm.setWidth 32

/-- `zext_32` of a byte (R187). -/
def byteWord (b : Byte) : Word := b.setWidth 32

/-- A bit as a 32-bit value. -/
def bitWord (b : Bool) : Word := if b then 1 else 0

/-- A bool as the byte the containers hold: 0x00 or 0x01 (R128). -/
def boolByte (b : Bool) : Byte := if b then 1 else 0

/-- `ARG[15:0] <- imm`, the high half kept (R162). -/
def withLowHalf (w : Word) (imm : BitVec 16) : Word := w.extractLsb' 16 16 ++ imm

/-- `ARG[31:16] <- imm`, the low half kept (R163). -/
def withHighHalf (w : Word) (imm : BitVec 16) : Word := imm ++ w.extractLsb' 0 16

/-- `{ACC[6:0], b}`: shift left by one, the new bit at bit 0, 8 bits kept (R181). -/
def shiftInByte (acc : Byte) (b : Bool) : Byte := acc.extractLsb' 0 7 ++ BitVec.ofBool b

/-- `(v << 1) | b` in 32 bits (R185). -/
def shiftInWord (v : Word) (b : Bool) : Word := (v <<< 1) ||| bitWord b

/-- Bit `7 - i` of a byte: the bit stream's bit `i` of that byte (R100, R184). -/
def streamBit (b : Byte) (i : Nat) : Bool := b.getLsbD (7 - i)

/-- `(ACC << (8 - NBITS))[7:0]`: the held bits at the top, zeros below (R182). -/
def padByte (acc : Byte) (nbits : Nat) : Byte := acc <<< (8 - nbits)

/-- `min(v + 1, 0xFFFFFFFF)`: a reader pointer saturates (R184, R186). -/
def saturatingSucc (v : Word) : Word := if v = 0xFFFFFFFF then v else v + 1

/-- `WidthFor(x)` (R261). -/
def widthFor (x : Nat) : Nat := if x < 512 then 9 else if x < 1024 then 10 else if x < 2048 then 11 else 12

/-- `EncWidth()` for a next code (R261, R275). -/
def encWidth (fixed12 : Bool) (next : BitVec 13) : Nat := if fixed12 then 12 else widthFor next.toNat

/-- `DWidth()` (R51, R267). -/
def decWidth (fixed12 : Bool) (d : LzwDec) : Nat :=
  if fixed12 then 12 else widthFor (min (d.next.toNat + d.prevV.toNat) Config.codeLimit)

end Sys2Proof.Machine
end

