-- ==== Sys2Proof/Machine/Flags.lean ====
section
/-! DEFINITION. The flag registers: STATUS, CTRL and UNIT_VALID as the words the host sees, write-one-to-clear, the
error codes' numbers, the interrupt output, and the flag updates the commands share (R33 to R38, R45 of 10_state.md,
R360, R369 of 60_exceptions.md). -/

namespace Sys2Proof.Machine

/-- The number of an error code (R360). -/
def ErrCode.number : ErrCode → Nat
  | .noError => 0
  | .emptyInput => 1
  | .corruptTree => 2
  | .corruptStream => 3
  | .ioFailure => 4
  | .invalidContainer => 5
  | .sizeLimit => 6
  | .illegalCommand => 7
  | .stateError => 8

/-- A word from its bits, bit 0 first; the bits above are 0. -/
def wordOfBits : List Bool → Word
  | [] => 0
  | b :: bs => (wordOfBits bs <<< 1) ||| bitWord b

/-- STATUS as the host reads it when IDLE (R34, R35). -/
def statusWord (s : State) : Word :=
  wordOfBits
    [decide (s.seq.phase = .busy), s.status.done, s.status.err, s.status.isbinIn, s.status.stored, s.status.lzwEos,
      s.status.anomaly, s.status.rdOvr, s.status.cmdLost, s.status.wrLost]

/-- A write to STATUS clears each W1C bit written as 1 and changes nothing else (R34). -/
def Status.writeOneToClear (st : Status) (w : Word) : Status :=
  { st with
    done := st.done && !w.getLsbD 1
    anomaly := st.anomaly && !w.getLsbD 6
    rdOvr := st.rdOvr && !w.getLsbD 7
    cmdLost := st.cmdLost && !w.getLsbD 8
    wrLost := st.wrLost && !w.getLsbD 9 }

/-- CTRL as the host reads it (R33). -/
def ctrlWord (c : Ctrl) : Word := wordOfBits [c.isbin, c.lzwFixed12, c.lzwFallbackEn, c.ariLenient, c.irqEn]

/-- A write to CTRL: bits [31:5] are ignored (R33). -/
def ctrlOfWord (w : Word) : Ctrl :=
  { isbin := w.getLsbD 0, lzwFixed12 := w.getLsbD 1, lzwFallbackEn := w.getLsbD 2, ariLenient := w.getLsbD 3,
    irqEn := w.getLsbD 4 }

/-- UNIT_VALID as the host reads it (R45). -/
def validWord (v : UnitValid) : Word :=
  wordOfBits [v.freq, v.tree, v.codes, v.lzwE, v.lzwD, v.ariModel, v.ariEnc, v.ariDec]

/-- `UNIT_VALID = 0`. -/
def UnitValid.cleared : UnitValid :=
  { freq := false, tree := false, codes := false, lzwE := false, lzwD := false, ariModel := false, ariEnc := false,
    ariDec := false }

/-- The interrupt output `IRQ = STATUS.DONE and CTRL.IRQ_EN` (R369). -/
def irq (s : State) : Bool := s.status.done && s.ctrl.irqEn

/-- `STATUS.RD_OVR <- b` (R183, R184). -/
def State.setRdOvr (s : State) (b : Bool) : State := s.setStatus { s.status with rdOvr := b }

/-- `STATUS.ANOMALY <- 1` (R319). -/
def State.flagAnomaly (s : State) : State := s.setStatus { s.status with anomaly := true }

/-- `STATUS.LZW_EOS <- b` (R266, R274). -/
def State.setLzwEos (s : State) (b : Bool) : State := s.setStatus { s.status with lzwEos := b }

/-- `STATUS.STORED <- b` (R277, R278). -/
def State.setStored (s : State) (b : Bool) : State := s.setStatus { s.status with stored := b }

/-- `STATUS.ISBIN_IN <- b` (R222, R324). -/
def State.setIsbinIn (s : State) (b : Bool) : State := s.setStatus { s.status with isbinIn := b }

/-- HUF_FREQ's flags: FREQ_V set, TREE_V and CODES_V cleared (R210). -/
def UnitValid.afterFreq (v : UnitValid) : UnitValid := { v with freq := true, tree := false, codes := false }

/-- HUF_TREE's flags: TREE_V set, CODES_V cleared (R211). -/
def UnitValid.afterTree (v : UnitValid) : UnitValid := { v with tree := true, codes := false }

/-- HUF_DESTREE's flags: TREE_V set, FREQ_V and CODES_V cleared (R215). -/
def UnitValid.afterDestree (v : UnitValid) : UnitValid := { v with tree := true, freq := false, codes := false }

/-- The flags of ARI_MODEL and ARI_RDTBL: a new model ends both sessions (R312, R322). -/
def UnitValid.afterModel (v : UnitValid) : UnitValid := { v with ariModel := true, ariEnc := false, ariDec := false }

/-- ARI_ENC_INIT's flags (R314). -/
def UnitValid.afterEncInit (v : UnitValid) : UnitValid := { v with ariEnc := true, ariDec := false }

/-- ARI_DEC_INIT's flags (R318). -/
def UnitValid.afterDecInit (v : UnitValid) : UnitValid := { v with ariDec := true, ariEnc := false }

end Sys2Proof.Machine
end

