-- ==== Sys2Proof/Machine/Ops.lean ====
section
/-! DEFINITION. The shared operations: stores (buffers and unit RAMs), free values, how a command runs and raises, the
error completion and the return from it, the completion of a command, the bit writer and the bit reader. -/

namespace Sys2Proof.Machine

open Sys2Proof.Config (Open freeValue)

/-! ### Stores -/

/-- The word at index `i`, if one has been written. -/
def cellAt {α : Type} : List (Nat × α) → Nat → Option α
  | [], _ => none
  | (k, v) :: rest, i => if k = i then some v else cellAt rest i

/-- Write index `i`, keeping the indices rising. -/
def putCell {α : Type} : List (Nat × α) → Nat → α → List (Nat × α)
  | [], i, v => [(i, v)]
  | (k, w) :: rest, i, v =>
    if i < k then (i, v) :: (k, w) :: rest
    else if i = k then (i, v) :: rest
    else (k, w) :: putCell rest i v

/-- What the store holds at `i`, if anything has been written there. -/
def Store.written {α : Type} (st : Store α) (i : Nat) : Option α := cellAt st.cells i

/-- Read index `i`: the written word, else the free value of the store's draw (R59; log 5, log 6). This is the ONE
place where an unwritten word gets what it reads as. -/
def Store.read {α : Type} (unwritten : Nat → Nat → α) (st : Store α) (i : Nat) : α :=
  (st.written i).getD (unwritten st.seed i)

/-- Write index `i`. -/
def Store.put {α : Type} (st : Store α) (i : Nat) (v : α) : Store α := { st with cells := putCell st.cells i v }

/-- Write `v` to every index below `n`, the RAM's size. -/
def Store.fill {α : Type} (st : Store α) (n : Nat) (v : α) : Store α :=
  { st with cells := (List.range n).map fun i => (i, v) }

/-- Write the words of `l` to indices 0, 1, ...; `l` is as long as the RAM. -/
def Store.load {α : Type} (st : Store α) (l : List α) : Store α :=
  { st with cells := (l.zipIdx).map fun p => (p.2, p.1) }

/-- Contents that are `any` throughout, drawn under `seed`. -/
def Store.any {α : Type} (seed : Nat) : Store α := { cells := [], seed := seed }

/-- Keep the words below `n`; the rest become `any`, drawn under `seed`. -/
def Store.keepBelow {α : Type} (st : Store α) (n seed : Nat) : Store α :=
  { cells := st.cells.filter fun c => decide (c.1 < n), seed := seed }

/-- The canonical form: the listed indices strictly rise. -/
abbrev Store.wf {α : Type} (st : Store α) : Prop := (st.cells.map Prod.fst).Pairwise (· < ·)

/-- The canonical form of a buffer (see `Store.wf`): an unlisted byte has no value of its own, so no entry repeats it. -/
abbrev Memory.wf (m : Memory) : Prop := Store.wf m

/-! ### What unwritten words read as (R59) -/

/-- An unwritten byte of a buffer. -/
def unwrittenByte (what : Open) (seed i : Nat) : Byte := freeValue what seed i 8

/-- An unwritten 32-bit RAM word. -/
def unwrittenWord (what : Open) (seed i : Nat) : Word := freeValue what seed i 32

/-- An unwritten node. -/
def unwrittenNode (seed i : Nat) : Node :=
  if freeValue .nodeKind seed i 1 = 0 then .leaf (freeValue .nodeVal seed i 8)
  else .internal (freeValue .nodeLeft seed i 9) (freeValue .nodeRight seed i 9)

/-- An unwritten code: a free length up to 255 and free bits (R48). -/
def unwrittenCode (seed i : Nat) : List Bool :=
  (List.range (freeValue .codeLen seed i 8).toNat).map fun j => decide (freeValue .codeBit seed (256 * i + j) 1 = 1)

/-- An unwritten entry of the encoder's dictionary. -/
def unwrittenEncEntry (seed i : Nat) : DictEntry :=
  { pre := freeValue .encPrefix seed i 12, suf := freeValue .encSuffix seed i 8 }

/-- An unwritten entry of the decoder's dictionary. -/
def unwrittenDecEntry (seed i : Nat) : DictEntry :=
  { pre := freeValue .decPrefix seed i 12, suf := freeValue .decSuffix seed i 8 }

/-- `MemRead(IBUF, a, 1)` (R98). -/
def State.ibufByte (s : State) (a : Nat) : Byte := s.ibuf.read (unwrittenByte .ibuf) a

/-- A byte of OBUF as the host reads it. -/
def State.obufByte (s : State) (a : Nat) : Byte := s.obuf.read (unwrittenByte .obuf) a

/-- `MemRead(EXTBUF, a, 1)` (R98). -/
def State.extbufByte (s : State) (a : Nat) : Byte := s.extbuf.read (unwrittenByte .extbuf) a

/-- The bytes `IBUF[from], ..., IBUF[from + n - 1]`. -/
def State.ibufBytes (s : State) (start n : Nat) : List Byte := (List.range n).map fun i => s.ibufByte (start + i)

/-- The input of a compress command, `IBUF[0 .. IN_LEN-1]` (R41, R91). -/
def State.input (s : State) : List Byte := s.ibufBytes 0 s.inLen.toNat

/-- The extension string of a compress command, `EXTBUF[0 .. EXT_LEN-1]` (R94). -/
def State.extension (s : State) : List Byte := (List.range s.ext.len.toNat).map fun i => s.extbufByte i

/-! ### How a command runs -/

/-- A command's pseudocode: it ends normally, or in `raise Err(code)` with the state it had reached (R12, R161). -/
abbrev Cmd (α : Type) := EStateM ErrCode State α

/-- `raise Err(e)` (R12). -/
def raise {α : Type} (e : ErrCode) : Cmd α := throw e

/-- `if p: raise Err(e)`. -/
def raiseIf (p : Prop) [Decidable p] (e : ErrCode) : Cmd Unit := if p then raise e else pure ()

/-- "Needs X": STATE_ERROR if the valid bit is 0, before anything else (R45, R367). -/
def need (bit : UnitValid → Bool) : Cmd Unit := do
  let s ← get
  raiseIf (bit s.valid = false) .stateError

/-- `for each x of l, first to last: body x`. -/
def forEach {α : Type} : List α → (α → Cmd Unit) → Cmd Unit
  | [], _ => pure ()
  | x :: xs, body => do
    body x
    forEach xs body

/-- `repeat n times: body`. -/
def repeatN : Nat → Cmd Unit → Cmd Unit
  | 0, _ => pure ()
  | n + 1, body => do
    body
    repeatN n body

/-! ### The error completion, the return from it, and the completion of a command -/

/-- The error completion (R366), on the state the command had reached at the `raise`: the machine's whole exception
entry (R370). RES and every byte of OBUF become free values (V4; log 9). -/
def takeError (e : ErrCode) (s : State) : State :=
  { s with
    status := { s.status with err := true }
    err := { code := e, cmd := s.seq.cmdWord, pos := s.reader.ptr }
    writer := { acc := 0, nbits := 0, outLen := 0 }
    valid := UnitValid.cleared
    res := freeValue .res s.draws 0 32
    obuf := Store.any s.draws
    draws := s.draws + 1 }

/-- The return from an error, CLR_ERR's effect (R164, R370): ERR and the error registers, nothing else. -/
def acknowledgeError (s : State) : State :=
  (s.setStatus { s.status with err := false }).setErr { code := .noError, cmd := 0, pos := 0 }

/-- The completion of every command (R161, R35): IDLE and DONE. OBUF at and above OUT_LEN then holds `any` (R93, V3;
log 7). -/
def complete (s : State) : State :=
  (((s.setSeq { s.seq with phase := .idle }).setStatus { s.status with done := true }).setObuf
    (s.obuf.keepBelow s.writer.outLen.toNat s.draws)).setDraws (s.draws + 1)

/-- A command's outcome: a raise ends in the error completion, a next state of the machine (R161, R366). -/
def runCmd (c : Cmd Unit) (s : State) : Host.Outcome State Fault Refusal :=
  match c.run s with
  | .ok _ t => .next t
  | .error e t => .next (takeError e t)

/-! ### The bit writer (R46, R181, R182, R187) -/

/-- `PutByte(b)` (R181). -/
def putByte (b : Byte) : Cmd Unit := do
  let s ← get
  raiseIf (s.writer.outLen.toNat = s.params.obufSize) .ioFailure
  set ((s.setObuf (s.obuf.put s.writer.outLen.toNat b)).setWriter
    { s.writer with outLen := s.writer.outLen + 1 })

/-- One pass of `WriteBits` (R181). NBITS never holds 8: the eighth bit's byte goes out at once (log 21). -/
def writeBit (b : Bool) : Cmd Unit := do
  let s ← get
  let acc := shiftInByte s.writer.acc b
  if s.writer.nbits.toNat + 1 = 8 then do
    putByte acc
    modify fun t => t.setWriter { t.writer with acc := 0, nbits := 0 }
  else
    set (s.setWriter { s.writer with acc := acc, nbits := s.writer.nbits + 1 })

/-- `WriteBits(v, n)` (R181): the low `n` bits of `v`, most significant first. -/
def writeBits (v : Word) : Nat → Cmd Unit
  | 0 => pure ()
  | n + 1 => do
    writeBit (v.getLsbD n)
    writeBits v n

/-- The bits of a code string, first bit first: `WriteBits(STR[j], 1)` for each (R216). -/
def writeBitString (l : List Bool) : Cmd Unit := forEach l writeBit

/-- `FlushBits()` (R182). -/
def flushBits : Cmd Unit := do
  let s ← get
  if s.writer.nbits = 0 then pure ()
  else do
    putByte (padByte s.writer.acc s.writer.nbits.toNat)
    modify fun t => t.setWriter { t.writer with acc := 0, nbits := 0 }

/-- `EmitByte(b)` (R187). -/
def emitByte (b : Byte) : Cmd Unit := writeBits (byteWord b) 8

/-- BS_WINIT's effect, also the start of every whole-buffer command (R180, R168). -/
def startWriter (s : State) : State := s.setWriter { acc := 0, nbits := 0, outLen := 0 }

/-! ### The bit reader (R47, R184, R185, R186) -/

/-- The reader one bit further on (R184). -/
def Reader.nextBit (r : Reader) : Reader :=
  if r.bit.toNat + 1 = 8 then { r with bit := 0, ptr := saturatingSucc r.ptr } else { r with bit := r.bit + 1 }

/-- `ReadBit()` (R184). -/
def readBit : Cmd Bool := do
  let s ← get
  if s.reader.ptr.toNat < s.reader.fin.toNat then do
    set (s.setReader s.reader.nextBit)
    pure (streamBit (s.ibufByte s.reader.ptr.toNat) s.reader.bit.toNat)
  else do
    set ((s.setReader s.reader.nextBit).setRdOvr true)
    pure false

/-- The loop of `ReadBits` (R185), from the value read so far. -/
def readBitsFrom : Nat → Word → Cmd Word
  | 0, v => pure v
  | n + 1, v => do
    let b ← readBit
    readBitsFrom n (shiftInWord v b)

/-- `ReadBits(n)` (R185). -/
def readBits (n : Nat) : Cmd Word := readBitsFrom n 0

/-- `AlignRead()` (R186). -/
def Reader.aligned (r : Reader) : Reader := if r.bit = 0 then r else { r with bit := 0, ptr := saturatingSucc r.ptr }

/-- `AlignRead()` (R186). -/
def alignRead : Cmd Unit := modify fun s => s.setReader s.reader.aligned

/-- The start of every whole-buffer decompress (R168): the reader at offset 0, its end at IN_LEN, RD_OVR cleared. -/
def startReader (s : State) : State := (s.setReader { ptr := 0, bit := 0, fin := s.inLen }).setRdOvr false

/-! ### The frame of the commands that use the whole input (R166, R168) -/

/-- `CheckIn()` (R166). -/
def checkIn : Cmd Unit := do
  let s ← get
  raiseIf (s.inLen.toNat > s.params.ibufSize) .ioFailure

/-- `CheckExt()` (R166). -/
def checkExt : Cmd Unit := do
  let s ← get
  raiseIf (s.ext.len.toNat > s.params.extMax) .ioFailure

/-- A code below `next` that has a string, from a free value: 256 and 257 have none (R52, R56). -/
def freeCodeBelow (next p : Nat) : Nat := if p % next = 256 ∨ p % next = 257 then p % next - 256 else p % next

/-- A free next code in 258..4096 (R50, R51, R56). -/
def freeNextCode (v : BitVec 13) : BitVec 13 := BitVec.ofNat 13 (258 + v.toNat % 3839)

/-- The Huffman unit with every RAM and register `any` (V5; log 8). -/
def Huffman.discarded (draw : Nat) : Huffman where
  freq := Store.any draw
  node := Store.any draw
  nodeWt := Store.any draw
  nodeCnt := BitVec.ofNat 10 ((freeValue .nodeCnt draw 0 10).toNat % 512)
  root := BitVec.ofNat 9 ((freeValue .root draw 0 9).toNat % 511)
  code := Store.any draw

/-- `U.E_PAT`, `any` within R56: a code that stands for a string where `U.E_PATV = 1`, all 12 bits open where it is 0. -/
def freePattern (next : BitVec 13) (patV : Bool) (v : BitVec 12) : BitVec 12 :=
  if patV then BitVec.ofNat 12 (freeCodeBelow next.toNat v.toNat) else v

/-- The LZW encoder with everything `any` within R56 (V5; log 8). -/
def LzwEnc.discarded (draw : Nat) : LzwEnc :=
  let next := freeNextCode (freeValue .encNext draw 0 13)
  let patV := decide (freeValue .encPatV draw 0 1 = 1)
  { dict := Store.any draw
    next := next
    width := BitVec.ofNat 4 (encWidth (decide (freeValue .encWidth draw 0 1 = 1)) next)
    pat := freePattern next patV (freeValue .encPat draw 0 12)
    patV := patV }

/-- The LZW decoder with everything `any`: R56 bounds D_NEXT alone, so D_PREV may be any of its 12-bit values (V5;
log 8). -/
def LzwDec.discarded (draw : Nat) : LzwDec where
  dict := Store.any draw
  next := freeNextCode (freeValue .decNext draw 0 13)
  prev := freeValue .decPrev draw 0 12
  prevV := decide (freeValue .decPrevV draw 0 1 = 1)

/-- The arithmetic unit with everything `any` (V5; log 8). -/
def Arith.discarded (draw : Nat) : Arith where
  occ := Store.any draw
  cnt := Store.any draw
  cum := Store.any draw
  total := freeValue .total draw 0 32
  low := freeValue .low draw 0 32
  high := freeValue .high draw 0 32
  pending := freeValue .pending draw 0 64
  value := freeValue .value draw 0 32

/-- The reader with everything `any`, its end at most IBUF_SIZE as R184 says it always is (V5, V6; log 8). -/
def Reader.discarded (ibufSize draw : Nat) : Reader where
  ptr := freeValue .rdPtr draw 0 32
  bit := freeValue .rdBit draw 0 3
  fin := BitVec.ofNat 32 ((freeValue .rdEnd draw 0 32).toNat % (ibufSize + 1))

/-- The end of a successful whole-buffer command (R45, R168): `UNIT_VALID <- 0`, and the unit state and the observation
registers are left `any`. The writer, the buffers and every other register stay. -/
def endCall (s : State) : State :=
  { s with
    valid := UnitValid.cleared
    reader := Reader.discarded s.params.ibufSize s.draws
    huf := Huffman.discarded s.draws
    lzwE := LzwEnc.discarded s.draws
    lzwD := LzwDec.discarded s.draws
    ari := Arith.discarded s.draws
    draws := s.draws + 1 }

end Sys2Proof.Machine
end

