-- ==== Sys2Proof/Machine/Arithmetic.lean ====
section
/-! DEFINITION. The arithmetic (range) coder unit (44_arithmetic.md; 10_state.md R53, R54, R55). Every intermediate is
an exact natural number (R11, R311); it is narrowed where it is stored. -/

namespace Sys2Proof.Machine

/-! ### The model (R310) -/

/-- `U.OCC[i]`. -/
def Arith.occAt (a : Arith) (i : Nat) : Word := a.occ.read (unwrittenWord .occ) i

/-- `U.CNT[i]`. -/
def Arith.cntAt (a : Arith) (i : Nat) : Word := a.cnt.read (unwrittenWord .cnt) i

/-- `U.CUM[i]`. -/
def Arith.cumAt (a : Arith) (i : Nat) : Word := a.cum.read (unwrittenWord .cum) i

/-- The counts of BuildModel: `1 + OCC[s]` for a byte, 1 for EOF (R310). -/
def Arith.modelCounts (a : Arith) : List Nat := ((List.range 256).map fun i => 1 + (a.occAt i).toNat) ++ [1]

/-- The running sums `acc, acc + l[0], acc + l[0] + l[1], ...` (R310). -/
def runningSums (acc : Nat) : List Nat → List Nat
  | [] => [acc]
  | x :: xs => acc :: runningSums (acc + x) xs

/-- `BuildModel()` (R310). -/
def Arith.buildModel (a : Arith) : Arith :=
  { a with
    cnt := a.cnt.load (a.modelCounts.map (BitVec.ofNat 32))
    cum := a.cum.load ((runningSums 0 a.modelCounts).map (BitVec.ofNat 32))
    total := BitVec.ofNat 32 a.modelCounts.sum }

/-- `U.OCC[b] <- U.OCC[b] + 1` for each input byte (R312). -/
def countOccurrences (occ : Store Word) : List Byte → Store Word
  | [] => occ
  | b :: bs => countOccurrences (occ.put b.toNat (occ.read (unwrittenWord .occ) b.toNat + 1)) bs

/-- ARI_MODEL's counting and BuildModel (R312). -/
def fillModel (s : State) : State :=
  s.setAri ({ s.ari with occ := countOccurrences (s.ari.occ.fill 256 0) s.input } : Arith).buildModel

/-- ARI_MODEL's pseudocode (R312). -/
def ariModel : Cmd Unit := do
  checkIn
  let s ← get
  raiseIf (s.inLen.toNat > Config.ariMax) .sizeLimit
  set ((fillModel s).setValid s.valid.afterModel)

/-- ARI_MODEL (R312). -/
def execAriModel (s : State) : Host.Outcome State Fault Refusal := runCmd ariModel s

/-- The byte values that occur, in increasing order (R134). -/
def Arith.observed (a : Arith) : List Nat := (List.range 256).filter fun i => decide (a.occAt i ≠ 0)

/-- ARI_WRTBL's table (R313). -/
def writeTable (a : Arith) : Cmd Unit := do
  writeBits (BitVec.ofNat 32 a.observed.length) 16
  forEach a.observed fun i => do
    writeBits (BitVec.ofNat 32 i) 8
    writeBits (a.occAt i) 32

/-- ARI_WRTBL's pseudocode (R313). -/
def ariWrtbl : Cmd Unit := do
  need (·.ariModel)
  let s ← get
  writeTable s.ari

/-- ARI_WRTBL (R313). -/
def execAriWrtbl (s : State) : Host.Outcome State Fault Refusal := runCmd ariWrtbl s

/-- The loop of `ReadEntries` (R322): `k` entries more, symbols at or above `least` only, the sum so far. -/
def readEntriesFrom : Nat → Nat → Nat → Cmd Nat
  | 0, _, sum => pure sum
  | k + 1, least, sum => do
    let sym ← readBits 8
    let v ← readBits 32
    raiseIf (sym.toNat < least ∨ v = 0) .invalidContainer
    modify fun s => s.setAri { s.ari with occ := s.ari.occ.put sym.toNat v }
    readEntriesFrom k (sym.toNat + 1) (sum + v.toNat)

/-- `ReadEntries(k)` (R322): the sum of the counts. -/
def readEntries (k : Nat) : Cmd Nat := do
  modify fun s => s.setAri { s.ari with occ := s.ari.occ.fill 256 0 }
  let sum ← readEntriesFrom k 0 0
  raiseIf (sum > Config.ariMax) .invalidContainer
  pure sum

/-- ARI_RDTBL's pseudocode (R322). -/
def ariRdtbl : Cmd Unit := do
  let k ← readBits 16
  raiseIf (k.toNat > 256) .invalidContainer
  let _ ← readEntries k.toNat
  modify fun s => (s.setAri s.ari.buildModel).setValid s.valid.afterModel

/-- ARI_RDTBL (R322). -/
def execAriRdtbl (s : State) : Host.Outcome State Fault Refusal := runCmd ariRdtbl s

/-! ### Interval arithmetic (R311, R315, R319, R320) -/

/-- `rng = HIGH - LOW + 1` (R311). -/
def Arith.rng (a : Arith) : Nat := a.high.toNat - a.low.toNat + 1

/-- `Narrow(s)` (R311). -/
def Arith.narrow (a : Arith) (sym : Nat) : Arith :=
  { a with
    low := BitVec.ofNat 32 (a.low.toNat + a.rng * (a.cumAt sym).toNat / a.total.toNat)
    high := BitVec.ofNat 32 (a.low.toNat + a.rng * (a.cumAt (sym + 1)).toNat / a.total.toNat - 1) }

/-- The three rescale cases of R315 and the end of the loop. -/
inductive Rescale where
  | e1
  | e2
  | e3
  | stop
  deriving DecidableEq, Repr

/-- Which case applies, tested in R315's order. -/
def rescaleCase (low high : Nat) : Rescale :=
  if high < Config.half then .e1
  else if low ≥ Config.half then .e2
  else if low ≥ Config.quarter ∧ high < Config.threeQuarter then .e3
  else .stop

/-- What a case subtracts before it doubles (R315, R320). -/
def Rescale.offset : Rescale → Nat
  | .e1 => 0
  | .e2 => Config.half
  | .e3 => Config.quarter
  | .stop => 0

/-- `LOW <- 2 * (LOW - offset)`, `HIGH <- 2 * (HIGH - offset) + 1` (R315, R320). -/
def Arith.doubled (a : Arith) (c : Rescale) : Arith :=
  { a with
    low := BitVec.ofNat 32 (2 * (a.low.toNat - c.offset))
    high := BitVec.ofNat 32 (2 * (a.high.toNat - c.offset) + 1) }

/-- `VALUE <- 2 * (VALUE - offset) + bit` (R320). -/
def Arith.shiftedValue (a : Arith) (c : Rescale) (b : Bool) : Word :=
  BitVec.ofNat 32 (2 * (a.value.toNat - c.offset) + b.toNat)

/-- `OutputBit(b)` (R315). -/
def outputBit (b : Bool) : Cmd Unit := do
  let s ← get
  writeBit b
  repeatN s.ari.pending.toNat (writeBit (!b))
  modify fun t => t.setAri { t.ari with pending := 0 }

/-- `EncRescale()` (R315), at most `passes` passes; 32 always suffice (R315; log 17). -/
def encRescale : Nat → Cmd Unit
  | 0 => pure ()
  | passes + 1 => do
    let s ← get
    match rescaleCase s.ari.low.toNat s.ari.high.toNat with
    | .e1 => do
      outputBit false
      modify fun t => t.setAri (t.ari.doubled .e1)
      encRescale passes
    | .e2 => do
      outputBit true
      modify fun t => t.setAri (t.ari.doubled .e2)
      encRescale passes
    | .e3 => do
      set (s.setAri (Arith.doubled { s.ari with pending := s.ari.pending + 1 } .e3))
      encRescale passes
    | .stop => pure ()

/-- At most 32 passes for one symbol (R315). -/
def rescalePasses : Nat := 32

/-- `Narrow(s); EncRescale()` (R316). -/
def encodeSymbol (sym : Nat) : Cmd Unit := do
  modify fun s => s.setAri (s.ari.narrow sym)
  encRescale rescalePasses

/-- The symbol whose count interval holds `scaled` (R319). -/
def Arith.symbolAt (a : Arith) (scaled : Nat) : Option Nat :=
  (List.range 257).find? fun i => decide ((a.cumAt i).toNat ≤ scaled) && decide (scaled < (a.cumAt (i + 1)).toNat)

/-- `scaled` of R319. -/
def Arith.scaled (a : Arith) : Nat :=
  ((a.value.toNat - a.low.toNat + 1) * a.total.toNat - 1) / a.rng

/-- The search of R319 where VALUE is within the bounds. -/
def Arith.find (a : Arith) : Option Nat :=
  if a.value.toNat < a.low.toNat ∨ a.value.toNat > a.high.toNat then none else a.symbolAt a.scaled

/-- `Lookup()` (R319). A miss, which no run reaches, raises CORRUPT_STREAM, or with ARI_LENIENT gives symbol 0 and sets
ANOMALY (log 16). -/
def lookup : Cmd Nat := do
  let s ← get
  match s.ari.find with
  | some sym => pure sym
  | none =>
    if s.ctrl.ariLenient then do
      set s.flagAnomaly
      pure 0
    else raise .corruptStream

/-- `DecRescale()` (R320), at most `passes` passes (log 17). -/
def decRescale : Nat → Cmd Unit
  | 0 => pure ()
  | passes + 1 => do
    let s ← get
    let c := rescaleCase s.ari.low.toNat s.ari.high.toNat
    if c = .stop then pure ()
    else do
      let b ← readBit
      modify fun t => t.setAri { t.ari.doubled c with value := t.ari.shiftedValue c b }
      decRescale passes

/-- `Narrow(s); DecRescale()` (R321). -/
def consumeSymbol (sym : Nat) : Cmd Unit := do
  modify fun s => s.setAri (s.ari.narrow sym)
  decRescale rescalePasses

/-! ### Range encoder commands (R314, R316, R317) -/

/-- `LOW <- 0; HIGH <- 0xFFFFFFFF` (R314, R318). -/
def Arith.fullRange (a : Arith) : Arith := { a with low := 0, high := 0xFFFFFFFF }

/-- ARI_ENC_INIT's effect on the unit (R314). -/
def startRangeEncoder (s : State) : State := s.setAri { s.ari.fullRange with pending := 0 }

/-- ARI_ENC_INIT (R314). -/
def execAriEncInit (s : State) : Host.Outcome State Fault Refusal :=
  .next ((startRangeEncoder s).setValid s.valid.afterEncInit)

/-- ARI_ENC_SYM's pseudocode (R316). -/
def ariEncSym (sym : Nat) : Cmd Unit := do
  need (·.ariModel)
  need (·.ariEnc)
  encodeSymbol sym

/-- ARI_ENC_SYM (R316). -/
def execAriEncSym (sym : BitVec 9) (s : State) : Host.Outcome State Fault Refusal := runCmd (ariEncSym sym.toNat) s

/-- ARI_ENC_FLUSH's bits (R317). -/
def flushRangeEncoder : Cmd Unit := do
  modify fun s => s.setAri { s.ari with pending := s.ari.pending + 1 }
  let s ← get
  outputBit (decide (s.ari.low.toNat ≥ Config.quarter))

/-- ARI_ENC_FLUSH's pseudocode (R317). -/
def ariEncFlush : Cmd Unit := do
  need (·.ariEnc)
  flushRangeEncoder
  modify fun s => s.setValid { s.valid with ariEnc := false }

/-- ARI_ENC_FLUSH (R317). -/
def execAriEncFlush (s : State) : Host.Outcome State Fault Refusal := runCmd ariEncFlush s

/-! ### Range decoder commands (R318, R321) -/

/-- ARI_DEC_INIT's effect on the unit (R318). -/
def startRangeDecoder : Cmd Unit := do
  modify fun s => s.setAri s.ari.fullRange
  let v ← readBits 32
  modify fun s => s.setAri { s.ari with value := v }

/-- ARI_DEC_INIT's pseudocode (R318). -/
def ariDecInit : Cmd Unit := do
  startRangeDecoder
  modify fun s => s.setValid s.valid.afterDecInit

/-- ARI_DEC_INIT (R318). -/
def execAriDecInit (s : State) : Host.Outcome State Fault Refusal := runCmd ariDecInit s

/-- What follows the lookup in ARI_DEC_SYM: EOF ends the session (R321). -/
def afterLookup (sym : Nat) : Cmd Unit :=
  if sym = Config.eofSymbol then modify fun s => s.setValid { s.valid with ariDec := false }
  else consumeSymbol sym

/-- ARI_DEC_SYM's pseudocode (R321). -/
def ariDecSym : Cmd Unit := do
  need (·.ariModel)
  need (·.ariDec)
  let sym ← lookup
  modify fun s => s.setRes (BitVec.ofNat 32 sym)
  afterLookup sym

/-- ARI_DEC_SYM (R321). -/
def execAriDecSym (s : State) : Host.Outcome State Fault Refusal := runCmd ariDecSym s

/-! ### Whole-buffer commands (R323, R324) -/

/-- ARI_COMPRESS's pseudocode (R323). -/
def ariCompress : Cmd Unit := do
  checkIn
  checkExt
  modify fun s => (startWriter s).setOrigSize s.inLen
  let s ← get
  raiseIf (s.inLen.toNat > Config.ariMax) .sizeLimit
  emitByte (boolByte s.ctrl.isbin)
  writeBits (immWord s.ext.len) 16
  forEach s.extension emitByte
  writeBits s.inLen 32
  modify fillModel
  let u ← get
  writeTable u.ari
  modify startRangeEncoder
  forEach s.input fun b => encodeSymbol b.toNat
  encodeSymbol Config.eofSymbol
  flushRangeEncoder
  flushBits
  modify endCall

/-- ARI_COMPRESS (R323). -/
def execAriCompress (s : State) : Host.Outcome State Fault Refusal := runCmd ariCompress s

/-- One symbol of ARI_DECOMPRESS's loop (R324). -/
def decompressSymbol : Cmd Unit := do
  let sym ← lookup
  raiseIf (sym = Config.eofSymbol) .corruptStream
  consumeSymbol sym
  emitByte (BitVec.ofNat 8 sym)

/-- The header of ARI_DECOMPRESS (R324): originalSize and the entry count, the extension located. -/
def ariReadHeader (len : Nat) : Cmd (Word × Word) := do
  raiseIf (len < 3) .invalidContainer
  let f ← readBits 8
  modify fun u => u.setIsbinIn (decide (f ≠ 0))
  let l ← readBits 16
  raiseIf (len < l.toNat + 9) .invalidContainer
  modify fun u =>
    (u.setExt { len := l.setWidth 16, off := 3 }).setReader
      { u.reader with ptr := BitVec.ofNat 32 (3 + l.toNat) }
  let n ← readBits 32
  modify fun u => u.setOrigSize n
  let k ← readBits 16
  raiseIf (k.toNat > 256 ∨ len < l.toNat + 9 + 5 * k.toNat) .invalidContainer
  pure (n, k)

/-- ARI_DECOMPRESS's pseudocode (R324). -/
def ariDecompress : Cmd Unit := do
  checkIn
  modify fun s => startReader (startWriter s)
  let s ← get
  let h ← ariReadHeader s.inLen.toNat
  let sum ← readEntries h.2.toNat
  raiseIf (sum ≠ h.1.toNat) .invalidContainer
  modify fun u => u.setAri u.ari.buildModel
  startRangeDecoder
  repeatN h.1.toNat decompressSymbol
  modify endCall

/-- ARI_DECOMPRESS (R324). -/
def execAriDecompress (s : State) : Host.Outcome State Fault Refusal := runCmd ariDecompress s

end Sys2Proof.Machine
end

