-- ==== Sys2Proof/Machine/BitStream.lean ====
section
/-! DEFINITION. The bit-stream commands (41_bitstream.md section 1 and 2). -/

namespace Sys2Proof.Machine

/-- BS_WINIT (R180). -/
def execBsWinit (s : State) : Host.Outcome State Fault Refusal := .next (startWriter s)

/-- BS_WRITE (R188): `WriteBits(REG.ARG, CNT)`. -/
def execBsWrite (cnt : BitVec 6) (s : State) : Host.Outcome State Fault Refusal := runCmd (writeBits s.arg cnt.toNat) s

/-- BS_WRITEI (R189): `WriteBits(zext_32(IMM), CNT)`. -/
def execBsWritei (cnt : BitVec 6) (imm : BitVec 16) (s : State) : Host.Outcome State Fault Refusal :=
  runCmd (writeBits (immWord imm) cnt.toNat) s

/-- BS_FLUSH (R190). -/
def execBsFlush (s : State) : Host.Outcome State Fault Refusal := runCmd flushBits s

/-- BS_RINIT's pseudocode (R183). -/
def bsRinit : Cmd Unit := do
  checkIn
  modify fun s => (s.setReader { ptr := s.arg, bit := 0, fin := s.inLen }).setRdOvr false

/-- BS_RINIT (R183). -/
def execBsRinit (s : State) : Host.Outcome State Fault Refusal := runCmd bsRinit s

/-- BS_READ's pseudocode (R191). -/
def bsRead (n : Nat) : Cmd Unit := do
  let v ← readBits n
  modify fun s => s.setRes v

/-- BS_READ (R191). -/
def execBsRead (cnt : BitVec 6) (s : State) : Host.Outcome State Fault Refusal := runCmd (bsRead cnt.toNat) s

/-- BS_ALIGN (R192). -/
def execBsAlign (s : State) : Host.Outcome State Fault Refusal := runCmd alignRead s

end Sys2Proof.Machine
end

