-- ==== Sys2Proof/Machine/Control.lean ====
section
/-! DEFINITION. The control commands (40_control.md section 2). -/

namespace Sys2Proof.Machine

/-- NOP (R165): nothing besides completion. -/
def execNop (s : State) : Host.Outcome State Fault Refusal := .next s

/-- ARG_LO (R162). -/
def execArgLo (imm : BitVec 16) (s : State) : Host.Outcome State Fault Refusal :=
  .next (s.setArg (withLowHalf s.arg imm))

/-- ARG_HI (R163). -/
def execArgHi (imm : BitVec 16) (s : State) : Host.Outcome State Fault Refusal :=
  .next (s.setArg (withHighHalf s.arg imm))

/-- CLR_ERR (R164). -/
def execClrErr (s : State) : Host.Outcome State Fault Refusal := .next (acknowledgeError s)

end Sys2Proof.Machine
end

