-- ==== Sys2Proof/Machine/Huffman.lean ====
section
/-! DEFINITION. The Huffman unit (42_huffman.md; 10_state.md R48, R49). -/

namespace Sys2Proof.Machine

/-! ### Reading the unit's RAMs -/

/-- `U.FREQ[i]`. -/
def Huffman.freqAt (h : Huffman) (i : Nat) : Word := h.freq.read (unwrittenWord .freq) i

/-- `U.NODE[i]`. -/
def Huffman.nodeAt (h : Huffman) (i : Nat) : Node := h.node.read unwrittenNode i

/-- `U.CODE[i].STR`; `U.CODE[i].LEN` is its length. -/
def Huffman.codeAt (h : Huffman) (i : Nat) : List Bool := h.code.read unwrittenCode i

/-! ### The frequency table (R210) -/

/-- `U.FREQ[b] <- U.FREQ[b] + 1` for each input byte. -/
def countBytes (freq : Store Word) : List Byte → Store Word
  | [] => freq
  | b :: bs => countBytes (freq.put b.toNat (freq.read (unwrittenWord .freq) b.toNat + 1)) bs

/-- HUF_FREQ's loops over the table and the input (R210). -/
def fillFreq (s : State) : State :=
  s.setHuf { s.huf with freq := countBytes (s.huf.freq.fill 256 0) s.input }

/-- HUF_FREQ's pseudocode (R210). -/
def hufFreq : Cmd Unit := do
  checkIn
  modify fun s => (fillFreq s).setValid s.valid.afterFreq

/-- HUF_FREQ (R210). -/
def execHufFreq (s : State) : Host.Outcome State Fault Refusal := runCmd hufFreq s

/-! ### The tree builder (R211, R212) -/

/-- A live node of BuildTree: its weight and its index. -/
structure LiveNode where
  wt : Word
  idx : Nat
  deriving DecidableEq, Repr

/-- `(WT, index)` compared lexicographically (R212). -/
def LiveNode.before (a b : LiveNode) : Bool :=
  decide (a.wt.toNat < b.wt.toNat) || (decide (a.wt = b.wt) && decide (a.idx < b.idx))

/-- The least of `a` and the nodes of a list. -/
def leastFrom (a : LiveNode) : List LiveNode → LiveNode
  | [] => a
  | b :: rest => leastFrom (if b.before a then b else a) rest

/-- Remove the least element of the live nodes. -/
def takeLeast : List LiveNode → Option (LiveNode × List LiveNode)
  | [] => none
  | a :: rest => some (leastFrom a rest, (a :: rest).erase (leastFrom a rest))

/-- `U.NODE[i] <- {KIND: LEAF, VAL: s, WT: U.FREQ[s]}`. -/
def Huffman.putLeaf (h : Huffman) (i : Nat) (sym : Nat) : Huffman :=
  { h with node := h.node.put i (.leaf (BitVec.ofNat 8 sym)), nodeWt := h.nodeWt.put i (h.freqAt sym) }

/-- `U.NODE[i] <- {KIND: INTERNAL, LEFT: a, RIGHT: b, WT: wt}`. -/
def Huffman.putInternal (h : Huffman) (i a b : Nat) (wt : Word) : Huffman :=
  { h with node := h.node.put i (.internal (BitVec.ofNat 9 a) (BitVec.ofNat 9 b)), nodeWt := h.nodeWt.put i wt }

/-- The leaves in increasing symbol order, from node index `k` on. -/
def putLeaves (h : Huffman) (k : Nat) : List Nat → Huffman
  | [] => h
  | sym :: rest => putLeaves (h.putLeaf k sym) (k + 1) rest

/-- The live nodes the leaves give, from node index `k` on. -/
def liveLeaves (h : Huffman) (k : Nat) : List Nat → List LiveNode
  | [] => []
  | sym :: rest => { wt := h.freqAt sym, idx := k } :: liveLeaves h (k + 1) rest

/-- The loop of BuildTree: `rounds` more combinations, the next node index `k` (R212). -/
def combineNodes : Nat → List LiveNode → Nat → Huffman → Huffman
  | 0, _, k, h => { h with nodeCnt := BitVec.ofNat 10 k, root := BitVec.ofNat 9 (k - 1) }
  | rounds + 1, live, k, h =>
    match takeLeast live with
    | none => h
    | some (a, live') =>
      match takeLeast live' with
      | none => h
      | some (b, live'') =>
        combineNodes rounds ({ wt := a.wt + b.wt, idx := k } :: live'') (k + 1)
          (h.putInternal k a.idx b.idx (a.wt + b.wt))

/-- The symbols with a non-zero count, in increasing order (R212). -/
def Huffman.symbols (h : Huffman) : List Nat := (List.range 256).filter fun i => decide (h.freqAt i ≠ 0)

/-- BuildTree on a table with at least one symbol (R212): `n` symbols take `n - 1` combinations. -/
def Huffman.build (h : Huffman) : Huffman :=
  combineNodes (h.symbols.length - 1) (liveLeaves h 0 h.symbols) h.symbols.length (putLeaves h 0 h.symbols)

/-- `BuildTree()` (R212). -/
def buildTree : Cmd Unit := do
  let s ← get
  raiseIf (s.huf.symbols = []) .emptyInput
  set (s.setHuf s.huf.build)

/-- HUF_TREE's pseudocode (R211). -/
def hufTree : Cmd Unit := do
  need (·.freq)
  buildTree
  modify fun s => s.setValid s.valid.afterTree

/-- HUF_TREE (R211). -/
def execHufTree (s : State) : Host.Outcome State Fault Refusal := runCmd hufTree s

/-! ### The abstract tree (R49) -/

/-- The tree as an inductive value (R49). -/
inductive HTree where
  | leaf (val : Byte)
  | internal (left right : HTree)
  deriving DecidableEq, Repr

/-- `T(i)` of R49, at most `depth` levels deep: `none` where the walk does not end in leaves within them, which no tree
that BuildTree or Parse makes does (log 14). -/
def abstractTree (nodeAt : Nat → Node) : Nat → Nat → Option HTree
  | 0, _ => none
  | depth + 1, i =>
    match nodeAt i with
    | .leaf v => some (.leaf v)
    | .internal l r =>
      match abstractTree nodeAt depth l.toNat with
      | none => none
      | some tl =>
        match abstractTree nodeAt depth r.toNat with
        | none => none
        | some tr => some (.internal tl tr)

/-- `T(U.ROOT)` (R49): at most 511 nodes, so at most 511 levels. -/
def Huffman.tree (h : Huffman) : Option HTree := abstractTree h.nodeAt Config.nodeLimit h.root.toNat

/-- The tree a command walks. A node store that holds none is met by no run; a walk over it would step outside every
tree, which CU calls CorruptTree (R223, U3 of 93_implementation_defined.md; log 14). -/
def currentTree : Cmd HTree := do
  let s ← get
  match s.huf.tree with
  | some t => pure t
  | none => raise .corruptTree

/-! ### Codes (R213) -/

/-- `Walk(i, p)`: the leaves in pre-order with the path to each (R213). -/
def HTree.paths : HTree → List Bool → List (Byte × List Bool)
  | .leaf v, p => [(v, p)]
  | .internal l r, p => l.paths (p ++ [false]) ++ r.paths (p ++ [true])

/-- The assignments `U.CODE[v] <- p` in their order (R213): a leaf root gets the code "0". -/
def HTree.codes : HTree → List (Byte × List Bool)
  | .leaf v => [(v, [false])]
  | .internal l r => (HTree.internal l r).paths []

/-- Carry out the assignments, a later one over an earlier one (R213). -/
def assignCodes (code : Store (List Bool)) : List (Byte × List Bool) → Store (List Bool)
  | [] => code
  | (v, p) :: rest => assignCodes (code.put v.toNat p) rest

/-- HUF_CODES's walk (R213): every length cleared, then the assignments. -/
def fillCodes (t : HTree) (s : State) : State :=
  s.setHuf { s.huf with code := assignCodes (s.huf.code.fill 256 []) t.codes }

/-- HUF_CODES's pseudocode (R213). -/
def hufCodes : Cmd Unit := do
  need (·.tree)
  let t ← currentTree
  modify fun s => (fillCodes t s).setValid { s.valid with codes := true }

/-- HUF_CODES (R213). -/
def execHufCodes (s : State) : Host.Outcome State Fault Refusal := runCmd hufCodes s

/-! ### Tree serialization (R214, R215) -/

/-- `Ser(i)` (R214). -/
def serTree : HTree → Cmd Unit
  | .leaf v => do
    writeBits 1 1
    writeBits (byteWord v) 8
  | .internal l r => do
    writeBits 0 1
    serTree l
    serTree r

/-- HUF_SERTREE's pseudocode (R214). -/
def hufSertree : Cmd Unit := do
  need (·.tree)
  let t ← currentTree
  serTree t

/-- HUF_SERTREE (R214). -/
def execHufSertree (s : State) : Host.Outcome State Fault Refusal := runCmd hufSertree s

/-- Allocate the next node index, CORRUPT_TREE when the store is full (R215). -/
def allocNode : Cmd Nat := do
  let s ← get
  raiseIf (s.huf.nodeCnt.toNat = Config.nodeLimit) .corruptTree
  set (s.setHuf { s.huf with nodeCnt := s.huf.nodeCnt + 1 })
  pure s.huf.nodeCnt.toNat

/-- `U.NODE[i] <- n` (R215). -/
def putNode (i : Nat) (n : Node) : Cmd Unit := modify fun s => s.setHuf { s.huf with node := s.huf.node.put i n }

/-- `Parse()` (R215). Each level allocates a node, so 512 levels are never passed: the store is full before. -/
def parseTree : Nat → Cmd Nat
  | 0 => raise .corruptTree
  | depth + 1 => do
    let i ← allocNode
    let b ← readBit
    if b then do
      let v ← readBits 8
      putNode i (.leaf (v.setWidth 8))
      pure i
    else do
      let l ← parseTree depth
      let r ← parseTree depth
      putNode i (.internal (BitVec.ofNat 9 l) (BitVec.ofNat 9 r))
      pure i

/-- `U.NODECNT <- 0; U.ROOT <- Parse()` (R215, R222). -/
def parseRoot : Cmd Unit := do
  modify fun s => s.setHuf { s.huf with nodeCnt := 0 }
  let i ← parseTree (Config.nodeLimit + 1)
  modify fun s => s.setHuf { s.huf with root := BitVec.ofNat 9 i }

/-- HUF_DESTREE's pseudocode (R215). -/
def hufDestree : Cmd Unit := do
  parseRoot
  modify fun s => s.setValid s.valid.afterDestree

/-- HUF_DESTREE (R215). -/
def execHufDestree (s : State) : Host.Outcome State Fault Refusal := runCmd hufDestree s

/-! ### Symbols (R216 to R219) -/

/-- HUF_ENCSYM's pseudocode (R216). -/
def hufEncsym (sym : Byte) : Cmd Unit := do
  need (·.codes)
  let s ← get
  raiseIf (s.huf.codeAt sym.toNat = []) .stateError
  writeBitString (s.huf.codeAt sym.toNat)

/-- HUF_ENCSYM (R216). -/
def execHufEncsym (sym : BitVec 8) (s : State) : Host.Outcome State Fault Refusal := runCmd (hufEncsym sym) s

/-- The walk of one symbol from a node down to a leaf, one bit per level: 0 left, 1 right (R217). -/
def walkSymbol : HTree → Cmd Byte
  | .leaf v => pure v
  | .internal l r => do
    let b ← readBit
    if b then walkSymbol r else walkSymbol l

/-- HUF_DECSYM's pseudocode (R217). -/
def hufDecsym : Cmd Unit := do
  need (·.tree)
  let t ← currentTree
  let v ← walkSymbol t
  modify fun s => s.setRes (byteWord v)

/-- HUF_DECSYM (R217). -/
def execHufDecsym (s : State) : Host.Outcome State Fault Refusal := runCmd hufDecsym s

/-- HUF_FREQ_RD's pseudocode (R218). -/
def hufFreqRd (sym : Byte) : Cmd Unit := do
  need (·.freq)
  modify fun s => s.setRes (s.huf.freqAt sym.toNat)

/-- HUF_FREQ_RD (R218). -/
def execHufFreqRd (sym : BitVec 8) (s : State) : Host.Outcome State Fault Refusal := runCmd (hufFreqRd sym) s

/-- HUF_CODELEN's pseudocode (R219). -/
def hufCodelen (sym : Byte) : Cmd Unit := do
  need (·.codes)
  modify fun s => s.setRes (BitVec.ofNat 32 (s.huf.codeAt sym.toNat).length)

/-- HUF_CODELEN (R219). -/
def execHufCodelen (sym : BitVec 8) (s : State) : Host.Outcome State Fault Refusal := runCmd (hufCodelen sym) s

/-! ### Whole-buffer commands (R221, R222) -/

/-- The payload loop of HUF_COMPRESS (R221): the codes of the input bytes, then `(payload bits) mod 8`. -/
def writePayload (h : Huffman) : List Byte → Nat → Cmd Nat
  | [], p => pure p
  | b :: bs, p => do
    writeBitString (h.codeAt b.toNat)
    writePayload h bs ((p + (h.codeAt b.toNat).length) % 8)

/-- The tree and payload of HUF_COMPRESS for a non-empty input (R221). -/
def hufCompressBody : Cmd Unit := do
  modify fillFreq
  buildTree
  let t ← currentTree
  modify (fillCodes t)
  serTree t
  flushBits
  let s ← get
  let p ← writePayload s.huf s.input 0
  flushBits
  emitByte (BitVec.ofNat 8 p)

/-- What follows the header of HUF_COMPRESS: for an empty input the trailing byte alone (R221). -/
def hufCompressRest (n : Word) : Cmd Unit := if n = 0 then emitByte 0 else hufCompressBody

/-- HUF_COMPRESS's pseudocode (R221). -/
def hufCompress : Cmd Unit := do
  checkIn
  modify fun s => (startWriter s).setOrigSize s.inLen
  let s ← get
  emitByte (boolByte s.ctrl.isbin)
  writeBits s.inLen 32
  hufCompressRest s.inLen
  modify endCall

/-- HUF_COMPRESS (R221). -/
def execHufCompress (s : State) : Host.Outcome State Fault Refusal := runCmd hufCompress s

/-- `avail` of R222: the meaningful payload bits of `pl` payload bytes with trailing value `t`. -/
def payloadBits (pl t : Nat) : Nat := if pl = 0 then 0 else 8 * (pl - 1) + (if t = 0 then 8 else t)

/-- The payload loop of HUF_DECOMPRESS under an internal root with children `l0` and `r0` (R222): `avail` bits left, at
the node with children `l` and `r`, `left` bytes still to produce. -/
def decodePayload (l0 r0 : HTree) : Nat → HTree → HTree → Nat → Cmd Unit
  | _, _, _, 0 => pure ()
  | 0, _, _, _ + 1 => raise .corruptStream
  | avail + 1, l, r, left + 1 => do
    let b ← readBit
    match (if b then r else l) with
    | .leaf v => do
      emitByte v
      decodePayload l0 r0 avail l0 r0 left
    | .internal l' r' => decodePayload l0 r0 avail l' r' (left + 1)

/-- The tree and payload of HUF_DECOMPRESS for `n > 0` bytes (R222). -/
def hufDecompressBody (len n : Nat) : Cmd Unit := do
  parseRoot
  alignRead
  let s ← get
  raiseIf (s.reader.ptr.toNat > len - 1) .invalidContainer
  raiseIf ((s.ibufByte (len - 1)).toNat > 7) .invalidContainer
  let t ← currentTree
  match t with
  | .leaf v => repeatN n (emitByte v)
  | .internal l r => do
    modify fun u => u.setReader { u.reader with fin := BitVec.ofNat 32 (len - 1) }
    decodePayload l r (payloadBits (len - 1 - s.reader.ptr.toNat) (s.ibufByte (len - 1)).toNat) l r n

/-- What follows the header of HUF_DECOMPRESS: for an empty output nothing (R222). -/
def hufDecompressRest (len n : Nat) : Cmd Unit := if n = 0 then pure () else hufDecompressBody len n

/-- HUF_DECOMPRESS's pseudocode (R222). -/
def hufDecompress : Cmd Unit := do
  checkIn
  modify fun s => startReader (startWriter s)
  let s ← get
  raiseIf (s.inLen.toNat < 5) .invalidContainer
  let f ← readBits 8
  modify fun u => u.setIsbinIn (decide (f ≠ 0))
  let n ← readBits 32
  modify fun u => u.setOrigSize n
  hufDecompressRest s.inLen.toNat n.toNat
  modify endCall

/-- HUF_DECOMPRESS (R222). -/
def execHufDecompress (s : State) : Host.Outcome State Fault Refusal := runCmd hufDecompress s

end Sys2Proof.Machine
end

