-- ==== Sys2Proof/Machine/Lzw.lean ====
section
/-! DEFINITION. The LZW unit (43_lzw.md; 10_state.md R50, R51, R52). -/

namespace Sys2Proof.Machine

/-! ### Encoder (R261 to R265) -/

/-- An encoder at the start of a session, its width from `EncWidth()` (R262). The entries keep what they held. -/
def LzwEnc.started (e : LzwEnc) (fixed12 : Bool) : LzwEnc :=
  { e with next := 258, width := BitVec.ofNat 4 (encWidth fixed12 258), pat := 0, patV := false }

/-- The first listed code in 258..next-1 whose entry is `(p, c)`. -/
def findEntry (next : Nat) (p : BitVec 12) (c : Byte) : List (Nat × DictEntry) → Option Nat
  | [] => none
  | (x, e) :: rest =>
    if Config.firstCode ≤ x ∧ x < next ∧ e.pre = p ∧ e.suf = c then some x else findEntry next p c rest

/-- `EFind(p, c)` (R263): the code in 258..E_NEXT-1 whose entry is `(p, c)`. Every entry below E_NEXT has been written,
so looking through the written entries finds it. -/
def LzwEnc.find (e : LzwEnc) (p : BitVec 12) (c : Byte) : Option Nat := findEntry e.next.toNat p c e.dict.cells

/-- `U.E_PREFIX[i]`, `U.E_SUFFIX[i]`. -/
def LzwEnc.entryAt (e : LzwEnc) (i : Nat) : DictEntry := e.dict.read unwrittenEncEntry i

/-- What one encoder step writes, in the width current when it is written, and the encoder after it. Every emission of
R264 and R265 comes before every change of the encoder's state, so an IO_FAILURE leaves the encoder as it was. -/
structure EncStep where
  /-- The codes to emit, first to last. -/
  codes : List (BitVec 12)
  /-- The encoder afterwards. -/
  next : LzwEnc
  deriving DecidableEq, Repr

/-- LZW_ENC_BYTE's state machine (R264). -/
def encodeByte (fixed12 : Bool) (e : LzwEnc) (c : Byte) : EncStep :=
  if e.patV = false then { codes := [], next := { e with pat := c.setWidth 12, patV := true } }
  else
    match e.find e.pat c with
    | some x => { codes := [], next := { e with pat := BitVec.ofNat 12 x } }
    | none =>
      if e.next.toNat < Config.codeLimit then
        { codes := [e.pat]
          next :=
            { e with
              dict := e.dict.put e.next.toNat { pre := e.pat, suf := c }
              next := e.next + 1
              width := BitVec.ofNat 4 (encWidth fixed12 (e.next + 1))
              pat := c.setWidth 12 } }
      else
        { codes := [e.pat, BitVec.ofNat 12 Config.clearCode]
          next :=
            { e with next := 258, width := BitVec.ofNat 4 (encWidth fixed12 258), pat := c.setWidth 12 } }

/-- LZW_ENC_END's codes: the remaining pattern, then EOS (R265). -/
def endCodes (e : LzwEnc) : List (BitVec 12) :=
  if e.patV then [e.pat, BitVec.ofNat 12 Config.eosCode] else [BitVec.ofNat 12 Config.eosCode]

/-- The width EmitCode writes a code in: `EncWidth()` under the flag the code's own command reads (R33, R275, R403; 93
H5 `defined per code`). It is U.E_WIDTH (R261) unless LZW_FIXED12 has changed since U.E_WIDTH was set (log 25). -/
def LzwEnc.emitWidth (fixed12 : Bool) (e : LzwEnc) : Nat := encWidth fixed12 e.next

/-- EmitCode for each code, `width` bits each (R261). -/
def emitCodes (width : Nat) (codes : List (BitVec 12)) : Cmd Unit :=
  forEach codes fun x => writeBits (x.setWidth 32) width

/-- LZW_ENC_RESET's effect on the encoder (R262). -/
def startEncoder (s : State) : State := s.setLzwE (s.lzwE.started s.ctrl.lzwFixed12)

/-- LZW_ENC_RESET (R262). -/
def execLzwEncReset (s : State) : Host.Outcome State Fault Refusal :=
  .next ((startEncoder s).setValid { s.valid with lzwE := true })

/-- LZW_ENC_BYTE past its valid-bit check (R264). -/
def encByte (c : Byte) : Cmd Unit := do
  let s ← get
  emitCodes (s.lzwE.emitWidth s.ctrl.lzwFixed12) (encodeByte s.ctrl.lzwFixed12 s.lzwE c).codes
  modify fun t => t.setLzwE (encodeByte s.ctrl.lzwFixed12 s.lzwE c).next

/-- LZW_ENC_BYTE's pseudocode (R264). -/
def lzwEncByte (c : Byte) : Cmd Unit := do
  need (·.lzwE)
  encByte c

/-- LZW_ENC_BYTE (R264). -/
def execLzwEncByte (sym : BitVec 8) (s : State) : Host.Outcome State Fault Refusal := runCmd (lzwEncByte sym) s

/-- LZW_ENC_END past its valid-bit check (R265). -/
def encEnd : Cmd Unit := do
  let s ← get
  emitCodes (s.lzwE.emitWidth s.ctrl.lzwFixed12) (endCodes s.lzwE)
  modify fun t => (t.setLzwE { t.lzwE with patV := false }).setValid { t.valid with lzwE := false }

/-- LZW_ENC_END's pseudocode (R265). -/
def lzwEncEnd : Cmd Unit := do
  need (·.lzwE)
  encEnd

/-- LZW_ENC_END (R265). -/
def execLzwEncEnd (s : State) : Host.Outcome State Fault Refusal := runCmd lzwEncEnd s

/-! ### Decoder (R266 to R274) -/

/-- A decoder at the start of a session (R266). -/
def LzwDec.started (d : LzwDec) : LzwDec := { d with next := 258, prev := 0, prevV := false }

/-- CLEAR in the decoder (R270). -/
def LzwDec.clear (d : LzwDec) : LzwDec := { d with next := 258, prevV := false }

/-- `U.D_PREFIX[i]`, `U.D_SUFFIX[i]`. -/
def LzwDec.entryAt (d : LzwDec) (i : Nat) : DictEntry := d.dict.read unwrittenDecEntry i

/-- `StrX(c)` of R52 followed by `tail`, at most `depth` entries deep: `none` for 256, 257 and codes at or above `next`,
which have no string. Every entry's prefix is below its code, so `c + 1` levels are enough (log 15). -/
def stringFrom (entryAt : Nat → DictEntry) (next : Nat) : Nat → Nat → List Byte → Option (List Byte)
  | 0, _, _ => none
  | depth + 1, c, tail =>
    if c ≤ 255 then some (BitVec.ofNat 8 c :: tail)
    else if Config.firstCode ≤ c ∧ c < next then
      stringFrom entryAt next depth (entryAt c).pre.toNat ((entryAt c).suf :: tail)
    else none

/-- `StrD(c)` (R52). -/
def LzwDec.stringOf (d : LzwDec) (c : Nat) : Option (List Byte) := stringFrom d.entryAt d.next.toNat (c + 1) c []

/-- `StrE(c)` (R52). -/
def LzwEnc.stringOf (e : LzwEnc) (c : Nat) : Option (List Byte) := stringFrom e.entryAt e.next.toNat (c + 1) c []

/-- A known code (R269). -/
def LzwDec.knows (d : LzwDec) (c : Nat) : Bool :=
  decide (c ≤ 255) || (decide (Config.firstCode ≤ c) && decide (c < d.next.toNat))

/-- The string of a data code: known (R271), self-reference (R272), else none: an invalid code (R269). -/
def LzwDec.resolve (d : LzwDec) (c : Nat) : Option (List Byte) :=
  if d.knows c then d.stringOf c
  else if c = d.next.toNat ∧ d.prevV = true then
    match d.stringOf d.prev.toNat with
    | some (b :: bs) => some ((b :: bs) ++ [b])
    | _ => none
  else none

/-- The string of the code, or CORRUPT_STREAM (R269; log 15). -/
def resolveCode (c : Nat) : Cmd (List Byte) := do
  let s ← get
  match s.lzwD.resolve c with
  | some str => pure str
  | none => raise .corruptStream

/-- The decoder with the entry `(D_PREV, first byte)` inserted (R273). -/
def LzwDec.insert (d : LzwDec) (first : Byte) : LzwDec :=
  { d with dict := d.dict.put d.next.toNat { pre := d.prev, suf := first }, next := d.next + 1 }

/-- Decoder insertion (R273). -/
def insertEntry (str : List Byte) : Cmd Unit := do
  let s ← get
  if s.lzwD.prevV then do
    raiseIf (s.lzwD.next.toNat = Config.codeLimit) .corruptStream
    set (s.setLzwD (s.lzwD.insert (str.headD 0)))
  else pure ()

/-- `U.D_PREV <- c; U.D_PREVV <- 1` (R274). -/
def rememberCode (c : Nat) : Cmd Unit :=
  modify fun s => s.setLzwD { s.lzwD with prev := BitVec.ofNat 12 c, prevV := true }

/-- `EmitByte` of each byte of a string, first to last (R274). -/
def emitBytes (l : List Byte) : Cmd Unit := forEach l emitByte

/-- `ReadBits(DWidth())` (R267). -/
def readCode : Cmd Nat := do
  let s ← get
  let v ← readBits (decWidth s.ctrl.lzwFixed12 s.lzwD)
  pure v.toNat

/-- A data code in `DecStep` (R274). -/
def decodeData (c : Nat) : Cmd Unit := do
  let str ← resolveCode c
  insertEntry str
  emitBytes str
  rememberCode c

/-- `DecStep(c)` (R274). -/
def decStep (c : Nat) : Cmd Unit :=
  if c = Config.eosCode then modify fun s => (s.setLzwEos true).setValid { s.valid with lzwD := false }
  else if c = Config.clearCode then modify fun s => s.setLzwD s.lzwD.clear
  else decodeData c

/-- LZW_DEC_RESET's effect apart from LZW_D_V (R266). -/
def startDecoder (s : State) : State := (s.setLzwD s.lzwD.started).setLzwEos false

/-- LZW_DEC_RESET (R266). -/
def execLzwDecReset (s : State) : Host.Outcome State Fault Refusal :=
  .next ((startDecoder s).setValid { s.valid with lzwD := true })

/-- LZW_DEC_CODE's pseudocode (R274). -/
def lzwDecCode : Cmd Unit := do
  need (·.lzwD)
  let c ← readCode
  modify fun s => s.setRes (BitVec.ofNat 32 c)
  decStep c

/-- LZW_DEC_CODE (R274). -/
def execLzwDecCode (s : State) : Host.Outcome State Fault Refusal := runCmd lzwDecCode s

/-! ### Whole-buffer commands (R277, R278) -/

/-- The bits the encoder writes for the input bytes, from encoder `e` on, and for the end of the session: pass 1 of
LZW_COMPRESS (R277). -/
def measureBits (fixed12 : Bool) (e : LzwEnc) : List Byte → Nat
  | [] => e.emitWidth fixed12 * (endCodes e).length
  | c :: cs =>
    e.emitWidth fixed12 * (encodeByte fixed12 e c).codes.length + measureBits fixed12 (encodeByte fixed12 e c).next cs

/-- `m = ceil(B / 8)` (R277). -/
def payloadBytes (s : State) : Nat := (measureBits s.ctrl.lzwFixed12 (startEncoder s).lzwE s.input + 7) / 8

/-- The stored form of LZW_COMPRESS (R277). -/
def lzwWriteStored (input : List Byte) : Cmd Unit := do
  emitByte 0
  emitBytes input
  modify fun s => s.setStored true

/-- The compressed form of LZW_COMPRESS (R277): flag, compressedLength, and pass 2, whose encoder rules run without the
LZW_E_V check. -/
def lzwWriteCompressed (m : Nat) (input : List Byte) : Cmd Unit := do
  emitByte 1
  writeBits (BitVec.ofNat 32 m) 32
  modify fun s => (startEncoder s).setValid { s.valid with lzwE := true }
  forEach input encByte
  encEnd
  flushBits
  modify fun s => s.setStored false

/-- The choice between the two forms (R277). -/
def lzwWriteForm (s : State) : Cmd Unit :=
  if s.ctrl.lzwFallbackEn = true ∧ payloadBytes s ≥ s.inLen.toNat then lzwWriteStored s.input
  else lzwWriteCompressed (payloadBytes s) s.input

/-- LZW_COMPRESS's pseudocode (R277). -/
def lzwCompress : Cmd Unit := do
  checkIn
  checkExt
  modify fun s => (startWriter s).setOrigSize s.inLen
  let s ← get
  writeBits (immWord s.ext.len) 16
  emitBytes s.extension
  writeBits s.inLen 32
  lzwWriteForm s
  modify endCall

/-- LZW_COMPRESS (R277). -/
def execLzwCompress (s : State) : Host.Outcome State Fault Refusal := runCmd lzwCompress s

/-- A data code in LZW_DECOMPRESS's loop, with `left` bytes still to produce: how many it produced (R278). -/
def decompressData (c left : Nat) : Cmd Nat := do
  let str ← resolveCode c
  insertEntry str
  raiseIf (str.length > left) .corruptStream
  emitBytes str
  rememberCode c
  pure str.length

/-- One code of LZW_DECOMPRESS's loop: how many bytes it produced (R278). -/
def decompressCode (left : Nat) : Cmd Nat := do
  let c ← readCode
  if c = Config.eosCode then raise .corruptStream
  else if c = Config.clearCode then do
    modify fun s => s.setLzwD s.lzwD.clear
    pure 0
  else decompressData c left

/-- The loop of LZW_DECOMPRESS (R278): `left` bytes still to produce. `rounds` bounds the codes read; `n` data codes and
one CLEAR for each payload bit are never exceeded, so the bound is not met (log 18). -/
def decompressLoop : Nat → Nat → Cmd Unit
  | _, 0 => pure ()
  | 0, _ + 1 => raise .corruptStream
  | rounds + 1, left + 1 => do
    let k ← decompressCode (left + 1)
    decompressLoop rounds (left + 1 - k)

/-- The stored payload of LZW_DECOMPRESS (R278); `at` is the offset of its first byte. -/
def lzwReadStored (len start n : Nat) : Cmd Unit := do
  raiseIf (len - start < n) .invalidContainer
  modify fun s => s.setStored true
  let s ← get
  emitBytes (s.ibufBytes start n)

/-- The compressed payload of LZW_DECOMPRESS (R278); `start` is the offset of compressedLength. -/
def lzwReadCompressed (len start n : Nat) : Cmd Unit := do
  modify fun s => s.setStored false
  raiseIf (len < start + 4) .invalidContainer
  let m ← readBits 32
  raiseIf (start + 4 + m.toNat > len) .invalidContainer
  modify fun s => startDecoder (s.setReader { s.reader with fin := BitVec.ofNat 32 (start + 4 + m.toNat) })
  decompressLoop (n + 8 * m.toNat) n

/-- The choice by the compressed-flag (R278, R131). -/
def lzwReadForm (flag : Word) (len start n : Nat) : Cmd Unit :=
  if flag = 0 then lzwReadStored len start n
  else if flag = 1 then lzwReadCompressed len start n
  else raise .invalidContainer

/-- LZW_DECOMPRESS's pseudocode (R278). -/
def lzwDecompress : Cmd Unit := do
  checkIn
  modify fun s => startReader (startWriter s)
  let s ← get
  raiseIf (s.inLen.toNat < 2) .invalidContainer
  let l ← readBits 16
  raiseIf (s.inLen.toNat < l.toNat + 7) .invalidContainer
  modify fun u =>
    (u.setExt { len := l.setWidth 16, off := 2 }).setReader
      { u.reader with ptr := BitVec.ofNat 32 (2 + l.toNat) }
  let n ← readBits 32
  modify fun u => u.setOrigSize n
  let f ← readBits 8
  lzwReadForm f s.inLen.toNat (l.toNat + 7) n.toNat
  modify endCall

/-- LZW_DECOMPRESS (R278). -/
def execLzwDecompress (s : State) : Host.Outcome State Fault Refusal := runCmd lzwDecompress s

end Sys2Proof.Machine
end

