-- ==== Sys2Proof/Syntax.lean ====
section
/-! DEFINITION. The commands of CU-CORE: one constructor per row of spec/opcode_table.json (R123 of 30_encoding.md),
with the operand fields R122 gives its class, and the pseudo-commands of R127. -/

namespace Sys2Proof

/-- One legal-shaped command. `cnt` is the CNT field (6 bits), `imm` the whole IMM field, `sym` the symbol bits of IMM
(8 for class S8, 9 for class S9). -/
inductive Instr where
  /-- 0x00, class Z (R165). -/
  | nop
  /-- 0x01, class I16 (R162). -/
  | argLo (imm : BitVec 16)
  /-- 0x02, class I16 (R163). -/
  | argHi (imm : BitVec 16)
  /-- 0x03, class Z (R164). -/
  | clrErr
  /-- 0x10, class Z (R180). -/
  | bsWinit
  /-- 0x11, class C32 (R188). -/
  | bsWrite (cnt : BitVec 6)
  /-- 0x12, class CI16 (R189). -/
  | bsWritei (cnt : BitVec 6) (imm : BitVec 16)
  /-- 0x13, class Z (R190). -/
  | bsFlush
  /-- 0x14, class Z (R183). -/
  | bsRinit
  /-- 0x15, class C32 (R191). -/
  | bsRead (cnt : BitVec 6)
  /-- 0x16, class Z (R192). -/
  | bsAlign
  /-- 0x20, class Z (R210). -/
  | hufFreq
  /-- 0x21, class Z (R211). -/
  | hufTree
  /-- 0x22, class Z (R213). -/
  | hufCodes
  /-- 0x23, class Z (R214). -/
  | hufSertree
  /-- 0x24, class Z (R215). -/
  | hufDestree
  /-- 0x25, class S8 (R216). -/
  | hufEncsym (sym : BitVec 8)
  /-- 0x26, class Z (R217). -/
  | hufDecsym
  /-- 0x27, class S8 (R218). -/
  | hufFreqRd (sym : BitVec 8)
  /-- 0x28, class S8 (R219). -/
  | hufCodelen (sym : BitVec 8)
  /-- 0x2E, class Z (R221). -/
  | hufCompress
  /-- 0x2F, class Z (R222). -/
  | hufDecompress
  /-- 0x30, class Z (R262). -/
  | lzwEncReset
  /-- 0x31, class S8 (R264). -/
  | lzwEncByte (sym : BitVec 8)
  /-- 0x32, class Z (R265). -/
  | lzwEncEnd
  /-- 0x33, class Z (R266). -/
  | lzwDecReset
  /-- 0x34, class Z (R274). -/
  | lzwDecCode
  /-- 0x3E, class Z (R277). -/
  | lzwCompress
  /-- 0x3F, class Z (R278). -/
  | lzwDecompress
  /-- 0x40, class Z (R312). -/
  | ariModel
  /-- 0x41, class Z (R313). -/
  | ariWrtbl
  /-- 0x42, class Z (R322). -/
  | ariRdtbl
  /-- 0x43, class Z (R314). -/
  | ariEncInit
  /-- 0x44, class S9 (R316). -/
  | ariEncSym (sym : BitVec 9)
  /-- 0x45, class Z (R317). -/
  | ariEncFlush
  /-- 0x46, class Z (R318). -/
  | ariDecInit
  /-- 0x47, class Z (R321). -/
  | ariDecSym
  /-- 0x4E, class Z (R323). -/
  | ariCompress
  /-- 0x4F, class Z (R324). -/
  | ariDecompress
  deriving DecidableEq, Repr

/-- The pseudo-commands of R127 of 30_encoding.md. -/
inductive Pseudo where
  | li32 (v : Word)
  | bsWbyte (b : Byte)
  | ariEncEof
  | lzwEncodeAll (input : List Byte)
  deriving DecidableEq, Repr

end Sys2Proof
end

