-- ==== Sys2Proof/Machine/Dispatch.lean ====
section
/-! DEFINITION. One arm per command: the meaning of each (R123 of 30_encoding.md gives the rule of each opcode). -/

namespace Sys2Proof.Machine

def exec (i : Instr) (s : State) : Host.Outcome State Fault Refusal :=
  match i with
  | .nop => Sys2Proof.Machine.execNop s
  | .argLo imm => Sys2Proof.Machine.execArgLo imm s
  | .argHi imm => Sys2Proof.Machine.execArgHi imm s
  | .clrErr => Sys2Proof.Machine.execClrErr s
  | .bsWinit => Sys2Proof.Machine.execBsWinit s
  | .bsWrite cnt => Sys2Proof.Machine.execBsWrite cnt s
  | .bsWritei cnt imm => Sys2Proof.Machine.execBsWritei cnt imm s
  | .bsFlush => Sys2Proof.Machine.execBsFlush s
  | .bsRinit => Sys2Proof.Machine.execBsRinit s
  | .bsRead cnt => Sys2Proof.Machine.execBsRead cnt s
  | .bsAlign => Sys2Proof.Machine.execBsAlign s
  | .hufFreq => Sys2Proof.Machine.execHufFreq s
  | .hufTree => Sys2Proof.Machine.execHufTree s
  | .hufCodes => Sys2Proof.Machine.execHufCodes s
  | .hufSertree => Sys2Proof.Machine.execHufSertree s
  | .hufDestree => Sys2Proof.Machine.execHufDestree s
  | .hufEncsym sym => Sys2Proof.Machine.execHufEncsym sym s
  | .hufDecsym => Sys2Proof.Machine.execHufDecsym s
  | .hufFreqRd sym => Sys2Proof.Machine.execHufFreqRd sym s
  | .hufCodelen sym => Sys2Proof.Machine.execHufCodelen sym s
  | .hufCompress => Sys2Proof.Machine.execHufCompress s
  | .hufDecompress => Sys2Proof.Machine.execHufDecompress s
  | .lzwEncReset => Sys2Proof.Machine.execLzwEncReset s
  | .lzwEncByte sym => Sys2Proof.Machine.execLzwEncByte sym s
  | .lzwEncEnd => Sys2Proof.Machine.execLzwEncEnd s
  | .lzwDecReset => Sys2Proof.Machine.execLzwDecReset s
  | .lzwDecCode => Sys2Proof.Machine.execLzwDecCode s
  | .lzwCompress => Sys2Proof.Machine.execLzwCompress s
  | .lzwDecompress => Sys2Proof.Machine.execLzwDecompress s
  | .ariModel => Sys2Proof.Machine.execAriModel s
  | .ariWrtbl => Sys2Proof.Machine.execAriWrtbl s
  | .ariRdtbl => Sys2Proof.Machine.execAriRdtbl s
  | .ariEncInit => Sys2Proof.Machine.execAriEncInit s
  | .ariEncSym sym => Sys2Proof.Machine.execAriEncSym sym s
  | .ariEncFlush => Sys2Proof.Machine.execAriEncFlush s
  | .ariDecInit => Sys2Proof.Machine.execAriDecInit s
  | .ariDecSym => Sys2Proof.Machine.execAriDecSym s
  | .ariCompress => Sys2Proof.Machine.execAriCompress s
  | .ariDecompress => Sys2Proof.Machine.execAriDecompress s

end Sys2Proof.Machine
end

