-- ==== Sys2Proof/WellFormed.lean ====
section
/-! DEFINITION. Which commands of the syntax are legal: the class constraints of R122 of 30_encoding.md that the field
widths of `Instr` do not already enforce (CNT of C32 and CI16, IMM of S9). -/

namespace Sys2Proof

/-- The class constraints of R122, decided. -/
def Instr.isWellFormed : Instr → Bool
  | .bsWrite cnt => decide (cnt.toNat ≤ 32)
  | .bsWritei cnt _ => decide (cnt.toNat ≤ 16)
  | .bsRead cnt => decide (cnt.toNat ≤ 32)
  | .ariEncSym sym => decide (sym.toNat ≤ 256)
  | .nop | .argLo _ | .argHi _ | .clrErr => true
  | .bsWinit | .bsFlush | .bsRinit | .bsAlign => true
  | .hufFreq | .hufTree | .hufCodes | .hufSertree | .hufDestree | .hufEncsym _ | .hufDecsym => true
  | .hufFreqRd _ | .hufCodelen _ | .hufCompress | .hufDecompress => true
  | .lzwEncReset | .lzwEncByte _ | .lzwEncEnd | .lzwDecReset | .lzwDecCode => true
  | .lzwCompress | .lzwDecompress => true
  | .ariModel | .ariWrtbl | .ariRdtbl | .ariEncInit | .ariEncFlush | .ariDecInit | .ariDecSym => true
  | .ariCompress | .ariDecompress => true

/-- A command whose fields meet its class (R122, R124). -/
abbrev WellFormed (i : Instr) : Prop := i.isWellFormed = true

end Sys2Proof
end

