-- ==== Sys2Proof/Decode.lean ====
section
/-! DEFINITION. The decoder of command words, total on every 32-bit word and rejecting by name, then the encoder
(30_encoding.md R120 to R125), the mnemonics and the pseudo-commands (R126, R127). -/

namespace Sys2Proof

/-- Why a word is illegal (R124). The machine reports every one of them as ILLEGAL_COMMAND; the order in which the
decoder looks is the model's own (log 23). -/
inductive Reject where
  /-- OPC is none of the 39 listed opcodes. -/
  | unlistedOpcode
  /-- RSV is not 0. -/
  | reservedNotZero
  /-- CNT is outside the class's range. -/
  | cntOutOfRange
  /-- IMM is outside the class's range. -/
  | immOutOfRange
  deriving DecidableEq, Repr

/-- OPC, bits [7:0] (R120). -/
def opcField (w : Word) : BitVec 8 := w.extractLsb' 0 8

/-- CNT, bits [13:8] (R120). -/
def cntField (w : Word) : BitVec 6 := w.extractLsb' 8 6

/-- RSV, bits [15:14] (R120). -/
def rsvField (w : Word) : BitVec 2 := w.extractLsb' 14 2

/-- IMM, bits [31:16] (R120). -/
def immField (w : Word) : BitVec 16 := w.extractLsb' 16 16

/-- The checks of R122 and R124 on the fields outside OPC, then the command. -/
def legalIf (w : Word) (cntOk immOk : Bool) (i : Instr) : Except Reject Instr :=
  if rsvField w ≠ 0 then .error .reservedNotZero
  else if cntOk = false then .error .cntOutOfRange
  else if immOk = false then .error .immOutOfRange
  else .ok i

/-- Class Z: CNT = 0, IMM = 0. -/
def classZ (w : Word) (i : Instr) : Except Reject Instr :=
  legalIf w (decide (cntField w = 0)) (decide (immField w = 0)) i

/-- Class I16: CNT = 0, any IMM. -/
def classI16 (w : Word) (i : BitVec 16 → Instr) : Except Reject Instr :=
  legalIf w (decide (cntField w = 0)) true (i (immField w))

/-- Class C32: CNT in 0..32, IMM = 0. -/
def classC32 (w : Word) (i : BitVec 6 → Instr) : Except Reject Instr :=
  legalIf w (decide ((cntField w).toNat ≤ 32)) (decide (immField w = 0)) (i (cntField w))

/-- Class CI16: CNT in 0..16, any IMM. -/
def classCI16 (w : Word) (i : BitVec 6 → BitVec 16 → Instr) : Except Reject Instr :=
  legalIf w (decide ((cntField w).toNat ≤ 16)) true (i (cntField w) (immField w))

/-- Class S8: CNT = 0, IMM in 0..255; the symbol is IMM[7:0] (R121). -/
def classS8 (w : Word) (i : BitVec 8 → Instr) : Except Reject Instr :=
  legalIf w (decide (cntField w = 0)) (decide ((immField w).toNat ≤ 255)) (i ((immField w).setWidth 8))

/-- Class S9: CNT = 0, IMM in 0..256; the symbol is IMM[8:0] (R121). -/
def classS9 (w : Word) (i : BitVec 9 → Instr) : Except Reject Instr :=
  legalIf w (decide (cntField w = 0)) (decide ((immField w).toNat ≤ 256)) (i ((immField w).setWidth 9))

/-- The opcode map of R123: every 32-bit word is one listed command with legal fields, or illegal (R124). -/
def decode (w : Word) : Except Reject Instr :=
  match (opcField w).toNat with
  | 0x00 => classZ w .nop
  | 0x01 => classI16 w .argLo
  | 0x02 => classI16 w .argHi
  | 0x03 => classZ w .clrErr
  | 0x10 => classZ w .bsWinit
  | 0x11 => classC32 w .bsWrite
  | 0x12 => classCI16 w .bsWritei
  | 0x13 => classZ w .bsFlush
  | 0x14 => classZ w .bsRinit
  | 0x15 => classC32 w .bsRead
  | 0x16 => classZ w .bsAlign
  | 0x20 => classZ w .hufFreq
  | 0x21 => classZ w .hufTree
  | 0x22 => classZ w .hufCodes
  | 0x23 => classZ w .hufSertree
  | 0x24 => classZ w .hufDestree
  | 0x25 => classS8 w .hufEncsym
  | 0x26 => classZ w .hufDecsym
  | 0x27 => classS8 w .hufFreqRd
  | 0x28 => classS8 w .hufCodelen
  | 0x2E => classZ w .hufCompress
  | 0x2F => classZ w .hufDecompress
  | 0x30 => classZ w .lzwEncReset
  | 0x31 => classS8 w .lzwEncByte
  | 0x32 => classZ w .lzwEncEnd
  | 0x33 => classZ w .lzwDecReset
  | 0x34 => classZ w .lzwDecCode
  | 0x3E => classZ w .lzwCompress
  | 0x3F => classZ w .lzwDecompress
  | 0x40 => classZ w .ariModel
  | 0x41 => classZ w .ariWrtbl
  | 0x42 => classZ w .ariRdtbl
  | 0x43 => classZ w .ariEncInit
  | 0x44 => classS9 w .ariEncSym
  | 0x45 => classZ w .ariEncFlush
  | 0x46 => classZ w .ariDecInit
  | 0x47 => classZ w .ariDecSym
  | 0x4E => classZ w .ariCompress
  | 0x4F => classZ w .ariDecompress
  | _ => .error .unlistedOpcode

/-- The decoder on a row of the opcode table: a command is one 32-bit word (R120), the bits above `nbits` are 0. -/
def decodeTableWord (nbits w : Nat) : Option Instr :=
  (decode (BitVec.ofNat 32 (w % 2 ^ nbits))).toOption

/-- The word value `OPC | (CNT << 8) | (IMM << 16)` (R120). -/
def commandWord (opc : BitVec 8) (cnt : BitVec 6) (imm : BitVec 16) : Word :=
  opc.setWidth 32 ||| (cnt.setWidth 32 <<< 8) ||| (imm.setWidth 32 <<< 16)

/-- The word of a command, from R122 and R123. -/
def encode : Instr → Word
  | .nop => commandWord 0x00 0 0
  | .argLo imm => commandWord 0x01 0 imm
  | .argHi imm => commandWord 0x02 0 imm
  | .clrErr => commandWord 0x03 0 0
  | .bsWinit => commandWord 0x10 0 0
  | .bsWrite cnt => commandWord 0x11 cnt 0
  | .bsWritei cnt imm => commandWord 0x12 cnt imm
  | .bsFlush => commandWord 0x13 0 0
  | .bsRinit => commandWord 0x14 0 0
  | .bsRead cnt => commandWord 0x15 cnt 0
  | .bsAlign => commandWord 0x16 0 0
  | .hufFreq => commandWord 0x20 0 0
  | .hufTree => commandWord 0x21 0 0
  | .hufCodes => commandWord 0x22 0 0
  | .hufSertree => commandWord 0x23 0 0
  | .hufDestree => commandWord 0x24 0 0
  | .hufEncsym sym => commandWord 0x25 0 (sym.setWidth 16)
  | .hufDecsym => commandWord 0x26 0 0
  | .hufFreqRd sym => commandWord 0x27 0 (sym.setWidth 16)
  | .hufCodelen sym => commandWord 0x28 0 (sym.setWidth 16)
  | .hufCompress => commandWord 0x2E 0 0
  | .hufDecompress => commandWord 0x2F 0 0
  | .lzwEncReset => commandWord 0x30 0 0
  | .lzwEncByte sym => commandWord 0x31 0 (sym.setWidth 16)
  | .lzwEncEnd => commandWord 0x32 0 0
  | .lzwDecReset => commandWord 0x33 0 0
  | .lzwDecCode => commandWord 0x34 0 0
  | .lzwCompress => commandWord 0x3E 0 0
  | .lzwDecompress => commandWord 0x3F 0 0
  | .ariModel => commandWord 0x40 0 0
  | .ariWrtbl => commandWord 0x41 0 0
  | .ariRdtbl => commandWord 0x42 0 0
  | .ariEncInit => commandWord 0x43 0 0
  | .ariEncSym sym => commandWord 0x44 0 (sym.setWidth 16)
  | .ariEncFlush => commandWord 0x45 0 0
  | .ariDecInit => commandWord 0x46 0 0
  | .ariDecSym => commandWord 0x47 0 0
  | .ariCompress => commandWord 0x4E 0 0
  | .ariDecompress => commandWord 0x4F 0 0

/-- The mnemonic of each command (R123, R126). -/
def mnemonic : Instr → String
  | .nop => "NOP"
  | .argLo _ => "ARG_LO"
  | .argHi _ => "ARG_HI"
  | .clrErr => "CLR_ERR"
  | .bsWinit => "BS_WINIT"
  | .bsWrite _ => "BS_WRITE"
  | .bsWritei _ _ => "BS_WRITEI"
  | .bsFlush => "BS_FLUSH"
  | .bsRinit => "BS_RINIT"
  | .bsRead _ => "BS_READ"
  | .bsAlign => "BS_ALIGN"
  | .hufFreq => "HUF_FREQ"
  | .hufTree => "HUF_TREE"
  | .hufCodes => "HUF_CODES"
  | .hufSertree => "HUF_SERTREE"
  | .hufDestree => "HUF_DESTREE"
  | .hufEncsym _ => "HUF_ENCSYM"
  | .hufDecsym => "HUF_DECSYM"
  | .hufFreqRd _ => "HUF_FREQ_RD"
  | .hufCodelen _ => "HUF_CODELEN"
  | .hufCompress => "HUF_COMPRESS"
  | .hufDecompress => "HUF_DECOMPRESS"
  | .lzwEncReset => "LZW_ENC_RESET"
  | .lzwEncByte _ => "LZW_ENC_BYTE"
  | .lzwEncEnd => "LZW_ENC_END"
  | .lzwDecReset => "LZW_DEC_RESET"
  | .lzwDecCode => "LZW_DEC_CODE"
  | .lzwCompress => "LZW_COMPRESS"
  | .lzwDecompress => "LZW_DECOMPRESS"
  | .ariModel => "ARI_MODEL"
  | .ariWrtbl => "ARI_WRTBL"
  | .ariRdtbl => "ARI_RDTBL"
  | .ariEncInit => "ARI_ENC_INIT"
  | .ariEncSym _ => "ARI_ENC_SYM"
  | .ariEncFlush => "ARI_ENC_FLUSH"
  | .ariDecInit => "ARI_DEC_INIT"
  | .ariDecSym => "ARI_DEC_SYM"
  | .ariCompress => "ARI_COMPRESS"
  | .ariDecompress => "ARI_DECOMPRESS"

/-- The operands of a command as the assembler writes them after the mnemonic (R126). -/
def asmOperands : Instr → List Nat
  | .argLo imm => [imm.toNat]
  | .argHi imm => [imm.toNat]
  | .bsWrite cnt => [cnt.toNat]
  | .bsWritei cnt imm => [cnt.toNat, imm.toNat]
  | .bsRead cnt => [cnt.toNat]
  | .hufEncsym sym => [sym.toNat]
  | .hufFreqRd sym => [sym.toNat]
  | .hufCodelen sym => [sym.toNat]
  | .lzwEncByte sym => [sym.toNat]
  | .ariEncSym sym => [sym.toNat]
  | .nop | .clrErr | .bsWinit | .bsFlush | .bsRinit | .bsAlign => []
  | .hufFreq | .hufTree | .hufCodes | .hufSertree | .hufDestree | .hufDecsym | .hufCompress | .hufDecompress => []
  | .lzwEncReset | .lzwEncEnd | .lzwDecReset | .lzwDecCode | .lzwCompress | .lzwDecompress => []
  | .ariModel | .ariWrtbl | .ariRdtbl | .ariEncInit | .ariEncFlush | .ariDecInit | .ariDecSym => []
  | .ariCompress | .ariDecompress => []

/-- The expansions of R127. -/
def expandPseudo : Pseudo → List Instr
  | .li32 v => [.argLo (v.extractLsb' 0 16), .argHi (v.extractLsb' 16 16)]
  | .bsWbyte b => [.bsWritei 8 (b.setWidth 16)]
  | .ariEncEof => [.ariEncSym 256]
  | .lzwEncodeAll input => .lzwEncReset :: (input.map .lzwEncByte ++ [.lzwEncEnd])

end Sys2Proof
end

