-- ==== Sys2Proof/Machine/Registers.lean ====
section
/-! DEFINITION. The host-visible register map (R32 to R58 of 10_state.md): offsets, used bits, what a read returns and
what a write does. -/

namespace Sys2Proof.Machine

/-- The 36 registers of R32. -/
inductive Reg where
  | id | ctrl | status | errcode | errCmd | errPos | cmd | arg | res | inLen | outLen | extLen | extOff | origSize
  | unitValid | bsWstate | rdPtr | rdBit | rdEnd | hufNodecnt | hufRoot | lzwENext | lzwEWidth | lzwEPat | lzwDNext
  | lzwDWidth | lzwDPrev | ariLow | ariHigh | ariPendLo | ariPendHi | ariValue | ariTotal | ibufSz | obufSz | extMaxR
  deriving DecidableEq, Repr

/-- The offset column of R32. -/
def Reg.offset : Reg → Nat
  | .id => 0x000
  | .ctrl => 0x004
  | .status => 0x008
  | .errcode => 0x00C
  | .errCmd => 0x010
  | .errPos => 0x014
  | .cmd => 0x018
  | .arg => 0x01C
  | .res => 0x020
  | .inLen => 0x024
  | .outLen => 0x028
  | .extLen => 0x02C
  | .extOff => 0x030
  | .origSize => 0x034
  | .unitValid => 0x038
  | .bsWstate => 0x03C
  | .rdPtr => 0x040
  | .rdBit => 0x044
  | .rdEnd => 0x048
  | .hufNodecnt => 0x04C
  | .hufRoot => 0x050
  | .lzwENext => 0x054
  | .lzwEWidth => 0x058
  | .lzwEPat => 0x05C
  | .lzwDNext => 0x060
  | .lzwDWidth => 0x064
  | .lzwDPrev => 0x068
  | .ariLow => 0x06C
  | .ariHigh => 0x070
  | .ariPendLo => 0x074
  | .ariPendHi => 0x078
  | .ariValue => 0x07C
  | .ariTotal => 0x080
  | .ibufSz => 0x084
  | .obufSz => 0x088
  | .extMaxR => 0x08C

/-- The registers in the order of their offsets. -/
def Reg.all : List Reg :=
  [Reg.id, Reg.ctrl, Reg.status, Reg.errcode, Reg.errCmd, Reg.errPos] ++
  [Reg.cmd, Reg.arg, Reg.res, Reg.inLen, Reg.outLen, Reg.extLen] ++
  [Reg.extOff, Reg.origSize, Reg.unitValid, Reg.bsWstate, Reg.rdPtr, Reg.rdBit] ++
  [Reg.rdEnd, Reg.hufNodecnt, Reg.hufRoot, Reg.lzwENext, Reg.lzwEWidth, Reg.lzwEPat] ++
  [Reg.lzwDNext, Reg.lzwDWidth, Reg.lzwDPrev, Reg.ariLow, Reg.ariHigh, Reg.ariPendLo] ++
  [Reg.ariPendHi, Reg.ariValue, Reg.ariTotal, Reg.ibufSz, Reg.obufSz, Reg.extMaxR]

/-- The register at an offset of the window; none at a reserved offset (R32). -/
def Reg.ofOffset (off : Nat) : Option Reg := Reg.all.find? fun r => decide (r.offset = off)

/-- The "width used" column of R32 as a mask: the bits outside it read 0. -/
def Reg.used : Reg → Word
  | .ctrl => 0x1F
  | .status => 0x3FF
  | .errcode => 0xF
  | .extLen => 0xFFFF
  | .unitValid => 0xFF
  | .bsWstate => 0x7FF
  | .rdBit => 0x7
  | .hufNodecnt => 0x3FF
  | .hufRoot => 0x1FF
  | .lzwENext => 0x1FFF
  | .lzwEWidth => 0xF
  | .lzwEPat => 0x80000FFF
  | .lzwDNext => 0x1FFF
  | .lzwDWidth => 0xF
  | .lzwDPrev => 0x80000FFF
  | .id | .errCmd | .errPos | .cmd | .arg | .res | .inLen | .outLen | .extOff | .origSize | .rdPtr | .rdEnd =>
    0xFFFFFFFF
  | .ariLow | .ariHigh | .ariPendLo | .ariPendHi | .ariValue | .ariTotal | .ibufSz | .obufSz | .extMaxR => 0xFFFFFFFF

/-- `{valid, 19 zero bits, code[11:0]}` (R50, R51). -/
def codeView (valid : Bool) (code : BitVec 12) : Word := BitVec.ofBool valid ++ (0#19 ++ code)

/-- What a register holds, as the host reads it when IDLE (R32 to R58). CMD is write-only and reads 0. -/
def readReg (s : State) : Reg → Word
  | .id => Config.idValue
  | .ctrl => ctrlWord s.ctrl
  | .status => statusWord s
  | .errcode => BitVec.ofNat 32 s.err.code.number
  | .errCmd => s.err.cmd
  | .errPos => s.err.pos
  | .cmd => 0
  | .arg => s.arg
  | .res => s.res
  | .inLen => s.inLen
  | .outLen => s.writer.outLen
  | .extLen => s.ext.len.setWidth 32
  | .extOff => s.ext.off
  | .origSize => s.origSize
  | .unitValid => validWord s.valid
  | .bsWstate => (s.writer.nbits ++ s.writer.acc).setWidth 32
  | .rdPtr => s.reader.ptr
  | .rdBit => s.reader.bit.setWidth 32
  | .rdEnd => s.reader.fin
  | .hufNodecnt => s.huf.nodeCnt.setWidth 32
  | .hufRoot => s.huf.root.setWidth 32
  | .lzwENext => s.lzwE.next.setWidth 32
  | .lzwEWidth => s.lzwE.width.setWidth 32
  | .lzwEPat => codeView s.lzwE.patV s.lzwE.pat
  | .lzwDNext => s.lzwD.next.setWidth 32
  | .lzwDWidth => BitVec.ofNat 32 (decWidth s.ctrl.lzwFixed12 s.lzwD)
  | .lzwDPrev => codeView s.lzwD.prevV s.lzwD.prev
  | .ariLow => s.ari.low
  | .ariHigh => s.ari.high
  | .ariPendLo => s.ari.pending.extractLsb' 0 32
  | .ariPendHi => s.ari.pending.extractLsb' 32 32
  | .ariValue => s.ari.value
  | .ariTotal => s.ari.total
  | .ibufSz => BitVec.ofNat 32 s.params.ibufSize
  | .obufSz => BitVec.ofNat 32 s.params.obufSize
  | .extMaxR => BitVec.ofNat 32 s.params.extMax

/-- The constant registers, exact even while BUSY (R402). -/
def Reg.isConstant : Reg → Bool
  | .id | .ibufSz | .obufSz | .extMaxR => true
  | .ctrl | .status | .errcode | .errCmd | .errPos | .cmd | .arg | .res | .inLen | .outLen | .extLen | .extOff => false
  | .origSize | .unitValid | .bsWstate | .rdPtr | .rdBit | .rdEnd | .hufNodecnt | .hufRoot | .lzwENext => false
  | .lzwEWidth | .lzwEPat | .lzwDNext | .lzwDWidth | .lzwDPrev | .ariLow | .ariHigh | .ariPendLo | .ariPendHi => false
  | .ariValue | .ariTotal => false

/-- What the host reads while BUSY (R402, V7): the constant registers exactly, STATUS with BUSY = 1 and DONE = 0 and its
other fields free, every other register free in the bits it uses (log 10). -/
def readRegBusy (s : State) (r : Reg) : Word :=
  if r.isConstant then readReg s r
  else if r = .status then (Config.freeValue .busRead s.draws 0 32 &&& 0x3FC) ||| 1
  else Config.freeValue .busRead s.draws 0 32 &&& r.used

/-- Acceptance of a command word (R160). -/
def acceptCommand (w : Word) (s : State) : State :=
  (s.setSeq { phase := .busy, cmdWord := w }).setStatus { s.status with done := false }

/-- A host write to a register while IDLE (R32, R97): CMD issues a command, STATUS clears W1C bits, RW registers store
the bits they use, RO registers ignore the write. -/
def writeReg (r : Reg) (w : Word) (s : State) : State :=
  match r with
  | .cmd => acceptCommand w s
  | .ctrl => s.setCtrl (ctrlOfWord w)
  | .status => s.setStatus (s.status.writeOneToClear w)
  | .arg => s.setArg w
  | .inLen => s.setInLen w
  | .extLen => s.setExt { s.ext with len := w.extractLsb' 0 16 }
  | .id | .errcode | .errCmd | .errPos | .res | .outLen | .extOff | .origSize | .unitValid | .bsWstate => s
  | .rdPtr | .rdBit | .rdEnd | .hufNodecnt | .hufRoot | .lzwENext | .lzwEWidth | .lzwEPat | .lzwDNext => s
  | .lzwDWidth | .lzwDPrev | .ariLow | .ariHigh | .ariPendLo | .ariPendHi | .ariValue | .ariTotal => s
  | .ibufSz | .obufSz | .extMaxR => s

end Sys2Proof.Machine
end

