-- ==== Sys2Proof/Machine/HostPort.lean ====
section
/-! DEFINITION. The host's accesses (R92, R95 to R97 of 20_memory.md; R400 to R402, R408 of 70_reset_and_hazards.md) and
reset (R390). -/

namespace Sys2Proof.Machine

/-- Where an offset of the block's region lies (R92), the space's size aside. -/
inductive Place where
  | regs (off : Nat)
  | extbuf (i : Nat)
  | ibuf (i : Nat)
  | obuf (i : Nat)
  | outside
  deriving DecidableEq, Repr

/-- The host address map (R92). -/
def placeOf (off : Nat) : Place :=
  if off < 0x10000 then .regs off
  else if off < 0x20000 then .extbuf (off - 0x10000)
  else if off < 0x1000000 then .outside
  else if off < 0x2000000 then .ibuf (off - 0x1000000)
  else if off < 0x3000000 then .obuf (off - 0x2000000)
  else .outside

/-- Why an access is refused with a bus error (R95, R96), if it is. -/
def busError (p : Params) (bits : Nat) : Place → Option Fault
  | .regs off => if bits ≠ 32 then some .busErrorWidth else if off % 4 ≠ 0 then some .busErrorMisaligned else none
  | .extbuf i => if i ≥ p.extMax then some .busErrorUnmapped else if bits ≠ 8 then some .busErrorWidth else none
  | .ibuf i => if i ≥ p.ibufSize then some .busErrorUnmapped else if bits ≠ 8 then some .busErrorWidth else none
  | .obuf i => if i ≥ p.obufSize then some .busErrorUnmapped else if bits ≠ 8 then some .busErrorWidth else none
  | .outside => some .busErrorUnmapped

/-- What a read of the register window returns (R32, R97, R402): a reserved offset reads 0. -/
def readWindow (s : State) (off : Nat) : Word :=
  match Reg.ofOffset off with
  | none => 0
  | some r => if s.seq.phase = .busy then readRegBusy s r else readReg s r

/-- What a read of a buffer byte returns (R97, R402): while BUSY a free value. -/
def readBuffer (s : State) (b : Byte) : Byte :=
  if s.seq.phase = .busy then Config.freeValue .busRead s.draws 0 8 else b

/-- What a read returns (R92, R97). -/
def readPlace (s : State) : Place → BusReply
  | .regs off => .word (readWindow s off)
  | .extbuf i => .byte (readBuffer s (s.extbufByte i))
  | .ibuf i => .byte (readBuffer s (s.ibufByte i))
  | .obuf i => .byte (readBuffer s (s.obufByte i))
  | .outside => .nothing

/-- A host read: no side effect on the block (R97). The reply is kept for the host and a fresh draw stands ready. -/
def hostRead (bits off : Nat) (s : State) : Host.Outcome State Fault Refusal :=
  match busError s.params bits (placeOf off) with
  | some f => .fault f
  | none => .next ((s.setBus (readPlace s (placeOf off))).setDraws (s.draws + 1))

/-- A host write while IDLE (R97). A buffer takes the low byte of the data. -/
def writeIdle (data : Word) (s : State) : Place → State
  | .regs off =>
    match Reg.ofOffset off with
    | none => s
    | some r => writeReg r data s
  | .extbuf i => s.setExtbuf (s.extbuf.put i (data.setWidth 8))
  | .ibuf i => s.setIbuf (s.ibuf.put i (data.setWidth 8))
  | .obuf i => s.setObuf (s.obuf.put i (data.setWidth 8))
  | .outside => s

/-- A host write while BUSY is dropped: to CMD it sets CMD_LOST (R400), anywhere else WR_LOST (R401). -/
def writeBusy (s : State) (place : Place) : State :=
  if place = .regs Reg.cmd.offset then s.setStatus { s.status with cmdLost := true }
  else s.setStatus { s.status with wrLost := true }

/-- A host write (R97, R400, R401, R408). -/
def hostWrite (bits off : Nat) (data : Word) (s : State) : Host.Outcome State Fault Refusal :=
  match busError s.params bits (placeOf off) with
  | some f => .fault f
  | none => .next (if s.seq.phase = .busy then writeBusy s (placeOf off) else writeIdle data s (placeOf off))

/-- Reset (R390): an accepted command is abandoned; RAMs and buffers are `any` again under a fresh draw (log 20). -/
def resetFrom (s : State) : State := State.resetWith s.params s.draws s.tape s.bus

end Sys2Proof.Machine
end

