-- ==== Sys2Proof/Machine/Sequencer.lean ====
section
/-! DEFINITION. The command frame (R160, R161 of 40_control.md) and the order of the agents' moves, over the meaning of
the commands, which is an argument here. -/

namespace Sys2Proof.Machine

/-- While ERR is set only the exact word of CLR_ERR runs (R161). -/
def gated (s : State) : Bool := s.status.err && decide (s.seq.cmdWord ≠ 0x00000003)

/-- The completion added to a command's outcome (R161). -/
def completeOutcome : Host.Outcome State Fault Refusal → Host.Outcome State Fault Refusal
  | .next t => .next (complete t)
  | .fault f => .fault f
  | .refused r => .refused r

/-- The core step for `SEQ.CMDWORD` (R161). -/
def commandStep (meaning : Instr → State → Host.Outcome State Fault Refusal) (s : State) :
    Host.Outcome State Fault Refusal :=
  if gated s then .next (complete s)
  else
    match decode s.seq.cmdWord with
    | .error _ => .next (complete (takeError .illegalCommand s))
    | .ok i => completeOutcome (meaning i s)

/-- The core agent's move: it has a step only while BUSY (R160). -/
def coreMove (meaning : Instr → State → Host.Outcome State Fault Refusal) (s : State) :
    Host.Outcome State Fault Refusal :=
  if s.seq.phase = .busy then commandStep meaning s else .next s

/-- One move of an agent (R408). -/
def takeMove (meaning : Instr → State → Host.Outcome State Fault Refusal) (m : Move) (s : State) :
    Host.Outcome State Fault Refusal :=
  match m with
  | .core => coreMove meaning s
  | .reset => .next (resetFrom s)
  | .read bits off => hostRead bits off s
  | .write bits off data => hostWrite bits off data s

/-- One step: the next move of the tape; with none left the core moves, and an IDLE core waits (log 1, log 11). -/
def nextStep (meaning : Instr → State → Host.Outcome State Fault Refusal) (s : State) :
    Host.Outcome State Fault Refusal :=
  match s.tape with
  | [] => coreMove meaning s
  | m :: rest => takeMove meaning m (s.setTape rest)

end Sys2Proof.Machine
end

