-- ==== Sys2Proof/Machine/Step.lean ====
section
/-! DEFINITION. One step of the machine, and how a command word is placed where the next step runs it. -/

namespace Sys2Proof.Machine

/-- One step of the machine (R13, R160, R161): an agent's move. -/
def step (s : State) : Host.Outcome State Fault Refusal := nextStep exec s

/-- The command word accepted (R160), and the core's step next. CU-CORE fetches nothing (R105): the host writes a word
to CMD, and this is that write's effect (log 2). The bits above `nbits` are 0. -/
def State.withFetchWord (s : State) (nbits w : Nat) : State :=
  (acceptCommand (BitVec.ofNat 32 (w % 2 ^ nbits)) s).setTape (.core :: s.tape)

end Sys2Proof.Machine
end

