-- ==== Sys2Proof/Safety.lean ====
section
/-! DEFINITION. The terms the claims are stated in: the output and input as bit sequences, what it means that a command
appends bits, the trees, code streams and intervals of the codecs said without stores or registers, and the invariants
of the state (R46, R49, R52, R53, R56, R184, R325). -/

namespace Sys2Proof

/-! ### Kinds of command -/

/-- The whole-buffer commands (R168). -/
def Instr.wholeBuffer : Instr → Bool
  | .hufCompress | .hufDecompress | .lzwCompress | .lzwDecompress | .ariCompress | .ariDecompress => true
  | .nop | .argLo _ | .argHi _ | .clrErr => false
  | .bsWinit | .bsWrite _ | .bsWritei _ _ | .bsFlush | .bsRinit | .bsRead _ | .bsAlign => false
  | .hufFreq | .hufTree | .hufCodes | .hufSertree | .hufDestree | .hufEncsym _ | .hufDecsym => false
  | .hufFreqRd _ | .hufCodelen _ => false
  | .lzwEncReset | .lzwEncByte _ | .lzwEncEnd | .lzwDecReset | .lzwDecCode => false
  | .ariModel | .ariWrtbl | .ariRdtbl | .ariEncInit | .ariEncSym _ | .ariEncFlush | .ariDecInit | .ariDecSym => false

/-- The commands that write RES (R40). -/
def Instr.writesRes : Instr → Bool
  | .bsRead _ | .hufDecsym | .hufFreqRd _ | .hufCodelen _ | .lzwDecCode | .ariDecSym => true
  | .nop | .argLo _ | .argHi _ | .clrErr => false
  | .bsWinit | .bsWrite _ | .bsWritei _ _ | .bsFlush | .bsRinit | .bsAlign => false
  | .hufFreq | .hufTree | .hufCodes | .hufSertree | .hufDestree | .hufEncsym _ => false
  | .hufCompress | .hufDecompress => false
  | .lzwEncReset | .lzwEncByte _ | .lzwEncEnd | .lzwDecReset | .lzwCompress | .lzwDecompress => false
  | .ariModel | .ariWrtbl | .ariRdtbl | .ariEncInit | .ariEncSym _ | .ariEncFlush | .ariDecInit => false
  | .ariCompress | .ariDecompress => false

/-- The valid bits a command needs (the table of R367). -/
def Instr.needs : Instr → Machine.UnitValid → Bool
  | .hufTree, v | .hufFreqRd _, v => v.freq
  | .hufCodes, v | .hufSertree, v | .hufDecsym, v => v.tree
  | .hufEncsym _, v | .hufCodelen _, v => v.codes
  | .lzwEncByte _, v | .lzwEncEnd, v => v.lzwE
  | .lzwDecCode, v => v.lzwD
  | .ariWrtbl, v => v.ariModel
  | .ariEncSym _, v => v.ariModel && v.ariEnc
  | .ariEncFlush, v => v.ariEnc
  | .ariDecSym, v => v.ariModel && v.ariDec
  | .nop, _ | .argLo _, _ | .argHi _, _ | .clrErr, _ => true
  | .bsWinit, _ | .bsWrite _, _ | .bsWritei _ _, _ | .bsFlush, _ | .bsRinit, _ | .bsRead _, _ | .bsAlign, _ => true
  | .hufFreq, _ | .hufDestree, _ | .hufCompress, _ | .hufDecompress, _ => true
  | .lzwEncReset, _ | .lzwDecReset, _ | .lzwCompress, _ | .lzwDecompress, _ => true
  | .ariModel, _ | .ariRdtbl, _ | .ariEncInit, _ | .ariDecInit, _ | .ariCompress, _ | .ariDecompress, _ => true

end Sys2Proof

namespace Sys2Proof.Machine

/-! ### Bits -/

/-- The low `n` bits of a word, most significant first (R181). -/
def wordBits (v : Word) : Nat → List Bool
  | 0 => []
  | n + 1 => v.getLsbD n :: wordBits v n

/-- The eight bits of a byte, bit 7 first (R100). -/
def byteBits (b : Byte) : List Bool := wordBits (byteWord b) 8

/-- The bits of a byte sequence, first byte first. -/
def bytesBits (l : List Byte) : List Bool := l.flatMap byteBits

/-- The number a bit list writes, first bit most significant (R185). -/
def bitsValue (l : List Bool) : Nat := l.foldl (fun v b => 2 * v + b.toNat) 0

/-- A bit list padded with zero bits to a byte boundary (R100, R182). -/
def zeroPad (l : List Bool) : List Bool := l ++ List.replicate ((8 - l.length % 8) % 8) false

/-! ### The writer's output -/

/-- The held bits, oldest first (R46). -/
def Writer.held (w : Writer) : List Bool := wordBits (byteWord w.acc) w.nbits.toNat

/-- `U.ACC[7:NBITS]` is 0 (R46). -/
def Writer.Tidy (w : Writer) : Prop := w.acc.toNat < 2 ^ w.nbits.toNat

/-- `OBUF[0 .. OUT_LEN-1]` (R42, R93). -/
def State.outBytes (s : State) : List Byte := (List.range s.writer.outLen.toNat).map s.obufByte

/-- Every bit written since the writer was started: the bytes in OBUF, then the held bits (R42, R46). -/
def State.outBits (s : State) : List Bool := bytesBits s.outBytes ++ s.writer.held

/-- OBUF takes `n` more bits: no byte falls due with `OUT_LEN = OBUF_SIZE` (R181). -/
def State.Room (s : State) (n : Nat) : Prop :=
  s.params.Ok ∧ s.writer.outLen.toNat + (s.writer.nbits.toNat + n) / 8 ≤ s.params.obufSize

/-- `t` is `s` with the bits `l` written (R181): nothing but the writer and OBUF changes, and of OBUF only the bytes
from OUT_LEN up to the new OUT_LEN. -/
structure Writes (l : List Bool) (s t : State) : Prop where
  frame : t = (s.setWriter t.writer).setObuf t.obuf
  bits : t.outBits = s.outBits ++ l
  outLen : t.writer.outLen.toNat = s.writer.outLen.toNat + (s.writer.nbits.toNat + l.length) / 8
  nbits : t.writer.nbits.toNat = (s.writer.nbits.toNat + l.length) % 8
  tidy : s.writer.Tidy → t.writer.Tidy
  others : ∀ a, a < s.writer.outLen.toNat ∨ t.writer.outLen.toNat ≤ a → t.obufByte a = s.obufByte a

/-! ### The reader's input -/

/-- The position of the next bit: bit `7 - RD_BIT` of `IBUF[RD_PTR]` (R47). -/
def State.inPos (s : State) : Nat := 8 * s.reader.ptr.toNat + s.reader.bit.toNat

/-- The bit at a position: IBUF's below RD_END, zero at and beyond it (R184). -/
def State.inBit (s : State) (p : Nat) : Bool :=
  decide (p / 8 < s.reader.fin.toNat) && streamBit (s.ibufByte (p / 8)) (p % 8)

/-- The next `n` bits. -/
def State.inBits (s : State) (n : Nat) : List Bool := (List.range n).map fun i => s.inBit (s.inPos + i)

/-- The reader `n` bits further on; RD_PTR saturates (R184). -/
def Reader.advance (r : Reader) (n : Nat) : Reader :=
  { r with
    ptr := BitVec.ofNat 32 (min (r.ptr.toNat + (r.bit.toNat + n) / 8) 0xFFFFFFFF)
    bit := BitVec.ofNat 3 ((r.bit.toNat + n) % 8) }

/-- One of the next `n` bits lies at or beyond RD_END (R184). -/
def State.runsOver (s : State) (n : Nat) : Bool :=
  decide (0 < n) && decide (s.reader.fin.toNat ≤ (s.inPos + n - 1) / 8)

/-- `s` with `n` bits read: the reader moved on, and RD_OVR set if the read ran over (R184, R185). -/
def State.afterRead (s : State) (n : Nat) : State :=
  (s.setReader (s.reader.advance n)).setRdOvr (s.status.rdOvr || s.runsOver n)

/-- `IBUF[0 .. IN_LEN-1]` as bits: a container (R41). -/
def State.inputBits (s : State) : List Bool := bytesBits s.input

/-! ### Commands -/

/-- One row of the opcode map: OPC, mnemonic, and the largest CNT and IMM of its class (R122, R123). -/
structure CommandRow where
  opc : Nat
  name : String
  cntMax : Nat
  immMax : Nat
  deriving DecidableEq, Repr

/-- A row of class Z. -/
def rowZ (opc : Nat) (name : String) : CommandRow := { opc := opc, name := name, cntMax := 0, immMax := 0 }

/-- A row with an immediate and no CNT: classes I16, S8 and S9. -/
def rowImm (opc : Nat) (name : String) (immMax : Nat) : CommandRow :=
  { opc := opc, name := name, cntMax := 0, immMax := immMax }

/-- The opcode map with its classes (R122, R123), control and bit stream. -/
def commandRowsLow : List CommandRow :=
  [rowZ 0x00 "NOP", rowImm 0x01 "ARG_LO" 0xFFFF, rowImm 0x02 "ARG_HI" 0xFFFF, rowZ 0x03 "CLR_ERR",
    rowZ 0x10 "BS_WINIT", { opc := 0x11, name := "BS_WRITE", cntMax := 32, immMax := 0 },
    { opc := 0x12, name := "BS_WRITEI", cntMax := 16, immMax := 0xFFFF }, rowZ 0x13 "BS_FLUSH",
    rowZ 0x14 "BS_RINIT", { opc := 0x15, name := "BS_READ", cntMax := 32, immMax := 0 }, rowZ 0x16 "BS_ALIGN"]

/-- The Huffman rows. -/
def commandRowsHuf : List CommandRow :=
  [rowZ 0x20 "HUF_FREQ", rowZ 0x21 "HUF_TREE", rowZ 0x22 "HUF_CODES", rowZ 0x23 "HUF_SERTREE",
    rowZ 0x24 "HUF_DESTREE", rowImm 0x25 "HUF_ENCSYM" 255, rowZ 0x26 "HUF_DECSYM", rowImm 0x27 "HUF_FREQ_RD" 255,
    rowImm 0x28 "HUF_CODELEN" 255, rowZ 0x2E "HUF_COMPRESS", rowZ 0x2F "HUF_DECOMPRESS"]

/-- The LZW rows. -/
def commandRowsLzw : List CommandRow :=
  [rowZ 0x30 "LZW_ENC_RESET", rowImm 0x31 "LZW_ENC_BYTE" 255, rowZ 0x32 "LZW_ENC_END", rowZ 0x33 "LZW_DEC_RESET",
    rowZ 0x34 "LZW_DEC_CODE", rowZ 0x3E "LZW_COMPRESS", rowZ 0x3F "LZW_DECOMPRESS"]

/-- The arithmetic rows. -/
def commandRowsAri : List CommandRow :=
  [rowZ 0x40 "ARI_MODEL", rowZ 0x41 "ARI_WRTBL", rowZ 0x42 "ARI_RDTBL", rowZ 0x43 "ARI_ENC_INIT",
    rowImm 0x44 "ARI_ENC_SYM" 256, rowZ 0x45 "ARI_ENC_FLUSH", rowZ 0x46 "ARI_DEC_INIT", rowZ 0x47 "ARI_DEC_SYM",
    rowZ 0x4E "ARI_COMPRESS", rowZ 0x4F "ARI_DECOMPRESS"]

/-- The 39 rows. -/
def commandRows : List CommandRow := commandRowsLow ++ (commandRowsHuf ++ (commandRowsLzw ++ commandRowsAri))

/-- The word meets a row: its opcode, RSV 0, CNT and IMM in the class's range (R122, R124). -/
def CommandRow.Fits (r : CommandRow) (w : Word) : Prop :=
  (opcField w).toNat = r.opc ∧ rsvField w = 0 ∧ (cntField w).toNat ≤ r.cntMax ∧ (immField w).toNat ≤ r.immMax

/-- A word that is no legal command (R124). -/
def Illegal (w : Word) : Prop := ∀ i, decode w ≠ .ok i

/-! ### The host's side (R32, R92, R95, R96) -/

/-- An access the address map and the widths allow (R92, R95, R96). -/
def AccessAllowed (p : Params) (bits off : Nat) : Prop :=
  (off < 0x10000 ∧ bits = 32 ∧ off % 4 = 0) ∨ (0x10000 ≤ off ∧ off < 0x10000 + p.extMax ∧ bits = 8) ∨
    (0x1000000 ≤ off ∧ off < 0x1000000 + p.ibufSize ∧ bits = 8) ∨
    (0x2000000 ≤ off ∧ off < 0x2000000 + p.obufSize ∧ bits = 8)

/-- The reset column of R32: offset and value of every register that reset gives one other than 0. -/
def resetNonZero : List (Nat × Word) :=
  [(0x000, 0x43550001), (0x004, 0x00000004), (0x054, 258), (0x058, 9), (0x060, 258), (0x064, 9), (0x070, 0xFFFFFFFF)]

/-- The offsets of the parameter registers (R58). -/
def parameterOffsets : List Nat := [0x084, 0x088, 0x08C]

/-- The offsets a write changes nothing at: read-only and reserved ones (R32). -/
def WriteIgnored (off : Nat) : Prop :=
  off < 0x10000 ∧ off ≠ 0x004 ∧ off ≠ 0x008 ∧ off ≠ 0x018 ∧ off ≠ 0x01C ∧ off ≠ 0x024 ∧ off ≠ 0x02C

/-- `OBUF_SIZE` holds an output of `n` bits written from an empty writer (R168, R181). -/
def State.Holds (s : State) (n : Nat) : Prop := s.params.Ok ∧ n / 8 ≤ s.params.obufSize

/-- A successful whole-buffer command's end (R45, R168): the writer flushed, UNIT_VALID clear, no byte of OBUF at or
above OUT_LEN written; STATUS, EXT_LEN, EXT_OFF and ORIG_SIZE apart, nothing but the output and the unit state (which is
`any` now) has changed. -/
structure CallEnds (s t : State) : Prop where
  frame : t =
    { s with
      status := t.status, ext := t.ext, origSize := t.origSize, valid := UnitValid.cleared
      writer := t.writer, reader := t.reader, huf := t.huf, lzwE := t.lzwE, lzwD := t.lzwD, ari := t.ari
      obuf := t.obuf, draws := t.draws }
  flushed : t.writer.nbits = 0
  others : ∀ a, t.writer.outLen.toNat ≤ a → t.obufByte a = s.obufByte a

/-- Two blocks' parts of a round trip: `u` holds the output of `t` as its input, and its OBUF takes `n` bytes. -/
structure HandsOver (t u : State) (n : Nat) : Prop where
  params : u.params.Ok
  length : u.inLen = t.writer.outLen
  fits : u.inLen.toNat ≤ u.params.ibufSize
  bytes : u.input = t.outBytes
  room : n ≤ u.params.obufSize

/-! ### Huffman trees (R49, R212, R213, R214) -/

/-- The number of nodes of a tree. -/
def HTree.nodes : HTree → Nat
  | .leaf _ => 1
  | .internal l r => l.nodes + r.nodes + 1

/-- The leaf values, left to right. -/
def HTree.leaves : HTree → List Byte
  | .leaf v => [v]
  | .internal l r => l.leaves ++ r.leaves

/-- The serialization of a tree (R130, R214). -/
def treeBits : HTree → List Bool
  | .leaf v => true :: byteBits v
  | .internal l r => false :: (treeBits l ++ treeBits r)

/-- The path to the leaf of value `v` that comes last in pre-order: 0 for left, 1 for right. -/
def HTree.pathTo : HTree → Byte → Option (List Bool)
  | .leaf x, v => if x = v then some [] else none
  | .internal l r, v =>
    match r.pathTo v with
    | some p => some (true :: p)
    | none => (l.pathTo v).map (false :: ·)

/-- The code HUF_CODES gives a symbol: "0" under a leaf root, else its path; none gives the empty string (R213). -/
def HTree.codeFor (t : HTree) (v : Byte) : List Bool :=
  match t with
  | .leaf x => if x = v then [false] else []
  | .internal l r => ((HTree.internal l r).pathTo v).getD []

/-- Following the bits `p` from the root of a tree ends at a leaf of value `v` (R217). -/
inductive HTree.Reaches : HTree → List Bool → Byte → Prop where
  | leaf (v : Byte) : HTree.Reaches (.leaf v) [] v
  | left {l r : HTree} {p : List Bool} {v : Byte} : HTree.Reaches l p v → HTree.Reaches (.internal l r) (false :: p) v
  | right {l r : HTree} {p : List Bool} {v : Byte} : HTree.Reaches r p v → HTree.Reaches (.internal l r) (true :: p) v

/-- The payload bits `p` spell the bytes `data`, one walk from the root for each (R222). -/
inductive HTree.Spells (t : HTree) : List Bool → List Byte → Prop where
  | nil : HTree.Spells t [] []
  | cons {p q : List Bool} {v : Byte} {data : List Byte} :
    t.Reaches p v → HTree.Spells t q data → HTree.Spells t (p ++ q) (v :: data)

/-- One live tree of BuildTree: its weight, its place in the order of creation, the tree (R212). -/
structure Sprout where
  weight : Nat
  rank : Nat
  tree : HTree
  deriving DecidableEq, Repr

/-- `(WT, index)` compared lexicographically (R212). -/
def Sprout.before (a b : Sprout) : Prop := a.weight < b.weight ∨ (a.weight = b.weight ∧ a.rank ≤ b.rank)

/-- `a` is the element of `live` that BuildTree removes next (R212). -/
def Sprout.leastOf (a : Sprout) (live : List Sprout) : Prop := a ∈ live ∧ ∀ b ∈ live, a.before b

/-- The combining loop of BuildTree on trees instead of node indices, `k` being the next index (R212). -/
inductive Grown : Nat → List Sprout → HTree → Prop where
  | single (k : Nat) (a : Sprout) : Grown k [a] a.tree
  | combine {k : Nat} {live : List Sprout} {a b : Sprout} {t : HTree} :
    a.leastOf live → b.leastOf (live.erase a) →
    Grown (k + 1)
      ({ weight := a.weight + b.weight, rank := k, tree := .internal a.tree b.tree } :: (live.erase a).erase b) t →
    Grown k live t

/-- The symbols with a non-zero count, increasing (R212, R134). -/
def observedSymbols (count : Nat → Nat) : List Nat := (List.range 256).filter fun i => decide (count i ≠ 0)

/-- The leaves BuildTree starts from (R212). -/
def sprouts (count : Nat → Nat) : List Sprout :=
  (observedSymbols count).zipIdx.map fun p =>
    { weight := count p.1, rank := p.2, tree := .leaf (BitVec.ofNat 8 p.1) }

/-- `t` is the tree BuildTree makes of a table (R212). -/
def BuiltFrom (count : Nat → Nat) (t : HTree) : Prop :=
  Grown (observedSymbols count).length (sprouts count) t

/-- How often a byte value occurs (R210, R312). -/
def occurrences (data : List Byte) (i : Nat) : Nat := data.countP fun b => decide (b.toNat = i)

/-- The payload of HUF_COMPRESS (R221): the code of every byte in order. -/
def payloadCodes (t : HTree) (data : List Byte) : List Bool := data.flatMap t.codeFor

/-- The container of R129 for a non-empty input under its tree. -/
def hufContainer (isbin : Bool) (t : HTree) (data : List Byte) : List Bool :=
  byteBits (boolByte isbin) ++ wordBits (BitVec.ofNat 32 data.length) 32 ++ zeroPad (treeBits t) ++
    zeroPad (payloadCodes t data) ++ byteBits (BitVec.ofNat 8 ((payloadCodes t data).length % 8))

/-- The container of R129 for the empty input. -/
def hufEmptyContainer (isbin : Bool) : List Bool := byteBits (boolByte isbin) ++ wordBits 0 32 ++ byteBits 0

/-! ### LZW strings and streams (R52, R132, R261 to R265) -/

/-- `StrX(c)` of R52 over a dictionary's entries: the code `c` stands for the string `l`. -/
inductive Stands (entryAt : Nat → DictEntry) (next : Nat) : Nat → List Byte → Prop where
  | literal {c : Nat} : c ≤ 255 → Stands entryAt next c [BitVec.ofNat 8 c]
  | entry {c : Nat} {l : List Byte} : 258 ≤ c → c < next → Stands entryAt next (entryAt c).pre.toNat l →
    Stands entryAt next c (l ++ [(entryAt c).suf])

/-- The decoder resolves the code `c` to the string `l`: a known code (R271) or a self-reference (R272). -/
def LzwDec.Resolves (d : LzwDec) (c : Nat) (l : List Byte) : Prop :=
  Stands d.entryAt d.next.toNat c l ∨
    (c = d.next.toNat ∧ d.prevV = true ∧
      ∃ b m, Stands d.entryAt d.next.toNat d.prev.toNat (b :: m) ∧ l = (b :: m) ++ [b])

/-- The code of a string in a dictionary held as the list of its assigned strings, code 258 first (R260). -/
def codeOfString (dict : List (List Byte)) (p : List Byte) : Nat :=
  match p with
  | [b] => b.toNat
  | _ => 258 + dict.idxOf p

/-- A code written in the width current for a dictionary (R261). -/
def codeBits (fixed12 : Bool) (dict : List (List Byte)) (c : Nat) : List Bool :=
  wordBits (BitVec.ofNat 32 c) (if fixed12 then 12 else widthFor (258 + dict.length))

/-- CU's encoder on whole strings (R264, R265): the bits written from dictionary `dict` and pattern `pat` on (the empty
pattern: none yet) for the input to come and the end of the session. -/
def lzwStream (fixed12 : Bool) : List (List Byte) → List Byte → List Byte → List Bool
  | dict, pat, [] =>
    (if pat = [] then [] else codeBits fixed12 dict (codeOfString dict pat)) ++ codeBits fixed12 dict 256
  | dict, pat, c :: cs =>
    if pat = [] then lzwStream fixed12 dict [c] cs
    else if pat ++ [c] ∈ dict then lzwStream fixed12 dict (pat ++ [c]) cs
    else if dict.length < 3838 then
      codeBits fixed12 dict (codeOfString dict pat) ++ lzwStream fixed12 (dict ++ [pat ++ [c]]) [c] cs
    else
      codeBits fixed12 dict (codeOfString dict pat) ++
        (codeBits fixed12 dict 257 ++ lzwStream fixed12 [] [c] cs)

/-- `m` of R277: the stream's length in bytes once flushed. -/
def lzwBytes (fixed12 : Bool) (data : List Byte) : Nat := ((lzwStream fixed12 [] [] data).length + 7) / 8

/-- The header of the LZW container, up to originalSize (R131). -/
def lzwHeader (ext data : List Byte) : List Bool :=
  wordBits (BitVec.ofNat 32 ext.length) 16 ++ bytesBits ext ++ wordBits (BitVec.ofNat 32 data.length) 32

/-- The stored form of the LZW container (R131). -/
def lzwStored (ext data : List Byte) : List Bool := lzwHeader ext data ++ byteBits 0 ++ bytesBits data

/-- The compressed form of the LZW container (R131, R132). -/
def lzwCompressed (fixed12 : Bool) (ext data : List Byte) : List Bool :=
  lzwHeader ext data ++ byteBits 1 ++ wordBits (BitVec.ofNat 32 (lzwBytes fixed12 data)) 32 ++
    zeroPad (lzwStream fixed12 [] [] data)

/-! ### The arithmetic model and its intervals (R53, R310, R311, R315) -/

/-- The count of a symbol in the model of an occurrence table: the seed of 1 added, EOF 1 (R310). -/
def modelCount (occ : Nat → Nat) (i : Nat) : Nat := if i < 256 then 1 + occ i else 1

/-- The lower end of a symbol's count interval (R310). -/
def modelCum (occ : Nat → Nat) (i : Nat) : Nat := ((List.range i).map (modelCount occ)).sum

/-- The RAMs and TOTAL hold the model of `occ`, whose counts sum to at most ARI_MAX (R53, R310). -/
structure Arith.HoldsModel (a : Arith) (occ : Nat → Nat) : Prop where
  occurred : ∀ i, i < 256 → (a.occAt i).toNat = occ i
  cnt : ∀ i, i ≤ 256 → (a.cntAt i).toNat = modelCount occ i
  cum : ∀ i, i ≤ 257 → (a.cumAt i).toNat = modelCum occ i
  total : a.total.toNat = modelCum occ 257
  bound : ((List.range 256).map occ).sum ≤ Config.ariMax

/-- `LOW < HALF <= HIGH`, and `LOW < Q` or `HIGH >= TQ`: the bounds between symbols (R325). -/
def Settled (low high : Nat) : Prop :=
  low < Config.half ∧ Config.half ≤ high ∧ high ≤ 0xFFFFFFFF ∧ (low < Config.quarter ∨ Config.threeQuarter ≤ high)

/-- `lo'` of R311, for the count interval's lower end `c`. -/
def narrowLow (low high c total : Nat) : Nat := low + (high - low + 1) * c / total

/-- `hi'` of R311, for the count interval's upper end `c`. -/
def narrowHigh (low high c total : Nat) : Nat := low + (high - low + 1) * c / total - 1

/-- The rescale loop of R315 and R320 on the bounds alone: the cases taken, first to last, and the bounds at its exit. -/
inductive Rescales : Nat → Nat → List Rescale → Nat → Nat → Prop where
  | exit {low high : Nat} : ¬ high < Config.half → ¬ Config.half ≤ low →
    ¬ (Config.quarter ≤ low ∧ high < Config.threeQuarter) → Rescales low high [] low high
  | e1 {low high l h : Nat} {cs : List Rescale} : high < Config.half → Rescales (2 * low) (2 * high + 1) cs l h →
    Rescales low high (.e1 :: cs) l h
  | e2 {low high l h : Nat} {cs : List Rescale} : ¬ high < Config.half → Config.half ≤ low →
    Rescales (2 * (low - Config.half)) (2 * (high - Config.half) + 1) cs l h → Rescales low high (.e2 :: cs) l h
  | e3 {low high l h : Nat} {cs : List Rescale} : ¬ high < Config.half → ¬ Config.half ≤ low →
    Config.quarter ≤ low → high < Config.threeQuarter →
    Rescales (2 * (low - Config.quarter)) (2 * (high - Config.quarter) + 1) cs l h →
    Rescales low high (.e3 :: cs) l h

/-- `OutputBit(b)`'s bits with `p` pending (R315). -/
def resolvedBits (p : Nat) (b : Bool) : List Bool := b :: List.replicate p (!b)

/-- The bits the encoder writes for the cases of one rescale loop, `p` pending before it (R315). -/
def rescaleBits : Nat → List Rescale → List Bool
  | _, [] => []
  | p, .e1 :: cs => resolvedBits p false ++ rescaleBits 0 cs
  | p, .e2 :: cs => resolvedBits p true ++ rescaleBits 0 cs
  | p, .e3 :: cs => rescaleBits (p + 1) cs
  | p, .stop :: cs => rescaleBits p cs

/-- PENDING after the cases of one rescale loop (R315). -/
def rescalePending : Nat → List Rescale → Nat
  | p, [] => p
  | _, .e1 :: cs => rescalePending 0 cs
  | _, .e2 :: cs => rescalePending 0 cs
  | p, .e3 :: cs => rescalePending (p + 1) cs
  | p, .stop :: cs => rescalePending p cs

/-- VALUE after the cases of one rescale loop, one input bit to each (R320). -/
def rescaleValue : Nat → List Rescale → List Bool → Nat
  | v, c :: cs, b :: bs => rescaleValue (2 * (v - c.offset) + b.toNat) cs bs
  | v, _, _ => v

/-- The bits ARI_ENC_FLUSH writes (R317). -/
def rangeFlushBits (low p : Nat) : List Bool := resolvedBits (p + 1) (decide (Config.quarter ≤ low))

/-- The range encoder's whole stream from the bounds `low` and `high` with `p` pending: the symbols `syms`, then the
flush (R135, R316, R317). -/
inductive RangeCoded (occ : Nat → Nat) : Nat → Nat → Nat → List Nat → List Bool → Prop where
  | flush (low high p : Nat) : RangeCoded occ low high p [] (rangeFlushBits low p)
  | symbol {low high p l h sym : Nat} {cs : List Rescale} {syms : List Nat} {bits : List Bool} :
    Rescales (narrowLow low high (modelCum occ sym) (modelCum occ 257))
      (narrowHigh low high (modelCum occ (sym + 1)) (modelCum occ 257)) cs l h →
    RangeCoded occ l h (rescalePending p cs) syms bits →
    RangeCoded occ low high p (sym :: syms) (rescaleBits p cs ++ bits)

/-- The stream of ARI_COMPRESS: every input byte, then EOF, then the flush, from the full range (R135, R323). -/
def RangeStream (data : List Byte) (bits : List Bool) : Prop :=
  RangeCoded (occurrences data) 0 0xFFFFFFFF 0 (data.map BitVec.toNat ++ [Config.eofSymbol]) bits

/-- The entries of a table: symbol and count for each byte value that occurs (R134, R313). -/
def tableEntryBits (occ : Nat → Nat) : List Bool :=
  (observedSymbols occ).flatMap fun i => wordBits (BitVec.ofNat 32 i) 8 ++ wordBits (BitVec.ofNat 32 (occ i)) 32

/-- A table with its entry count (R313). -/
def tableBits (occ : Nat → Nat) : List Bool :=
  wordBits (BitVec.ofNat 32 (observedSymbols occ).length) 16 ++ tableEntryBits occ

/-- The arithmetic container up to its bit stream (R133). -/
def ariHeader (isbinFlag : Byte) (ext data : List Byte) : List Bool :=
  byteBits isbinFlag ++ wordBits (BitVec.ofNat 32 ext.length) 16 ++ bytesBits ext ++
    wordBits (BitVec.ofNat 32 data.length) 32 ++ tableBits (occurrences data)

/-! ### Invariants -/

/-- What holds of the registers and buffers in every run (R37, R42, R46, R90, R160, R184). -/
structure State.Sound (s : State) : Prop where
  params : s.params.Ok
  ibufWf : s.ibuf.wf
  obufWf : s.obuf.wf
  extbufWf : s.extbuf.wf
  ibufSize : ∀ c ∈ s.ibuf.cells, c.1 < s.params.ibufSize
  obufSize : ∀ c ∈ s.obuf.cells, c.1 < s.params.obufSize
  extbufSize : ∀ c ∈ s.extbuf.cells, c.1 < s.params.extMax
  outLen : s.writer.outLen.toNat ≤ s.params.obufSize
  output : ∀ a, a < s.writer.outLen.toNat → (s.obuf.written a).isSome = true
  tidy : s.writer.Tidy
  rdEnd : s.reader.fin.toNat ≤ s.params.ibufSize
  busy : s.seq.phase = .busy → s.status.done = false
  noError : s.status.err = false → s.err = { code := .noError, cmd := 0, pos := 0 }
  anError : s.status.err = true → s.err.code ≠ .noError

/-- A code that stands for a string below `next` (R52). -/
def StringCode (next c : Nat) : Prop := c < next ∧ c ≠ 256 ∧ c ≠ 257

/-- Every assigned code has an entry, whose prefix code is below it and stands for a string (R52). -/
def DictOk (dict : Store DictEntry) (next : Nat) : Prop :=
  ∀ c, 258 ≤ c → c < next → ∃ e, dict.written c = some e ∧ StringCode c e.pre.toNat

/-- No two assigned codes have the same entry (R263). -/
def DictDistinct (dict : Store DictEntry) (next : Nat) : Prop :=
  ∀ c d, 258 ≤ c → c < next → 258 ≤ d → d < next → dict.written c = dict.written d → c = d

/-- R50, R56, R263 for the encoder; its dictionary's entries are listed once each, by rising code. -/
structure LzwEnc.Sound (e : LzwEnc) : Prop where
  dict : e.dict.wf
  next : 258 ≤ e.next.toNat ∧ e.next.toNat ≤ 4096
  width : e.width.toNat = 12 ∨ e.width.toNat = widthFor e.next.toNat
  pat : e.patV = true → StringCode e.next.toNat e.pat.toNat

/-- R51, R56 for a decoder whose session is open: a previous code stands for a string (R274). -/
structure LzwDec.Sound (d : LzwDec) : Prop where
  next : 258 ≤ d.next.toNat ∧ d.next.toNat ≤ 4096
  prev : d.prevV = true → StringCode d.next.toNat d.prev.toNat

/-- The LZW unit's invariant (R52, R56, R263): the dictionaries, and the decoder's previous code, are well formed while
their sessions are open. -/
structure State.LzwSound (s : State) : Prop where
  enc : s.lzwE.Sound
  decNext : 258 ≤ s.lzwD.next.toNat ∧ s.lzwD.next.toNat ≤ 4096
  encDict : s.valid.lzwE = true →
    DictOk s.lzwE.dict s.lzwE.next.toNat ∧ DictDistinct s.lzwE.dict s.lzwE.next.toNat
  dec : s.valid.lzwD = true → s.lzwD.Sound ∧ DictOk s.lzwD.dict s.lzwD.next.toNat

/-- The Huffman unit's invariant (R48, R49, R210, R212): what each valid bit promises. -/
structure State.HufSound (s : State) : Prop where
  freq : s.valid.freq = true → ((List.range 256).map fun i => (s.huf.freqAt i).toNat).sum ≤ s.params.ibufSize
  tree : s.valid.tree = true → ∃ t, s.huf.tree = some t ∧ t.nodes ≤ Config.nodeLimit ∧ s.huf.nodeCnt.toNat = t.nodes
  codes : s.valid.codes = true → ∀ i, i < 256 → (s.huf.codeAt i).length ≤ 255

/-- The arithmetic unit's invariant (R53, R54, R56, R319, R325). -/
structure State.AriSound (s : State) : Prop where
  model : s.valid.ariModel = true → ∃ occ, s.ari.HoldsModel occ
  bounds : s.valid.ariEnc = true ∨ s.valid.ariDec = true → Settled s.ari.low.toNat s.ari.high.toNat
  value : s.valid.ariDec = true → s.ari.low.toNat ≤ s.ari.value.toNat ∧ s.ari.value.toNat ≤ s.ari.high.toNat
  single : s.valid.ariEnc = false ∨ s.valid.ariDec = false

end Sys2Proof.Machine
end

