-- ==== Sys2Proof/Certificates/Slice0/Obligations.lean ====
section
/-! DEFINITION. The statements about the model, from the spec's numbered rules. -/

section

open Sys2Proof Sys2Proof.Machine

/-! ### Encoding -/

/-- R120 to R123: decoding the word of a well-formed command gives the command back, with every operand. -/
def Obligations.DecodeInvertsEncode : Prop := ∀ i : Instr, WellFormed i → decode (encode i) = .ok i

/-- R120, R124: a legal word is the word of the command it decodes to, so no bit of it is dropped. -/
def Obligations.EncodeInvertsDecode : Prop :=
  ∀ (w : Word) (i : Instr), decode w = .ok i → WellFormed i ∧ encode i = w

/-- R122, R123, R124: a word is legal exactly when it meets a row of the opcode map, and then it is that row's
command; an illegal word raises ILLEGAL_COMMAND unless ERR is set, in which case it is ignored. -/
def Obligations.LegalWordsAreTheOpcodeMap : Prop :=
  (∀ w : Word, (∃ i, decode w = .ok i) ↔ ∃ r ∈ commandRows, r.Fits w) ∧
    (∀ (w : Word) (i : Instr) (r : CommandRow), decode w = .ok i → r ∈ commandRows → r.Fits w → mnemonic i = r.name) ∧
    commandRows.length = 39 ∧
    ∀ (s : State) (rest : List Move), s.seq.phase = .busy → s.tape = .core :: rest → Illegal s.seq.cmdWord →
      step s =
        .next (complete (if s.status.err then s.setTape rest else takeError .illegalCommand (s.setTape rest)))

/-- R120 to R123: words written out from the spec's encodings decode to the commands they stand for. -/
def Obligations.SpecWordsDecode : Prop :=
  decode 0xBEEF0001 = .ok (.argLo 0xBEEF) ∧ decode 0x00002011 = .ok (.bsWrite 32) ∧
    decode 0x00050312 = .ok (.bsWritei 3 5) ∧ decode 0x00410025 = .ok (.hufEncsym 0x41) ∧
    decode 0x00410031 = .ok (.lzwEncByte 0x41) ∧ decode 0x01000044 = .ok (.ariEncSym 256) ∧
    decode 0x0000003E = .ok .lzwCompress

/-! ### The command frame -/

/-- R161: when the accepted word decodes to a command that the ERR gate lets run, the core's step is that command's
meaning and the completion around it. Nothing else happens in the step. That one step of the machine is the next move of
`tape`, and that with no move left the core takes its turn (the clause for the empty tape), is the model's choice
(log 1, DESIGN CHOICE). -/
def Obligations.StepRunsTheDecodedCommand : Prop :=
  ∀ (s t : State) (i : Instr), s.seq.phase = .busy → decode s.seq.cmdWord = .ok i →
    (s.status.err = false ∨ i = .clrErr) →
    (s.tape = [] → exec i s = .next t → step s = .next (complete t)) ∧
      ∀ rest, s.tape = .core :: rest → exec i (s.setTape rest) = .next t → step s = .next (complete t)

/-- R35, R161, R93: completion makes the sequencer IDLE and sets DONE; the output `OBUF[0 .. OUT_LEN-1]` and everything
else stay, but for the bytes of OBUF at and above OUT_LEN. That CMDWORD keeps the accepted word is the model's reading
(log 22, DEDUCED), and the draw counter, which goes up by one, is the model's own field (log 4, DESIGN CHOICE). -/
def Obligations.CompletionKeepsTheResult : Prop :=
  ∀ s : State, s.Sound →
    (complete s).seq = { s.seq with phase := .idle } ∧ (complete s).status = { s.status with done := true } ∧
      (complete s).outBytes = s.outBytes ∧ (complete s).outBits = s.outBits ∧
      complete s =
        { s with
          seq := { s.seq with phase := .idle }, status := { s.status with done := true }
          obuf := (complete s).obuf, draws := s.draws + 1 }

/-- R161, R370: while ERR is set, every word but 0x00000003 is ignored: the core's step is the completion alone. That
with no move left on `tape` the core takes its turn (the clause for the empty tape) is the model's choice (log 1, DESIGN
CHOICE). -/
def Obligations.ErrGateIgnoresCommands : Prop :=
  ∀ (s : State) (rest : List Move), s.seq.phase = .busy → s.status.err = true → s.seq.cmdWord ≠ 0x00000003 →
    (s.tape = [] → step s = .next (complete s)) ∧
      (s.tape = .core :: rest → step s = .next (complete (s.setTape rest)))

/-- R160, R400: a write to CMD while IDLE latches the word, enters BUSY and clears DONE; while BUSY it is dropped and
sets CMD_LOST. The core has a step only while BUSY: then it performs R161 (an IDLE core's turn changes nothing, which is
the model's form of having no step, log 11). -/
def Obligations.CommandAcceptance : Prop :=
  ∀ (s : State) (w : Word) (rest : List Move),
    (s.tape = .write 32 0x18 w :: rest → s.seq.phase = .idle →
      step s =
        .next
          { s with
            tape := rest, seq := { phase := .busy, cmdWord := w }, status := { s.status with done := false } }) ∧
      (s.tape = .write 32 0x18 w :: rest → s.seq.phase = .busy →
        step s = .next { s with tape := rest, status := { s.status with cmdLost := true } }) ∧
      (s.tape = .core :: rest → s.seq.phase = .busy → step s = commandStep exec (s.setTape rest)) ∧
      (s.tape = .core :: rest → s.seq.phase = .idle → step s = .next (s.setTape rest))

/-- R406: every command completes: it answers a next state, whatever the state and the operands. -/
def Obligations.EveryCommandCompletes : Prop := ∀ (i : Instr) (s : State), ∃ t, exec i s = .next t

/-- R366: a command that ends with ERR set, having started without, ended in the error completion on the state it had
reached: the code, the command word and the reader position are saved, the writer is emptied, UNIT_VALID is cleared, and
of everything else only RES and OBUF change. -/
def Obligations.ErrorCompletionSavesAndDiscards : Prop :=
  (∀ (i : Instr) (s t : State), exec i s = .next t → s.status.err = false → t.status.err = true →
    ∃ (e : ErrCode) (u : State), t = takeError e u ∧ e ≠ .noError ∧ u.seq = s.seq ∧ u.status.err = false ∧
      u.err = s.err) ∧
    ∀ (e : ErrCode) (u : State),
      takeError e u =
        { u with
          status := { u.status with err := true }
          err := { code := e, cmd := u.seq.cmdWord, pos := u.reader.ptr }
          writer := { acc := 0, nbits := 0, outLen := 0 }
          valid := UnitValid.cleared
          res := (takeError e u).res
          obuf := (takeError e u).obuf
          draws := u.draws + 1 }

/-- R33, R39, R41, R91, R94: no command writes CTRL, IN_LEN, IBUF or EXTBUF, and none but ARG_LO and ARG_HI writes ARG;
nor the parameters, the accepted word, the host's moves and its last reply. -/
def Obligations.CommandsLeaveTheHostsState : Prop :=
  ∀ (i : Instr) (s t : State), exec i s = .next t →
    t.ctrl = s.ctrl ∧ t.inLen = s.inLen ∧ t.ibuf = s.ibuf ∧ t.extbuf = s.extbuf ∧ t.params = s.params ∧
      t.seq = s.seq ∧ t.tape = s.tape ∧ t.bus = s.bus ∧
      ((∀ imm, i ≠ .argLo imm ∧ i ≠ .argHi imm) → t.arg = s.arg)

/-- R37, R40, R43, R44: RES is written on success by the six commands R40 lists only, ORIG_SIZE by whole-buffer commands
only (a compress writes IN_LEN to it), EXT_LEN and EXT_OFF by LZW_DECOMPRESS and ARI_DECOMPRESS only, and ERR, ERRCODE,
ERR_CMD and ERR_POS by CLR_ERR and the error completion only. -/
def Obligations.RegistersHaveTheirWriters : Prop :=
  ∀ (i : Instr) (s t : State), exec i s = .next t → s.status.err = false →
    (i.writesRes = false → t.status.err = false → t.res = s.res) ∧
      (i.wholeBuffer = false → t.origSize = s.origSize) ∧
      (i = .hufCompress ∨ i = .lzwCompress ∨ i = .ariCompress → t.status.err = false → t.origSize = s.inLen) ∧
      (i ≠ .lzwDecompress → i ≠ .ariDecompress → t.ext = s.ext) ∧
      (i ≠ .clrErr → t.status.err = false → t.err = s.err)

/-- R34, R36: which commands touch which STATUS bits. No command changes DONE, CMD_LOST or WR_LOST; ANOMALY is set by
ARI_DEC_SYM and ARI_DECOMPRESS at most and cleared by none; RD_OVR is cleared only by BS_RINIT and the decompress
commands; ISBIN_IN and STORED change only in the commands R34 lists, and LZW_EOS in those and in LZW_DECOMPRESS, which
clears it as it starts its decoder (R278). -/
def Obligations.StatusBitsByCommand : Prop :=
  ∀ (i : Instr) (s t : State), exec i s = .next t →
    t.status.done = s.status.done ∧ t.status.cmdLost = s.status.cmdLost ∧ t.status.wrLost = s.status.wrLost ∧
      (s.status.anomaly = true → t.status.anomaly = true) ∧
      (i ≠ .ariDecSym → i ≠ .ariDecompress → t.status.anomaly = s.status.anomaly) ∧
      (i ≠ .bsRinit → i ≠ .hufDecompress → i ≠ .lzwDecompress → i ≠ .ariDecompress →
        s.status.rdOvr = true → t.status.rdOvr = true) ∧
      (i ≠ .hufDecompress → i ≠ .ariDecompress → t.status.isbinIn = s.status.isbinIn) ∧
      (i ≠ .lzwCompress → i ≠ .lzwDecompress → t.status.stored = s.status.stored) ∧
      (i ≠ .lzwDecReset → i ≠ .lzwDecCode → i ≠ .lzwDecompress → t.status.lzwEos = s.status.lzwEos)

/-- R45, R367: a command whose valid bit is missing raises STATE_ERROR on the state it found. -/
def Obligations.MissingStateRaisesStateError : Prop :=
  ∀ (i : Instr) (s : State), i.needs s.valid = false → exec i s = .next (takeError .stateError s)

/-- R45, R168: a whole-buffer command leaves every valid bit clear and the writer empty of held bits. -/
def Obligations.WholeBufferCommandsEndClean : Prop :=
  ∀ (i : Instr) (s t : State), i.wholeBuffer = true → exec i s = .next t →
    t.valid = UnitValid.cleared ∧ t.writer.nbits = 0

/-! ### Host accesses, reset and invariants -/

/-- R92, R95, R96: a host access of the right width and alignment inside a space is carried out; every other one is a
fault of the host, a bus error, in any phase. -/
def Obligations.BusErrorsAreExactlyTheBadAccesses : Prop :=
  ∀ (s : State) (bits off : Nat) (w : Word) (rest : List Move), s.params.Ok →
    (s.tape = .read bits off :: rest →
      (AccessAllowed s.params bits off → ∃ t, step s = .next t) ∧
        (¬ AccessAllowed s.params bits off → ∃ f, step s = .fault f)) ∧
      (s.tape = .write bits off w :: rest →
        (AccessAllowed s.params bits off → ∃ t, step s = .next t) ∧
          (¬ AccessAllowed s.params bits off → ∃ f, step s = .fault f))

/-- R32, R97: a host read changes nothing of the block; while IDLE it returns what the location holds, a reserved offset
0 (the reply and the draw counter are the model's own fields, log 12). -/
def Obligations.ReadsHaveNoSideEffect : Prop :=
  ∀ (s t : State) (bits off : Nat) (rest : List Move), s.tape = .read bits off :: rest → step s = .next t →
    t = { s with tape := rest, bus := t.bus, draws := t.draws } ∧
      (s.seq.phase = .idle →
        (∀ r : Reg, off = r.offset → t.bus = .word (readReg s r)) ∧
          (0x90 ≤ off → off < 0x10000 → t.bus = .word 0) ∧
          ∀ i, (off = 0x10000 + i → off < 0x20000 → t.bus = .byte (s.extbufByte i)) ∧
            (off = 0x1000000 + i → off < 0x2000000 → t.bus = .byte (s.ibufByte i)) ∧
            (off = 0x2000000 + i → off < 0x3000000 → t.bus = .byte (s.obufByte i)))

/-- R32, R33, R34, R43, R97: what a register write does while IDLE: CTRL takes bits 4:0, STATUS clears the W1C bits
written as 1, ARG and IN_LEN take the word and EXT_LEN its low half; read-only and reserved offsets ignore it. A buffer
byte takes the byte, and no other byte changes. -/
def Obligations.WritesHaveTheirLocationsEffect : Prop :=
  ∀ (s t : State) (bits off : Nat) (w : Word) (rest : List Move), s.params.Ok → s.seq.phase = .idle →
    s.tape = .write bits off w :: rest → step s = .next t →
      (off = 0x004 → t = { s with tape := rest, ctrl := t.ctrl } ∧ ctrlWord t.ctrl = w &&& 0x1F) ∧
        (off = 0x008 →
          t = { s with tape := rest, status := t.status } ∧ statusWord t = statusWord s &&& ~~~(w &&& 0x3C2)) ∧
        (off = 0x01C → t = { s with tape := rest, arg := w }) ∧
        (off = 0x024 → t = { s with tape := rest, inLen := w }) ∧
        (off = 0x02C → t = { s with tape := rest, ext := { len := w.extractLsb' 0 16, off := s.ext.off } }) ∧
        (WriteIgnored off → t = { s with tape := rest }) ∧
        ∀ i, (off = 0x10000 + i → off < 0x20000 → t = { s with tape := rest, extbuf := t.extbuf } ∧
            ∀ j, t.extbufByte j = if j = i then w.extractLsb' 0 8 else s.extbufByte j) ∧
          (off = 0x1000000 + i → off < 0x2000000 → t = { s with tape := rest, ibuf := t.ibuf } ∧
            ∀ j, t.ibufByte j = if j = i then w.extractLsb' 0 8 else s.ibufByte j) ∧
          (off = 0x2000000 + i → off < 0x3000000 → t = { s with tape := rest, obuf := t.obuf } ∧
            ∀ j, t.obufByte j = if j = i then w.extractLsb' 0 8 else s.obufByte j)

/-- R401, R402: while BUSY every write but one to CMD is dropped and sets WR_LOST, and a read is exact for the constant
registers and for STATUS.BUSY = 1 and STATUS.DONE = 0. -/
def Obligations.AccessesWhileBusy : Prop :=
  ∀ (s t : State) (rest : List Move), s.seq.phase = .busy → step s = .next t →
    (∀ bits off w, s.tape = .write bits off w :: rest → off ≠ 0x018 →
      t = { s with tape := rest, status := { s.status with wrLost := true } }) ∧
      (s.tape = .read 32 0x000 :: rest → t.bus = .word 0x43550001) ∧
      (s.tape = .read 32 0x084 :: rest → t.bus = .word (BitVec.ofNat 32 s.params.ibufSize)) ∧
      (s.tape = .read 32 0x088 :: rest → t.bus = .word (BitVec.ofNat 32 s.params.obufSize)) ∧
      (s.tape = .read 32 0x08C :: rest → t.bus = .word (BitVec.ofNat 32 s.params.extMax)) ∧
      (s.tape = .read 32 0x008 :: rest →
        ∃ w : Word, t.bus = .word w ∧ w.getLsbD 0 = true ∧ w.getLsbD 1 = false)

/-- R31, R32, R390: reset, from any state, leaves the reset column of the register map, the sequencer IDLE with the
accepted word 0, and IRQ 0. The parameters stay; so do the host's moves to come and its last reply (log 20). -/
def Obligations.ResetValues : Prop :=
  ∀ (s : State) (rest : List Move), s.tape = .reset :: rest →
    ∃ t, step s = .next t ∧ t.seq = { phase := .idle, cmdWord := 0 } ∧ irq t = false ∧ t.params = s.params ∧
      t.tape = rest ∧ t.bus = s.bus ∧ (∀ p ∈ resetNonZero, readWindow t p.1 = p.2) ∧
      (∀ off, off ∉ resetNonZero.map Prod.fst → off ∉ parameterOffsets → readWindow t off = 0) ∧
      readWindow t 0x084 = BitVec.ofNat 32 s.params.ibufSize ∧
      readWindow t 0x088 = BitVec.ofNat 32 s.params.obufSize ∧ readWindow t 0x08C = BitVec.ofNat 32 s.params.extMax

/-- R35, R369: IRQ is DONE and IRQ_EN: it is raised by the end of every command, and cleared by writing 1 to
STATUS.DONE, by the acceptance of a command, and by writing IRQ_EN = 0. -/
def Obligations.InterruptOutput : Prop :=
  ∀ (s t : State) (rest : List Move) (w : Word), step s = .next t →
    (s.seq.phase = .busy → s.tape = .core :: rest → irq t = s.ctrl.irqEn ∧ t.seq.phase = .idle) ∧
      (s.seq.phase = .idle → s.tape = .write 32 0x008 w :: rest → irq t = (irq s && !w.getLsbD 1)) ∧
      (s.seq.phase = .idle → s.tape = .write 32 0x018 w :: rest → irq t = false) ∧
      (s.seq.phase = .idle → s.tape = .write 32 0x004 w :: rest → irq t = (s.status.done && w.getLsbD 4))

/-- R390, R56: the invariants below hold right after reset, whatever the block's parameters (within R8), the draw and
the host's moves. -/
def Obligations.InvariantsHoldAtReset : Prop :=
  ∀ (p : Params) (draw : Nat) (tape : List Move) (bus : BusReply), p.Ok →
    (State.resetWith p draw tape bus).Sound ∧ (State.resetWith p draw tape bus).LzwSound ∧
      (State.resetWith p draw tape bus).HufSound ∧ (State.resetWith p draw tape bus).AriSound

/-- R37, R42, R46, R90, R160, R184: every step, of the core or of the host, keeps the buffers in canonical form and in
their sizes, OUT_LEN within OBUF and its output written, the accumulator's unused bits 0, RD_END within IBUF, DONE clear
while BUSY, and the error registers 0 exactly while ERR is 0. -/
def Obligations.StepKeepsSound : Prop := ∀ s t : State, s.Sound → step s = .next t → t.Sound

/-- R50, R51, R52, R56, R263: every step keeps the LZW unit's invariant: E_NEXT and D_NEXT lie in 258 to 4096, E_WIDTH
is 12 or E_NEXT's width, a valid pattern's code stands for a string, and in an open session every assigned code has an
entry whose prefix is below it and stands for a string, the encoder's entries are distinct, and the decoder's previous
code stands for a string. -/
def Obligations.StepKeepsLzwSound : Prop := ∀ s t : State, s.LzwSound → step s = .next t → t.LzwSound

/-- R48, R49, R212, R213, R215: every step keeps the Huffman unit's invariant: a valid tree exists, has at most 511
nodes and NODECNT counts them; valid codes have at most 255 bits; a valid table's counts sum to at most IBUF_SIZE. -/
def Obligations.StepKeepsHufSound : Prop := ∀ s t : State, s.HufSound → step s = .next t → t.HufSound

/-- R53, R54, R56, R310, R319, R325: every step keeps the arithmetic unit's invariant: a valid model's intervals are
those of its counts, an open session's bounds are settled, and a decoder's VALUE lies within them. -/
def Obligations.StepKeepsAriSound : Prop := ∀ s t : State, s.AriSound → step s = .next t → t.AriSound

/-! ### Control and bit stream -/

/-- R162, R163, R164, R165, R127: ARG_LO and ARG_HI write one half of ARG and nothing else (so LI32 loads any word),
CLR_ERR clears ERR and the error registers and nothing else, NOP changes nothing. -/
def Obligations.ControlCommands : Prop :=
  (∀ (imm : BitVec 16) (s : State), ∃ t, exec (.argLo imm) s = .next t ∧ t = s.setArg t.arg ∧
    t.arg.extractLsb' 0 16 = imm ∧ t.arg.extractLsb' 16 16 = s.arg.extractLsb' 16 16) ∧
    (∀ (imm : BitVec 16) (s : State), ∃ t, exec (.argHi imm) s = .next t ∧ t = s.setArg t.arg ∧
      t.arg.extractLsb' 16 16 = imm ∧ t.arg.extractLsb' 0 16 = s.arg.extractLsb' 0 16) ∧
    (∀ (v : Word) (s : State), expandPseudo (.li32 v) = [.argLo (v.extractLsb' 0 16), .argHi (v.extractLsb' 16 16)] ∧
      ∃ t, exec (.argLo (v.extractLsb' 0 16)) s = .next t ∧
        exec (.argHi (v.extractLsb' 16 16)) t = .next (s.setArg v)) ∧
    (∀ s : State, exec .clrErr s =
      .next { s with status := { s.status with err := false }, err := { code := .noError, cmd := 0, pos := 0 } }) ∧
    ∀ s : State, exec .nop s = .next s

/-- R180, R262, R266, R314, R318: the commands that start a stream or a session, with everything they leave. -/
def Obligations.SessionStarts : Prop :=
  ∀ s : State,
    exec .bsWinit s = .next { s with writer := { acc := 0, nbits := 0, outLen := 0 } } ∧
      exec .lzwEncReset s =
        .next
          { s with
            lzwE :=
              { s.lzwE with
                next := 258, width := (if s.ctrl.lzwFixed12 then 12 else 9), pat := 0, patV := false }
            valid := { s.valid with lzwE := true } } ∧
      exec .lzwDecReset s =
        .next
          { s with
            lzwD := { s.lzwD with next := 258, prev := 0, prevV := false }
            status := { s.status with lzwEos := false }
            valid := { s.valid with lzwD := true } } ∧
      exec .ariEncInit s =
        .next
          { s with
            ari := { s.ari with low := 0, high := 0xFFFFFFFF, pending := 0 }
            valid := { s.valid with ariEnc := true, ariDec := false } } ∧
      exec .ariDecInit s =
        .next
          (((s.afterRead 32).setAri
              { s.ari with low := 0, high := 0xFFFFFFFF, value := BitVec.ofNat 32 (bitsValue (s.inBits 32)) }).setValid
            { s.valid with ariDec := true, ariEnc := false })

/-- R181, R188, R189: BS_WRITE and BS_WRITEI append the low CNT bits of ARG or of the immediate, most significant first,
when OBUF takes them; nothing else changes. -/
def Obligations.WriteCommandsAppendBits : Prop :=
  (∀ (cnt : BitVec 6) (s : State), WellFormed (.bsWrite cnt) → s.Room cnt.toNat →
    ∃ t, exec (.bsWrite cnt) s = .next t ∧ Writes (wordBits s.arg cnt.toNat) s t) ∧
    ∀ (cnt : BitVec 6) (imm : BitVec 16) (s : State), WellFormed (.bsWritei cnt imm) → s.Room cnt.toNat →
      ∃ t, exec (.bsWritei cnt imm) s = .next t ∧ Writes (wordBits (imm.setWidth 32) cnt.toNat) s t

/-- R182, R190: BS_FLUSH pads the held bits with zeros to a byte and writes it; on an aligned writer it does nothing. -/
def Obligations.FlushPadsTheHeldBits : Prop :=
  ∀ s : State,
    (s.writer.nbits = 0 → exec .bsFlush s = .next s) ∧
      (s.Room ((8 - s.writer.nbits.toNat) % 8) →
        ∃ t, exec .bsFlush s = .next t ∧
          Writes (List.replicate ((8 - s.writer.nbits.toNat) % 8) false) s t ∧ t.writer.nbits = 0)

/-- R181, R365, R366: a byte that falls due with `OUT_LEN = OBUF_SIZE` ends BS_WRITE, BS_WRITEI and BS_FLUSH in
IO_FAILURE; the state the error completion works on differs from the one before in the writer and OBUF only. -/
def Obligations.FullOutputRaisesIoFailure : Prop :=
  ∀ s : State, s.params.Ok → s.writer.outLen.toNat ≤ s.params.obufSize →
    (∀ cnt : BitVec 6, ¬ s.Room cnt.toNat →
      ∃ u, exec (.bsWrite cnt) s = .next (takeError .ioFailure u) ∧ u = (s.setWriter u.writer).setObuf u.obuf) ∧
      (∀ (cnt : BitVec 6) (imm : BitVec 16), ¬ s.Room cnt.toNat →
        ∃ u, exec (.bsWritei cnt imm) s = .next (takeError .ioFailure u) ∧
          u = (s.setWriter u.writer).setObuf u.obuf) ∧
      (¬ s.Room ((8 - s.writer.nbits.toNat) % 8) → exec .bsFlush s = .next (takeError .ioFailure s))

/-- R166, R183: BS_RINIT places the reader at ARG with the end at IN_LEN and clears RD_OVR; with IN_LEN above IBUF_SIZE
it raises IO_FAILURE. -/
def Obligations.ReaderStart : Prop :=
  ∀ s : State,
    (s.inLen.toNat ≤ s.params.ibufSize →
      exec .bsRinit s =
        .next
          { s with
            reader := { ptr := s.arg, bit := 0, fin := s.inLen }, status := { s.status with rdOvr := false } }) ∧
      (s.params.ibufSize < s.inLen.toNat → exec .bsRinit s = .next (takeError .ioFailure s))

/-- R184, R185, R186, R191, R192: BS_READ gives the next CNT bits as a number, zeros beyond RD_END, moves the reader by
CNT bits and sets RD_OVR if one of them lay at or beyond RD_END; BS_ALIGN moves the reader to the next byte boundary.
Nothing else changes. -/
def Obligations.ReaderCommands : Prop :=
  (∀ (cnt : BitVec 6) (s : State), WellFormed (.bsRead cnt) →
    exec (.bsRead cnt) s =
      .next ((s.afterRead cnt.toNat).setRes (BitVec.ofNat 32 (bitsValue (s.inBits cnt.toNat))))) ∧
    ∀ s : State, exec .bsAlign s = .next (s.setReader (s.reader.advance ((8 - s.reader.bit.toNat) % 8)))

/-! ### Huffman -/

/-- R166, R210: HUF_FREQ counts the input's bytes, sets FREQ_V and clears TREE_V and CODES_V; with IN_LEN above
IBUF_SIZE it raises IO_FAILURE. -/
def Obligations.HufFreqCounts : Prop :=
  ∀ s : State,
    (s.inLen.toNat ≤ s.params.ibufSize →
      ∃ t, exec .hufFreq s = .next t ∧
        t = (s.setHuf { s.huf with freq := t.huf.freq }).setValid
          { s.valid with freq := true, tree := false, codes := false } ∧
        ∀ i, i < 256 → (t.huf.freqAt i).toNat = occurrences s.input i) ∧
      (s.params.ibufSize < s.inLen.toNat → exec .hufFreq s = .next (takeError .ioFailure s))

/-- R211, R212, R361: HUF_TREE builds the tree of BuildTree from the table, with `2n - 1` nodes for `n` symbols and the
last one the root; an empty table raises EMPTY_INPUT. -/
def Obligations.HufTreeBuilds : Prop :=
  ∀ (s : State) (count : Nat → Nat), s.valid.freq = true → (∀ i, i < 256 → (s.huf.freqAt i).toNat = count i) →
    ((List.range 256).map count).sum < 2 ^ 32 →
    (observedSymbols count ≠ [] →
      ∃ t T, exec .hufTree s = .next t ∧ t.huf.tree = some T ∧ BuiltFrom count T ∧
        t.huf.nodeCnt.toNat = 2 * (observedSymbols count).length - 1 ∧
        t.huf.root.toNat = 2 * (observedSymbols count).length - 2 ∧
        t = (s.setHuf
          { s.huf with
            node := t.huf.node, nodeWt := t.huf.nodeWt, nodeCnt := t.huf.nodeCnt, root := t.huf.root }).setValid
          { s.valid with tree := true, codes := false }) ∧
      (observedSymbols count = [] → exec .hufTree s = .next (takeError .emptyInput s))

/-- R213: HUF_CODES gives every symbol its code under the tree: the path to its last leaf in pre-order, "0" under a
leaf root, no code for a symbol the tree does not hold. -/
def Obligations.HufCodesArePaths : Prop :=
  ∀ (s : State) (T : HTree), s.valid.tree = true → s.huf.tree = some T →
    ∃ t, exec .hufCodes s = .next t ∧
      t = (s.setHuf { s.huf with code := t.huf.code }).setValid { s.valid with codes := true } ∧
      ∀ v : Byte, t.huf.codeAt v.toNat = T.codeFor v

/-- R130, R214: HUF_SERTREE writes the tree's pre-order serialization, `10k - 1` bits for `k` leaves. -/
def Obligations.HufSertreeWritesTheTree : Prop :=
  ∀ (s : State) (T : HTree), s.valid.tree = true → s.huf.tree = some T → s.Room (treeBits T).length →
    (treeBits T).length + 1 = 10 * T.leaves.length ∧
      ∃ t, exec .hufSertree s = .next t ∧ Writes (treeBits T) s t

/-- R215, R224, R362: HUF_DESTREE reads back exactly the bits of any tree of at most 511 nodes, NODECNT counting them
and the root at 0; a bit string that is no such tree's raises CORRUPT_TREE, on a state that differs in the reader,
RD_OVR and the Huffman unit only. -/
def Obligations.HufDestreeRebuilds : Prop :=
  ∀ s : State,
    (∀ T : HTree, T.nodes ≤ 511 → s.inBits (treeBits T).length = treeBits T →
      ∃ t, exec .hufDestree s = .next t ∧ t.huf.tree = some T ∧ t.huf.nodeCnt.toNat = T.nodes ∧ t.huf.root = 0 ∧
        t = ((s.afterRead (treeBits T).length).setHuf
          { s.huf with node := t.huf.node, nodeCnt := t.huf.nodeCnt, root := t.huf.root }).setValid
          { s.valid with tree := true, freq := false, codes := false }) ∧
      ((∀ T : HTree, T.nodes ≤ 511 → s.inBits (treeBits T).length ≠ treeBits T) →
        ∃ u, u = ((s.setReader u.reader).setRdOvr u.status.rdOvr).setHuf u.huf ∧
          exec .hufDestree s = .next (takeError .corruptTree u))

/-- R216: HUF_ENCSYM writes the symbol's code, first bit first; a symbol with no code raises STATE_ERROR. -/
def Obligations.HufEncsymWritesTheCode : Prop :=
  ∀ (v : Byte) (s : State), s.valid.codes = true →
    (s.huf.codeAt v.toNat ≠ [] → s.Room (s.huf.codeAt v.toNat).length →
      ∃ t, exec (.hufEncsym v) s = .next t ∧ Writes (s.huf.codeAt v.toNat) s t) ∧
      (s.huf.codeAt v.toNat = [] → exec (.hufEncsym v) s = .next (takeError .stateError s))

/-- R217: HUF_DECSYM walks from the root by the next bits, 0 left and 1 right, and gives the value of the leaf it ends
at; it reads the bits of that path and no more. -/
def Obligations.HufDecsymWalksTheTree : Prop :=
  ∀ (s : State) (T : HTree), s.valid.tree = true → s.huf.tree = some T →
    ∃ p v, T.Reaches p v ∧ s.inBits p.length = p ∧
      exec .hufDecsym s = .next ((s.afterRead p.length).setRes (v.setWidth 32))

/-- R218, R219: HUF_FREQ_RD and HUF_CODELEN give a count and a code's length in RES. -/
def Obligations.HufObservers : Prop :=
  ∀ (v : Byte) (s : State),
    (s.valid.freq = true → exec (.hufFreqRd v) s = .next (s.setRes (s.huf.freqAt v.toNat))) ∧
      (s.valid.codes = true →
        exec (.hufCodelen v) s = .next (s.setRes (BitVec.ofNat 32 (s.huf.codeAt v.toNat).length)))

/-- R220: after HUF_FREQ, HUF_TREE and HUF_CODES every byte of the input has a code of at least one bit, and no code of
one byte is the beginning of the code of another. -/
def Obligations.HufCodesArePrefixFree : Prop :=
  ∀ s t u v : State, s.inLen.toNat ≤ s.params.ibufSize → exec .hufFreq s = .next t → exec .hufTree t = .next u →
    u.status.err = false → exec .hufCodes u = .next v →
    (∀ a ∈ s.input, v.huf.codeAt a.toNat ≠ []) ∧
      ∀ a ∈ s.input, ∀ b ∈ s.input, v.huf.codeAt a.toNat <+: v.huf.codeAt b.toNat → a = b

/-- R129, R221: HUF_COMPRESS writes the Huffman container of its input under the tree of BuildTree, when OBUF takes it. -/
def Obligations.HufCompressWritesTheContainer : Prop :=
  ∀ s : State, s.inLen.toNat ≤ s.params.ibufSize →
    (s.input = [] → s.Holds 48 →
      ∃ t, exec .hufCompress s = .next t ∧ CallEnds s t ∧ t.status = s.status ∧ t.ext = s.ext ∧
        t.origSize = s.inLen ∧ bytesBits t.outBytes = hufEmptyContainer s.ctrl.isbin) ∧
      (s.params.Ok → s.input ≠ [] →
        ∃ T, BuiltFrom (occurrences s.input) T ∧
          (s.Holds (hufContainer s.ctrl.isbin T s.input).length →
            ∃ t, exec .hufCompress s = .next t ∧ CallEnds s t ∧ t.status = s.status ∧ t.ext = s.ext ∧
              t.origSize = s.inLen ∧ bytesBits t.outBytes = hufContainer s.ctrl.isbin T s.input))

/-- R129, R222: HUF_DECOMPRESS of a container gives its data: nothing for originalSize 0; the leaf's value repeated
under a leaf root, whatever the payload; under an internal root the bytes the payload spells, any bits that follow them
ignored. -/
def Obligations.HufDecompressReadsTheContainer : Prop :=
  ∀ (s : State) (f : Byte), s.params.Ok → s.inLen.toNat ≤ s.params.ibufSize →
    (∀ rest, s.inputBits = byteBits f ++ wordBits 0 32 ++ rest →
      ∃ t, exec .hufDecompress s = .next t ∧ CallEnds s t ∧ t.ext = s.ext ∧ t.origSize = 0 ∧ t.outBytes = [] ∧
        t.status = { s.status with isbinIn := decide (f ≠ 0), rdOvr := false }) ∧
      (∀ (n : Word) (v : Byte) (pad pay : List Bool) (tr : Byte), n ≠ 0 → n.toNat ≤ s.params.obufSize →
        pad.length = 7 → tr.toNat ≤ 7 →
        s.inputBits = byteBits f ++ wordBits n 32 ++ (treeBits (.leaf v) ++ pad) ++ pay ++ byteBits tr →
        ∃ t, exec .hufDecompress s = .next t ∧ CallEnds s t ∧ t.ext = s.ext ∧ t.origSize = n ∧
          t.outBytes = List.replicate n.toNat v ∧
          t.status = { s.status with isbinIn := decide (f ≠ 0), rdOvr := false }) ∧
      ∀ (l r : HTree) (pad pay more tail : List Bool) (data : List Byte),
        (HTree.internal l r).nodes ≤ 511 → (HTree.internal l r).Spells pay data → data ≠ [] →
        data.length ≤ s.params.obufSize → pad.length < 8 → (treeBits (.internal l r) ++ pad).length % 8 = 0 →
        tail.length < 8 → (pay ++ more ++ tail).length % 8 = 0 →
        s.inputBits =
          byteBits f ++ wordBits (BitVec.ofNat 32 data.length) 32 ++ (treeBits (.internal l r) ++ pad) ++
            (pay ++ more ++ tail) ++ byteBits (BitVec.ofNat 8 ((pay ++ more).length % 8)) →
        ∃ t, exec .hufDecompress s = .next t ∧ CallEnds s t ∧ t.ext = s.ext ∧
          t.origSize = BitVec.ofNat 32 data.length ∧ t.outBytes = data ∧
          t.status = { s.status with isbinIn := decide (f ≠ 0), rdOvr := false }

/-- R224: HUF_DECOMPRESS of what HUF_COMPRESS wrote gives the input back. -/
def Obligations.HufRoundTrip : Prop :=
  ∀ s t u : State, s.params.Ok → s.inLen.toNat ≤ s.params.ibufSize → s.status.err = false →
    exec .hufCompress s = .next t → t.status.err = false → HandsOver t u s.inLen.toNat →
    ∃ v, exec .hufDecompress u = .next v ∧ v.status.err = u.status.err ∧ v.outBytes = s.input ∧
      v.origSize = s.inLen ∧ v.status.isbinIn = s.ctrl.isbin

/-! ### LZW -/

/-- R261, R263, R264, R403: LZW_ENC_BYTE's four cases: it starts a pattern; extends it to a known entry; writes the pattern's
code in the current width and assigns the next code; or, with the dictionary full, writes the pattern's code and CLEAR
and starts the dictionary again. The width `w` is EncWidth() under the flag of this command, also where LZW_FIXED12 has
changed since U.E_WIDTH was set: there R403 is followed before R261's `current U.E_WIDTH` (log 25, DEDUCED). -/
def Obligations.LzwEncByteFeeds : Prop :=
  ∀ (c : Byte) (s : State) (w : Nat), s.valid.lzwE = true → s.LzwSound →
    w = (if s.ctrl.lzwFixed12 then 12 else widthFor s.lzwE.next.toNat) →
    (s.lzwE.patV = false →
      exec (.lzwEncByte c) s = .next (s.setLzwE { s.lzwE with pat := c.setWidth 12, patV := true })) ∧
      (∀ x, s.lzwE.patV = true → 258 ≤ x → x < s.lzwE.next.toNat → s.lzwE.entryAt x = { pre := s.lzwE.pat, suf := c } →
        exec (.lzwEncByte c) s = .next (s.setLzwE { s.lzwE with pat := BitVec.ofNat 12 x })) ∧
      (s.lzwE.patV = true →
        (∀ x, 258 ≤ x → x < s.lzwE.next.toNat → s.lzwE.entryAt x ≠ { pre := s.lzwE.pat, suf := c }) →
        (s.lzwE.next.toNat < 4096 → s.Room w →
          ∃ u t, exec (.lzwEncByte c) s = .next t ∧
            Writes (wordBits (s.lzwE.pat.setWidth 32) w) s u ∧
            t = u.setLzwE
              { dict := t.lzwE.dict, next := s.lzwE.next + 1
                width := BitVec.ofNat 4 (if s.ctrl.lzwFixed12 then 12 else widthFor (s.lzwE.next.toNat + 1))
                pat := c.setWidth 12, patV := true } ∧
            t.lzwE.entryAt s.lzwE.next.toNat = { pre := s.lzwE.pat, suf := c } ∧
            ∀ x, x ≠ s.lzwE.next.toNat → t.lzwE.entryAt x = s.lzwE.entryAt x) ∧
          (s.lzwE.next.toNat = 4096 → s.Room (2 * w) →
            ∃ u, Writes (wordBits (s.lzwE.pat.setWidth 32) w ++ wordBits 257 w) s u ∧
              exec (.lzwEncByte c) s =
                .next
                  (u.setLzwE
                    { s.lzwE with
                      next := 258, width := (if s.ctrl.lzwFixed12 then 12 else 9), pat := c.setWidth 12 })))

/-- R265: LZW_ENC_END writes the remaining pattern's code, if there is one, then EOS, and closes the session. The width
`w` is EncWidth() under the flag of this command, as in `LzwEncByteFeeds` (R261, R403; log 25, DEDUCED). -/
def Obligations.LzwEncEndCloses : Prop :=
  ∀ (s : State) (w : Nat), s.valid.lzwE = true →
    w = (if s.ctrl.lzwFixed12 then 12 else widthFor s.lzwE.next.toNat) →
    s.Room ((if s.lzwE.patV then 2 else 1) * w) →
    ∃ u, Writes ((if s.lzwE.patV then wordBits (s.lzwE.pat.setWidth 32) w else []) ++ wordBits 256 w) s u ∧
      exec .lzwEncEnd s =
        .next ((u.setLzwE { s.lzwE with patV := false }).setValid { s.valid with lzwE := false })

/-- R267, R269 to R274: LZW_DEC_CODE reads one code in the decoder's width and gives it in RES; EOS closes the session,
CLEAR empties the dictionary, a code that resolves to a string writes it and assigns the next code to the previous string
with its first byte, an invalid code or an insertion into a full dictionary raises CORRUPT_STREAM. -/
def Obligations.LzwDecCodeResolves : Prop :=
  ∀ (s : State) (w c : Nat), s.valid.lzwD = true → s.LzwSound →
    w = (if s.ctrl.lzwFixed12 then 12 else widthFor (min (s.lzwD.next.toNat + s.lzwD.prevV.toNat) 4096)) →
    c = bitsValue (s.inBits w) →
    (c = 256 →
      exec .lzwDecCode s =
        .next ((((s.afterRead w).setRes 256).setLzwEos true).setValid { s.valid with lzwD := false })) ∧
      (c = 257 →
        exec .lzwDecCode s =
          .next (((s.afterRead w).setRes 257).setLzwD { s.lzwD with next := 258, prevV := false })) ∧
      (∀ l, s.lzwD.Resolves c l → (s.lzwD.prevV = true → s.lzwD.next.toNat < 4096) → s.Room (8 * l.length) →
        ∃ u t, exec .lzwDecCode s = .next t ∧
          Writes (bytesBits l) ((s.afterRead w).setRes (BitVec.ofNat 32 c)) u ∧
          t = u.setLzwD t.lzwD ∧ t.lzwD.prev.toNat = c ∧ t.lzwD.prevV = true ∧
          (s.lzwD.prevV = false → t.lzwD.next = s.lzwD.next ∧ t.lzwD.dict = s.lzwD.dict) ∧
          (s.lzwD.prevV = true → t.lzwD.next = s.lzwD.next + 1 ∧
            t.lzwD.entryAt s.lzwD.next.toNat = { pre := s.lzwD.prev, suf := l.headD 0 } ∧
            ∀ x, x ≠ s.lzwD.next.toNat → t.lzwD.entryAt x = s.lzwD.entryAt x)) ∧
      ((c ≠ 256 ∧ c ≠ 257 ∧ ∀ l, ¬ s.lzwD.Resolves c l) ∨
          ((∃ l, s.lzwD.Resolves c l) ∧ s.lzwD.prevV = true ∧ s.lzwD.next.toNat = 4096) →
        exec .lzwDecCode s =
          .next (takeError .corruptStream ((s.afterRead w).setRes (BitVec.ofNat 32 c))))

/-- R131, R132, R277: LZW_COMPRESS writes the LZW container of its input and extension string: the stored form if the
fallback is on and the code stream is not smaller, else the compressed form. -/
def Obligations.LzwCompressWritesTheContainer : Prop :=
  ∀ (s : State) (stored : Bool) (out : List Bool), s.LzwSound → s.inLen.toNat ≤ s.params.ibufSize →
    s.ext.len.toNat ≤ s.params.extMax →
    stored = (s.ctrl.lzwFallbackEn && decide (s.input.length ≤ lzwBytes s.ctrl.lzwFixed12 s.input)) →
    out =
      (if stored then lzwStored s.extension s.input
      else lzwCompressed s.ctrl.lzwFixed12 s.extension s.input) →
    s.Holds out.length →
    ∃ t, exec .lzwCompress s = .next t ∧ CallEnds s t ∧ t.status = { s.status with stored := stored } ∧
      t.ext = s.ext ∧ t.origSize = s.inLen ∧ bytesBits t.outBytes = out

/-- R131, R276, R278: LZW_DECOMPRESS of a container gives its data, whatever follows it: the stored bytes, or the bytes
whose code stream the payload holds. -/
def Obligations.LzwDecompressReadsTheContainer : Prop :=
  ∀ (s : State) (ext data : List Byte) (rest : List Bool), s.params.Ok → s.inLen.toNat ≤ s.params.ibufSize →
    ext.length < 2 ^ 16 → data.length ≤ s.params.obufSize →
    (s.inputBits = lzwStored ext data ++ rest →
      ∃ t, exec .lzwDecompress s = .next t ∧ CallEnds s t ∧ t.outBytes = data ∧
        t.origSize = BitVec.ofNat 32 data.length ∧ t.ext = { len := BitVec.ofNat 16 ext.length, off := 2 } ∧
        t.status = { s.status with stored := true, rdOvr := false }) ∧
      (s.inputBits = lzwCompressed s.ctrl.lzwFixed12 ext data ++ rest →
        ∃ t, exec .lzwDecompress s = .next t ∧ CallEnds s t ∧ t.outBytes = data ∧
          t.origSize = BitVec.ofNat 32 data.length ∧ t.ext = { len := BitVec.ofNat 16 ext.length, off := 2 } ∧
          t.status = { s.status with stored := false, lzwEos := false, rdOvr := false })

/-- R276, R277, R278: LZW_DECOMPRESS of what LZW_COMPRESS wrote gives the input back, LZW_FIXED12 being the same. -/
def Obligations.LzwRoundTrip : Prop :=
  ∀ s t u : State, s.params.Ok → s.LzwSound → s.inLen.toNat ≤ s.params.ibufSize → s.status.err = false →
    exec .lzwCompress s = .next t → t.status.err = false → HandsOver t u s.inLen.toNat →
    u.ctrl.lzwFixed12 = s.ctrl.lzwFixed12 →
    ∃ v, exec .lzwDecompress u = .next v ∧ v.status.err = u.status.err ∧ v.outBytes = s.input ∧
      v.origSize = s.inLen ∧ v.ext.len = s.ext.len ∧ v.status.stored = t.status.stored

/-! ### Arithmetic coder -/

/-- R53, R310, R312: ARI_MODEL builds the model of the input's bytes and ends the open sessions; the count intervals of
a model partition `[0, TOTAL)`. IN_LEN above IBUF_SIZE raises IO_FAILURE. -/
def Obligations.AriModelPartitions : Prop :=
  (∀ s : State, s.params.Ok → s.inLen.toNat ≤ s.params.ibufSize →
    ∃ t, exec .ariModel s = .next t ∧ t.ari.HoldsModel (occurrences s.input) ∧
      t = (s.setAri
        { s.ari with occ := t.ari.occ, cnt := t.ari.cnt, cum := t.ari.cum, total := t.ari.total }).setValid
        { s.valid with ariModel := true, ariEnc := false, ariDec := false }) ∧
    (∀ s : State, s.params.ibufSize < s.inLen.toNat → exec .ariModel s = .next (takeError .ioFailure s)) ∧
    ∀ (a : Arith) (occ : Nat → Nat) (v : Nat), a.HoldsModel occ → v < a.total.toNat →
      ∃ i, i ≤ 256 ∧ ((a.cumAt i).toNat ≤ v ∧ v < (a.cumAt (i + 1)).toNat) ∧
        ∀ j, j ≤ 256 → (a.cumAt j).toNat ≤ v → v < (a.cumAt (j + 1)).toNat → j = i

/-- R134, R313, R322: ARI_WRTBL writes the model's table, and ARI_RDTBL of a table whose counts sum to at most ARI_MAX
builds the model from it, having read exactly its bits. -/
def Obligations.AriTables : Prop :=
  (∀ (s : State) (occ : Nat → Nat), s.valid.ariModel = true → s.ari.HoldsModel occ → s.Room (tableBits occ).length →
    ∃ t, exec .ariWrtbl s = .next t ∧ Writes (tableBits occ) s t) ∧
    ∀ (s : State) (occ : Nat → Nat), ((List.range 256).map occ).sum ≤ Config.ariMax →
      s.inBits (tableBits occ).length = tableBits occ →
      ∃ t, exec .ariRdtbl s = .next t ∧ t.ari.HoldsModel occ ∧
        t = ((s.afterRead (tableBits occ).length).setAri
          { s.ari with occ := t.ari.occ, cnt := t.ari.cnt, cum := t.ari.cum, total := t.ari.total }).setValid
          { s.valid with ariModel := true, ariEnc := false, ariDec := false }

/-- R311, R315, R316, R325: ARI_ENC_SYM narrows the bounds to the symbol's share and rescales, in at most 32 passes,
writing the resolved bits; the bounds are settled again. -/
def Obligations.AriEncSymNarrows : Prop :=
  ∀ (sym : BitVec 9) (s : State) (occ : Nat → Nat), WellFormed (.ariEncSym sym) → s.valid.ariModel = true →
    s.valid.ariEnc = true → s.ari.HoldsModel occ → Settled s.ari.low.toNat s.ari.high.toNat →
    s.ari.pending.toNat + 32 < 2 ^ 64 →
    ∃ cs l h,
      Rescales (narrowLow s.ari.low.toNat s.ari.high.toNat (modelCum occ sym.toNat) (modelCum occ 257))
        (narrowHigh s.ari.low.toNat s.ari.high.toNat (modelCum occ (sym.toNat + 1)) (modelCum occ 257)) cs l h ∧
      Settled l h ∧ cs.length ≤ 32 ∧
      (s.Room (rescaleBits s.ari.pending.toNat cs).length →
        ∃ u, Writes (rescaleBits s.ari.pending.toNat cs) s u ∧
          exec (.ariEncSym sym) s =
            .next
              (u.setAri
                { s.ari with
                  low := BitVec.ofNat 32 l, high := BitVec.ofNat 32 h
                  pending := BitVec.ofNat 64 (rescalePending s.ari.pending.toNat cs) }))

/-- R317: ARI_ENC_FLUSH writes one bit that says whether LOW is below a quarter and `PENDING + 1` complements of it, and
closes the session. -/
def Obligations.AriEncFlushResolves : Prop :=
  ∀ s : State, s.valid.ariEnc = true → s.ari.pending.toNat + 1 < 2 ^ 64 → s.Room (s.ari.pending.toNat + 2) →
    ∃ u, Writes
        (decide (0x40000000 ≤ s.ari.low.toNat) ::
          List.replicate (s.ari.pending.toNat + 1) (!decide (0x40000000 ≤ s.ari.low.toNat))) s u ∧
      exec .ariEncFlush s = .next ((u.setAri { s.ari with pending := 0 }).setValid { s.valid with ariEnc := false })

/-- R311, R319, R320, R321: ARI_DEC_SYM finds the one symbol whose count interval holds the scaled value and gives it in
RES; EOF closes the session, any other symbol narrows and rescales, one input bit shifted into VALUE for each case, and
VALUE stays within the settled bounds. No lookup misses. -/
def Obligations.AriDecSymFinds : Prop :=
  ∀ (s : State) (occ : Nat → Nat), s.valid.ariModel = true → s.valid.ariDec = true → s.ari.HoldsModel occ →
    Settled s.ari.low.toNat s.ari.high.toNat → s.ari.low.toNat ≤ s.ari.value.toNat →
    s.ari.value.toNat ≤ s.ari.high.toNat →
    ∃ sym, sym ≤ 256 ∧
      modelCum occ sym ≤
        ((s.ari.value.toNat - s.ari.low.toNat + 1) * modelCum occ 257 - 1) /
          (s.ari.high.toNat - s.ari.low.toNat + 1) ∧
      ((s.ari.value.toNat - s.ari.low.toNat + 1) * modelCum occ 257 - 1) /
          (s.ari.high.toNat - s.ari.low.toNat + 1) < modelCum occ (sym + 1) ∧
      (sym = 256 →
        exec .ariDecSym s = .next ((s.setRes 256).setValid { s.valid with ariDec := false })) ∧
      (sym ≠ 256 →
        ∃ cs l h v,
          Rescales (narrowLow s.ari.low.toNat s.ari.high.toNat (modelCum occ sym) (modelCum occ 257))
            (narrowHigh s.ari.low.toNat s.ari.high.toNat (modelCum occ (sym + 1)) (modelCum occ 257)) cs l h ∧
          Settled l h ∧ v = rescaleValue s.ari.value.toNat cs (s.inBits cs.length) ∧ l ≤ v ∧ v ≤ h ∧
          exec .ariDecSym s =
            .next
              (((s.setRes (BitVec.ofNat 32 sym)).afterRead cs.length).setAri
                { s.ari with
                  low := BitVec.ofNat 32 l, high := BitVec.ofNat 32 h, value := BitVec.ofNat 32 v }))

/-- R133, R135, R323: ARI_COMPRESS writes the arithmetic container of its input and extension string, its bit stream
that of the input's symbols and EOF under the input's own model. -/
def Obligations.AriCompressWritesTheContainer : Prop :=
  ∀ s : State, s.params.Ok → s.inLen.toNat ≤ s.params.ibufSize → s.ext.len.toNat ≤ s.params.extMax →
    ∃ bits, RangeStream s.input bits ∧
      (s.Holds (ariHeader (boolByte s.ctrl.isbin) s.extension s.input ++ zeroPad bits).length →
        ∃ t, exec .ariCompress s = .next t ∧ CallEnds s t ∧ t.status = s.status ∧ t.ext = s.ext ∧
          t.origSize = s.inLen ∧
          bytesBits t.outBytes = ariHeader (boolByte s.ctrl.isbin) s.extension s.input ++ zeroPad bits)

/-- R133, R324, R325: ARI_DECOMPRESS of a container gives its data, whatever follows its bit stream. -/
def Obligations.AriDecompressReadsTheContainer : Prop :=
  ∀ (s : State) (f : Byte) (ext data : List Byte) (bits rest : List Bool), s.params.Ok →
    s.inLen.toNat ≤ s.params.ibufSize → ext.length < 2 ^ 16 → data.length ≤ s.params.obufSize →
    RangeStream data bits → s.inputBits = ariHeader f ext data ++ bits ++ rest →
    ∃ t, exec .ariDecompress s = .next t ∧ CallEnds s t ∧ t.outBytes = data ∧
      t.origSize = BitVec.ofNat 32 data.length ∧ t.ext = { len := BitVec.ofNat 16 ext.length, off := 3 } ∧
      t.status = { s.status with isbinIn := decide (f ≠ 0), rdOvr := t.status.rdOvr }

/-- R325: ARI_DECOMPRESS of what ARI_COMPRESS wrote gives the input back. -/
def Obligations.AriRoundTrip : Prop :=
  ∀ s t u : State, s.params.Ok → s.inLen.toNat ≤ s.params.ibufSize → s.status.err = false →
    exec .ariCompress s = .next t → t.status.err = false → HandsOver t u s.inLen.toNat →
    ∃ v, exec .ariDecompress u = .next v ∧ v.status.err = u.status.err ∧ v.outBytes = s.input ∧
      v.origSize = s.inLen ∧ v.ext.len = s.ext.len ∧ v.status.isbinIn = s.ctrl.isbin

/-! ### Errors of the containers -/

/-- R166, R222, R278, R324, R364, R365: a container too short for its fixed fields raises INVALID_CONTAINER (the
extension string's length being the one the container gives), and so does an LZW flag other than 0 and 1; IN_LEN above IBUF_SIZE raises IO_FAILURE in every whole-buffer command, and EXT_LEN above
EXT_MAX in LZW_COMPRESS and ARI_COMPRESS. -/
def Obligations.BadContainersAreRefused : Prop :=
  ∀ s : State,
    (∀ i : Instr, i.wholeBuffer = true → s.params.ibufSize < s.inLen.toNat →
      exec i s = .next (takeError .ioFailure s)) ∧
      (s.inLen.toNat ≤ s.params.ibufSize →
        (s.params.extMax < s.ext.len.toNat →
            exec .lzwCompress s = .next (takeError .ioFailure s) ∧
              exec .ariCompress s = .next (takeError .ioFailure s)) ∧
          (s.inLen.toNat < 5 → ∃ u, exec .hufDecompress s = .next (takeError .invalidContainer u)) ∧
          (s.inLen.toNat < 2 → ∃ u, exec .lzwDecompress s = .next (takeError .invalidContainer u)) ∧
          (2 ≤ s.inLen.toNat → s.inLen.toNat < bitsValue (s.inputBits.take 16) + 7 →
            ∃ u, exec .lzwDecompress s = .next (takeError .invalidContainer u)) ∧
          (s.inLen.toNat < 3 → ∃ u, exec .ariDecompress s = .next (takeError .invalidContainer u)) ∧
          (3 ≤ s.inLen.toNat → s.inLen.toNat < bitsValue ((s.inputBits.drop 8).take 16) + 9 →
            ∃ u, exec .ariDecompress s = .next (takeError .invalidContainer u)) ∧
          ∀ (ext : List Byte) (n : Word) (f : Byte) (rest : List Bool), s.params.Ok → ext.length < 2 ^ 16 →
            s.inputBits =
              wordBits (BitVec.ofNat 32 ext.length) 16 ++ bytesBits ext ++ wordBits n 32 ++ byteBits f ++ rest →
            f ≠ 0 → f ≠ 1 → ∃ u, exec .lzwDecompress s = .next (takeError .invalidContainer u))

end
end

