-- ==== Sys2Proof/Laws/Command.lean ====
section
/-! SUPPORT. How a command's pseudocode runs: one lemma per building block, and `Cmd.Within`, which says once what a
relation between the states before and after a command needs of its parts. -/

namespace Sys2Proof.Machine

/-! ### Running the building blocks -/

section Run

variable {α β : Type} {s t : State} {c : Cmd α} {f : α → Cmd β} {a : α} {e : ErrCode}

theorem Cmd.bind_of_ok (h : c s = .ok a t) : (c >>= f) s = f a t := by
  change EStateM.bind c f s = _
  simp [EStateM.bind, h]

theorem Cmd.bind_of_error (h : c s = .error e t) : (c >>= f) s = .error e t := by
  change EStateM.bind c f s = _
  simp [EStateM.bind, h]

@[simp] theorem Cmd.pure_run (a : α) (s : State) : (pure a : Cmd α) s = .ok a s := rfl

@[simp] theorem Cmd.pure_bind_run (a : α) (f : α → Cmd β) (s : State) : ((pure a : Cmd α) >>= f) s = f a s := rfl

@[simp] theorem Cmd.get_bind_run (f : State → Cmd β) (s : State) : ((get : Cmd State) >>= f) s = f s s := rfl

@[simp] theorem Cmd.set_run (t s : State) : (set t : Cmd PUnit) s = .ok ⟨⟩ t := rfl

@[simp] theorem Cmd.set_bind_run (t : State) (f : PUnit → Cmd β) (s : State) :
    ((set t : Cmd PUnit) >>= f) s = f ⟨⟩ t := rfl

@[simp] theorem Cmd.modify_run (g : State → State) (s : State) : (modify g : Cmd PUnit) s = .ok ⟨⟩ (g s) := rfl

@[simp] theorem Cmd.modify_bind_run (g : State → State) (f : PUnit → Cmd β) (s : State) :
    ((modify g : Cmd PUnit) >>= f) s = f ⟨⟩ (g s) := rfl

@[simp] theorem raise_run (e : ErrCode) (s : State) : (raise e : Cmd α) s = .error e s := rfl

@[simp] theorem raise_bind_run (e : ErrCode) (f : α → Cmd β) (s : State) :
    ((raise e : Cmd α) >>= f) s = .error e s := rfl

theorem raiseIf_run (p : Prop) [Decidable p] (e : ErrCode) (s : State) :
    raiseIf p e s = if p then .error e s else .ok () s := by
  unfold raiseIf
  split <;> rfl

theorem raiseIf_bind_run (p : Prop) [Decidable p] (e : ErrCode) (f : Unit → Cmd β) (s : State) :
    (raiseIf p e >>= f) s = if p then .error e s else f () s := by
  unfold raiseIf
  split <;> rfl

theorem need_run (bit : UnitValid → Bool) (s : State) :
    need bit s = if bit s.valid = false then .error .stateError s else .ok () s := by
  unfold need
  rw [Cmd.get_bind_run, raiseIf_run]

theorem need_bind_run (bit : UnitValid → Bool) (f : Unit → Cmd β) (s : State) :
    (need bit >>= f) s = if bit s.valid = false then .error .stateError s else f () s := by
  have h := need_run bit s
  split at h
  · rw [Cmd.bind_of_error h, if_pos (by assumption)]
  · rw [Cmd.bind_of_ok h, if_neg (by assumption)]

theorem checkIn_run (s : State) :
    checkIn s = if s.inLen.toNat > s.params.ibufSize then .error .ioFailure s else .ok () s := by
  unfold checkIn
  rw [Cmd.get_bind_run, raiseIf_run]

theorem checkIn_bind_run (f : Unit → Cmd β) (s : State) :
    (checkIn >>= f) s = if s.inLen.toNat > s.params.ibufSize then .error .ioFailure s else f () s := by
  have h := checkIn_run s
  split at h
  · rw [Cmd.bind_of_error h, if_pos (by assumption)]
  · rw [Cmd.bind_of_ok h, if_neg (by assumption)]

theorem checkExt_run (s : State) :
    checkExt s = if s.ext.len.toNat > s.params.extMax then .error .ioFailure s else .ok () s := by
  unfold checkExt
  rw [Cmd.get_bind_run, raiseIf_run]

theorem checkExt_bind_run (f : Unit → Cmd β) (s : State) :
    (checkExt >>= f) s = if s.ext.len.toNat > s.params.extMax then .error .ioFailure s else f () s := by
  have h := checkExt_run s
  split at h
  · rw [Cmd.bind_of_error h, if_pos (by assumption)]
  · rw [Cmd.bind_of_ok h, if_neg (by assumption)]

theorem runCmd_of_ok {c : Cmd Unit} (h : c s = .ok () t) : runCmd c s = .next t := by
  unfold runCmd EStateM.run
  rw [h]

theorem runCmd_of_error {c : Cmd Unit} (h : c s = .error e t) : runCmd c s = .next (takeError e t) := by
  unfold runCmd EStateM.run
  rw [h]

/-- A command answers a next state, and says which. -/
theorem runCmd_cases (c : Cmd Unit) (s : State) :
    (∃ t, c s = .ok () t ∧ runCmd c s = .next t) ∨ ∃ e t, c s = .error e t ∧ runCmd c s = .next (takeError e t) := by
  cases h : c s with
  | ok _ t => exact .inl ⟨t, rfl, runCmd_of_ok h⟩
  | error e t => exact .inr ⟨e, t, rfl, runCmd_of_error h⟩

@[simp] theorem forEach_nil (body : α → Cmd Unit) (s : State) : forEach [] body s = .ok () s := rfl

theorem forEach_cons (x : α) (xs : List α) (body : α → Cmd Unit) :
    forEach (x :: xs) body = (body x >>= fun _ => forEach xs body) := rfl

@[simp] theorem repeatN_zero (body : Cmd Unit) (s : State) : repeatN 0 body s = .ok () s := rfl

theorem repeatN_succ (n : Nat) (body : Cmd Unit) : repeatN (n + 1) body = (body >>= fun _ => repeatN n body) := rfl

end Run

/-! ### Relations between the state before and after -/

/-- Running `c` from `s` ends, normally or in a raise of one of the eight errors, in a state related to `s`. -/
def Cmd.At {α : Type} (R : State → State → Prop) (c : Cmd α) (s : State) : Prop :=
  match c s with
  | .ok _ t => R s t
  | .error e t => R s t ∧ e ≠ .noError

/-- Running `c` from any state ends in a related state. -/
def Cmd.Within {α : Type} (R : State → State → Prop) (c : Cmd α) : Prop := ∀ s, Cmd.At R c s

/-- A relation that holds of no change and of one change after another. -/
structure Steady (R : State → State → Prop) : Prop where
  refl : ∀ s, R s s
  trans : ∀ {s t u}, R s t → R t u → R s u

section Within

variable {R : State → State → Prop} {α β : Type}

theorem within_pure (h : Steady R) (a : α) : Cmd.Within R (pure a : Cmd α) := fun s => h.refl s

theorem within_raise (h : Steady R) (e : ErrCode) (he : e ≠ .noError := by decide) :
    Cmd.Within R (raise e : Cmd α) := fun s => ⟨h.refl s, he⟩

theorem within_raiseIf (h : Steady R) (p : Prop) [Decidable p] (e : ErrCode) (he : e ≠ .noError := by decide) :
    Cmd.Within R (raiseIf p e) := by
  intro s
  unfold Cmd.At
  rw [raiseIf_run]
  by_cases hp : p
  · rw [if_pos hp]
    exact ⟨h.refl s, he⟩
  · rw [if_neg hp]
    exact h.refl s

theorem within_bind (h : Steady R) {c : Cmd α} {f : α → Cmd β} (hc : Cmd.Within R c)
    (hf : ∀ a, Cmd.Within R (f a)) : Cmd.Within R (c >>= f) := by
  intro s
  have hs := hc s
  unfold Cmd.At at *
  cases hcs : c s with
  | ok a t =>
    rw [Cmd.bind_of_ok hcs]
    rw [hcs] at hs
    have ht := hf a t
    unfold Cmd.At at ht
    cases hft : f a t with
    | ok b u => rw [hft] at ht; exact h.trans hs ht
    | error e u => rw [hft] at ht; exact ⟨h.trans hs ht.1, ht.2⟩
  | error e t =>
    rw [Cmd.bind_of_error hcs]
    rw [hcs] at hs
    exact hs

theorem within_get {f : State → Cmd β} (hf : ∀ s, Cmd.At R (f s) s) :
    Cmd.Within R ((get : Cmd State) >>= f) := fun s => hf s

/-- Reading the state changes nothing, whatever is done with what was read. -/
theorem within_getAny (_ : Steady R) {f : State → Cmd β} (hf : ∀ s, Cmd.Within R (f s)) :
    Cmd.Within R ((get : Cmd State) >>= f) := fun s => hf s s

theorem within_modify {g : State → State} (hg : ∀ s, R s (g s)) : Cmd.Within R (modify g : Cmd PUnit) :=
  fun s => hg s

theorem within_need (h : Steady R) (bit : UnitValid → Bool) : Cmd.Within R (need bit) :=
  within_getAny h fun _ => within_raiseIf h _ _

theorem within_checkIn (h : Steady R) : Cmd.Within R checkIn :=
  within_getAny h fun _ => within_raiseIf h _ _

theorem within_checkExt (h : Steady R) : Cmd.Within R checkExt :=
  within_getAny h fun _ => within_raiseIf h _ _

theorem within_forEach (h : Steady R) {body : α → Cmd Unit} (hb : ∀ x, Cmd.Within R (body x)) :
    (l : List α) → Cmd.Within R (forEach l body)
  | [] => within_pure h ()
  | x :: xs => within_bind h (hb x) fun _ => within_forEach h hb xs

theorem within_repeatN (h : Steady R) {body : Cmd Unit} (hb : Cmd.Within R body) :
    (n : Nat) → Cmd.Within R (repeatN n body)
  | 0 => within_pure h ()
  | n + 1 => within_bind h hb fun _ => within_repeatN h hb n

/-- A raise or an update, by what was read: `let s ← get; raiseIf (p s) e; set (g s)`. -/
theorem within_checked {p : State → Prop} [∀ s, Decidable (p s)] {e : ErrCode} {g : State → State}
    (h : Steady R) (hg : ∀ s, R s (g s)) (he : e ≠ .noError := by decide) :
    Cmd.Within R ((get : Cmd State) >>= fun s => raiseIf (p s) e >>= fun _ => (set (g s) : Cmd PUnit)) := by
  intro s
  unfold Cmd.At
  rw [Cmd.get_bind_run, raiseIf_bind_run]
  by_cases hp : p s
  · rw [if_pos hp]
    exact ⟨h.refl s, he⟩
  · rw [if_neg hp]
    exact hg s

/-- What a command's outcome is related to: the state it reached, or the error completion on it. -/
theorem runCmd_within {c : Cmd Unit} {s t : State} (hc : Cmd.Within R c) (h : runCmd c s = .next t) :
    R s t ∨ ∃ e u, t = takeError e u ∧ R s u ∧ e ≠ .noError := by
  have hs := hc s
  unfold Cmd.At at hs
  obtain ⟨u, hu, hr⟩ | ⟨e, u, hu, hr⟩ := runCmd_cases c s
  · rw [hr] at h
    cases h
    rw [hu] at hs
    exact .inl hs
  · rw [hr] at h
    cases h
    rw [hu] at hs
    exact .inr ⟨e, u, rfl, hs.1, hs.2⟩

end Within

end Sys2Proof.Machine
end

