-- ==== Sys2Proof/Laws/State.lean ====
section
/-! SUPPORT. One lemma per field of State per update: what a setter leaves in each field. -/

namespace Sys2Proof.Machine

variable (s : State)

/-! ### setSeq -/

@[simp] theorem State.setSeq_params (v : Seq) : (s.setSeq v).params = s.params := rfl
@[simp] theorem State.setSeq_seq (v : Seq) : (s.setSeq v).seq = v := rfl
@[simp] theorem State.setSeq_ctrl (v : Seq) : (s.setSeq v).ctrl = s.ctrl := rfl
@[simp] theorem State.setSeq_status (v : Seq) : (s.setSeq v).status = s.status := rfl
@[simp] theorem State.setSeq_err (v : Seq) : (s.setSeq v).err = s.err := rfl
@[simp] theorem State.setSeq_arg (v : Seq) : (s.setSeq v).arg = s.arg := rfl
@[simp] theorem State.setSeq_res (v : Seq) : (s.setSeq v).res = s.res := rfl
@[simp] theorem State.setSeq_inLen (v : Seq) : (s.setSeq v).inLen = s.inLen := rfl
@[simp] theorem State.setSeq_ext (v : Seq) : (s.setSeq v).ext = s.ext := rfl
@[simp] theorem State.setSeq_origSize (v : Seq) : (s.setSeq v).origSize = s.origSize := rfl
@[simp] theorem State.setSeq_valid (v : Seq) : (s.setSeq v).valid = s.valid := rfl
@[simp] theorem State.setSeq_writer (v : Seq) : (s.setSeq v).writer = s.writer := rfl
@[simp] theorem State.setSeq_reader (v : Seq) : (s.setSeq v).reader = s.reader := rfl
@[simp] theorem State.setSeq_huf (v : Seq) : (s.setSeq v).huf = s.huf := rfl
@[simp] theorem State.setSeq_lzwE (v : Seq) : (s.setSeq v).lzwE = s.lzwE := rfl
@[simp] theorem State.setSeq_lzwD (v : Seq) : (s.setSeq v).lzwD = s.lzwD := rfl
@[simp] theorem State.setSeq_ari (v : Seq) : (s.setSeq v).ari = s.ari := rfl
@[simp] theorem State.setSeq_ibuf (v : Seq) : (s.setSeq v).ibuf = s.ibuf := rfl
@[simp] theorem State.setSeq_obuf (v : Seq) : (s.setSeq v).obuf = s.obuf := rfl
@[simp] theorem State.setSeq_extbuf (v : Seq) : (s.setSeq v).extbuf = s.extbuf := rfl
@[simp] theorem State.setSeq_draws (v : Seq) : (s.setSeq v).draws = s.draws := rfl
@[simp] theorem State.setSeq_tape (v : Seq) : (s.setSeq v).tape = s.tape := rfl
@[simp] theorem State.setSeq_bus (v : Seq) : (s.setSeq v).bus = s.bus := rfl
@[simp] theorem State.setSeq_setSeq (u v : Seq) : (s.setSeq u).setSeq v = s.setSeq v := rfl
@[simp] theorem State.setSeq_same : s.setSeq s.seq = s := rfl

/-! ### setCtrl -/

@[simp] theorem State.setCtrl_params (v : Ctrl) : (s.setCtrl v).params = s.params := rfl
@[simp] theorem State.setCtrl_seq (v : Ctrl) : (s.setCtrl v).seq = s.seq := rfl
@[simp] theorem State.setCtrl_ctrl (v : Ctrl) : (s.setCtrl v).ctrl = v := rfl
@[simp] theorem State.setCtrl_status (v : Ctrl) : (s.setCtrl v).status = s.status := rfl
@[simp] theorem State.setCtrl_err (v : Ctrl) : (s.setCtrl v).err = s.err := rfl
@[simp] theorem State.setCtrl_arg (v : Ctrl) : (s.setCtrl v).arg = s.arg := rfl
@[simp] theorem State.setCtrl_res (v : Ctrl) : (s.setCtrl v).res = s.res := rfl
@[simp] theorem State.setCtrl_inLen (v : Ctrl) : (s.setCtrl v).inLen = s.inLen := rfl
@[simp] theorem State.setCtrl_ext (v : Ctrl) : (s.setCtrl v).ext = s.ext := rfl
@[simp] theorem State.setCtrl_origSize (v : Ctrl) : (s.setCtrl v).origSize = s.origSize := rfl
@[simp] theorem State.setCtrl_valid (v : Ctrl) : (s.setCtrl v).valid = s.valid := rfl
@[simp] theorem State.setCtrl_writer (v : Ctrl) : (s.setCtrl v).writer = s.writer := rfl
@[simp] theorem State.setCtrl_reader (v : Ctrl) : (s.setCtrl v).reader = s.reader := rfl
@[simp] theorem State.setCtrl_huf (v : Ctrl) : (s.setCtrl v).huf = s.huf := rfl
@[simp] theorem State.setCtrl_lzwE (v : Ctrl) : (s.setCtrl v).lzwE = s.lzwE := rfl
@[simp] theorem State.setCtrl_lzwD (v : Ctrl) : (s.setCtrl v).lzwD = s.lzwD := rfl
@[simp] theorem State.setCtrl_ari (v : Ctrl) : (s.setCtrl v).ari = s.ari := rfl
@[simp] theorem State.setCtrl_ibuf (v : Ctrl) : (s.setCtrl v).ibuf = s.ibuf := rfl
@[simp] theorem State.setCtrl_obuf (v : Ctrl) : (s.setCtrl v).obuf = s.obuf := rfl
@[simp] theorem State.setCtrl_extbuf (v : Ctrl) : (s.setCtrl v).extbuf = s.extbuf := rfl
@[simp] theorem State.setCtrl_draws (v : Ctrl) : (s.setCtrl v).draws = s.draws := rfl
@[simp] theorem State.setCtrl_tape (v : Ctrl) : (s.setCtrl v).tape = s.tape := rfl
@[simp] theorem State.setCtrl_bus (v : Ctrl) : (s.setCtrl v).bus = s.bus := rfl
@[simp] theorem State.setCtrl_setCtrl (u v : Ctrl) : (s.setCtrl u).setCtrl v = s.setCtrl v := rfl
@[simp] theorem State.setCtrl_same : s.setCtrl s.ctrl = s := rfl

/-! ### setStatus -/

@[simp] theorem State.setStatus_params (v : Status) : (s.setStatus v).params = s.params := rfl
@[simp] theorem State.setStatus_seq (v : Status) : (s.setStatus v).seq = s.seq := rfl
@[simp] theorem State.setStatus_ctrl (v : Status) : (s.setStatus v).ctrl = s.ctrl := rfl
@[simp] theorem State.setStatus_status (v : Status) : (s.setStatus v).status = v := rfl
@[simp] theorem State.setStatus_err (v : Status) : (s.setStatus v).err = s.err := rfl
@[simp] theorem State.setStatus_arg (v : Status) : (s.setStatus v).arg = s.arg := rfl
@[simp] theorem State.setStatus_res (v : Status) : (s.setStatus v).res = s.res := rfl
@[simp] theorem State.setStatus_inLen (v : Status) : (s.setStatus v).inLen = s.inLen := rfl
@[simp] theorem State.setStatus_ext (v : Status) : (s.setStatus v).ext = s.ext := rfl
@[simp] theorem State.setStatus_origSize (v : Status) : (s.setStatus v).origSize = s.origSize := rfl
@[simp] theorem State.setStatus_valid (v : Status) : (s.setStatus v).valid = s.valid := rfl
@[simp] theorem State.setStatus_writer (v : Status) : (s.setStatus v).writer = s.writer := rfl
@[simp] theorem State.setStatus_reader (v : Status) : (s.setStatus v).reader = s.reader := rfl
@[simp] theorem State.setStatus_huf (v : Status) : (s.setStatus v).huf = s.huf := rfl
@[simp] theorem State.setStatus_lzwE (v : Status) : (s.setStatus v).lzwE = s.lzwE := rfl
@[simp] theorem State.setStatus_lzwD (v : Status) : (s.setStatus v).lzwD = s.lzwD := rfl
@[simp] theorem State.setStatus_ari (v : Status) : (s.setStatus v).ari = s.ari := rfl
@[simp] theorem State.setStatus_ibuf (v : Status) : (s.setStatus v).ibuf = s.ibuf := rfl
@[simp] theorem State.setStatus_obuf (v : Status) : (s.setStatus v).obuf = s.obuf := rfl
@[simp] theorem State.setStatus_extbuf (v : Status) : (s.setStatus v).extbuf = s.extbuf := rfl
@[simp] theorem State.setStatus_draws (v : Status) : (s.setStatus v).draws = s.draws := rfl
@[simp] theorem State.setStatus_tape (v : Status) : (s.setStatus v).tape = s.tape := rfl
@[simp] theorem State.setStatus_bus (v : Status) : (s.setStatus v).bus = s.bus := rfl
@[simp] theorem State.setStatus_setStatus (u v : Status) : (s.setStatus u).setStatus v = s.setStatus v := rfl
@[simp] theorem State.setStatus_same : s.setStatus s.status = s := rfl

/-! ### setErr -/

@[simp] theorem State.setErr_params (v : ErrRegs) : (s.setErr v).params = s.params := rfl
@[simp] theorem State.setErr_seq (v : ErrRegs) : (s.setErr v).seq = s.seq := rfl
@[simp] theorem State.setErr_ctrl (v : ErrRegs) : (s.setErr v).ctrl = s.ctrl := rfl
@[simp] theorem State.setErr_status (v : ErrRegs) : (s.setErr v).status = s.status := rfl
@[simp] theorem State.setErr_err (v : ErrRegs) : (s.setErr v).err = v := rfl
@[simp] theorem State.setErr_arg (v : ErrRegs) : (s.setErr v).arg = s.arg := rfl
@[simp] theorem State.setErr_res (v : ErrRegs) : (s.setErr v).res = s.res := rfl
@[simp] theorem State.setErr_inLen (v : ErrRegs) : (s.setErr v).inLen = s.inLen := rfl
@[simp] theorem State.setErr_ext (v : ErrRegs) : (s.setErr v).ext = s.ext := rfl
@[simp] theorem State.setErr_origSize (v : ErrRegs) : (s.setErr v).origSize = s.origSize := rfl
@[simp] theorem State.setErr_valid (v : ErrRegs) : (s.setErr v).valid = s.valid := rfl
@[simp] theorem State.setErr_writer (v : ErrRegs) : (s.setErr v).writer = s.writer := rfl
@[simp] theorem State.setErr_reader (v : ErrRegs) : (s.setErr v).reader = s.reader := rfl
@[simp] theorem State.setErr_huf (v : ErrRegs) : (s.setErr v).huf = s.huf := rfl
@[simp] theorem State.setErr_lzwE (v : ErrRegs) : (s.setErr v).lzwE = s.lzwE := rfl
@[simp] theorem State.setErr_lzwD (v : ErrRegs) : (s.setErr v).lzwD = s.lzwD := rfl
@[simp] theorem State.setErr_ari (v : ErrRegs) : (s.setErr v).ari = s.ari := rfl
@[simp] theorem State.setErr_ibuf (v : ErrRegs) : (s.setErr v).ibuf = s.ibuf := rfl
@[simp] theorem State.setErr_obuf (v : ErrRegs) : (s.setErr v).obuf = s.obuf := rfl
@[simp] theorem State.setErr_extbuf (v : ErrRegs) : (s.setErr v).extbuf = s.extbuf := rfl
@[simp] theorem State.setErr_draws (v : ErrRegs) : (s.setErr v).draws = s.draws := rfl
@[simp] theorem State.setErr_tape (v : ErrRegs) : (s.setErr v).tape = s.tape := rfl
@[simp] theorem State.setErr_bus (v : ErrRegs) : (s.setErr v).bus = s.bus := rfl
@[simp] theorem State.setErr_setErr (u v : ErrRegs) : (s.setErr u).setErr v = s.setErr v := rfl
@[simp] theorem State.setErr_same : s.setErr s.err = s := rfl

/-! ### setArg -/

@[simp] theorem State.setArg_params (v : Word) : (s.setArg v).params = s.params := rfl
@[simp] theorem State.setArg_seq (v : Word) : (s.setArg v).seq = s.seq := rfl
@[simp] theorem State.setArg_ctrl (v : Word) : (s.setArg v).ctrl = s.ctrl := rfl
@[simp] theorem State.setArg_status (v : Word) : (s.setArg v).status = s.status := rfl
@[simp] theorem State.setArg_err (v : Word) : (s.setArg v).err = s.err := rfl
@[simp] theorem State.setArg_arg (v : Word) : (s.setArg v).arg = v := rfl
@[simp] theorem State.setArg_res (v : Word) : (s.setArg v).res = s.res := rfl
@[simp] theorem State.setArg_inLen (v : Word) : (s.setArg v).inLen = s.inLen := rfl
@[simp] theorem State.setArg_ext (v : Word) : (s.setArg v).ext = s.ext := rfl
@[simp] theorem State.setArg_origSize (v : Word) : (s.setArg v).origSize = s.origSize := rfl
@[simp] theorem State.setArg_valid (v : Word) : (s.setArg v).valid = s.valid := rfl
@[simp] theorem State.setArg_writer (v : Word) : (s.setArg v).writer = s.writer := rfl
@[simp] theorem State.setArg_reader (v : Word) : (s.setArg v).reader = s.reader := rfl
@[simp] theorem State.setArg_huf (v : Word) : (s.setArg v).huf = s.huf := rfl
@[simp] theorem State.setArg_lzwE (v : Word) : (s.setArg v).lzwE = s.lzwE := rfl
@[simp] theorem State.setArg_lzwD (v : Word) : (s.setArg v).lzwD = s.lzwD := rfl
@[simp] theorem State.setArg_ari (v : Word) : (s.setArg v).ari = s.ari := rfl
@[simp] theorem State.setArg_ibuf (v : Word) : (s.setArg v).ibuf = s.ibuf := rfl
@[simp] theorem State.setArg_obuf (v : Word) : (s.setArg v).obuf = s.obuf := rfl
@[simp] theorem State.setArg_extbuf (v : Word) : (s.setArg v).extbuf = s.extbuf := rfl
@[simp] theorem State.setArg_draws (v : Word) : (s.setArg v).draws = s.draws := rfl
@[simp] theorem State.setArg_tape (v : Word) : (s.setArg v).tape = s.tape := rfl
@[simp] theorem State.setArg_bus (v : Word) : (s.setArg v).bus = s.bus := rfl
@[simp] theorem State.setArg_setArg (u v : Word) : (s.setArg u).setArg v = s.setArg v := rfl
@[simp] theorem State.setArg_same : s.setArg s.arg = s := rfl

/-! ### setRes -/

@[simp] theorem State.setRes_params (v : Word) : (s.setRes v).params = s.params := rfl
@[simp] theorem State.setRes_seq (v : Word) : (s.setRes v).seq = s.seq := rfl
@[simp] theorem State.setRes_ctrl (v : Word) : (s.setRes v).ctrl = s.ctrl := rfl
@[simp] theorem State.setRes_status (v : Word) : (s.setRes v).status = s.status := rfl
@[simp] theorem State.setRes_err (v : Word) : (s.setRes v).err = s.err := rfl
@[simp] theorem State.setRes_arg (v : Word) : (s.setRes v).arg = s.arg := rfl
@[simp] theorem State.setRes_res (v : Word) : (s.setRes v).res = v := rfl
@[simp] theorem State.setRes_inLen (v : Word) : (s.setRes v).inLen = s.inLen := rfl
@[simp] theorem State.setRes_ext (v : Word) : (s.setRes v).ext = s.ext := rfl
@[simp] theorem State.setRes_origSize (v : Word) : (s.setRes v).origSize = s.origSize := rfl
@[simp] theorem State.setRes_valid (v : Word) : (s.setRes v).valid = s.valid := rfl
@[simp] theorem State.setRes_writer (v : Word) : (s.setRes v).writer = s.writer := rfl
@[simp] theorem State.setRes_reader (v : Word) : (s.setRes v).reader = s.reader := rfl
@[simp] theorem State.setRes_huf (v : Word) : (s.setRes v).huf = s.huf := rfl
@[simp] theorem State.setRes_lzwE (v : Word) : (s.setRes v).lzwE = s.lzwE := rfl
@[simp] theorem State.setRes_lzwD (v : Word) : (s.setRes v).lzwD = s.lzwD := rfl
@[simp] theorem State.setRes_ari (v : Word) : (s.setRes v).ari = s.ari := rfl
@[simp] theorem State.setRes_ibuf (v : Word) : (s.setRes v).ibuf = s.ibuf := rfl
@[simp] theorem State.setRes_obuf (v : Word) : (s.setRes v).obuf = s.obuf := rfl
@[simp] theorem State.setRes_extbuf (v : Word) : (s.setRes v).extbuf = s.extbuf := rfl
@[simp] theorem State.setRes_draws (v : Word) : (s.setRes v).draws = s.draws := rfl
@[simp] theorem State.setRes_tape (v : Word) : (s.setRes v).tape = s.tape := rfl
@[simp] theorem State.setRes_bus (v : Word) : (s.setRes v).bus = s.bus := rfl
@[simp] theorem State.setRes_setRes (u v : Word) : (s.setRes u).setRes v = s.setRes v := rfl
@[simp] theorem State.setRes_same : s.setRes s.res = s := rfl

/-! ### setInLen -/

@[simp] theorem State.setInLen_params (v : Word) : (s.setInLen v).params = s.params := rfl
@[simp] theorem State.setInLen_seq (v : Word) : (s.setInLen v).seq = s.seq := rfl
@[simp] theorem State.setInLen_ctrl (v : Word) : (s.setInLen v).ctrl = s.ctrl := rfl
@[simp] theorem State.setInLen_status (v : Word) : (s.setInLen v).status = s.status := rfl
@[simp] theorem State.setInLen_err (v : Word) : (s.setInLen v).err = s.err := rfl
@[simp] theorem State.setInLen_arg (v : Word) : (s.setInLen v).arg = s.arg := rfl
@[simp] theorem State.setInLen_res (v : Word) : (s.setInLen v).res = s.res := rfl
@[simp] theorem State.setInLen_inLen (v : Word) : (s.setInLen v).inLen = v := rfl
@[simp] theorem State.setInLen_ext (v : Word) : (s.setInLen v).ext = s.ext := rfl
@[simp] theorem State.setInLen_origSize (v : Word) : (s.setInLen v).origSize = s.origSize := rfl
@[simp] theorem State.setInLen_valid (v : Word) : (s.setInLen v).valid = s.valid := rfl
@[simp] theorem State.setInLen_writer (v : Word) : (s.setInLen v).writer = s.writer := rfl
@[simp] theorem State.setInLen_reader (v : Word) : (s.setInLen v).reader = s.reader := rfl
@[simp] theorem State.setInLen_huf (v : Word) : (s.setInLen v).huf = s.huf := rfl
@[simp] theorem State.setInLen_lzwE (v : Word) : (s.setInLen v).lzwE = s.lzwE := rfl
@[simp] theorem State.setInLen_lzwD (v : Word) : (s.setInLen v).lzwD = s.lzwD := rfl
@[simp] theorem State.setInLen_ari (v : Word) : (s.setInLen v).ari = s.ari := rfl
@[simp] theorem State.setInLen_ibuf (v : Word) : (s.setInLen v).ibuf = s.ibuf := rfl
@[simp] theorem State.setInLen_obuf (v : Word) : (s.setInLen v).obuf = s.obuf := rfl
@[simp] theorem State.setInLen_extbuf (v : Word) : (s.setInLen v).extbuf = s.extbuf := rfl
@[simp] theorem State.setInLen_draws (v : Word) : (s.setInLen v).draws = s.draws := rfl
@[simp] theorem State.setInLen_tape (v : Word) : (s.setInLen v).tape = s.tape := rfl
@[simp] theorem State.setInLen_bus (v : Word) : (s.setInLen v).bus = s.bus := rfl
@[simp] theorem State.setInLen_setInLen (u v : Word) : (s.setInLen u).setInLen v = s.setInLen v := rfl
@[simp] theorem State.setInLen_same : s.setInLen s.inLen = s := rfl

/-! ### setExt -/

@[simp] theorem State.setExt_params (v : ExtRegs) : (s.setExt v).params = s.params := rfl
@[simp] theorem State.setExt_seq (v : ExtRegs) : (s.setExt v).seq = s.seq := rfl
@[simp] theorem State.setExt_ctrl (v : ExtRegs) : (s.setExt v).ctrl = s.ctrl := rfl
@[simp] theorem State.setExt_status (v : ExtRegs) : (s.setExt v).status = s.status := rfl
@[simp] theorem State.setExt_err (v : ExtRegs) : (s.setExt v).err = s.err := rfl
@[simp] theorem State.setExt_arg (v : ExtRegs) : (s.setExt v).arg = s.arg := rfl
@[simp] theorem State.setExt_res (v : ExtRegs) : (s.setExt v).res = s.res := rfl
@[simp] theorem State.setExt_inLen (v : ExtRegs) : (s.setExt v).inLen = s.inLen := rfl
@[simp] theorem State.setExt_ext (v : ExtRegs) : (s.setExt v).ext = v := rfl
@[simp] theorem State.setExt_origSize (v : ExtRegs) : (s.setExt v).origSize = s.origSize := rfl
@[simp] theorem State.setExt_valid (v : ExtRegs) : (s.setExt v).valid = s.valid := rfl
@[simp] theorem State.setExt_writer (v : ExtRegs) : (s.setExt v).writer = s.writer := rfl
@[simp] theorem State.setExt_reader (v : ExtRegs) : (s.setExt v).reader = s.reader := rfl
@[simp] theorem State.setExt_huf (v : ExtRegs) : (s.setExt v).huf = s.huf := rfl
@[simp] theorem State.setExt_lzwE (v : ExtRegs) : (s.setExt v).lzwE = s.lzwE := rfl
@[simp] theorem State.setExt_lzwD (v : ExtRegs) : (s.setExt v).lzwD = s.lzwD := rfl
@[simp] theorem State.setExt_ari (v : ExtRegs) : (s.setExt v).ari = s.ari := rfl
@[simp] theorem State.setExt_ibuf (v : ExtRegs) : (s.setExt v).ibuf = s.ibuf := rfl
@[simp] theorem State.setExt_obuf (v : ExtRegs) : (s.setExt v).obuf = s.obuf := rfl
@[simp] theorem State.setExt_extbuf (v : ExtRegs) : (s.setExt v).extbuf = s.extbuf := rfl
@[simp] theorem State.setExt_draws (v : ExtRegs) : (s.setExt v).draws = s.draws := rfl
@[simp] theorem State.setExt_tape (v : ExtRegs) : (s.setExt v).tape = s.tape := rfl
@[simp] theorem State.setExt_bus (v : ExtRegs) : (s.setExt v).bus = s.bus := rfl
@[simp] theorem State.setExt_setExt (u v : ExtRegs) : (s.setExt u).setExt v = s.setExt v := rfl
@[simp] theorem State.setExt_same : s.setExt s.ext = s := rfl

/-! ### setOrigSize -/

@[simp] theorem State.setOrigSize_params (v : Word) : (s.setOrigSize v).params = s.params := rfl
@[simp] theorem State.setOrigSize_seq (v : Word) : (s.setOrigSize v).seq = s.seq := rfl
@[simp] theorem State.setOrigSize_ctrl (v : Word) : (s.setOrigSize v).ctrl = s.ctrl := rfl
@[simp] theorem State.setOrigSize_status (v : Word) : (s.setOrigSize v).status = s.status := rfl
@[simp] theorem State.setOrigSize_err (v : Word) : (s.setOrigSize v).err = s.err := rfl
@[simp] theorem State.setOrigSize_arg (v : Word) : (s.setOrigSize v).arg = s.arg := rfl
@[simp] theorem State.setOrigSize_res (v : Word) : (s.setOrigSize v).res = s.res := rfl
@[simp] theorem State.setOrigSize_inLen (v : Word) : (s.setOrigSize v).inLen = s.inLen := rfl
@[simp] theorem State.setOrigSize_ext (v : Word) : (s.setOrigSize v).ext = s.ext := rfl
@[simp] theorem State.setOrigSize_origSize (v : Word) : (s.setOrigSize v).origSize = v := rfl
@[simp] theorem State.setOrigSize_valid (v : Word) : (s.setOrigSize v).valid = s.valid := rfl
@[simp] theorem State.setOrigSize_writer (v : Word) : (s.setOrigSize v).writer = s.writer := rfl
@[simp] theorem State.setOrigSize_reader (v : Word) : (s.setOrigSize v).reader = s.reader := rfl
@[simp] theorem State.setOrigSize_huf (v : Word) : (s.setOrigSize v).huf = s.huf := rfl
@[simp] theorem State.setOrigSize_lzwE (v : Word) : (s.setOrigSize v).lzwE = s.lzwE := rfl
@[simp] theorem State.setOrigSize_lzwD (v : Word) : (s.setOrigSize v).lzwD = s.lzwD := rfl
@[simp] theorem State.setOrigSize_ari (v : Word) : (s.setOrigSize v).ari = s.ari := rfl
@[simp] theorem State.setOrigSize_ibuf (v : Word) : (s.setOrigSize v).ibuf = s.ibuf := rfl
@[simp] theorem State.setOrigSize_obuf (v : Word) : (s.setOrigSize v).obuf = s.obuf := rfl
@[simp] theorem State.setOrigSize_extbuf (v : Word) : (s.setOrigSize v).extbuf = s.extbuf := rfl
@[simp] theorem State.setOrigSize_draws (v : Word) : (s.setOrigSize v).draws = s.draws := rfl
@[simp] theorem State.setOrigSize_tape (v : Word) : (s.setOrigSize v).tape = s.tape := rfl
@[simp] theorem State.setOrigSize_bus (v : Word) : (s.setOrigSize v).bus = s.bus := rfl
@[simp] theorem State.setOrigSize_setOrigSize (u v : Word) : (s.setOrigSize u).setOrigSize v = s.setOrigSize v := rfl
@[simp] theorem State.setOrigSize_same : s.setOrigSize s.origSize = s := rfl

/-! ### setValid -/

@[simp] theorem State.setValid_params (v : UnitValid) : (s.setValid v).params = s.params := rfl
@[simp] theorem State.setValid_seq (v : UnitValid) : (s.setValid v).seq = s.seq := rfl
@[simp] theorem State.setValid_ctrl (v : UnitValid) : (s.setValid v).ctrl = s.ctrl := rfl
@[simp] theorem State.setValid_status (v : UnitValid) : (s.setValid v).status = s.status := rfl
@[simp] theorem State.setValid_err (v : UnitValid) : (s.setValid v).err = s.err := rfl
@[simp] theorem State.setValid_arg (v : UnitValid) : (s.setValid v).arg = s.arg := rfl
@[simp] theorem State.setValid_res (v : UnitValid) : (s.setValid v).res = s.res := rfl
@[simp] theorem State.setValid_inLen (v : UnitValid) : (s.setValid v).inLen = s.inLen := rfl
@[simp] theorem State.setValid_ext (v : UnitValid) : (s.setValid v).ext = s.ext := rfl
@[simp] theorem State.setValid_origSize (v : UnitValid) : (s.setValid v).origSize = s.origSize := rfl
@[simp] theorem State.setValid_valid (v : UnitValid) : (s.setValid v).valid = v := rfl
@[simp] theorem State.setValid_writer (v : UnitValid) : (s.setValid v).writer = s.writer := rfl
@[simp] theorem State.setValid_reader (v : UnitValid) : (s.setValid v).reader = s.reader := rfl
@[simp] theorem State.setValid_huf (v : UnitValid) : (s.setValid v).huf = s.huf := rfl
@[simp] theorem State.setValid_lzwE (v : UnitValid) : (s.setValid v).lzwE = s.lzwE := rfl
@[simp] theorem State.setValid_lzwD (v : UnitValid) : (s.setValid v).lzwD = s.lzwD := rfl
@[simp] theorem State.setValid_ari (v : UnitValid) : (s.setValid v).ari = s.ari := rfl
@[simp] theorem State.setValid_ibuf (v : UnitValid) : (s.setValid v).ibuf = s.ibuf := rfl
@[simp] theorem State.setValid_obuf (v : UnitValid) : (s.setValid v).obuf = s.obuf := rfl
@[simp] theorem State.setValid_extbuf (v : UnitValid) : (s.setValid v).extbuf = s.extbuf := rfl
@[simp] theorem State.setValid_draws (v : UnitValid) : (s.setValid v).draws = s.draws := rfl
@[simp] theorem State.setValid_tape (v : UnitValid) : (s.setValid v).tape = s.tape := rfl
@[simp] theorem State.setValid_bus (v : UnitValid) : (s.setValid v).bus = s.bus := rfl
@[simp] theorem State.setValid_setValid (u v : UnitValid) : (s.setValid u).setValid v = s.setValid v := rfl
@[simp] theorem State.setValid_same : s.setValid s.valid = s := rfl

/-! ### setWriter -/

@[simp] theorem State.setWriter_params (v : Writer) : (s.setWriter v).params = s.params := rfl
@[simp] theorem State.setWriter_seq (v : Writer) : (s.setWriter v).seq = s.seq := rfl
@[simp] theorem State.setWriter_ctrl (v : Writer) : (s.setWriter v).ctrl = s.ctrl := rfl
@[simp] theorem State.setWriter_status (v : Writer) : (s.setWriter v).status = s.status := rfl
@[simp] theorem State.setWriter_err (v : Writer) : (s.setWriter v).err = s.err := rfl
@[simp] theorem State.setWriter_arg (v : Writer) : (s.setWriter v).arg = s.arg := rfl
@[simp] theorem State.setWriter_res (v : Writer) : (s.setWriter v).res = s.res := rfl
@[simp] theorem State.setWriter_inLen (v : Writer) : (s.setWriter v).inLen = s.inLen := rfl
@[simp] theorem State.setWriter_ext (v : Writer) : (s.setWriter v).ext = s.ext := rfl
@[simp] theorem State.setWriter_origSize (v : Writer) : (s.setWriter v).origSize = s.origSize := rfl
@[simp] theorem State.setWriter_valid (v : Writer) : (s.setWriter v).valid = s.valid := rfl
@[simp] theorem State.setWriter_writer (v : Writer) : (s.setWriter v).writer = v := rfl
@[simp] theorem State.setWriter_reader (v : Writer) : (s.setWriter v).reader = s.reader := rfl
@[simp] theorem State.setWriter_huf (v : Writer) : (s.setWriter v).huf = s.huf := rfl
@[simp] theorem State.setWriter_lzwE (v : Writer) : (s.setWriter v).lzwE = s.lzwE := rfl
@[simp] theorem State.setWriter_lzwD (v : Writer) : (s.setWriter v).lzwD = s.lzwD := rfl
@[simp] theorem State.setWriter_ari (v : Writer) : (s.setWriter v).ari = s.ari := rfl
@[simp] theorem State.setWriter_ibuf (v : Writer) : (s.setWriter v).ibuf = s.ibuf := rfl
@[simp] theorem State.setWriter_obuf (v : Writer) : (s.setWriter v).obuf = s.obuf := rfl
@[simp] theorem State.setWriter_extbuf (v : Writer) : (s.setWriter v).extbuf = s.extbuf := rfl
@[simp] theorem State.setWriter_draws (v : Writer) : (s.setWriter v).draws = s.draws := rfl
@[simp] theorem State.setWriter_tape (v : Writer) : (s.setWriter v).tape = s.tape := rfl
@[simp] theorem State.setWriter_bus (v : Writer) : (s.setWriter v).bus = s.bus := rfl
@[simp] theorem State.setWriter_setWriter (u v : Writer) : (s.setWriter u).setWriter v = s.setWriter v := rfl
@[simp] theorem State.setWriter_same : s.setWriter s.writer = s := rfl

/-! ### setReader -/

@[simp] theorem State.setReader_params (v : Reader) : (s.setReader v).params = s.params := rfl
@[simp] theorem State.setReader_seq (v : Reader) : (s.setReader v).seq = s.seq := rfl
@[simp] theorem State.setReader_ctrl (v : Reader) : (s.setReader v).ctrl = s.ctrl := rfl
@[simp] theorem State.setReader_status (v : Reader) : (s.setReader v).status = s.status := rfl
@[simp] theorem State.setReader_err (v : Reader) : (s.setReader v).err = s.err := rfl
@[simp] theorem State.setReader_arg (v : Reader) : (s.setReader v).arg = s.arg := rfl
@[simp] theorem State.setReader_res (v : Reader) : (s.setReader v).res = s.res := rfl
@[simp] theorem State.setReader_inLen (v : Reader) : (s.setReader v).inLen = s.inLen := rfl
@[simp] theorem State.setReader_ext (v : Reader) : (s.setReader v).ext = s.ext := rfl
@[simp] theorem State.setReader_origSize (v : Reader) : (s.setReader v).origSize = s.origSize := rfl
@[simp] theorem State.setReader_valid (v : Reader) : (s.setReader v).valid = s.valid := rfl
@[simp] theorem State.setReader_writer (v : Reader) : (s.setReader v).writer = s.writer := rfl
@[simp] theorem State.setReader_reader (v : Reader) : (s.setReader v).reader = v := rfl
@[simp] theorem State.setReader_huf (v : Reader) : (s.setReader v).huf = s.huf := rfl
@[simp] theorem State.setReader_lzwE (v : Reader) : (s.setReader v).lzwE = s.lzwE := rfl
@[simp] theorem State.setReader_lzwD (v : Reader) : (s.setReader v).lzwD = s.lzwD := rfl
@[simp] theorem State.setReader_ari (v : Reader) : (s.setReader v).ari = s.ari := rfl
@[simp] theorem State.setReader_ibuf (v : Reader) : (s.setReader v).ibuf = s.ibuf := rfl
@[simp] theorem State.setReader_obuf (v : Reader) : (s.setReader v).obuf = s.obuf := rfl
@[simp] theorem State.setReader_extbuf (v : Reader) : (s.setReader v).extbuf = s.extbuf := rfl
@[simp] theorem State.setReader_draws (v : Reader) : (s.setReader v).draws = s.draws := rfl
@[simp] theorem State.setReader_tape (v : Reader) : (s.setReader v).tape = s.tape := rfl
@[simp] theorem State.setReader_bus (v : Reader) : (s.setReader v).bus = s.bus := rfl
@[simp] theorem State.setReader_setReader (u v : Reader) : (s.setReader u).setReader v = s.setReader v := rfl
@[simp] theorem State.setReader_same : s.setReader s.reader = s := rfl

/-! ### setHuf -/

@[simp] theorem State.setHuf_params (v : Huffman) : (s.setHuf v).params = s.params := rfl
@[simp] theorem State.setHuf_seq (v : Huffman) : (s.setHuf v).seq = s.seq := rfl
@[simp] theorem State.setHuf_ctrl (v : Huffman) : (s.setHuf v).ctrl = s.ctrl := rfl
@[simp] theorem State.setHuf_status (v : Huffman) : (s.setHuf v).status = s.status := rfl
@[simp] theorem State.setHuf_err (v : Huffman) : (s.setHuf v).err = s.err := rfl
@[simp] theorem State.setHuf_arg (v : Huffman) : (s.setHuf v).arg = s.arg := rfl
@[simp] theorem State.setHuf_res (v : Huffman) : (s.setHuf v).res = s.res := rfl
@[simp] theorem State.setHuf_inLen (v : Huffman) : (s.setHuf v).inLen = s.inLen := rfl
@[simp] theorem State.setHuf_ext (v : Huffman) : (s.setHuf v).ext = s.ext := rfl
@[simp] theorem State.setHuf_origSize (v : Huffman) : (s.setHuf v).origSize = s.origSize := rfl
@[simp] theorem State.setHuf_valid (v : Huffman) : (s.setHuf v).valid = s.valid := rfl
@[simp] theorem State.setHuf_writer (v : Huffman) : (s.setHuf v).writer = s.writer := rfl
@[simp] theorem State.setHuf_reader (v : Huffman) : (s.setHuf v).reader = s.reader := rfl
@[simp] theorem State.setHuf_huf (v : Huffman) : (s.setHuf v).huf = v := rfl
@[simp] theorem State.setHuf_lzwE (v : Huffman) : (s.setHuf v).lzwE = s.lzwE := rfl
@[simp] theorem State.setHuf_lzwD (v : Huffman) : (s.setHuf v).lzwD = s.lzwD := rfl
@[simp] theorem State.setHuf_ari (v : Huffman) : (s.setHuf v).ari = s.ari := rfl
@[simp] theorem State.setHuf_ibuf (v : Huffman) : (s.setHuf v).ibuf = s.ibuf := rfl
@[simp] theorem State.setHuf_obuf (v : Huffman) : (s.setHuf v).obuf = s.obuf := rfl
@[simp] theorem State.setHuf_extbuf (v : Huffman) : (s.setHuf v).extbuf = s.extbuf := rfl
@[simp] theorem State.setHuf_draws (v : Huffman) : (s.setHuf v).draws = s.draws := rfl
@[simp] theorem State.setHuf_tape (v : Huffman) : (s.setHuf v).tape = s.tape := rfl
@[simp] theorem State.setHuf_bus (v : Huffman) : (s.setHuf v).bus = s.bus := rfl
@[simp] theorem State.setHuf_setHuf (u v : Huffman) : (s.setHuf u).setHuf v = s.setHuf v := rfl
@[simp] theorem State.setHuf_same : s.setHuf s.huf = s := rfl

/-! ### setLzwE -/

@[simp] theorem State.setLzwE_params (v : LzwEnc) : (s.setLzwE v).params = s.params := rfl
@[simp] theorem State.setLzwE_seq (v : LzwEnc) : (s.setLzwE v).seq = s.seq := rfl
@[simp] theorem State.setLzwE_ctrl (v : LzwEnc) : (s.setLzwE v).ctrl = s.ctrl := rfl
@[simp] theorem State.setLzwE_status (v : LzwEnc) : (s.setLzwE v).status = s.status := rfl
@[simp] theorem State.setLzwE_err (v : LzwEnc) : (s.setLzwE v).err = s.err := rfl
@[simp] theorem State.setLzwE_arg (v : LzwEnc) : (s.setLzwE v).arg = s.arg := rfl
@[simp] theorem State.setLzwE_res (v : LzwEnc) : (s.setLzwE v).res = s.res := rfl
@[simp] theorem State.setLzwE_inLen (v : LzwEnc) : (s.setLzwE v).inLen = s.inLen := rfl
@[simp] theorem State.setLzwE_ext (v : LzwEnc) : (s.setLzwE v).ext = s.ext := rfl
@[simp] theorem State.setLzwE_origSize (v : LzwEnc) : (s.setLzwE v).origSize = s.origSize := rfl
@[simp] theorem State.setLzwE_valid (v : LzwEnc) : (s.setLzwE v).valid = s.valid := rfl
@[simp] theorem State.setLzwE_writer (v : LzwEnc) : (s.setLzwE v).writer = s.writer := rfl
@[simp] theorem State.setLzwE_reader (v : LzwEnc) : (s.setLzwE v).reader = s.reader := rfl
@[simp] theorem State.setLzwE_huf (v : LzwEnc) : (s.setLzwE v).huf = s.huf := rfl
@[simp] theorem State.setLzwE_lzwE (v : LzwEnc) : (s.setLzwE v).lzwE = v := rfl
@[simp] theorem State.setLzwE_lzwD (v : LzwEnc) : (s.setLzwE v).lzwD = s.lzwD := rfl
@[simp] theorem State.setLzwE_ari (v : LzwEnc) : (s.setLzwE v).ari = s.ari := rfl
@[simp] theorem State.setLzwE_ibuf (v : LzwEnc) : (s.setLzwE v).ibuf = s.ibuf := rfl
@[simp] theorem State.setLzwE_obuf (v : LzwEnc) : (s.setLzwE v).obuf = s.obuf := rfl
@[simp] theorem State.setLzwE_extbuf (v : LzwEnc) : (s.setLzwE v).extbuf = s.extbuf := rfl
@[simp] theorem State.setLzwE_draws (v : LzwEnc) : (s.setLzwE v).draws = s.draws := rfl
@[simp] theorem State.setLzwE_tape (v : LzwEnc) : (s.setLzwE v).tape = s.tape := rfl
@[simp] theorem State.setLzwE_bus (v : LzwEnc) : (s.setLzwE v).bus = s.bus := rfl
@[simp] theorem State.setLzwE_setLzwE (u v : LzwEnc) : (s.setLzwE u).setLzwE v = s.setLzwE v := rfl
@[simp] theorem State.setLzwE_same : s.setLzwE s.lzwE = s := rfl

/-! ### setLzwD -/

@[simp] theorem State.setLzwD_params (v : LzwDec) : (s.setLzwD v).params = s.params := rfl
@[simp] theorem State.setLzwD_seq (v : LzwDec) : (s.setLzwD v).seq = s.seq := rfl
@[simp] theorem State.setLzwD_ctrl (v : LzwDec) : (s.setLzwD v).ctrl = s.ctrl := rfl
@[simp] theorem State.setLzwD_status (v : LzwDec) : (s.setLzwD v).status = s.status := rfl
@[simp] theorem State.setLzwD_err (v : LzwDec) : (s.setLzwD v).err = s.err := rfl
@[simp] theorem State.setLzwD_arg (v : LzwDec) : (s.setLzwD v).arg = s.arg := rfl
@[simp] theorem State.setLzwD_res (v : LzwDec) : (s.setLzwD v).res = s.res := rfl
@[simp] theorem State.setLzwD_inLen (v : LzwDec) : (s.setLzwD v).inLen = s.inLen := rfl
@[simp] theorem State.setLzwD_ext (v : LzwDec) : (s.setLzwD v).ext = s.ext := rfl
@[simp] theorem State.setLzwD_origSize (v : LzwDec) : (s.setLzwD v).origSize = s.origSize := rfl
@[simp] theorem State.setLzwD_valid (v : LzwDec) : (s.setLzwD v).valid = s.valid := rfl
@[simp] theorem State.setLzwD_writer (v : LzwDec) : (s.setLzwD v).writer = s.writer := rfl
@[simp] theorem State.setLzwD_reader (v : LzwDec) : (s.setLzwD v).reader = s.reader := rfl
@[simp] theorem State.setLzwD_huf (v : LzwDec) : (s.setLzwD v).huf = s.huf := rfl
@[simp] theorem State.setLzwD_lzwE (v : LzwDec) : (s.setLzwD v).lzwE = s.lzwE := rfl
@[simp] theorem State.setLzwD_lzwD (v : LzwDec) : (s.setLzwD v).lzwD = v := rfl
@[simp] theorem State.setLzwD_ari (v : LzwDec) : (s.setLzwD v).ari = s.ari := rfl
@[simp] theorem State.setLzwD_ibuf (v : LzwDec) : (s.setLzwD v).ibuf = s.ibuf := rfl
@[simp] theorem State.setLzwD_obuf (v : LzwDec) : (s.setLzwD v).obuf = s.obuf := rfl
@[simp] theorem State.setLzwD_extbuf (v : LzwDec) : (s.setLzwD v).extbuf = s.extbuf := rfl
@[simp] theorem State.setLzwD_draws (v : LzwDec) : (s.setLzwD v).draws = s.draws := rfl
@[simp] theorem State.setLzwD_tape (v : LzwDec) : (s.setLzwD v).tape = s.tape := rfl
@[simp] theorem State.setLzwD_bus (v : LzwDec) : (s.setLzwD v).bus = s.bus := rfl
@[simp] theorem State.setLzwD_setLzwD (u v : LzwDec) : (s.setLzwD u).setLzwD v = s.setLzwD v := rfl
@[simp] theorem State.setLzwD_same : s.setLzwD s.lzwD = s := rfl

/-! ### setAri -/

@[simp] theorem State.setAri_params (v : Arith) : (s.setAri v).params = s.params := rfl
@[simp] theorem State.setAri_seq (v : Arith) : (s.setAri v).seq = s.seq := rfl
@[simp] theorem State.setAri_ctrl (v : Arith) : (s.setAri v).ctrl = s.ctrl := rfl
@[simp] theorem State.setAri_status (v : Arith) : (s.setAri v).status = s.status := rfl
@[simp] theorem State.setAri_err (v : Arith) : (s.setAri v).err = s.err := rfl
@[simp] theorem State.setAri_arg (v : Arith) : (s.setAri v).arg = s.arg := rfl
@[simp] theorem State.setAri_res (v : Arith) : (s.setAri v).res = s.res := rfl
@[simp] theorem State.setAri_inLen (v : Arith) : (s.setAri v).inLen = s.inLen := rfl
@[simp] theorem State.setAri_ext (v : Arith) : (s.setAri v).ext = s.ext := rfl
@[simp] theorem State.setAri_origSize (v : Arith) : (s.setAri v).origSize = s.origSize := rfl
@[simp] theorem State.setAri_valid (v : Arith) : (s.setAri v).valid = s.valid := rfl
@[simp] theorem State.setAri_writer (v : Arith) : (s.setAri v).writer = s.writer := rfl
@[simp] theorem State.setAri_reader (v : Arith) : (s.setAri v).reader = s.reader := rfl
@[simp] theorem State.setAri_huf (v : Arith) : (s.setAri v).huf = s.huf := rfl
@[simp] theorem State.setAri_lzwE (v : Arith) : (s.setAri v).lzwE = s.lzwE := rfl
@[simp] theorem State.setAri_lzwD (v : Arith) : (s.setAri v).lzwD = s.lzwD := rfl
@[simp] theorem State.setAri_ari (v : Arith) : (s.setAri v).ari = v := rfl
@[simp] theorem State.setAri_ibuf (v : Arith) : (s.setAri v).ibuf = s.ibuf := rfl
@[simp] theorem State.setAri_obuf (v : Arith) : (s.setAri v).obuf = s.obuf := rfl
@[simp] theorem State.setAri_extbuf (v : Arith) : (s.setAri v).extbuf = s.extbuf := rfl
@[simp] theorem State.setAri_draws (v : Arith) : (s.setAri v).draws = s.draws := rfl
@[simp] theorem State.setAri_tape (v : Arith) : (s.setAri v).tape = s.tape := rfl
@[simp] theorem State.setAri_bus (v : Arith) : (s.setAri v).bus = s.bus := rfl
@[simp] theorem State.setAri_setAri (u v : Arith) : (s.setAri u).setAri v = s.setAri v := rfl
@[simp] theorem State.setAri_same : s.setAri s.ari = s := rfl

/-! ### setIbuf -/

@[simp] theorem State.setIbuf_params (v : Memory) : (s.setIbuf v).params = s.params := rfl
@[simp] theorem State.setIbuf_seq (v : Memory) : (s.setIbuf v).seq = s.seq := rfl
@[simp] theorem State.setIbuf_ctrl (v : Memory) : (s.setIbuf v).ctrl = s.ctrl := rfl
@[simp] theorem State.setIbuf_status (v : Memory) : (s.setIbuf v).status = s.status := rfl
@[simp] theorem State.setIbuf_err (v : Memory) : (s.setIbuf v).err = s.err := rfl
@[simp] theorem State.setIbuf_arg (v : Memory) : (s.setIbuf v).arg = s.arg := rfl
@[simp] theorem State.setIbuf_res (v : Memory) : (s.setIbuf v).res = s.res := rfl
@[simp] theorem State.setIbuf_inLen (v : Memory) : (s.setIbuf v).inLen = s.inLen := rfl
@[simp] theorem State.setIbuf_ext (v : Memory) : (s.setIbuf v).ext = s.ext := rfl
@[simp] theorem State.setIbuf_origSize (v : Memory) : (s.setIbuf v).origSize = s.origSize := rfl
@[simp] theorem State.setIbuf_valid (v : Memory) : (s.setIbuf v).valid = s.valid := rfl
@[simp] theorem State.setIbuf_writer (v : Memory) : (s.setIbuf v).writer = s.writer := rfl
@[simp] theorem State.setIbuf_reader (v : Memory) : (s.setIbuf v).reader = s.reader := rfl
@[simp] theorem State.setIbuf_huf (v : Memory) : (s.setIbuf v).huf = s.huf := rfl
@[simp] theorem State.setIbuf_lzwE (v : Memory) : (s.setIbuf v).lzwE = s.lzwE := rfl
@[simp] theorem State.setIbuf_lzwD (v : Memory) : (s.setIbuf v).lzwD = s.lzwD := rfl
@[simp] theorem State.setIbuf_ari (v : Memory) : (s.setIbuf v).ari = s.ari := rfl
@[simp] theorem State.setIbuf_ibuf (v : Memory) : (s.setIbuf v).ibuf = v := rfl
@[simp] theorem State.setIbuf_obuf (v : Memory) : (s.setIbuf v).obuf = s.obuf := rfl
@[simp] theorem State.setIbuf_extbuf (v : Memory) : (s.setIbuf v).extbuf = s.extbuf := rfl
@[simp] theorem State.setIbuf_draws (v : Memory) : (s.setIbuf v).draws = s.draws := rfl
@[simp] theorem State.setIbuf_tape (v : Memory) : (s.setIbuf v).tape = s.tape := rfl
@[simp] theorem State.setIbuf_bus (v : Memory) : (s.setIbuf v).bus = s.bus := rfl
@[simp] theorem State.setIbuf_setIbuf (u v : Memory) : (s.setIbuf u).setIbuf v = s.setIbuf v := rfl
@[simp] theorem State.setIbuf_same : s.setIbuf s.ibuf = s := rfl

/-! ### setObuf -/

@[simp] theorem State.setObuf_params (v : Memory) : (s.setObuf v).params = s.params := rfl
@[simp] theorem State.setObuf_seq (v : Memory) : (s.setObuf v).seq = s.seq := rfl
@[simp] theorem State.setObuf_ctrl (v : Memory) : (s.setObuf v).ctrl = s.ctrl := rfl
@[simp] theorem State.setObuf_status (v : Memory) : (s.setObuf v).status = s.status := rfl
@[simp] theorem State.setObuf_err (v : Memory) : (s.setObuf v).err = s.err := rfl
@[simp] theorem State.setObuf_arg (v : Memory) : (s.setObuf v).arg = s.arg := rfl
@[simp] theorem State.setObuf_res (v : Memory) : (s.setObuf v).res = s.res := rfl
@[simp] theorem State.setObuf_inLen (v : Memory) : (s.setObuf v).inLen = s.inLen := rfl
@[simp] theorem State.setObuf_ext (v : Memory) : (s.setObuf v).ext = s.ext := rfl
@[simp] theorem State.setObuf_origSize (v : Memory) : (s.setObuf v).origSize = s.origSize := rfl
@[simp] theorem State.setObuf_valid (v : Memory) : (s.setObuf v).valid = s.valid := rfl
@[simp] theorem State.setObuf_writer (v : Memory) : (s.setObuf v).writer = s.writer := rfl
@[simp] theorem State.setObuf_reader (v : Memory) : (s.setObuf v).reader = s.reader := rfl
@[simp] theorem State.setObuf_huf (v : Memory) : (s.setObuf v).huf = s.huf := rfl
@[simp] theorem State.setObuf_lzwE (v : Memory) : (s.setObuf v).lzwE = s.lzwE := rfl
@[simp] theorem State.setObuf_lzwD (v : Memory) : (s.setObuf v).lzwD = s.lzwD := rfl
@[simp] theorem State.setObuf_ari (v : Memory) : (s.setObuf v).ari = s.ari := rfl
@[simp] theorem State.setObuf_ibuf (v : Memory) : (s.setObuf v).ibuf = s.ibuf := rfl
@[simp] theorem State.setObuf_obuf (v : Memory) : (s.setObuf v).obuf = v := rfl
@[simp] theorem State.setObuf_extbuf (v : Memory) : (s.setObuf v).extbuf = s.extbuf := rfl
@[simp] theorem State.setObuf_draws (v : Memory) : (s.setObuf v).draws = s.draws := rfl
@[simp] theorem State.setObuf_tape (v : Memory) : (s.setObuf v).tape = s.tape := rfl
@[simp] theorem State.setObuf_bus (v : Memory) : (s.setObuf v).bus = s.bus := rfl
@[simp] theorem State.setObuf_setObuf (u v : Memory) : (s.setObuf u).setObuf v = s.setObuf v := rfl
@[simp] theorem State.setObuf_same : s.setObuf s.obuf = s := rfl

/-! ### setExtbuf -/

@[simp] theorem State.setExtbuf_params (v : Memory) : (s.setExtbuf v).params = s.params := rfl
@[simp] theorem State.setExtbuf_seq (v : Memory) : (s.setExtbuf v).seq = s.seq := rfl
@[simp] theorem State.setExtbuf_ctrl (v : Memory) : (s.setExtbuf v).ctrl = s.ctrl := rfl
@[simp] theorem State.setExtbuf_status (v : Memory) : (s.setExtbuf v).status = s.status := rfl
@[simp] theorem State.setExtbuf_err (v : Memory) : (s.setExtbuf v).err = s.err := rfl
@[simp] theorem State.setExtbuf_arg (v : Memory) : (s.setExtbuf v).arg = s.arg := rfl
@[simp] theorem State.setExtbuf_res (v : Memory) : (s.setExtbuf v).res = s.res := rfl
@[simp] theorem State.setExtbuf_inLen (v : Memory) : (s.setExtbuf v).inLen = s.inLen := rfl
@[simp] theorem State.setExtbuf_ext (v : Memory) : (s.setExtbuf v).ext = s.ext := rfl
@[simp] theorem State.setExtbuf_origSize (v : Memory) : (s.setExtbuf v).origSize = s.origSize := rfl
@[simp] theorem State.setExtbuf_valid (v : Memory) : (s.setExtbuf v).valid = s.valid := rfl
@[simp] theorem State.setExtbuf_writer (v : Memory) : (s.setExtbuf v).writer = s.writer := rfl
@[simp] theorem State.setExtbuf_reader (v : Memory) : (s.setExtbuf v).reader = s.reader := rfl
@[simp] theorem State.setExtbuf_huf (v : Memory) : (s.setExtbuf v).huf = s.huf := rfl
@[simp] theorem State.setExtbuf_lzwE (v : Memory) : (s.setExtbuf v).lzwE = s.lzwE := rfl
@[simp] theorem State.setExtbuf_lzwD (v : Memory) : (s.setExtbuf v).lzwD = s.lzwD := rfl
@[simp] theorem State.setExtbuf_ari (v : Memory) : (s.setExtbuf v).ari = s.ari := rfl
@[simp] theorem State.setExtbuf_ibuf (v : Memory) : (s.setExtbuf v).ibuf = s.ibuf := rfl
@[simp] theorem State.setExtbuf_obuf (v : Memory) : (s.setExtbuf v).obuf = s.obuf := rfl
@[simp] theorem State.setExtbuf_extbuf (v : Memory) : (s.setExtbuf v).extbuf = v := rfl
@[simp] theorem State.setExtbuf_draws (v : Memory) : (s.setExtbuf v).draws = s.draws := rfl
@[simp] theorem State.setExtbuf_tape (v : Memory) : (s.setExtbuf v).tape = s.tape := rfl
@[simp] theorem State.setExtbuf_bus (v : Memory) : (s.setExtbuf v).bus = s.bus := rfl
@[simp] theorem State.setExtbuf_setExtbuf (u v : Memory) : (s.setExtbuf u).setExtbuf v = s.setExtbuf v := rfl
@[simp] theorem State.setExtbuf_same : s.setExtbuf s.extbuf = s := rfl

/-! ### setDraws -/

@[simp] theorem State.setDraws_params (v : Nat) : (s.setDraws v).params = s.params := rfl
@[simp] theorem State.setDraws_seq (v : Nat) : (s.setDraws v).seq = s.seq := rfl
@[simp] theorem State.setDraws_ctrl (v : Nat) : (s.setDraws v).ctrl = s.ctrl := rfl
@[simp] theorem State.setDraws_status (v : Nat) : (s.setDraws v).status = s.status := rfl
@[simp] theorem State.setDraws_err (v : Nat) : (s.setDraws v).err = s.err := rfl
@[simp] theorem State.setDraws_arg (v : Nat) : (s.setDraws v).arg = s.arg := rfl
@[simp] theorem State.setDraws_res (v : Nat) : (s.setDraws v).res = s.res := rfl
@[simp] theorem State.setDraws_inLen (v : Nat) : (s.setDraws v).inLen = s.inLen := rfl
@[simp] theorem State.setDraws_ext (v : Nat) : (s.setDraws v).ext = s.ext := rfl
@[simp] theorem State.setDraws_origSize (v : Nat) : (s.setDraws v).origSize = s.origSize := rfl
@[simp] theorem State.setDraws_valid (v : Nat) : (s.setDraws v).valid = s.valid := rfl
@[simp] theorem State.setDraws_writer (v : Nat) : (s.setDraws v).writer = s.writer := rfl
@[simp] theorem State.setDraws_reader (v : Nat) : (s.setDraws v).reader = s.reader := rfl
@[simp] theorem State.setDraws_huf (v : Nat) : (s.setDraws v).huf = s.huf := rfl
@[simp] theorem State.setDraws_lzwE (v : Nat) : (s.setDraws v).lzwE = s.lzwE := rfl
@[simp] theorem State.setDraws_lzwD (v : Nat) : (s.setDraws v).lzwD = s.lzwD := rfl
@[simp] theorem State.setDraws_ari (v : Nat) : (s.setDraws v).ari = s.ari := rfl
@[simp] theorem State.setDraws_ibuf (v : Nat) : (s.setDraws v).ibuf = s.ibuf := rfl
@[simp] theorem State.setDraws_obuf (v : Nat) : (s.setDraws v).obuf = s.obuf := rfl
@[simp] theorem State.setDraws_extbuf (v : Nat) : (s.setDraws v).extbuf = s.extbuf := rfl
@[simp] theorem State.setDraws_draws (v : Nat) : (s.setDraws v).draws = v := rfl
@[simp] theorem State.setDraws_tape (v : Nat) : (s.setDraws v).tape = s.tape := rfl
@[simp] theorem State.setDraws_bus (v : Nat) : (s.setDraws v).bus = s.bus := rfl
@[simp] theorem State.setDraws_setDraws (u v : Nat) : (s.setDraws u).setDraws v = s.setDraws v := rfl
@[simp] theorem State.setDraws_same : s.setDraws s.draws = s := rfl

/-! ### setTape -/

@[simp] theorem State.setTape_params (v : List Move) : (s.setTape v).params = s.params := rfl
@[simp] theorem State.setTape_seq (v : List Move) : (s.setTape v).seq = s.seq := rfl
@[simp] theorem State.setTape_ctrl (v : List Move) : (s.setTape v).ctrl = s.ctrl := rfl
@[simp] theorem State.setTape_status (v : List Move) : (s.setTape v).status = s.status := rfl
@[simp] theorem State.setTape_err (v : List Move) : (s.setTape v).err = s.err := rfl
@[simp] theorem State.setTape_arg (v : List Move) : (s.setTape v).arg = s.arg := rfl
@[simp] theorem State.setTape_res (v : List Move) : (s.setTape v).res = s.res := rfl
@[simp] theorem State.setTape_inLen (v : List Move) : (s.setTape v).inLen = s.inLen := rfl
@[simp] theorem State.setTape_ext (v : List Move) : (s.setTape v).ext = s.ext := rfl
@[simp] theorem State.setTape_origSize (v : List Move) : (s.setTape v).origSize = s.origSize := rfl
@[simp] theorem State.setTape_valid (v : List Move) : (s.setTape v).valid = s.valid := rfl
@[simp] theorem State.setTape_writer (v : List Move) : (s.setTape v).writer = s.writer := rfl
@[simp] theorem State.setTape_reader (v : List Move) : (s.setTape v).reader = s.reader := rfl
@[simp] theorem State.setTape_huf (v : List Move) : (s.setTape v).huf = s.huf := rfl
@[simp] theorem State.setTape_lzwE (v : List Move) : (s.setTape v).lzwE = s.lzwE := rfl
@[simp] theorem State.setTape_lzwD (v : List Move) : (s.setTape v).lzwD = s.lzwD := rfl
@[simp] theorem State.setTape_ari (v : List Move) : (s.setTape v).ari = s.ari := rfl
@[simp] theorem State.setTape_ibuf (v : List Move) : (s.setTape v).ibuf = s.ibuf := rfl
@[simp] theorem State.setTape_obuf (v : List Move) : (s.setTape v).obuf = s.obuf := rfl
@[simp] theorem State.setTape_extbuf (v : List Move) : (s.setTape v).extbuf = s.extbuf := rfl
@[simp] theorem State.setTape_draws (v : List Move) : (s.setTape v).draws = s.draws := rfl
@[simp] theorem State.setTape_tape (v : List Move) : (s.setTape v).tape = v := rfl
@[simp] theorem State.setTape_bus (v : List Move) : (s.setTape v).bus = s.bus := rfl
@[simp] theorem State.setTape_setTape (u v : List Move) : (s.setTape u).setTape v = s.setTape v := rfl
@[simp] theorem State.setTape_same : s.setTape s.tape = s := rfl

/-! ### setBus -/

@[simp] theorem State.setBus_params (v : BusReply) : (s.setBus v).params = s.params := rfl
@[simp] theorem State.setBus_seq (v : BusReply) : (s.setBus v).seq = s.seq := rfl
@[simp] theorem State.setBus_ctrl (v : BusReply) : (s.setBus v).ctrl = s.ctrl := rfl
@[simp] theorem State.setBus_status (v : BusReply) : (s.setBus v).status = s.status := rfl
@[simp] theorem State.setBus_err (v : BusReply) : (s.setBus v).err = s.err := rfl
@[simp] theorem State.setBus_arg (v : BusReply) : (s.setBus v).arg = s.arg := rfl
@[simp] theorem State.setBus_res (v : BusReply) : (s.setBus v).res = s.res := rfl
@[simp] theorem State.setBus_inLen (v : BusReply) : (s.setBus v).inLen = s.inLen := rfl
@[simp] theorem State.setBus_ext (v : BusReply) : (s.setBus v).ext = s.ext := rfl
@[simp] theorem State.setBus_origSize (v : BusReply) : (s.setBus v).origSize = s.origSize := rfl
@[simp] theorem State.setBus_valid (v : BusReply) : (s.setBus v).valid = s.valid := rfl
@[simp] theorem State.setBus_writer (v : BusReply) : (s.setBus v).writer = s.writer := rfl
@[simp] theorem State.setBus_reader (v : BusReply) : (s.setBus v).reader = s.reader := rfl
@[simp] theorem State.setBus_huf (v : BusReply) : (s.setBus v).huf = s.huf := rfl
@[simp] theorem State.setBus_lzwE (v : BusReply) : (s.setBus v).lzwE = s.lzwE := rfl
@[simp] theorem State.setBus_lzwD (v : BusReply) : (s.setBus v).lzwD = s.lzwD := rfl
@[simp] theorem State.setBus_ari (v : BusReply) : (s.setBus v).ari = s.ari := rfl
@[simp] theorem State.setBus_ibuf (v : BusReply) : (s.setBus v).ibuf = s.ibuf := rfl
@[simp] theorem State.setBus_obuf (v : BusReply) : (s.setBus v).obuf = s.obuf := rfl
@[simp] theorem State.setBus_extbuf (v : BusReply) : (s.setBus v).extbuf = s.extbuf := rfl
@[simp] theorem State.setBus_draws (v : BusReply) : (s.setBus v).draws = s.draws := rfl
@[simp] theorem State.setBus_tape (v : BusReply) : (s.setBus v).tape = s.tape := rfl
@[simp] theorem State.setBus_bus (v : BusReply) : (s.setBus v).bus = v := rfl
@[simp] theorem State.setBus_setBus (u v : BusReply) : (s.setBus u).setBus v = s.setBus v := rfl
@[simp] theorem State.setBus_same : s.setBus s.bus = s := rfl

/-! ### setRdOvr -/

@[simp] theorem State.setRdOvr_params (b : Bool) : (s.setRdOvr b).params = s.params := rfl
@[simp] theorem State.setRdOvr_seq (b : Bool) : (s.setRdOvr b).seq = s.seq := rfl
@[simp] theorem State.setRdOvr_ctrl (b : Bool) : (s.setRdOvr b).ctrl = s.ctrl := rfl
@[simp] theorem State.setRdOvr_err (b : Bool) : (s.setRdOvr b).err = s.err := rfl
@[simp] theorem State.setRdOvr_arg (b : Bool) : (s.setRdOvr b).arg = s.arg := rfl
@[simp] theorem State.setRdOvr_res (b : Bool) : (s.setRdOvr b).res = s.res := rfl
@[simp] theorem State.setRdOvr_inLen (b : Bool) : (s.setRdOvr b).inLen = s.inLen := rfl
@[simp] theorem State.setRdOvr_ext (b : Bool) : (s.setRdOvr b).ext = s.ext := rfl
@[simp] theorem State.setRdOvr_origSize (b : Bool) : (s.setRdOvr b).origSize = s.origSize := rfl
@[simp] theorem State.setRdOvr_valid (b : Bool) : (s.setRdOvr b).valid = s.valid := rfl
@[simp] theorem State.setRdOvr_writer (b : Bool) : (s.setRdOvr b).writer = s.writer := rfl
@[simp] theorem State.setRdOvr_reader (b : Bool) : (s.setRdOvr b).reader = s.reader := rfl
@[simp] theorem State.setRdOvr_huf (b : Bool) : (s.setRdOvr b).huf = s.huf := rfl
@[simp] theorem State.setRdOvr_lzwE (b : Bool) : (s.setRdOvr b).lzwE = s.lzwE := rfl
@[simp] theorem State.setRdOvr_lzwD (b : Bool) : (s.setRdOvr b).lzwD = s.lzwD := rfl
@[simp] theorem State.setRdOvr_ari (b : Bool) : (s.setRdOvr b).ari = s.ari := rfl
@[simp] theorem State.setRdOvr_ibuf (b : Bool) : (s.setRdOvr b).ibuf = s.ibuf := rfl
@[simp] theorem State.setRdOvr_obuf (b : Bool) : (s.setRdOvr b).obuf = s.obuf := rfl
@[simp] theorem State.setRdOvr_extbuf (b : Bool) : (s.setRdOvr b).extbuf = s.extbuf := rfl
@[simp] theorem State.setRdOvr_draws (b : Bool) : (s.setRdOvr b).draws = s.draws := rfl
@[simp] theorem State.setRdOvr_tape (b : Bool) : (s.setRdOvr b).tape = s.tape := rfl
@[simp] theorem State.setRdOvr_bus (b : Bool) : (s.setRdOvr b).bus = s.bus := rfl

/-! ### setLzwEos -/

@[simp] theorem State.setLzwEos_params (b : Bool) : (s.setLzwEos b).params = s.params := rfl
@[simp] theorem State.setLzwEos_seq (b : Bool) : (s.setLzwEos b).seq = s.seq := rfl
@[simp] theorem State.setLzwEos_ctrl (b : Bool) : (s.setLzwEos b).ctrl = s.ctrl := rfl
@[simp] theorem State.setLzwEos_err (b : Bool) : (s.setLzwEos b).err = s.err := rfl
@[simp] theorem State.setLzwEos_arg (b : Bool) : (s.setLzwEos b).arg = s.arg := rfl
@[simp] theorem State.setLzwEos_res (b : Bool) : (s.setLzwEos b).res = s.res := rfl
@[simp] theorem State.setLzwEos_inLen (b : Bool) : (s.setLzwEos b).inLen = s.inLen := rfl
@[simp] theorem State.setLzwEos_ext (b : Bool) : (s.setLzwEos b).ext = s.ext := rfl
@[simp] theorem State.setLzwEos_origSize (b : Bool) : (s.setLzwEos b).origSize = s.origSize := rfl
@[simp] theorem State.setLzwEos_valid (b : Bool) : (s.setLzwEos b).valid = s.valid := rfl
@[simp] theorem State.setLzwEos_writer (b : Bool) : (s.setLzwEos b).writer = s.writer := rfl
@[simp] theorem State.setLzwEos_reader (b : Bool) : (s.setLzwEos b).reader = s.reader := rfl
@[simp] theorem State.setLzwEos_huf (b : Bool) : (s.setLzwEos b).huf = s.huf := rfl
@[simp] theorem State.setLzwEos_lzwE (b : Bool) : (s.setLzwEos b).lzwE = s.lzwE := rfl
@[simp] theorem State.setLzwEos_lzwD (b : Bool) : (s.setLzwEos b).lzwD = s.lzwD := rfl
@[simp] theorem State.setLzwEos_ari (b : Bool) : (s.setLzwEos b).ari = s.ari := rfl
@[simp] theorem State.setLzwEos_ibuf (b : Bool) : (s.setLzwEos b).ibuf = s.ibuf := rfl
@[simp] theorem State.setLzwEos_obuf (b : Bool) : (s.setLzwEos b).obuf = s.obuf := rfl
@[simp] theorem State.setLzwEos_extbuf (b : Bool) : (s.setLzwEos b).extbuf = s.extbuf := rfl
@[simp] theorem State.setLzwEos_draws (b : Bool) : (s.setLzwEos b).draws = s.draws := rfl
@[simp] theorem State.setLzwEos_tape (b : Bool) : (s.setLzwEos b).tape = s.tape := rfl
@[simp] theorem State.setLzwEos_bus (b : Bool) : (s.setLzwEos b).bus = s.bus := rfl

/-! ### setStored -/

@[simp] theorem State.setStored_params (b : Bool) : (s.setStored b).params = s.params := rfl
@[simp] theorem State.setStored_seq (b : Bool) : (s.setStored b).seq = s.seq := rfl
@[simp] theorem State.setStored_ctrl (b : Bool) : (s.setStored b).ctrl = s.ctrl := rfl
@[simp] theorem State.setStored_err (b : Bool) : (s.setStored b).err = s.err := rfl
@[simp] theorem State.setStored_arg (b : Bool) : (s.setStored b).arg = s.arg := rfl
@[simp] theorem State.setStored_res (b : Bool) : (s.setStored b).res = s.res := rfl
@[simp] theorem State.setStored_inLen (b : Bool) : (s.setStored b).inLen = s.inLen := rfl
@[simp] theorem State.setStored_ext (b : Bool) : (s.setStored b).ext = s.ext := rfl
@[simp] theorem State.setStored_origSize (b : Bool) : (s.setStored b).origSize = s.origSize := rfl
@[simp] theorem State.setStored_valid (b : Bool) : (s.setStored b).valid = s.valid := rfl
@[simp] theorem State.setStored_writer (b : Bool) : (s.setStored b).writer = s.writer := rfl
@[simp] theorem State.setStored_reader (b : Bool) : (s.setStored b).reader = s.reader := rfl
@[simp] theorem State.setStored_huf (b : Bool) : (s.setStored b).huf = s.huf := rfl
@[simp] theorem State.setStored_lzwE (b : Bool) : (s.setStored b).lzwE = s.lzwE := rfl
@[simp] theorem State.setStored_lzwD (b : Bool) : (s.setStored b).lzwD = s.lzwD := rfl
@[simp] theorem State.setStored_ari (b : Bool) : (s.setStored b).ari = s.ari := rfl
@[simp] theorem State.setStored_ibuf (b : Bool) : (s.setStored b).ibuf = s.ibuf := rfl
@[simp] theorem State.setStored_obuf (b : Bool) : (s.setStored b).obuf = s.obuf := rfl
@[simp] theorem State.setStored_extbuf (b : Bool) : (s.setStored b).extbuf = s.extbuf := rfl
@[simp] theorem State.setStored_draws (b : Bool) : (s.setStored b).draws = s.draws := rfl
@[simp] theorem State.setStored_tape (b : Bool) : (s.setStored b).tape = s.tape := rfl
@[simp] theorem State.setStored_bus (b : Bool) : (s.setStored b).bus = s.bus := rfl

/-! ### setIsbinIn -/

@[simp] theorem State.setIsbinIn_params (b : Bool) : (s.setIsbinIn b).params = s.params := rfl
@[simp] theorem State.setIsbinIn_seq (b : Bool) : (s.setIsbinIn b).seq = s.seq := rfl
@[simp] theorem State.setIsbinIn_ctrl (b : Bool) : (s.setIsbinIn b).ctrl = s.ctrl := rfl
@[simp] theorem State.setIsbinIn_err (b : Bool) : (s.setIsbinIn b).err = s.err := rfl
@[simp] theorem State.setIsbinIn_arg (b : Bool) : (s.setIsbinIn b).arg = s.arg := rfl
@[simp] theorem State.setIsbinIn_res (b : Bool) : (s.setIsbinIn b).res = s.res := rfl
@[simp] theorem State.setIsbinIn_inLen (b : Bool) : (s.setIsbinIn b).inLen = s.inLen := rfl
@[simp] theorem State.setIsbinIn_ext (b : Bool) : (s.setIsbinIn b).ext = s.ext := rfl
@[simp] theorem State.setIsbinIn_origSize (b : Bool) : (s.setIsbinIn b).origSize = s.origSize := rfl
@[simp] theorem State.setIsbinIn_valid (b : Bool) : (s.setIsbinIn b).valid = s.valid := rfl
@[simp] theorem State.setIsbinIn_writer (b : Bool) : (s.setIsbinIn b).writer = s.writer := rfl
@[simp] theorem State.setIsbinIn_reader (b : Bool) : (s.setIsbinIn b).reader = s.reader := rfl
@[simp] theorem State.setIsbinIn_huf (b : Bool) : (s.setIsbinIn b).huf = s.huf := rfl
@[simp] theorem State.setIsbinIn_lzwE (b : Bool) : (s.setIsbinIn b).lzwE = s.lzwE := rfl
@[simp] theorem State.setIsbinIn_lzwD (b : Bool) : (s.setIsbinIn b).lzwD = s.lzwD := rfl
@[simp] theorem State.setIsbinIn_ari (b : Bool) : (s.setIsbinIn b).ari = s.ari := rfl
@[simp] theorem State.setIsbinIn_ibuf (b : Bool) : (s.setIsbinIn b).ibuf = s.ibuf := rfl
@[simp] theorem State.setIsbinIn_obuf (b : Bool) : (s.setIsbinIn b).obuf = s.obuf := rfl
@[simp] theorem State.setIsbinIn_extbuf (b : Bool) : (s.setIsbinIn b).extbuf = s.extbuf := rfl
@[simp] theorem State.setIsbinIn_draws (b : Bool) : (s.setIsbinIn b).draws = s.draws := rfl
@[simp] theorem State.setIsbinIn_tape (b : Bool) : (s.setIsbinIn b).tape = s.tape := rfl
@[simp] theorem State.setIsbinIn_bus (b : Bool) : (s.setIsbinIn b).bus = s.bus := rfl

/-! ### flagAnomaly -/

@[simp] theorem State.flagAnomaly_params : s.flagAnomaly.params = s.params := rfl
@[simp] theorem State.flagAnomaly_seq : s.flagAnomaly.seq = s.seq := rfl
@[simp] theorem State.flagAnomaly_ctrl : s.flagAnomaly.ctrl = s.ctrl := rfl
@[simp] theorem State.flagAnomaly_err : s.flagAnomaly.err = s.err := rfl
@[simp] theorem State.flagAnomaly_arg : s.flagAnomaly.arg = s.arg := rfl
@[simp] theorem State.flagAnomaly_res : s.flagAnomaly.res = s.res := rfl
@[simp] theorem State.flagAnomaly_inLen : s.flagAnomaly.inLen = s.inLen := rfl
@[simp] theorem State.flagAnomaly_ext : s.flagAnomaly.ext = s.ext := rfl
@[simp] theorem State.flagAnomaly_origSize : s.flagAnomaly.origSize = s.origSize := rfl
@[simp] theorem State.flagAnomaly_valid : s.flagAnomaly.valid = s.valid := rfl
@[simp] theorem State.flagAnomaly_writer : s.flagAnomaly.writer = s.writer := rfl
@[simp] theorem State.flagAnomaly_reader : s.flagAnomaly.reader = s.reader := rfl
@[simp] theorem State.flagAnomaly_huf : s.flagAnomaly.huf = s.huf := rfl
@[simp] theorem State.flagAnomaly_lzwE : s.flagAnomaly.lzwE = s.lzwE := rfl
@[simp] theorem State.flagAnomaly_lzwD : s.flagAnomaly.lzwD = s.lzwD := rfl
@[simp] theorem State.flagAnomaly_ari : s.flagAnomaly.ari = s.ari := rfl
@[simp] theorem State.flagAnomaly_ibuf : s.flagAnomaly.ibuf = s.ibuf := rfl
@[simp] theorem State.flagAnomaly_obuf : s.flagAnomaly.obuf = s.obuf := rfl
@[simp] theorem State.flagAnomaly_extbuf : s.flagAnomaly.extbuf = s.extbuf := rfl
@[simp] theorem State.flagAnomaly_draws : s.flagAnomaly.draws = s.draws := rfl
@[simp] theorem State.flagAnomaly_tape : s.flagAnomaly.tape = s.tape := rfl
@[simp] theorem State.flagAnomaly_bus : s.flagAnomaly.bus = s.bus := rfl

end Sys2Proof.Machine
end

