-- ==== Sys2Proof/Laws/Frames.lean ====
section
/-! SUPPORT. What each command can touch: for every steady relation that the command's parts stay within, the command
stays within it. Every frame and every invariant of a command follows from its lemma here. -/

namespace Sys2Proof.Machine

/-- The writer's operations stay within `R`. -/
structure Output (R : State → State → Prop) : Prop where
  bit : ∀ b, Cmd.Within R (writeBit b)
  flush : Cmd.Within R flushBits

/-- The reader's operations stay within `R`. -/
structure Input (R : State → State → Prop) : Prop where
  bit : Cmd.Within R readBit
  align : Cmd.Within R alignRead

section

variable {R : State → State → Prop} (h : Steady R)

include h

/-- A relation that does not see the writer and OBUF does not see the writer's operations. -/
theorem output_of_blind (hw : ∀ s w o, R s ((s.setObuf o).setWriter w)) : Output R := by
  have put : ∀ b, Cmd.Within R (putByte b) := fun b => within_checked h fun s => hw s _ _
  have acc : ∀ (f : State → Writer), Cmd.Within R (modify fun t => t.setWriter (f t) : Cmd PUnit) := fun f =>
    within_modify fun s => hw s (f s) s.obuf
  refine ⟨fun b => within_get fun s => ?_, within_getAny h fun s => ?_⟩
  · dsimp only
    split
    · exact within_bind h (put _) (fun _ => acc _) s
    · exact hw s _ s.obuf
  · split
    · exact within_pure h _
    · exact within_bind h (put _) fun _ => acc _

/-- A relation that does not see the reader, and RD_OVR's being set, does not see the reader's operations. -/
theorem input_of_blind (hr : ∀ s r, R s (s.setReader r)) (ho : ∀ s, R s (s.setRdOvr true)) : Input R := by
  refine ⟨within_get fun s => ?_, within_modify fun s => hr s _⟩
  split
  · exact hr s _
  · exact h.trans (hr s _) (ho _)

section Writer

variable (hW : Output R)

include hW

theorem writeBits_within (v : Word) : (n : Nat) → Cmd.Within R (writeBits v n)
  | 0 => within_pure h ()
  | n + 1 => within_bind h (hW.bit _) fun _ => writeBits_within v n

theorem writeBitString_within (l : List Bool) : Cmd.Within R (writeBitString l) := within_forEach h hW.bit l

theorem emitByte_within (b : Byte) : Cmd.Within R (emitByte b) := writeBits_within h hW _ _

theorem emitBytes_within (l : List Byte) : Cmd.Within R (emitBytes l) := within_forEach h (emitByte_within h hW) l

theorem emitCodes_within (w : Nat) (l : List (BitVec 12)) : Cmd.Within R (emitCodes w l) :=
  within_forEach h (fun _ => writeBits_within h hW _ _) l

theorem serTree_within : (t : HTree) → Cmd.Within R (serTree t)
  | .leaf _ => within_bind h (writeBits_within h hW _ _) fun _ => writeBits_within h hW _ _
  | .internal l r =>
    within_bind h (writeBits_within h hW _ _) fun _ =>
      within_bind h (serTree_within l) fun _ => serTree_within r

theorem writePayload_within (f : Huffman) : (l : List Byte) → (p : Nat) → Cmd.Within R (writePayload f l p)
  | [], _ => within_pure h _
  | _ :: bs, _ => within_bind h (writeBitString_within h hW _) fun _ => writePayload_within f bs _

theorem writeTable_within (a : Arith) : Cmd.Within R (writeTable a) :=
  within_bind h (writeBits_within h hW _ _) fun _ =>
    within_forEach h (fun _ => within_bind h (writeBits_within h hW _ _) fun _ => writeBits_within h hW _ _) _

theorem outputBit_within (hp : ∀ s : State, R s (s.setAri { s.ari with pending := 0 })) (b : Bool) :
    Cmd.Within R (outputBit b) :=
  within_getAny h fun _ =>
    within_bind h (hW.bit _) fun _ => within_bind h (within_repeatN h (hW.bit _) _) fun _ => within_modify hp

end Writer

section Reader

variable (hR : Input R)

include hR

theorem readBitsFrom_within : (n : Nat) → (v : Word) → Cmd.Within R (readBitsFrom n v)
  | 0, _ => within_pure h _
  | n + 1, _ => within_bind h hR.bit fun _ => readBitsFrom_within n _

theorem readBits_within (n : Nat) : Cmd.Within R (readBits n) := readBitsFrom_within h hR n 0

theorem walkSymbol_within : (t : HTree) → Cmd.Within R (walkSymbol t)
  | .leaf _ => within_pure h _
  | .internal l r => within_bind h hR.bit fun b => by
      cases b
      · exact walkSymbol_within l
      · exact walkSymbol_within r

theorem readCode_within : Cmd.Within R readCode :=
  within_getAny h fun _ => within_bind h (readBits_within h hR _) fun _ => within_pure h _

end Reader

/-! ### Huffman -/

theorem currentTree_within : Cmd.Within R currentTree :=
  within_getAny h fun s => by
    split
    · exact within_pure h _
    · exact within_raise h _

theorem buildTree_within (hh : ∀ s : State, R s (s.setHuf s.huf.build)) : Cmd.Within R buildTree := within_checked h hh

section Parse

variable (hR : Input R) (hh : ∀ (s : State) v, R s (s.setHuf v))

include hR hh

theorem parseTree_within : (depth : Nat) → Cmd.Within R (parseTree depth)
  | 0 => within_raise h _
  | depth + 1 => by
    have alloc : Cmd.Within R allocNode := by
      intro s
      unfold Cmd.At allocNode
      rw [Cmd.get_bind_run, raiseIf_bind_run]
      split <;> rename_i heq <;> split at heq <;> cases heq
      · exact hh s _
      · exact ⟨h.refl s, by decide⟩
    have put : ∀ i n, Cmd.Within R (putNode i n) := fun _ _ => within_modify fun s => hh s _
    refine within_bind h alloc fun i => within_bind h hR.bit fun b => ?_
    split
    · exact within_bind h (readBits_within h hR _) fun _ => within_bind h (put _ _) fun _ => within_pure h _
    · exact within_bind h (parseTree_within depth) fun _ =>
        within_bind h (parseTree_within depth) fun _ => within_bind h (put _ _) fun _ => within_pure h _

theorem parseRoot_within : Cmd.Within R parseRoot :=
  within_bind h (within_modify fun s => hh s _) fun _ =>
    within_bind h (parseTree_within h hR hh _) fun _ => within_modify fun s => hh s _

end Parse

theorem decodePayload_within (hW : Output R) (hR : Input R) (l0 r0 : HTree) :
    (avail : Nat) → (l r : HTree) → (left : Nat) → Cmd.Within R (decodePayload l0 r0 avail l r left)
  | _, _, _, 0 => by
    unfold decodePayload
    exact within_pure h _
  | 0, _, _, _ + 1 => within_raise h _
  | avail + 1, l, r, left + 1 => within_bind h hR.bit fun b => by
      split
      · exact within_bind h (emitByte_within h hW _) fun _ => decodePayload_within hW hR l0 r0 avail _ _ _
      · exact decodePayload_within hW hR l0 r0 avail _ _ _

theorem hufCompress_within (hW : Output R) (hh : ∀ (s : State) v, R s (s.setHuf v))
    (ho : ∀ s : State, R s ((startWriter s).setOrigSize s.inLen)) (he : ∀ s, R s (endCall s)) :
    Cmd.Within R hufCompress := by
  have body : Cmd.Within R hufCompressBody :=
    within_bind h (within_modify fun s => hh s _) fun _ =>
      within_bind h (buildTree_within h fun s => hh s _) fun _ => within_bind h (currentTree_within h) fun _ =>
        within_bind h (within_modify fun s => hh s _) fun _ =>
          within_bind h (serTree_within h hW _) fun _ => within_bind h hW.flush fun _ => within_getAny h fun _ =>
            within_bind h (writePayload_within h hW _ _ _) fun _ => within_bind h hW.flush fun _ =>
              emitByte_within h hW _
  refine within_bind h (within_checkIn h) fun _ => within_bind h (within_modify ho) fun _ => within_getAny h fun s =>
    within_bind h (emitByte_within h hW _) fun _ => within_bind h (writeBits_within h hW _ _) fun _ =>
      within_bind h ?_ fun _ => within_modify he
  unfold hufCompressRest
  split
  · exact emitByte_within h hW _
  · exact body

/-! ### LZW -/

theorem encByte_within (hW : Output R) (he : ∀ (s : State) v, R s (s.setLzwE v)) (c : Byte) :
    Cmd.Within R (encByte c) :=
  within_getAny h fun _ => within_bind h (emitCodes_within h hW _ _) fun _ => within_modify fun s => he s _

theorem encEnd_within (hW : Output R) (he : ∀ (s : State) v, R s (s.setLzwE v)) (hv : ∀ (s : State) v, R s (s.setValid v)) :
    Cmd.Within R encEnd :=
  within_getAny h fun _ => within_bind h (emitCodes_within h hW _ _) fun _ =>
    within_modify fun s => h.trans (he s _) (hv _ _)

theorem resolveCode_within (c : Nat) : Cmd.Within R (resolveCode c) :=
  within_getAny h fun s => by
    split
    · exact within_pure h _
    · exact within_raise h _

theorem insertEntry_within (hd : ∀ (s : State) v, R s (s.setLzwD v)) (str : List Byte) :
    Cmd.Within R (insertEntry str) := by
  intro s
  unfold Cmd.At insertEntry
  rw [Cmd.get_bind_run]
  by_cases hp : s.lzwD.prevV
  · rw [if_pos hp, raiseIf_bind_run]
    split <;> rename_i heq <;> split at heq <;> cases heq
    · exact hd s _
    · exact ⟨h.refl s, by decide⟩
  · rw [if_neg hp]
    exact h.refl s

theorem decodeData_within (hW : Output R) (hd : ∀ (s : State) v, R s (s.setLzwD v)) (c : Nat) :
    Cmd.Within R (decodeData c) :=
  within_bind h (resolveCode_within h c) fun _ => within_bind h (insertEntry_within h hd _) fun _ =>
    within_bind h (emitBytes_within h hW _) fun _ => within_modify fun s => hd s _

theorem decompressLoop_within (hW : Output R) (hR : Input R) (hd : ∀ (s : State) v, R s (s.setLzwD v)) :
    (rounds left : Nat) → Cmd.Within R (decompressLoop rounds left)
  | _, 0 => by
    unfold decompressLoop
    exact within_pure h _
  | 0, _ + 1 => within_raise h _
  | rounds + 1, left + 1 => by
    refine within_bind h (within_bind h (readCode_within h hR) fun c => ?_) fun _ =>
      decompressLoop_within hW hR hd rounds _
    split
    · exact within_raise h _
    · split
      · exact within_bind h (within_modify fun s => hd s _) fun _ => within_pure h _
      · exact within_bind h (resolveCode_within h c) fun _ => within_bind h (insertEntry_within h hd _) fun _ =>
          within_bind h (within_raiseIf h _ _) fun _ => within_bind h (emitBytes_within h hW _) fun _ =>
            within_bind h (within_modify fun s => hd s _) fun _ => within_pure h _

theorem lzwCompress_within (hW : Output R) (he : ∀ (s : State) v, R s (s.setLzwE v))
    (hv : ∀ (s : State) v, R s (s.setValid v)) (hs : ∀ (s : State) b, R s (s.setStored b))
    (ho : ∀ s : State, R s ((startWriter s).setOrigSize s.inLen)) (hend : ∀ s, R s (endCall s)) :
    Cmd.Within R lzwCompress := by
  refine within_bind h (within_checkIn h) fun _ => within_bind h (within_checkExt h) fun _ =>
    within_bind h (within_modify ho) fun _ => within_getAny h fun s =>
      within_bind h (writeBits_within h hW _ _) fun _ => within_bind h (emitBytes_within h hW _) fun _ =>
        within_bind h (writeBits_within h hW _ _) fun _ => within_bind h ?_ fun _ => within_modify hend
  unfold lzwWriteForm
  split
  · exact within_bind h (emitByte_within h hW _) fun _ => within_bind h (emitBytes_within h hW _) fun _ =>
      within_modify fun s => hs s _
  · exact within_bind h (emitByte_within h hW _) fun _ => within_bind h (writeBits_within h hW _ _) fun _ =>
      within_bind h (within_modify fun s => h.trans (he s _) (hv _ _)) fun _ =>
        within_bind h (within_forEach h (encByte_within h hW he) _) fun _ =>
          within_bind h (encEnd_within h hW he hv) fun _ => within_bind h hW.flush fun _ =>
            within_modify fun s => hs s _

/-! ### Arithmetic coder -/

section Arithmetic

variable (ha : ∀ (s : State) v, R s (s.setAri v))

include ha

theorem encRescale_within (hW : Output R) : (n : Nat) → Cmd.Within R (encRescale n)
  | 0 => within_pure h _
  | n + 1 => by
    intro s
    unfold encRescale
    rw [Cmd.At, Cmd.get_bind_run]
    change Cmd.At R _ s
    have out := outputBit_within h hW fun s => ha s _
    split
    · exact within_bind h (out _) (fun _ => within_bind h (within_modify fun s => ha s _) fun _ =>
        encRescale_within hW n) s
    · exact within_bind h (out _) (fun _ => within_bind h (within_modify fun s => ha s _) fun _ =>
        encRescale_within hW n) s
    · have e3 := encRescale_within hW n (s.setAri (Arith.doubled { s.ari with pending := s.ari.pending + 1 } .e3))
      unfold Cmd.At at *
      rw [Cmd.set_bind_run]
      split <;> rename_i heq <;> rw [heq] at e3
      · exact h.trans (ha s _) e3
      · exact ⟨h.trans (ha s _) e3.1, e3.2⟩
    · exact within_pure h _ s

theorem encodeSymbol_within (hW : Output R) (sym : Nat) : Cmd.Within R (encodeSymbol sym) :=
  within_bind h (within_modify fun s => ha s _) fun _ => encRescale_within h ha hW _

theorem flushRangeEncoder_within (hW : Output R) : Cmd.Within R flushRangeEncoder :=
  within_bind h (within_modify fun s => ha s _) fun _ => within_getAny h fun _ =>
    outputBit_within h hW (fun s => ha s _) _

theorem decRescale_within (hR : Input R) : (n : Nat) → Cmd.Within R (decRescale n)
  | 0 => within_pure h _
  | n + 1 => within_getAny h fun s => by
      dsimp only
      split
      · exact within_pure h _
      · exact within_bind h hR.bit fun b => within_bind h (within_modify fun s => ha s _) fun _ =>
          decRescale_within hR n

theorem consumeSymbol_within (hR : Input R) (sym : Nat) : Cmd.Within R (consumeSymbol sym) :=
  within_bind h (within_modify fun s => ha s _) fun _ => decRescale_within h ha hR _

theorem startRangeDecoder_within (hR : Input R) : Cmd.Within R startRangeDecoder :=
  within_bind h (within_modify fun s => ha s _) fun _ => within_bind h (readBits_within h hR _) fun _ =>
    within_modify fun s => ha s _

theorem readEntriesFrom_within (hR : Input R) : (k least sum : Nat) → Cmd.Within R (readEntriesFrom k least sum)
  | 0, _, _ => within_pure h _
  | k + 1, _, _ => within_bind h (readBits_within h hR _) fun _ => within_bind h (readBits_within h hR _) fun _ =>
      within_bind h (within_raiseIf h _ _) fun _ => within_bind h (within_modify fun s => ha s _) fun _ =>
        readEntriesFrom_within hR k _ _

theorem readEntries_within (hR : Input R) (k : Nat) : Cmd.Within R (readEntries k) :=
  within_bind h (within_modify fun s => ha s _) fun _ => within_bind h (readEntriesFrom_within h ha hR _ _ _) fun _ =>
    within_bind h (within_raiseIf h _ _) fun _ => within_pure h _

theorem ariCompress_within (hW : Output R) (ho : ∀ s : State, R s ((startWriter s).setOrigSize s.inLen))
    (hend : ∀ s, R s (endCall s)) : Cmd.Within R ariCompress :=
  within_bind h (within_checkIn h) fun _ => within_bind h (within_checkExt h) fun _ =>
    within_bind h (within_modify ho) fun _ => within_getAny h fun _ => within_bind h (within_raiseIf h _ _) fun _ =>
      within_bind h (emitByte_within h hW _) fun _ => within_bind h (writeBits_within h hW _ _) fun _ =>
        within_bind h (within_forEach h (emitByte_within h hW) _) fun _ =>
          within_bind h (writeBits_within h hW _ _) fun _ => within_bind h (within_modify fun s => ha s _) fun _ =>
            within_getAny h fun _ => within_bind h (writeTable_within h hW _) fun _ =>
              within_bind h (within_modify fun s => ha s _) fun _ =>
                within_bind h (within_forEach h (fun _ => encodeSymbol_within h ha hW _) _) fun _ =>
                  within_bind h (encodeSymbol_within h ha hW _) fun _ =>
                    within_bind h (flushRangeEncoder_within h ha hW) fun _ => within_bind h hW.flush fun _ =>
                      within_modify hend

end Arithmetic

theorem lookup_within (hf : ∀ s : State, R s s.flagAnomaly) : Cmd.Within R lookup :=
  within_get fun s => by
    split
    · exact within_pure h _ s
    · split
      · exact hf s
      · exact (within_raise h _) s

/-! ### The decompress commands -/

section Decompress

variable (hW : Output R) (hR : Input R) (hr : ∀ (s : State) v, R s (s.setReader v))
  (ho : ∀ (s : State) v, R s (s.setOrigSize v)) (hs : ∀ s : State, R s (startReader (startWriter s)))
  (he : ∀ s, R s (endCall s))

include hW hR hr ho hs he

theorem hufDecompress_within (hh : ∀ (s : State) v, R s (s.setHuf v)) (hi : ∀ (s : State) b, R s (s.setIsbinIn b)) :
    Cmd.Within R hufDecompress := by
  have body : ∀ len n, Cmd.Within R (hufDecompressBody len n) := fun len n =>
    within_bind h (parseRoot_within h hR hh) fun _ => within_bind h hR.align fun _ => within_getAny h fun _ =>
      within_bind h (within_raiseIf h _ _) fun _ => within_bind h (within_raiseIf h _ _) fun _ =>
        within_bind h (currentTree_within h) fun t => by
          split
          · exact within_repeatN h (emitByte_within h hW _) _
          · exact within_bind h (within_modify fun s => hr s _) fun _ => decodePayload_within h hW hR _ _ _ _ _ _
  refine within_bind h (within_checkIn h) fun _ => within_bind h (within_modify hs) fun _ => within_getAny h fun s =>
    within_bind h (within_raiseIf h _ _) fun _ => within_bind h (readBits_within h hR _) fun _ =>
      within_bind h (within_modify fun s => hi s _) fun _ => within_bind h (readBits_within h hR _) fun _ =>
        within_bind h (within_modify fun s => ho s _) fun _ => within_bind h ?_ fun _ => within_modify he
  unfold hufDecompressRest
  split
  · exact within_pure h _
  · exact body _ _

theorem lzwDecompress_within (hd : ∀ (s : State) v, R s (s.setLzwD v)) (hx : ∀ (s : State) v, R s (s.setExt v))
    (hst : ∀ (s : State) b, R s (s.setStored b)) (hl : ∀ (s : State) b, R s (s.setLzwEos b)) :
    Cmd.Within R lzwDecompress := by
  refine within_bind h (within_checkIn h) fun _ => within_bind h (within_modify hs) fun _ => within_getAny h fun s =>
    within_bind h (within_raiseIf h _ _) fun _ => within_bind h (readBits_within h hR _) fun _ =>
      within_bind h (within_raiseIf h _ _) fun _ =>
        within_bind h (within_modify fun s => h.trans (hx s _) (hr _ _)) fun _ =>
          within_bind h (readBits_within h hR _) fun _ => within_bind h (within_modify fun s => ho s _) fun _ =>
            within_bind h (readBits_within h hR _) fun _ => within_bind h ?_ fun _ => within_modify he
  unfold lzwReadForm
  split
  · exact within_bind h (within_raiseIf h _ _) fun _ => within_bind h (within_modify fun s => hst s _) fun _ =>
      within_getAny h fun _ => emitBytes_within h hW _
  · split
    · exact within_bind h (within_modify fun s => hst s _) fun _ => within_bind h (within_raiseIf h _ _) fun _ =>
        within_bind h (readBits_within h hR _) fun _ => within_bind h (within_raiseIf h _ _) fun _ =>
          within_bind h (within_modify fun s => h.trans (hr s _) (h.trans (hd _ _) (hl _ _))) fun _ =>
            decompressLoop_within h hW hR hd _ _
    · exact within_raise h _

theorem ariDecompress_within (ha : ∀ (s : State) v, R s (s.setAri v)) (hx : ∀ (s : State) v, R s (s.setExt v))
    (hi : ∀ (s : State) b, R s (s.setIsbinIn b)) (hf : ∀ s : State, R s s.flagAnomaly) :
    Cmd.Within R ariDecompress := by
  have header : ∀ len, Cmd.Within R (ariReadHeader len) := fun len =>
    within_bind h (within_raiseIf h _ _) fun _ => within_bind h (readBits_within h hR _) fun _ =>
      within_bind h (within_modify fun s => hi s _) fun _ => within_bind h (readBits_within h hR _) fun _ =>
        within_bind h (within_raiseIf h _ _) fun _ =>
          within_bind h (within_modify fun s => h.trans (hx s _) (hr _ _)) fun _ =>
            within_bind h (readBits_within h hR _) fun _ => within_bind h (within_modify fun s => ho s _) fun _ =>
              within_bind h (readBits_within h hR _) fun _ => within_bind h (within_raiseIf h _ _) fun _ =>
                within_pure h _
  exact within_bind h (within_checkIn h) fun _ => within_bind h (within_modify hs) fun _ => within_getAny h fun _ =>
    within_bind h (header _) fun _ => within_bind h (readEntries_within h ha hR _) fun _ =>
      within_bind h (within_raiseIf h _ _) fun _ => within_bind h (within_modify fun s => ha s _) fun _ =>
        within_bind h (startRangeDecoder_within h ha hR) fun _ =>
          within_bind h
            (within_repeatN h
              (within_bind h (lookup_within h hf) fun _ => within_bind h (within_raiseIf h _ _) fun _ =>
                within_bind h (consumeSymbol_within h ha hR _) fun _ => emitByte_within h hW _) _)
            fun _ => within_modify he

end Decompress

theorem ariDecSym_within (hR : Input R) (ha : ∀ (s : State) v, R s (s.setAri v)) (hf : ∀ s : State, R s s.flagAnomaly)
    (hr : ∀ (s : State) v, R s (s.setRes v))
    (hv : ∀ s : State, R s (s.setValid { s.valid with ariDec := false })) : Cmd.Within R ariDecSym :=
  within_bind h (within_need h _) fun _ => within_bind h (within_need h _) fun _ =>
    within_bind h (lookup_within h hf) fun _ => within_bind h (within_modify fun s => hr s _) fun _ => by
      unfold afterLookup
      split
      · exact within_modify hv
      · exact consumeSymbol_within h ha hR _

theorem lzwDecCode_within (hW : Output R) (hR : Input R) (hd : ∀ (s : State) v, R s (s.setLzwD v))
    (hr : ∀ (s : State) v, R s (s.setRes v))
    (he : ∀ s : State, R s ((s.setLzwEos true).setValid { s.valid with lzwD := false })) : Cmd.Within R lzwDecCode :=
  within_bind h (within_need h _) fun _ => within_bind h (readCode_within h hR) fun c =>
    within_bind h (within_modify fun s => hr s _) fun _ => by
      unfold decStep
      split
      · exact within_modify he
      · split
        · exact within_modify fun s => hd s _
        · exact decodeData_within h hW hd c

end

/-! ### The commands as pseudocode -/

/-- The pseudocode of each command. -/
def commandOf : Instr → Cmd Unit
  | .nop => pure ()
  | .argLo imm => modify fun s => s.setArg (withLowHalf s.arg imm)
  | .argHi imm => modify fun s => s.setArg (withHighHalf s.arg imm)
  | .clrErr => modify acknowledgeError
  | .bsWinit => modify startWriter
  | .bsWrite cnt => get >>= fun s => writeBits s.arg cnt.toNat
  | .bsWritei cnt imm => writeBits (immWord imm) cnt.toNat
  | .bsFlush => flushBits
  | .bsRinit => bsRinit
  | .bsRead cnt => bsRead cnt.toNat
  | .bsAlign => alignRead
  | .hufFreq => hufFreq
  | .hufTree => hufTree
  | .hufCodes => hufCodes
  | .hufSertree => hufSertree
  | .hufDestree => hufDestree
  | .hufEncsym sym => hufEncsym sym
  | .hufDecsym => hufDecsym
  | .hufFreqRd sym => hufFreqRd sym
  | .hufCodelen sym => hufCodelen sym
  | .hufCompress => hufCompress
  | .hufDecompress => hufDecompress
  | .lzwEncReset => modify fun s => (startEncoder s).setValid { s.valid with lzwE := true }
  | .lzwEncByte sym => lzwEncByte sym
  | .lzwEncEnd => lzwEncEnd
  | .lzwDecReset => modify fun s => (startDecoder s).setValid { s.valid with lzwD := true }
  | .lzwDecCode => lzwDecCode
  | .lzwCompress => lzwCompress
  | .lzwDecompress => lzwDecompress
  | .ariModel => ariModel
  | .ariWrtbl => ariWrtbl
  | .ariRdtbl => ariRdtbl
  | .ariEncInit => modify fun s => (startRangeEncoder s).setValid s.valid.afterEncInit
  | .ariEncSym sym => ariEncSym sym.toNat
  | .ariEncFlush => ariEncFlush
  | .ariDecInit => ariDecInit
  | .ariDecSym => ariDecSym
  | .ariCompress => ariCompress
  | .ariDecompress => ariDecompress

theorem exec_eq_runCmd (i : Instr) (s : State) : exec i s = runCmd (commandOf i) s := by cases i <;> rfl

/-- Every command answers a next state (R406): the one its pseudocode reaches, or the error completion on it. -/
theorem exec_cases (i : Instr) (s : State) :
    (∃ t, commandOf i s = .ok () t ∧ exec i s = .next t) ∨
      ∃ e t, commandOf i s = .error e t ∧ exec i s = .next (takeError e t) := by
  rw [exec_eq_runCmd]
  exact runCmd_cases _ _

theorem exec_of_ok {i : Instr} {s t : State} (h : commandOf i s = .ok () t) : exec i s = .next t := by
  rw [exec_eq_runCmd, runCmd_of_ok h]

theorem exec_of_error {i : Instr} {s t : State} {e : ErrCode} (h : commandOf i s = .error e t) :
    exec i s = .next (takeError e t) := by
  rw [exec_eq_runCmd, runCmd_of_error h]

theorem exec_within {R : State → State → Prop} {i : Instr} {s t : State} (hc : Cmd.Within R (commandOf i))
    (h : exec i s = .next t) : R s t ∨ ∃ e u, t = takeError e u ∧ R s u ∧ e ≠ .noError := by
  rw [exec_eq_runCmd] at h
  exact runCmd_within hc h

theorem endCall_eq (s : State) :
    endCall s =
      ((((((s.setValid UnitValid.cleared).setReader (Reader.discarded s.params.ibufSize s.draws)).setHuf
        (Huffman.discarded s.draws)).setLzwE (LzwEnc.discarded s.draws)).setLzwD (LzwDec.discarded s.draws)).setAri
        (Arith.discarded s.draws)).setDraws (s.draws + 1) := by
  simp only [endCall, State.setValid, State.setReader, State.setHuf, State.setLzwE, State.setLzwD, State.setAri,
    State.setDraws]

theorem takeError_eq (e : ErrCode) (s : State) :
    takeError e s =
      ((((((s.setStatus { s.status with err := true }).setErr
        { code := e, cmd := s.seq.cmdWord, pos := s.reader.ptr }).setWriter
        { acc := 0, nbits := 0, outLen := 0 }).setValid UnitValid.cleared).setRes
        (Config.freeValue .res s.draws 0 32)).setObuf (Store.any s.draws)).setDraws (s.draws + 1) := by
  simp only [takeError, State.setStatus, State.setErr, State.setWriter, State.setValid, State.setRes, State.setObuf,
    State.setDraws]

/-- A relation that does not see what the error completion writes (R366). -/
theorem takeError_within {R : State → State → Prop} (h : Steady R) (hs : ∀ s : State, R s (s.setStatus { s.status with err := true }))
    (he : ∀ (s : State) v, R s (s.setErr v)) (hw : ∀ (s : State) v, R s (s.setWriter v))
    (hv : ∀ (s : State) v, R s (s.setValid v)) (hr : ∀ (s : State) v, R s (s.setRes v))
    (hb : ∀ (s : State) v, R s (s.setObuf v)) (hd : ∀ (s : State) v, R s (s.setDraws v)) (e : ErrCode) (s : State) :
    R s (takeError e s) := by
  rw [takeError_eq]
  exact h.trans (hs _) (h.trans (he _ _) (h.trans (hw _ _) (h.trans (hv _ _) (h.trans (hr _ _) (h.trans (hb _ _)
    (hd _ _))))))

/-- A relation that sees none of what commands write apart from the named parts of STATUS: every command stays within
it. -/
theorem commandOf_within {R : State → State → Prop} (h : Steady R) (i : Instr)
    (hw : ∀ (s : State) v, R s (s.setWriter v)) (hb : ∀ (s : State) v, R s (s.setObuf v))
    (hr : ∀ (s : State) v, R s (s.setReader v)) (hh : ∀ (s : State) v, R s (s.setHuf v))
    (he : ∀ (s : State) v, R s (s.setLzwE v)) (hd : ∀ (s : State) v, R s (s.setLzwD v))
    (ha : ∀ (s : State) v, R s (s.setAri v)) (hv : ∀ (s : State) v, R s (s.setValid v))
    (hdr : ∀ (s : State) v, R s (s.setDraws v)) (hOver : ∀ s : State, R s (s.setRdOvr true))
    (hArg : (∃ imm, i = .argLo imm ∨ i = .argHi imm) → ∀ (s : State) v, R s (s.setArg v))
    (hClr : i = .clrErr → ∀ s, R s (acknowledgeError s))
    (hRes : i.writesRes = true → ∀ (s : State) v, R s (s.setRes v))
    (hOrig : i.wholeBuffer = true → ∀ (s : State) v, R s (s.setOrigSize v))
    (hExt : i = .lzwDecompress ∨ i = .ariDecompress → ∀ (s : State) v, R s (s.setExt v))
    (hNoOver : i = .bsRinit ∨ i = .hufDecompress ∨ i = .lzwDecompress ∨ i = .ariDecompress →
      ∀ s : State, R s (s.setRdOvr false))
    (hAnom : i = .ariDecSym ∨ i = .ariDecompress → ∀ s : State, R s s.flagAnomaly)
    (hIsbin : i = .hufDecompress ∨ i = .ariDecompress → ∀ (s : State) b, R s (s.setIsbinIn b))
    (hStored : i = .lzwCompress ∨ i = .lzwDecompress → ∀ (s : State) b, R s (s.setStored b))
    (hEos : i = .lzwDecReset ∨ i = .lzwDecCode ∨ i = .lzwDecompress → ∀ (s : State) b, R s (s.setLzwEos b)) :
    Cmd.Within R (commandOf i) := by
  have hW : Output R := output_of_blind h fun s w o => h.trans (hb s o) (hw _ w)
  have hR : Input R := input_of_blind h (fun s r => hr s r) hOver
  have hEnd : ∀ s, R s (endCall s) := fun s => by
    rw [endCall_eq]
    exact h.trans (hv _ _) (h.trans (hr _ _) (h.trans (hh _ _) (h.trans (he _ _) (h.trans (hd _ _)
      (h.trans (ha _ _) (hdr _ _))))))
  cases i with
  | nop => exact within_pure h _
  | argLo imm => exact within_modify fun s => hArg ⟨imm, .inl rfl⟩ s _
  | argHi imm => exact within_modify fun s => hArg ⟨imm, .inr rfl⟩ s _
  | clrErr => exact within_modify (hClr rfl)
  | bsWinit => exact within_modify fun s => hw s _
  | bsWrite cnt => exact within_getAny h fun _ => writeBits_within h hW _ _
  | bsWritei cnt imm => exact writeBits_within h hW _ _
  | bsFlush => exact hW.flush
  | bsRinit =>
    exact within_bind h (within_checkIn h) fun _ => within_modify fun s => h.trans (hr s _) (hNoOver (.inl rfl) _)
  | bsRead cnt => exact within_bind h (readBits_within h hR _) fun _ => within_modify fun s => hRes rfl s _
  | bsAlign => exact hR.align
  | hufFreq => exact within_bind h (within_checkIn h) fun _ => within_modify fun s => h.trans (hh s _) (hv _ _)
  | hufTree =>
    exact within_bind h (within_need h _) fun _ => within_bind h (buildTree_within h fun s => hh s _) fun _ =>
      within_modify fun s => hv s _
  | hufCodes =>
    exact within_bind h (within_need h _) fun _ => within_bind h (currentTree_within h) fun _ =>
      within_modify fun s => h.trans (hh s _) (hv _ _)
  | hufSertree =>
    exact within_bind h (within_need h _) fun _ => within_bind h (currentTree_within h) fun _ => serTree_within h hW _
  | hufDestree => exact within_bind h (parseRoot_within h hR hh) fun _ => within_modify fun s => hv s _
  | hufEncsym sym =>
    exact within_bind h (within_need h _) fun _ => within_getAny h fun _ => within_bind h (within_raiseIf h _ _) fun _ =>
      writeBitString_within h hW _
  | hufDecsym =>
    exact within_bind h (within_need h _) fun _ => within_bind h (currentTree_within h) fun _ =>
      within_bind h (walkSymbol_within h hR _) fun _ => within_modify fun s => hRes rfl s _
  | hufFreqRd sym => exact within_bind h (within_need h _) fun _ => within_modify fun s => hRes rfl s _
  | hufCodelen sym => exact within_bind h (within_need h _) fun _ => within_modify fun s => hRes rfl s _
  | hufCompress => exact hufCompress_within h hW hh (fun s => h.trans (hw s _) (hOrig rfl _ _)) hEnd
  | hufDecompress =>
    exact hufDecompress_within h hW hR hr (hOrig rfl)
      (fun s => h.trans (hw s _) (h.trans (hr _ _) (hNoOver (.inr (.inl rfl)) _))) hEnd hh (hIsbin (.inl rfl))
  | lzwEncReset => exact within_modify fun s => h.trans (he s _) (hv _ _)
  | lzwEncByte sym => exact within_bind h (within_need h _) fun _ => encByte_within h hW he _
  | lzwEncEnd => exact within_bind h (within_need h _) fun _ => encEnd_within h hW he hv
  | lzwDecReset => exact within_modify fun s => h.trans (hd s _) (h.trans (hEos (.inl rfl) _ _) (hv _ _))
  | lzwDecCode =>
    exact lzwDecCode_within h hW hR hd (hRes rfl) fun s => h.trans (hEos (.inr (.inl rfl)) s _) (hv _ _)
  | lzwCompress =>
    exact lzwCompress_within h hW he hv (hStored (.inl rfl)) (fun s => h.trans (hw s _) (hOrig rfl _ _)) hEnd
  | lzwDecompress =>
    exact lzwDecompress_within h hW hR hr (hOrig rfl)
      (fun s => h.trans (hw s _) (h.trans (hr _ _) (hNoOver (.inr (.inr (.inl rfl))) _))) hEnd hd (hExt (.inl rfl))
      (hStored (.inr rfl)) (hEos (.inr (.inr rfl)))
  | ariModel =>
    refine within_bind h (within_checkIn h) fun _ => ?_
    exact within_checked h fun s => h.trans (ha s _) (hv _ _)
  | ariWrtbl =>
    exact within_bind h (within_need h _) fun _ => within_getAny h fun _ => writeTable_within h hW _
  | ariRdtbl =>
    exact within_bind h (readBits_within h hR _) fun _ => within_bind h (within_raiseIf h _ _) fun _ =>
      within_bind h (readEntries_within h ha hR _) fun _ => within_modify fun s => h.trans (ha s _) (hv _ _)
  | ariEncInit => exact within_modify fun s => h.trans (ha s _) (hv _ _)
  | ariEncSym sym =>
    exact within_bind h (within_need h _) fun _ => within_bind h (within_need h _) fun _ =>
      encodeSymbol_within h ha hW _
  | ariEncFlush =>
    exact within_bind h (within_need h _) fun _ => within_bind h (flushRangeEncoder_within h ha hW) fun _ =>
      within_modify fun s => hv s _
  | ariDecInit =>
    exact within_bind h (startRangeDecoder_within h ha hR) fun _ => within_modify fun s => hv s _
  | ariDecSym =>
    exact ariDecSym_within h hR ha (hAnom (.inl rfl)) (hRes rfl) fun s => hv s _
  | ariCompress => exact ariCompress_within h ha hW (fun s => h.trans (hw s _) (hOrig rfl _ _)) hEnd
  | ariDecompress =>
    exact ariDecompress_within h hW hR hr (hOrig rfl)
      (fun s => h.trans (hw s _) (h.trans (hr _ _) (hNoOver (.inr (.inr (.inr rfl))) _))) hEnd ha (hExt (.inr rfl))
      (hIsbin (.inr rfl)) (hAnom (.inr rfl))

end Sys2Proof.Machine
end

