-- ==== Sys2Proof/Laws/Store.lean ====
section
/-! SUPPORT. The stores: what a write, a fill and a cut leave at each index, and that every operation keeps the canonical
form. -/

namespace Sys2Proof.Machine

variable {α : Type}

/-! ### Lists of cells -/

theorem cellAt_putCell (l : List (Nat × α)) (i j : Nat) (v : α) :
    cellAt (putCell l i v) j = if i = j then some v else cellAt l j := by
  induction l with
  | nil => simp [putCell, cellAt]
  | cons c rest ih =>
    obtain ⟨k, w⟩ := c
    simp only [putCell]
    split
    · simp [cellAt]
    · split
      · subst_vars
        simp only [cellAt]
        split <;> rfl
      · simp only [cellAt, ih]
        split
        · rw [if_neg (by omega)]
        · rfl

theorem mem_putCell {l : List (Nat × α)} {i : Nat} {v : α} {c : Nat × α} (h : c ∈ putCell l i v) :
    c = (i, v) ∨ c ∈ l := by
  induction l with
  | nil => simpa [putCell] using h
  | cons d rest ih =>
    simp only [putCell] at h
    split at h
    · simpa using h
    · split at h
      · simp only [List.mem_cons] at h ⊢
        exact h.imp id .inr
      · simp only [List.mem_cons] at h ⊢
        obtain h | h := h
        · exact .inr (.inl h)
        · exact (ih h).imp id .inr

theorem putCell_rising {l : List (Nat × α)} (i : Nat) (v : α) (h : (l.map Prod.fst).Pairwise (· < ·)) :
    ((putCell l i v).map Prod.fst).Pairwise (· < ·) := by
  induction l with
  | nil => simp [putCell]
  | cons d rest ih =>
    obtain ⟨k, w⟩ := d
    simp only [List.map_cons, List.pairwise_cons, List.mem_map, forall_exists_index, and_imp] at h
    simp only [putCell]
    split
    · rename_i hik
      simp only [List.map_cons, List.pairwise_cons, List.mem_cons, List.mem_map]
      refine ⟨?_, fun a ha => ?_, h.2⟩
      · rintro a (rfl | ⟨c, hc, rfl⟩)
        · exact hik
        · exact Nat.lt_trans hik (h.1 _ c hc rfl)
      · obtain ⟨c, hc, rfl⟩ := ha
        exact h.1 _ c hc rfl
    · split
      · subst_vars
        simp only [List.map_cons, List.pairwise_cons, List.mem_map]
        exact ⟨by rintro a ⟨c, hc, rfl⟩; exact h.1 _ c hc rfl, h.2⟩
      · simp only [List.map_cons, List.pairwise_cons, List.mem_map]
        refine ⟨?_, ih h.2⟩
        rintro a ⟨c, hc, rfl⟩
        obtain rfl | hc := mem_putCell hc
        · show k < i
          omega
        · exact h.1 _ c hc rfl

theorem cellAt_of_mem {l : List (Nat × α)} (h : (l.map Prod.fst).Pairwise (· < ·)) {c : Nat × α} (hc : c ∈ l) :
    cellAt l c.1 = some c.2 := by
  induction l with
  | nil => simp at hc
  | cons d rest ih =>
    simp only [List.map_cons, List.pairwise_cons, List.mem_map] at h
    obtain rfl | hc := List.mem_cons.1 hc
    · simp [cellAt]
    · have : d.1 < c.1 := h.1 _ ⟨c, hc, rfl⟩
      simp only [cellAt]
      rw [if_neg (by omega)]
      exact ih h.2 hc

theorem mem_of_cellAt {l : List (Nat × α)} {i : Nat} {v : α} (h : cellAt l i = some v) : (i, v) ∈ l := by
  induction l with
  | nil => simp [cellAt] at h
  | cons d rest ih =>
    obtain ⟨k, w⟩ := d
    simp only [cellAt] at h
    split at h
    · subst_vars
      cases h
      exact List.mem_cons_self ..
    · exact List.mem_cons_of_mem _ (ih h)

theorem cellAt_filter (l : List (Nat × α)) (n i : Nat) :
    cellAt (l.filter fun c => decide (c.1 < n)) i = if i < n then cellAt l i else none := by
  induction l with
  | nil => simp [cellAt]
  | cons d rest ih =>
    obtain ⟨k, w⟩ := d
    by_cases hk : k < n
    · rw [List.filter_cons_of_pos (by simpa using hk)]
      simp only [cellAt, ih]
      split
      · rw [if_pos (by omega)]
      · rfl
    · rw [List.filter_cons_of_neg (by simpa using hk), ih]
      simp only [cellAt]
      split
      · rw [if_neg (by omega)]
      · rfl

/-! ### Stores -/

theorem Store.written_put (st : Store α) (i j : Nat) (v : α) :
    (st.put i v).written j = if i = j then some v else st.written j := cellAt_putCell _ _ _ _

theorem Store.read_put (d : Nat → Nat → α) (st : Store α) (i j : Nat) (v : α) :
    (st.put i v).read d j = if i = j then v else st.read d j := by
  unfold Store.read
  rw [Store.written_put]
  split <;> rfl

theorem Store.written_keepBelow (st : Store α) (n seed i : Nat) :
    (st.keepBelow n seed).written i = if i < n then st.written i else none := cellAt_filter _ _ _

theorem Store.read_of_written {d : Nat → Nat → α} {st : Store α} {i : Nat} {v : α} (h : st.written i = some v) :
    st.read d i = v := by
  unfold Store.read
  rw [h]
  rfl

theorem cellAt_range_map (f : Nat → α) (n i : Nat) :
    cellAt ((List.range n).map fun j => (j, f j)) i = if i < n then some (f i) else none := by
  induction n with
  | zero => simp [cellAt]
  | succ n ih =>
    have app : ∀ (l m : List (Nat × α)), cellAt (l ++ m) i = (cellAt l i).or (cellAt m i) := by
      intro l m
      induction l with
      | nil => simp [cellAt]
      | cons d rest ih =>
        obtain ⟨k, w⟩ := d
        simp only [List.cons_append, cellAt]
        split
        · rfl
        · exact ih
    rw [List.range_succ, List.map_append, app, ih]
    simp only [List.map_cons, List.map_nil, cellAt]
    by_cases h : i < n
    · simp [h, Nat.lt_succ_of_lt h]
    · by_cases hn : n = i
      · subst hn
        simp
      · have : ¬ i < n + 1 := by omega
        simp [h, hn, this]

theorem Store.written_fill (st : Store α) (n i : Nat) (v : α) :
    (st.fill n v).written i = if i < n then some v else none := cellAt_range_map (fun _ => v) n i

theorem Store.written_load (st : Store α) (l : List α) (i : Nat) : (st.load l).written i = l[i]? := by
  unfold Store.load Store.written
  have key : ∀ (l : List α) (k : Nat),
      cellAt ((l.zipIdx k).map fun p => (p.2, p.1)) i = if k ≤ i then l[i - k]? else none := by
    intro l
    induction l with
    | nil => intro k; simp [cellAt]
    | cons x xs ih =>
      intro k
      simp only [List.zipIdx_cons, List.map_cons, cellAt]
      split
      · subst_vars
        simp
      · rw [ih]
        by_cases h : k + 1 ≤ i
        · rw [if_pos h, if_pos (by omega)]
          obtain ⟨m, rfl⟩ : ∃ m, i = k + 1 + m := ⟨i - (k + 1), by omega⟩
          simp [show k + 1 + m - k = m + 1 by omega]
        · rw [if_neg h, if_neg (by omega)]
  have h := key l 0
  simpa using h

/-! ### The canonical form -/

theorem Store.wf_put {st : Store α} (h : st.wf) (i : Nat) (v : α) : (st.put i v).wf := putCell_rising i v h

theorem Store.wf_any (seed : Nat) : (Store.any seed : Store α).wf := List.Pairwise.nil

theorem Store.wf_keepBelow {st : Store α} (h : st.wf) (n seed : Nat) : (st.keepBelow n seed).wf :=
  h.sublist (List.Sublist.map _ List.filter_sublist)

theorem Store.wf_fill (st : Store α) (n : Nat) (v : α) : (st.fill n v).wf := by
  unfold Store.wf Store.fill
  rw [List.map_map]
  have : (Prod.fst ∘ fun i : Nat => (i, v)) = id := rfl
  rw [this, List.map_id]
  exact List.pairwise_lt_range

theorem Store.wf_load (st : Store α) (l : List α) : (st.load l).wf := by
  unfold Store.wf Store.load
  rw [List.map_map]
  have : (Prod.fst ∘ fun p : α × Nat => (p.2, p.1)) = Prod.snd := rfl
  rw [this, List.zipIdx_map_snd]
  exact List.pairwise_lt_range'

/-- Memory operations keep the canonical form: a write. -/
theorem Memory.wf_put {m : Memory} (h : m.wf) (i : Nat) (b : Byte) : Memory.wf (m.put i b) := Store.wf_put h i b

/-- Memory operations keep the canonical form: the cut at OUT_LEN. -/
theorem Memory.wf_keepBelow {m : Memory} (h : m.wf) (n seed : Nat) : Memory.wf (m.keepBelow n seed) :=
  Store.wf_keepBelow h n seed

theorem reset_memory_wf : State.reset.ibuf.wf ∧ State.reset.obuf.wf ∧ State.reset.extbuf.wf :=
  ⟨List.Pairwise.nil, List.Pairwise.nil, List.Pairwise.nil⟩

end Sys2Proof.Machine
end

