-- ==== Sys2Proof/Laws/Writer.lean ====
section
/-! SUPPORT. The bit writer: each operation appends its bits when OBUF takes them, and ends in IO_FAILURE when a byte
falls due that it does not take (R181, R182, R187). -/

namespace Sys2Proof.Machine

/-! ### Bits -/

@[simp] theorem length_wordBits (v : Word) (n : Nat) : (wordBits v n).length = n := by
  induction n with
  | zero => rfl
  | succ n ih => simp [wordBits, ih]

theorem getElem_wordBits (v : Word) (n i : Nat) (h : i < (wordBits v n).length) :
    (wordBits v n)[i] = v.getLsbD (n - 1 - i) := by
  induction n generalizing i with
  | zero => simp at h
  | succ n ih =>
    cases i with
    | zero => simp [wordBits]
    | succ i =>
      simp only [wordBits, List.getElem_cons_succ]
      rw [ih]
      congr 1
      omega

@[simp] theorem length_byteBits (b : Byte) : (byteBits b).length = 8 := length_wordBits _ _

theorem length_bytesBits (l : List Byte) : (bytesBits l).length = 8 * l.length := by
  induction l with
  | nil => rfl
  | cons b bs ih =>
    show (byteBits b ++ bytesBits bs).length = _
    rw [List.length_append, ih, length_byteBits, List.length_cons]
    omega

theorem bytesBits_append (l m : List Byte) : bytesBits (l ++ m) = bytesBits l ++ bytesBits m := by
  simp [bytesBits]

theorem getLsbD_shiftInByte (acc : Byte) (b : Bool) (i : Nat) (h : i < 8) :
    (shiftInByte acc b).getLsbD i = if i = 0 then b else acc.getLsbD (i - 1) := by
  unfold shiftInByte
  rw [BitVec.getLsbD_append]
  by_cases hi : i = 0
  · subst hi
    simp
  · rw [if_neg (by omega), if_neg hi]
    simp only [BitVec.getLsbD_extractLsb']
    rw [decide_eq_true (by omega)]
    simp

theorem getLsbD_byteWord (b : Byte) (i : Nat) : (byteWord b).getLsbD i = b.getLsbD i := by
  unfold byteWord
  rw [BitVec.getLsbD_setWidth]
  by_cases h : i < 32
  · simp [h]
  · rw [BitVec.getLsbD_of_ge b i (by omega)]
    simp

/-- The held bits after one more (R181). -/
theorem wordBits_shiftInByte (acc : Byte) (b : Bool) (k : Nat) (hk : k < 8) :
    wordBits (byteWord (shiftInByte acc b)) (k + 1) = wordBits (byteWord acc) k ++ [b] := by
  apply List.ext_getElem
  · simp
  · intro i h1 h2
    rw [getElem_wordBits, getLsbD_byteWord]
    simp only [length_wordBits] at h1
    rw [getLsbD_shiftInByte _ _ _ (by omega)]
    by_cases hi : i = k
    · subst hi
      simp
    · rw [if_neg (by omega), List.getElem_append_left (by simp; omega), getElem_wordBits, getLsbD_byteWord]
      congr 1
      omega

/-- The held bits of a flushed byte, zeros below (R182). -/
theorem byteBits_padByte (acc : Byte) (k : Nat) (hk : k ≤ 8) :
    byteBits (padByte acc k) = wordBits (byteWord acc) k ++ List.replicate (8 - k) false := by
  show wordBits (byteWord (acc <<< (8 - k))) 8 = _
  apply List.ext_getElem
  · simp
    omega
  · intro i h1 h2
    have h1' : i < 8 := by simpa using h1
    rw [getElem_wordBits, getLsbD_byteWord, BitVec.getLsbD_shiftLeft]
    by_cases hi : i < k
    · rw [List.getElem_append_left (by simpa using hi), getElem_wordBits, getLsbD_byteWord]
      have e1 : 8 - 1 - i < 8 := by omega
      have e2 : ¬ (8 - 1 - i < 8 - k) := by omega
      simp only [e1, e2, decide_true, decide_false, Bool.not_false, Bool.true_and]
      congr 1
      omega
    · rw [List.getElem_append_right (by simpa using hi)]
      have e2 : 8 - 1 - i < 8 - k := by omega
      simp [e2]

/-! ### Composition of writes -/

theorem Writes.refl (s : State) : Writes [] s s where
  frame := rfl
  bits := by simp
  outLen := by
    have := s.writer.nbits.isLt
    simp only [List.length_nil]
    omega
  nbits := by
    have := s.writer.nbits.isLt
    simp only [List.length_nil]
    omega
  tidy := id
  others := fun _ _ => rfl

theorem Writes.trans {l m : List Bool} {s t u : State} (h : Writes l s t) (g : Writes m t u) :
    Writes (l ++ m) s u := by
  have ho : u.writer.outLen.toNat = s.writer.outLen.toNat + (s.writer.nbits.toNat + (l ++ m).length) / 8 := by
    rw [g.outLen, h.outLen, h.nbits, List.length_append]
    omega
  refine ⟨?_, ?_, ho, ?_, g.tidy ∘ h.tidy, fun a ha => ?_⟩
  · rw [g.frame, h.frame]
    rfl
  · rw [g.bits, h.bits, List.append_assoc]
  · rw [g.nbits, h.nbits, List.length_append]
    omega
  · have h1 := h.outLen
    have h2 := g.outLen
    rw [g.others a (by omega), h.others a (by omega)]

theorem Writes.params {l : List Bool} {s t : State} (h : Writes l s t) : t.params = s.params := by rw [h.frame]; rfl

theorem Writes.room {l : List Bool} {s t : State} {n : Nat} (h : Writes l s t) (hr : s.Room (l.length + n)) :
    t.Room n := by
  refine ⟨h.params ▸ hr.1, ?_⟩
  rw [h.params, h.outLen, h.nbits]
  have := hr.2
  omega

theorem State.Room.le {s : State} {n m : Nat} (h : s.Room m) (hn : n ≤ m) : s.Room n :=
  ⟨h.1, Nat.le_trans (by have : (s.writer.nbits.toNat + n) / 8 ≤ (s.writer.nbits.toNat + m) / 8 := Nat.div_le_div_right (by omega)
                         omega) h.2⟩

/-! ### The operations -/

/-- PutByte of the byte that the held bits and `l` fill (R181, R182). -/
theorem putByte_writes {s : State} {b : Byte} {l : List Bool} (hp : s.params.Ok)
    (hr : s.writer.outLen.toNat < s.params.obufSize) (hl : byteBits b = s.writer.held ++ l) :
    ∃ t, putByte b s = .ok ⟨⟩ t ∧ t.writer = { s.writer with outLen := s.writer.outLen + 1 } ∧
      Writes l s (t.setWriter { t.writer with acc := 0, nbits := 0 }) := by
  obtain ⟨-, ⟨-, hp2⟩, -⟩ := hp
  unfold Config.bufferLimit at hp2
  have hlen : (s.writer.outLen + 1).toNat = s.writer.outLen.toNat + 1 := by
    rw [BitVec.toNat_add]
    have : s.writer.outLen.toNat + 1 < 2 ^ 32 := by omega
    exact Nat.mod_eq_of_lt this
  have hb : s.writer.nbits.toNat + l.length = 8 := by
    have := congrArg List.length hl
    simpa [Writer.held] using this.symm
  refine ⟨_, by unfold putByte; rw [Cmd.get_bind_run, raiseIf_bind_run, if_neg (by omega)]; rfl, rfl, ?_⟩
  have hread : ∀ a, State.obufByte (((s.setObuf (s.obuf.put s.writer.outLen.toNat b)).setWriter
      { s.writer with outLen := s.writer.outLen + 1 }).setWriter
      { acc := 0, nbits := 0, outLen := s.writer.outLen + 1 }) a =
      if s.writer.outLen.toNat = a then b else s.obufByte a := fun a => Store.read_put _ _ _ _ _
  refine ⟨rfl, ?_, ?_, ?_, fun _ => Nat.one_pos, fun a ha => ?_⟩
  · unfold State.outBits State.outBytes
    simp only [State.setWriter_writer, hlen, List.range_succ, List.map_append, List.map_cons, List.map_nil,
      bytesBits_append]
    rw [List.map_congr_left (g := s.obufByte)]
    · rw [hread, if_pos rfl]
      show bytesBits _ ++ (byteBits b ++ []) ++ [] = _
      rw [hl]
      simp
    · intro a ha
      rw [hread, if_neg (by rw [List.mem_range] at ha; omega)]
  · simp only [State.setWriter_writer, hlen, hb]
  · simp only [State.setWriter_writer, hb]
    rfl
  · simp only [State.setWriter_writer, hlen] at ha
    exact (hread a).trans (if_neg (by omega))

theorem shiftInByte_toNat_lt (acc : Byte) (b : Bool) (k : Nat) (h : acc.toNat < 2 ^ k) :
    (shiftInByte acc b).toNat < 2 ^ (k + 1) := by
  have key : ∀ (a : Byte) (c : Bool), (shiftInByte a c).toNat ≤ 2 * a.toNat + 1 := by decide +kernel
  have := key acc b
  rw [Nat.pow_succ]
  omega

theorem writeBit_writes {s : State} (b : Bool) (hr : s.Room 1) : ∃ t, writeBit b s = .ok ⟨⟩ t ∧ Writes [b] s t := by
  have hn := s.writer.nbits.isLt
  unfold writeBit
  simp only [Cmd.get_bind_run]
  by_cases h8 : s.writer.nbits.toNat + 1 = 8
  · rw [if_pos h8]
    have h7 : s.writer.nbits.toNat = 7 := by omega
    have hlt : s.writer.outLen.toNat < s.params.obufSize := by
      have := hr.2
      rw [h7] at this
      omega
    obtain ⟨t, ht, hw, hwr⟩ := putByte_writes (b := shiftInByte s.writer.acc b) (l := [b]) hr.1 hlt
      (by unfold byteBits Writer.held; rw [h7]; exact wordBits_shiftInByte _ _ 7 (by decide))
    exact ⟨_, by rw [Cmd.bind_of_ok ht]; rfl, hwr⟩
  · rw [if_neg h8]
    have hk : (s.writer.nbits + 1).toNat = s.writer.nbits.toNat + 1 := by
      rw [BitVec.toNat_add]
      exact Nat.mod_eq_of_lt (by show s.writer.nbits.toNat + 1 < 2 ^ 3; omega)
    refine ⟨_, rfl, rfl, ?_, ?_, ?_, ?_, fun _ _ => rfl⟩
    · unfold State.outBits
      rw [List.append_assoc]
      congr 1
      show wordBits (byteWord (shiftInByte s.writer.acc b)) (s.writer.nbits + 1).toNat = _
      rw [hk, wordBits_shiftInByte _ _ _ (by omega)]
      rfl
    · simp only [State.setWriter_writer, List.length_cons, List.length_nil]
      omega
    · simp only [State.setWriter_writer, List.length_cons, List.length_nil, hk]
      omega
    · intro ht
      show (shiftInByte s.writer.acc b).toNat < 2 ^ (s.writer.nbits + 1).toNat
      rw [hk]
      exact shiftInByte_toNat_lt _ _ _ ht

theorem writeBitString_writes {s : State} (l : List Bool) (hr : s.Room l.length) :
    ∃ t, writeBitString l s = .ok ⟨⟩ t ∧ Writes l s t := by
  induction l generalizing s with
  | nil => exact ⟨s, rfl, Writes.refl s⟩
  | cons b bs ih =>
    rw [List.length_cons, Nat.add_comm] at hr
    obtain ⟨t, ht, hw⟩ := writeBit_writes b (hr.le (by omega))
    obtain ⟨u, hu, hv⟩ := ih (hw.room (n := bs.length) hr)
    refine ⟨u, ?_, hw.trans hv⟩
    unfold writeBitString at hu ⊢
    rw [forEach_cons, Cmd.bind_of_ok ht, hu]

/-- `WriteBits(v, n)` is the writing of its bits one by one (R181). -/
theorem writeBits_eq (v : Word) (n : Nat) : writeBits v n = writeBitString (wordBits v n) := by
  induction n with
  | zero => rfl
  | succ n ih =>
    show (writeBit (v.getLsbD n) >>= fun _ => writeBits v n) = _
    rw [ih]
    rfl

theorem writeBits_writes {s : State} (v : Word) (n : Nat) (hr : s.Room n) :
    ∃ t, writeBits v n s = .ok ⟨⟩ t ∧ Writes (wordBits v n) s t := by
  rw [writeBits_eq]
  exact writeBitString_writes _ (by simpa using hr)

theorem emitByte_writes {s : State} (b : Byte) (hr : s.Room 8) :
    ∃ t, emitByte b s = .ok ⟨⟩ t ∧ Writes (byteBits b) s t := writeBits_writes _ 8 hr

/-- The bits FlushBits adds (R182). -/
def padLength (s : State) : Nat := (8 - s.writer.nbits.toNat) % 8

theorem flushBits_writes {s : State} (hr : s.Room (padLength s)) :
    ∃ t, flushBits s = .ok ⟨⟩ t ∧ Writes (List.replicate (padLength s) false) s t ∧ t.writer.nbits = 0 ∧
      (s.writer.nbits = 0 → t = s) := by
  have hn := s.writer.nbits.isLt
  unfold flushBits padLength at *
  rw [Cmd.get_bind_run]
  by_cases h0 : s.writer.nbits = 0
  · rw [if_pos h0, h0]
    exact ⟨s, rfl, Writes.refl s, h0, fun _ => rfl⟩
  · rw [if_neg h0]
    have hpos : 0 < s.writer.nbits.toNat := by
      rcases Nat.eq_zero_or_pos s.writer.nbits.toNat with h | h
      · exact absurd (BitVec.eq_of_toNat_eq h) h0
      · exact h
    have hk : (8 - s.writer.nbits.toNat) % 8 = 8 - s.writer.nbits.toNat := Nat.mod_eq_of_lt (by omega)
    rw [hk] at hr ⊢
    have hlt : s.writer.outLen.toNat < s.params.obufSize := by
      have := hr.2
      rw [show s.writer.nbits.toNat + (8 - s.writer.nbits.toNat) = 8 by omega] at this
      omega
    obtain ⟨t, ht, hw, hwr⟩ := putByte_writes (b := padByte s.writer.acc s.writer.nbits.toNat)
      (l := List.replicate (8 - s.writer.nbits.toNat) false) hr.1 hlt (byteBits_padByte _ _ (by omega))
    exact ⟨_, by rw [Cmd.bind_of_ok ht]; rfl, hwr, rfl, fun h => absurd h h0⟩

/-! ### A full OBUF -/

theorem putByte_full {s : State} {b : Byte} (h : s.writer.outLen.toNat = s.params.obufSize) :
    putByte b s = .error .ioFailure s := by
  unfold putByte
  rw [Cmd.get_bind_run, raiseIf_bind_run, if_pos h]

theorem writeBitString_full {s : State} (l : List Bool) (hp : s.params.Ok)
    (ho : s.writer.outLen.toNat ≤ s.params.obufSize) (hr : ¬ s.Room l.length) :
    ∃ u, writeBitString l s = .error .ioFailure u ∧ u = (s.setWriter u.writer).setObuf u.obuf := by
  have hn := s.writer.nbits.isLt
  induction l generalizing s with
  | nil =>
    refine absurd ⟨hp, ?_⟩ hr
    simp only [List.length_nil]
    omega
  | cons b bs ih =>
    by_cases h1 : s.Room 1
    · obtain ⟨t, ht, hw⟩ := writeBit_writes b h1
      have hf : ¬ t.Room bs.length := by
        intro h
        apply hr
        refine ⟨hp, ?_⟩
        have := h.2
        rw [hw.params, hw.outLen, hw.nbits] at this
        simp only [List.length_cons, List.length_nil] at this ⊢
        omega
      have ht2 : t.writer.outLen.toNat ≤ t.params.obufSize := by
        rw [hw.params, hw.outLen]
        exact h1.2
      obtain ⟨u, hu, hfr⟩ := ih (hw.params ▸ hp) ht2 hf t.writer.nbits.isLt
      refine ⟨u, ?_, ?_⟩
      · unfold writeBitString at hu ⊢
        rw [forEach_cons, Cmd.bind_of_ok ht, hu]
      · rw [hfr, hw.frame]
        rfl
    · have h7 : s.writer.nbits.toNat + 1 = 8 ∧ s.writer.outLen.toNat = s.params.obufSize := by
        have h2 : ¬ s.writer.outLen.toNat + (s.writer.nbits.toNat + 1) / 8 ≤ s.params.obufSize := fun h => h1 ⟨hp, h⟩
        omega
      refine ⟨s, ?_, rfl⟩
      unfold writeBitString
      rw [forEach_cons]
      refine Cmd.bind_of_error ?_
      unfold writeBit
      simp only [Cmd.get_bind_run]
      rw [if_pos h7.1]
      exact Cmd.bind_of_error (putByte_full h7.2)

theorem flushBits_full {s : State} (hp : s.params.Ok) (ho : s.writer.outLen.toNat ≤ s.params.obufSize)
    (hr : ¬ s.Room (padLength s)) : flushBits s = .error .ioFailure s := by
  have hn := s.writer.nbits.isLt
  have h : s.writer.nbits.toNat ≠ 0 ∧ s.writer.outLen.toNat = s.params.obufSize := by
    have h2 : ¬ s.writer.outLen.toNat + (s.writer.nbits.toNat + (8 - s.writer.nbits.toNat) % 8) / 8 ≤
        s.params.obufSize := fun h => hr ⟨hp, h⟩
    omega
  unfold flushBits
  rw [Cmd.get_bind_run, if_neg (fun h0 => h.1 (by rw [h0]; rfl))]
  exact Cmd.bind_of_error (putByte_full h.2)

end Sys2Proof.Machine
end

