-- ==== Sys2Proof/Laws/Reader.lean ====
section
/-! SUPPORT. The bit reader: reading `n` bits answers the next `n` bits of the input and moves the reader by `n`
(R184 to R186). -/

namespace Sys2Proof.Machine

/-! ### Bit values -/

theorem bitsValue_from (l : List Bool) (v : Nat) :
    l.foldl (fun v b => 2 * v + b.toNat) v = v * 2 ^ l.length + bitsValue l := by
  unfold bitsValue
  induction l generalizing v with
  | nil => simp
  | cons b bs ih =>
    simp only [List.foldl_cons, List.length_cons]
    rw [ih, ih (2 * 0 + b.toNat), Nat.pow_succ]
    ring

theorem bitsValue_cons (b : Bool) (l : List Bool) : bitsValue (b :: l) = b.toNat * 2 ^ l.length + bitsValue l := by
  show List.foldl _ _ _ = _
  rw [List.foldl_cons, bitsValue_from]
  simp

theorem bitsValue_append (l m : List Bool) : bitsValue (l ++ m) = bitsValue l * 2 ^ m.length + bitsValue m := by
  show List.foldl _ _ _ = _
  rw [List.foldl_append, bitsValue_from]
  rfl

theorem bitsValue_lt (l : List Bool) : bitsValue l < 2 ^ l.length := by
  induction l with
  | nil => decide
  | cons b bs ih =>
    rw [bitsValue_cons, List.length_cons, Nat.pow_succ]
    have : b.toNat ≤ 1 := by cases b <;> decide
    have : b.toNat * 2 ^ bs.length ≤ 2 ^ bs.length := by
      calc b.toNat * 2 ^ bs.length ≤ 1 * 2 ^ bs.length := Nat.mul_le_mul_right _ this
        _ = _ := Nat.one_mul _
    omega

theorem toNat_shiftInWord (v : Word) (b : Bool) : (shiftInWord v b) = BitVec.ofNat 32 (2 * v.toNat + b.toNat) := by
  apply BitVec.eq_of_toNat_eq
  unfold shiftInWord
  rw [BitVec.toNat_or, BitVec.toNat_shiftLeft, BitVec.toNat_ofNat, Nat.shiftLeft_eq]
  have e : v.toNat * 2 ^ 1 % 2 ^ 32 = 2 * (v.toNat % 2 ^ 31) := by omega
  rw [e]
  have : (bitWord b).toNat = b.toNat := by cases b <;> rfl
  rw [this, show 2 * (v.toNat % 2 ^ 31) = 2 ^ 1 * (v.toNat % 2 ^ 31) by omega,
    ← Nat.two_pow_add_eq_or_of_lt (by cases b <;> decide)]
  have : b.toNat < 2 := by cases b <;> decide
  omega

/-- The bits of a word's low end write that number. -/
theorem bitsValue_wordBits (v : Word) (n : Nat) : bitsValue (wordBits v n) = v.toNat % 2 ^ n := by
  induction n with
  | zero => simp [wordBits, bitsValue, Nat.mod_one]
  | succ n ih =>
    unfold wordBits
    rw [bitsValue_cons, ih, length_wordBits, Nat.mod_pow_succ, ← BitVec.testBit_toNat, Nat.toNat_testBit]
    ring

theorem bitsValue_byteBits (b : Byte) : bitsValue (byteBits b) = b.toNat := by
  have hb := b.isLt
  unfold byteBits byteWord
  rw [bitsValue_wordBits, BitVec.toNat_setWidth]
  omega

/-- A bit list is the bits of the number it writes. -/
theorem wordBits_bitsValue (l : List Bool) (h : l.length ≤ 32) : wordBits (BitVec.ofNat 32 (bitsValue l)) l.length = l := by
  have hlt := bitsValue_lt l
  have hp : 2 ^ l.length ≤ 2 ^ 32 := Nat.pow_le_pow_right (by decide) h
  have hv : (BitVec.ofNat 32 (bitsValue l)).toNat = bitsValue l := by
    rw [BitVec.toNat_ofNat]
    exact Nat.mod_eq_of_lt (by omega)
  have inj : ∀ (l m : List Bool), l.length = m.length → bitsValue l = bitsValue m → l = m := by
    intro l
    induction l with
    | nil => intro m hl _; exact (List.length_eq_zero_iff.1 hl.symm).symm
    | cons b bs ih =>
      intro m hl hv
      cases m with
      | nil => cases hl
      | cons c cs =>
        have hl' : bs.length = cs.length := by simpa using hl
        rw [bitsValue_cons, bitsValue_cons, hl'] at hv
        have h1 := bitsValue_lt bs
        have h2 := bitsValue_lt cs
        rw [hl'] at h1
        have hbc : b = c := by
          cases b <;> cases c <;> simp only [Bool.toNat_true, Bool.toNat_false] at hv <;> first | rfl | omega
        subst hbc
        rw [ih cs hl' (by omega)]
  apply inj
  · rw [length_wordBits]
  · rw [bitsValue_wordBits, hv]
    exact Nat.mod_eq_of_lt hlt

/-! ### The reader's position -/

theorem Reader.advance_bit (r : Reader) (n : Nat) : (r.advance n).bit.toNat = (r.bit.toNat + n) % 8 := by
  show (BitVec.ofNat 3 _).toNat = _
  rw [BitVec.toNat_ofNat]
  exact Nat.mod_eq_of_lt (by omega)

theorem Reader.advance_ptr (r : Reader) (n : Nat) :
    (r.advance n).ptr.toNat = min (r.ptr.toNat + (r.bit.toNat + n) / 8) 0xFFFFFFFF := by
  show (BitVec.ofNat 32 _).toNat = _
  rw [BitVec.toNat_ofNat]
  exact Nat.mod_eq_of_lt (by omega)

theorem Reader.advance_zero (r : Reader) : r.advance 0 = r := by
  have h1 : (r.advance 0).bit = r.bit := by
    apply BitVec.eq_of_toNat_eq
    rw [Reader.advance_bit]
    have := r.bit.isLt
    omega
  have h2 : (r.advance 0).ptr = r.ptr := by
    apply BitVec.eq_of_toNat_eq
    rw [Reader.advance_ptr]
    have := r.bit.isLt
    have := r.ptr.isLt
    omega
  show { r with ptr := (r.advance 0).ptr, bit := (r.advance 0).bit } = r
  rw [h1, h2]

theorem Reader.advance_advance (r : Reader) (m n : Nat) : (r.advance m).advance n = r.advance (m + n) := by
  have h1 : ((r.advance m).advance n).bit = (r.advance (m + n)).bit := by
    apply BitVec.eq_of_toNat_eq
    rw [Reader.advance_bit, Reader.advance_bit, Reader.advance_bit]
    omega
  have h2 : ((r.advance m).advance n).ptr = (r.advance (m + n)).ptr := by
    apply BitVec.eq_of_toNat_eq
    rw [Reader.advance_ptr, Reader.advance_ptr, Reader.advance_ptr, Reader.advance_bit]
    have := r.bit.isLt
    have := r.ptr.isLt
    omega
  show ({ r with ptr := ((r.advance m).advance n).ptr, bit := ((r.advance m).advance n).bit } : Reader) = _
  rw [h1, h2]
  rfl

theorem Reader.nextBit_eq (r : Reader) : r.nextBit = r.advance 1 := by
  have hb := r.bit.isLt
  have hp := r.ptr.isLt
  unfold Reader.nextBit
  split
  · have h1 : (0 : BitVec 3) = (r.advance 1).bit := by
      apply BitVec.eq_of_toNat_eq
      rw [Reader.advance_bit]
      show 0 = _
      omega
    have h2 : saturatingSucc r.ptr = (r.advance 1).ptr := by
      apply BitVec.eq_of_toNat_eq
      rw [Reader.advance_ptr]
      unfold saturatingSucc
      split
      · rename_i h
        have h' : r.ptr.toNat = 0xFFFFFFFF := by rw [h]; rfl
        clear h
        omega
      · rename_i h
        have hne : r.ptr.toNat ≠ 0xFFFFFFFF := fun h' => h (BitVec.eq_of_toNat_eq h')
        clear h
        rw [BitVec.toNat_add]
        show (r.ptr.toNat + 1) % 2 ^ 32 = _
        omega
    rw [h1, h2]
    rfl
  · have h1 : r.bit + 1 = (r.advance 1).bit := by
      apply BitVec.eq_of_toNat_eq
      rw [Reader.advance_bit, BitVec.toNat_add]
      show (r.bit.toNat + 1) % 2 ^ 3 = _
      omega
    have h2 : r.ptr = (r.advance 1).ptr := by
      apply BitVec.eq_of_toNat_eq
      rw [Reader.advance_ptr]
      omega
    rw [h1]
    conv => lhs; rw [show ({ r with bit := (r.advance 1).bit } : Reader) = { r with ptr := r.ptr, bit := (r.advance 1).bit } from rfl, h2]
    rfl

theorem Reader.aligned_eq (r : Reader) : r.aligned = r.advance ((8 - r.bit.toNat) % 8) := by
  have hb := r.bit.isLt
  have hp := r.ptr.isLt
  unfold Reader.aligned
  split
  · rename_i h
    rw [h]
    exact (Reader.advance_zero r).symm
  · rename_i h
    have hpos : r.bit.toNat ≠ 0 := fun h' => h (BitVec.eq_of_toNat_eq h')
    have h1 : (0 : BitVec 3) = (r.advance ((8 - r.bit.toNat) % 8)).bit := by
      apply BitVec.eq_of_toNat_eq
      rw [Reader.advance_bit]
      show 0 = _
      omega
    have h2 : saturatingSucc r.ptr = (r.advance ((8 - r.bit.toNat) % 8)).ptr := by
      apply BitVec.eq_of_toNat_eq
      rw [Reader.advance_ptr]
      unfold saturatingSucc
      split
      · rename_i h
        have h' : r.ptr.toNat = 0xFFFFFFFF := by rw [h]; rfl
        clear h
        omega
      · rename_i h
        have hne : r.ptr.toNat ≠ 0xFFFFFFFF := fun h' => h (BitVec.eq_of_toNat_eq h')
        clear h
        rw [BitVec.toNat_add]
        show (r.ptr.toNat + 1) % 2 ^ 32 = _
        omega
    rw [h1, h2]
    rfl

/-! ### The state after a read -/

@[simp] theorem State.afterRead_zero (s : State) : s.afterRead 0 = s := by
  unfold State.afterRead State.runsOver
  rw [Reader.advance_zero, decide_eq_false (Nat.lt_irrefl 0), Bool.false_and, Bool.or_false]
  rfl

@[simp] theorem State.afterRead_reader (s : State) (n : Nat) : (s.afterRead n).reader = s.reader.advance n := rfl

theorem State.afterRead_inBit (s : State) (m p : Nat) :
    (s.afterRead m).inBit ((s.afterRead m).inPos + p) = s.inBit (s.inPos + m + p) := by
  have hb := s.reader.bit.isLt
  have hf := s.reader.fin.isLt
  have hx : (s.afterRead m).inPos = 8 * min (s.reader.ptr.toNat + (s.reader.bit.toNat + m) / 8) 0xFFFFFFFF +
      (s.reader.bit.toNat + m) % 8 := by
    unfold State.inPos
    rw [State.afterRead_reader, Reader.advance_ptr, Reader.advance_bit]
  by_cases hs : s.reader.ptr.toNat + (s.reader.bit.toNat + m) / 8 ≤ 0xFFFFFFFF
  · have : (s.afterRead m).inPos = s.inPos + m := by
      rw [hx]
      unfold State.inPos
      omega
    rw [this]
    rfl
  · have h1 : (s.afterRead m).inBit ((s.afterRead m).inPos + p) = false := by
      unfold State.inBit
      rw [decide_eq_false]
      · rfl
      · show ¬ ((s.afterRead m).inPos + p) / 8 < s.reader.fin.toNat
        rw [hx]
        omega
    have h2 : s.inBit (s.inPos + m + p) = false := by
      unfold State.inBit
      rw [decide_eq_false]
      · rfl
      · unfold State.inPos
        omega
    rw [h1, h2]

theorem State.inBits_add (s : State) (m n : Nat) : s.inBits (m + n) = s.inBits m ++ (s.afterRead m).inBits n := by
  unfold State.inBits
  rw [List.range_add, List.map_append, List.map_map]
  congr 1
  apply List.map_congr_left
  intro i _
  rw [State.afterRead_inBit]
  show s.inBit (s.inPos + (m + i)) = _
  rw [Nat.add_assoc]

@[simp] theorem State.length_inBits (s : State) (n : Nat) : (s.inBits n).length = n := by simp [State.inBits]

theorem State.afterRead_add (s : State) (m n : Nat) : (s.afterRead m).afterRead n = s.afterRead (m + n) := by
  have hb := s.reader.bit.isLt
  have hf := s.reader.fin.isLt
  have ho : ((s.status.rdOvr || s.runsOver m) || (s.afterRead m).runsOver n) =
      (s.status.rdOvr || s.runsOver (m + n)) := by
    rw [Bool.or_assoc]
    congr 1
    have hx : (s.afterRead m).inPos = 8 * min (s.reader.ptr.toNat + (s.reader.bit.toNat + m) / 8) 0xFFFFFFFF +
        (s.reader.bit.toNat + m) % 8 := by
      unfold State.inPos
      rw [State.afterRead_reader, Reader.advance_ptr, Reader.advance_bit]
    have hfin : (s.afterRead m).reader.fin = s.reader.fin := rfl
    have e1 : s.runsOver m = decide (0 < m ∧ s.reader.fin.toNat ≤ (s.inPos + m - 1) / 8) := by
      unfold State.runsOver; rw [Bool.decide_and]
    have e2 : (s.afterRead m).runsOver n = decide (0 < n ∧ s.reader.fin.toNat ≤ ((s.afterRead m).inPos + n - 1) / 8) := by
      unfold State.runsOver; rw [Bool.decide_and, hfin]
    have e3 : s.runsOver (m + n) = decide (0 < m + n ∧ s.reader.fin.toNat ≤ (s.inPos + (m + n) - 1) / 8) := by
      unfold State.runsOver; rw [Bool.decide_and]
    rw [e1, e2, e3, ← Bool.decide_or, decide_eq_decide, hx]
    unfold State.inPos
    omega
  show ((s.afterRead m).setReader ((s.afterRead m).reader.advance n)).setRdOvr
    ((s.status.rdOvr || s.runsOver m) || (s.afterRead m).runsOver n) = _
  rw [ho, State.afterRead_reader, Reader.advance_advance]
  rfl

/-! ### The operations -/

theorem readBit_run (s : State) : readBit s = .ok (s.inBit s.inPos) (s.afterRead 1) := by
  have hb := s.reader.bit.isLt
  have hpos : s.inPos / 8 = s.reader.ptr.toNat := by
    unfold State.inPos
    omega
  have hmod : s.inPos % 8 = s.reader.bit.toNat := by
    unfold State.inPos
    omega
  unfold readBit
  rw [Cmd.get_bind_run]
  have hover : s.runsOver 1 = decide (s.reader.fin.toNat ≤ s.reader.ptr.toNat) := by
    unfold State.runsOver
    rw [Nat.add_sub_cancel, hpos]
    simp
  split
  · rename_i h
    rw [Cmd.set_bind_run, Reader.nextBit_eq]
    unfold State.afterRead State.inBit
    rw [hover, hpos, hmod, decide_eq_true h, decide_eq_false (by omega), Bool.or_false, Bool.true_and]
    rfl
  · rename_i h
    rw [Cmd.set_bind_run, Reader.nextBit_eq]
    unfold State.afterRead State.inBit
    rw [hover, hpos, decide_eq_false h, decide_eq_true (by omega), Bool.or_true, Bool.false_and]
    rfl

theorem readBitsFrom_run (n : Nat) (v : Word) (s : State) :
    readBitsFrom n v s =
      .ok (BitVec.ofNat 32 (v.toNat * 2 ^ n + bitsValue (s.inBits n))) (s.afterRead n) := by
  induction n generalizing v s with
  | zero => simp [readBitsFrom, State.inBits, bitsValue]
  | succ n ih =>
    unfold readBitsFrom
    rw [Cmd.bind_of_ok (readBit_run s), ih, State.afterRead_add, Nat.add_comm 1 n]
    congr 1
    rw [toNat_shiftInWord, Nat.add_comm n 1, State.inBits_add, bitsValue_append, State.length_inBits]
    have : bitsValue (s.inBits 1) = (s.inBit s.inPos).toNat := by
      simp [State.inBits, bitsValue, List.range_succ]
    rw [this, BitVec.toNat_ofNat]
    apply BitVec.eq_of_toNat_eq
    rw [BitVec.toNat_ofNat, BitVec.toNat_ofNat]
    have e : (2 * v.toNat + (s.inBit s.inPos).toNat) % 2 ^ 32 * 2 ^ n + bitsValue ((s.afterRead 1).inBits n) ≡
        (2 * v.toNat + (s.inBit s.inPos).toNat) * 2 ^ n + bitsValue ((s.afterRead 1).inBits n) [MOD 2 ^ 32] :=
      Nat.ModEq.add_right _ (Nat.ModEq.mul_right _ (Nat.mod_modEq _ _))
    refine e.trans ?_
    congr 1
    ring

/-- `ReadBits(n)` answers the next `n` bits as a number, the first one most significant (R185). -/
theorem readBits_run (n : Nat) (s : State) :
    readBits n s = .ok (BitVec.ofNat 32 (bitsValue (s.inBits n))) (s.afterRead n) := by
  unfold readBits
  rw [readBitsFrom_run]
  simp

theorem alignRead_run (s : State) :
    alignRead s = .ok ⟨⟩ (s.setReader (s.reader.advance ((8 - s.reader.bit.toNat) % 8))) := by
  unfold alignRead
  rw [Cmd.modify_run, Reader.aligned_eq]

end Sys2Proof.Machine
end

