-- ==== Sys2Proof/Laws/Huffman.lean ====
section
/-! SUPPORT. The Huffman unit's operations: the abstract tree, its walk, its codes, its serialization and the parser
(R49, R213 to R217). -/

namespace Sys2Proof.Machine

/-! ### The abstract tree (R49) -/

/-- The nodes `f` hold the tree `T` at index `i`, however deep (R49). -/
inductive Rooted (f : Nat → Node) : Nat → HTree → Prop where
  | leaf {i : Nat} {v : Byte} : f i = .leaf v → Rooted f i (.leaf v)
  | internal {i : Nat} {l r : BitVec 9} {tl tr : HTree} : f i = .internal l r → Rooted f l.toNat tl →
    Rooted f r.toNat tr → Rooted f i (.internal tl tr)

/-- The number of levels of a tree. -/
def HTree.height : HTree → Nat
  | .leaf _ => 1
  | .internal l r => max l.height r.height + 1

theorem HTree.height_le_nodes (T : HTree) : T.height ≤ T.nodes := by
  induction T with
  | leaf v => exact Nat.le_refl 1
  | internal l r hl hr =>
    show max l.height r.height + 1 ≤ l.nodes + r.nodes + 1
    omega

theorem HTree.nodes_pos (T : HTree) : 0 < T.nodes := by
  cases T with
  | leaf v => exact Nat.one_pos
  | internal l r => exact Nat.succ_pos _

/-- A tree has one leaf more than internal nodes. -/
theorem HTree.nodes_eq (T : HTree) : T.nodes + 1 = 2 * T.leaves.length := by
  induction T with
  | leaf v => rfl
  | internal l r hl hr =>
    show l.nodes + r.nodes + 1 + 1 = 2 * (l.leaves ++ r.leaves).length
    rw [List.length_append]
    omega

theorem abstractTree_eq_some {f : Nat → Node} {depth i : Nat} {T : HTree} :
    abstractTree f depth i = some T ↔ Rooted f i T ∧ T.height ≤ depth := by
  induction depth generalizing i T with
  | zero =>
    constructor
    · exact fun h => nomatch h
    · rintro ⟨-, h⟩
      cases T <;> exact absurd h (by unfold HTree.height; omega)
  | succ depth ih =>
    unfold abstractTree
    split
    · rename_i v hv
      constructor
      · intro h
        cases h
        exact ⟨.leaf hv, Nat.le_add_left 1 depth⟩
      · rintro ⟨h, -⟩
        cases h with
        | leaf h => rw [hv] at h; cases h; rfl
        | internal h => rw [hv] at h; cases h
    · rename_i l r hn
      constructor
      · intro h
        split at h
        · cases h
        · rename_i tl hl
          split at h
          · cases h
          · rename_i tr hr
            cases h
            obtain ⟨h1, h2⟩ := ih.1 hl
            obtain ⟨h3, h4⟩ := ih.1 hr
            exact ⟨.internal hn h1 h3, by unfold HTree.height; omega⟩
      · rintro ⟨h, hh⟩
        cases h with
        | leaf h => rw [hn] at h; cases h
        | internal h h1 h2 =>
          rw [hn] at h
          cases h
          unfold HTree.height at hh
          rw [ih.2 ⟨h1, by omega⟩, ih.2 ⟨h2, by omega⟩]

/-- The unit holds the tree `T` where the nodes do, for any tree of at most 511 nodes (R49). -/
theorem Huffman.tree_of_rooted {h : Huffman} {T : HTree} (hr : Rooted h.nodeAt h.root.toNat T) (hn : T.nodes ≤ 511) :
    h.tree = some T :=
  abstractTree_eq_some.2 ⟨hr, Nat.le_trans T.height_le_nodes hn⟩

theorem Rooted.congr {f g : Nat → Node} {i : Nat} {T : HTree} (h : Rooted f i T) (hfg : ∀ j, f j = g j) :
    Rooted g i T := by
  rw [← funext hfg]
  exact h

theorem currentTree_run {s : State} {T : HTree} (h : s.huf.tree = some T) : currentTree s = .ok T s := by
  unfold currentTree
  rw [Cmd.get_bind_run, h]
  rfl

/-! ### The walk (R217) -/

theorem walkSymbol_run (T : HTree) (s : State) :
    ∃ p v, T.Reaches p v ∧ s.inBits p.length = p ∧ walkSymbol T s = .ok v (s.afterRead p.length) := by
  induction T generalizing s with
  | leaf v => exact ⟨[], v, .leaf v, rfl, by rw [List.length_nil, State.afterRead_zero]; rfl⟩
  | internal l r hl hr =>
    have one : s.inBits 1 = [s.inBit s.inPos] := by simp [State.inBits, List.range_succ]
    unfold walkSymbol
    rw [Cmd.bind_of_ok (readBit_run s)]
    cases hb : s.inBit s.inPos with
    | true =>
      obtain ⟨p, v, h1, h2, h3⟩ := hr (s.afterRead 1)
      refine ⟨true :: p, v, .right h1, ?_, ?_⟩
      · rw [List.length_cons, Nat.add_comm, State.inBits_add, one, hb, h2]
        rfl
      · rw [if_pos rfl, h3, State.afterRead_add, List.length_cons, Nat.add_comm]
    | false =>
      obtain ⟨p, v, h1, h2, h3⟩ := hl (s.afterRead 1)
      refine ⟨false :: p, v, .left h1, ?_, ?_⟩
      · rw [List.length_cons, Nat.add_comm, State.inBits_add, one, hb, h2]
        rfl
      · rw [if_neg (by decide), h3, State.afterRead_add, List.length_cons, Nat.add_comm]

/-- Two walks along one bit string end at the same leaf: no leaf's path begins another's (R220). -/
theorem HTree.Reaches.unique {T : HTree} {p q m n : List Bool} {v w : Byte} (h : T.Reaches p v) (g : T.Reaches q w)
    (he : p ++ m = q ++ n) : p = q ∧ v = w := by
  induction h generalizing q with
  | leaf v => cases g; exact ⟨rfl, rfl⟩
  | left h ih =>
    cases g with
    | left g =>
      obtain ⟨rfl, rfl⟩ := ih g (List.cons.inj he).2
      exact ⟨rfl, rfl⟩
    | right g => cases he
  | right h ih =>
    cases g with
    | left g => cases he
    | right g =>
      obtain ⟨rfl, rfl⟩ := ih g (List.cons.inj he).2
      exact ⟨rfl, rfl⟩

/-! ### Serialization (R214) -/

theorem length_treeBits (T : HTree) : (treeBits T).length + 1 = 10 * T.leaves.length := by
  induction T with
  | leaf v =>
    show (true :: byteBits v).length + 1 = 10 * [v].length
    rw [List.length_cons, length_byteBits]
    rfl
  | internal l r hl hr =>
    show (false :: (treeBits l ++ treeBits r)).length + 1 = 10 * (l.leaves ++ r.leaves).length
    rw [List.length_cons, List.length_append, List.length_append]
    omega

theorem serTree_writes (T : HTree) {s : State} (hr : s.Room (treeBits T).length) :
    ∃ t, serTree T s = .ok ⟨⟩ t ∧ Writes (treeBits T) s t := by
  induction T generalizing s with
  | leaf v =>
    have h9 : s.Room (1 + 8) := hr.le (by show 9 ≤ (true :: byteBits v).length; rw [List.length_cons, length_byteBits])
    obtain ⟨t, ht, hw⟩ := writeBits_writes 1 1 (hr.le (m := _) (n := 1) (by show 1 ≤ (true :: byteBits v).length; simp))
    obtain ⟨u, hu, hv⟩ := writeBits_writes (byteWord v) 8 (hw.room (n := 8) h9)
    exact ⟨u, by unfold serTree; rw [Cmd.bind_of_ok ht, hu], hw.trans hv⟩
  | internal l r hl hr' =>
    have hsum : (treeBits (.internal l r)).length = 1 + ((treeBits l).length + (treeBits r).length) := by
      show (false :: (treeBits l ++ treeBits r)).length = _
      rw [List.length_cons, List.length_append, Nat.add_comm]
    rw [hsum] at hr
    obtain ⟨t, ht, hw⟩ := writeBits_writes 0 1 (hr.le (Nat.le_add_right _ _))
    have h2 := hw.room (n := (treeBits l).length + (treeBits r).length) (by rw [length_wordBits]; exact hr)
    obtain ⟨u, hu, hv⟩ := hl (h2.le (Nat.le_add_right _ _))
    obtain ⟨w, hw', hx⟩ := hr' (hv.room (n := (treeBits r).length) h2)
    refine ⟨w, by unfold serTree; rw [Cmd.bind_of_ok ht, Cmd.bind_of_ok hu, hw'], ?_⟩
    have := (hw.trans hv).trans hx
    rw [List.append_assoc] at this
    exact this

/-! ### Codes (R213) -/

/-- The last assignment to `v` in a list of assignments. -/
def lastCode (l : List (Byte × List Bool)) (v : Byte) : Option (List Bool) :=
  l.foldl (fun o p => if p.1 = v then some p.2 else o) none

theorem written_assignCodes (code : Store (List Bool)) (l : List (Byte × List Bool)) (v : Byte) :
    (assignCodes code l).written v.toNat =
      l.foldl (fun o p => if p.1 = v then some p.2 else o) (code.written v.toNat) := by
  induction l generalizing code with
  | nil => rfl
  | cons p rest ih =>
    obtain ⟨w, q⟩ := p
    show (assignCodes (code.put w.toNat q) rest).written v.toNat = _
    rw [ih, Store.written_put, List.foldl_cons]
    by_cases h : w = v
    · rw [if_pos (by rw [h]), if_pos h]
    · rw [if_neg (fun h' => h (BitVec.eq_of_toNat_eq h')), if_neg h]

theorem foldl_paths (T : HTree) (q : List Bool) (v : Byte) (o : Option (List Bool)) :
    (T.paths q).foldl (fun o p => if p.1 = v then some p.2 else o) o =
      ((T.pathTo v).map (q ++ ·)).or o := by
  induction T generalizing q o with
  | leaf x =>
    show (if x = v then some q else o) = _
    unfold HTree.pathTo
    split <;> simp
  | internal l r hl hr =>
    unfold HTree.paths HTree.pathTo
    rw [List.foldl_append, hl, hr]
    cases r.pathTo v with
    | some p => simp
    | none => cases l.pathTo v <;> simp

/-- HUF_CODES leaves every symbol with its code under the tree (R213). -/
theorem fillCodes_codeAt (T : HTree) (s : State) (v : Byte) : (fillCodes T s).huf.codeAt v.toNat = T.codeFor v := by
  have hv := v.isLt
  have hfill : (s.huf.code.fill 256 ([] : List Bool)).written v.toNat = some [] := by
    rw [Store.written_fill, if_pos hv]
  have hw : ∀ l, (assignCodes (s.huf.code.fill 256 []) l).written v.toNat =
      l.foldl (fun o p => if p.1 = v then some p.2 else o) (some []) := fun l => by
    rw [written_assignCodes, hfill]
  show Store.read _ (assignCodes (s.huf.code.fill 256 []) T.codes) v.toNat = _
  apply Store.read_of_written
  rw [hw]
  cases T with
  | leaf x =>
    show (if x = v then some [false] else some []) = some (if x = v then [false] else [])
    split <;> rfl
  | internal l r =>
    show ((HTree.internal l r).paths []).foldl _ (some []) = some (((HTree.internal l r).pathTo v).getD [])
    rw [foldl_paths]
    cases (HTree.internal l r).pathTo v <;> simp

theorem HTree.reaches_of_pathTo {T : HTree} {v : Byte} {p : List Bool} (h : T.pathTo v = some p) : T.Reaches p v := by
  induction T generalizing p with
  | leaf x =>
    unfold HTree.pathTo at h
    split at h
    · rename_i hx
      cases h
      subst hx
      exact .leaf _
    · cases h
  | internal l r hl hr =>
    unfold HTree.pathTo at h
    split at h
    · rename_i q hq
      cases h
      exact .right (hr hq)
    · cases hq : l.pathTo v with
      | none => rw [hq] at h; cases h
      | some q => rw [hq] at h; cases h; exact .left (hl hq)

theorem HTree.pathTo_isSome {T : HTree} {v : Byte} (h : v ∈ T.leaves) : ∃ p, T.pathTo v = some p := by
  induction T with
  | leaf x =>
    have : v = x := List.mem_singleton.1 h
    exact ⟨[], by unfold HTree.pathTo; rw [if_pos this.symm]⟩
  | internal l r hl hr =>
    unfold HTree.pathTo
    cases hr' : r.pathTo v with
    | some p => exact ⟨_, rfl⟩
    | none =>
      obtain h | h := List.mem_append.1 h
      · obtain ⟨p, hp⟩ := hl h
        exact ⟨_, by simp only [hp]; rfl⟩
      · obtain ⟨p, hp⟩ := hr h
        rw [hp] at hr'
        cases hr'

/-! ### The parser (R215) -/

theorem allocNode_run (s : State) :
    allocNode s =
      if s.huf.nodeCnt.toNat = 511 then .error .corruptTree s
      else .ok s.huf.nodeCnt.toNat (s.setHuf { s.huf with nodeCnt := s.huf.nodeCnt + 1 }) := by
  unfold allocNode
  rw [Cmd.get_bind_run, raiseIf_bind_run]
  rfl

/-- `t` is `s` after Parse has read the tree `T` from the next bits and put it at the next free node (R215). -/
structure Parsed (T : HTree) (s t : State) : Prop where
  bits : s.inBits (treeBits T).length = treeBits T
  fits : s.huf.nodeCnt.toNat + T.nodes ≤ 511
  frame : t = (s.afterRead (treeBits T).length).setHuf { s.huf with node := t.huf.node, nodeCnt := t.huf.nodeCnt }
  count : t.huf.nodeCnt.toNat = s.huf.nodeCnt.toNat + T.nodes
  rooted : ∀ f, (∀ j, s.huf.nodeCnt.toNat ≤ j → j < s.huf.nodeCnt.toNat + T.nodes → f j = t.huf.nodeAt j) →
    Rooted f s.huf.nodeCnt.toNat T
  others : ∀ j, j < s.huf.nodeCnt.toNat ∨ s.huf.nodeCnt.toNat + T.nodes ≤ j → t.huf.nodeAt j = s.huf.nodeAt j

theorem nodeAt_putNode (s : State) (i j : Nat) (n : Node) :
    (s.setHuf { s.huf with node := s.huf.node.put i n }).huf.nodeAt j = if i = j then n else s.huf.nodeAt j :=
  Store.read_put _ _ _ _ _

theorem toNat_succ_nodeCnt {n : BitVec 10} (h : n.toNat < 511) : (n + 1).toNat = n.toNat + 1 := by
  rw [BitVec.toNat_add]
  exact Nat.mod_eq_of_lt (by show n.toNat + 1 < 2 ^ 10; omega)

theorem setWidth_bitsValue_byteBits (b : Byte) : (BitVec.ofNat 32 (bitsValue (byteBits b))).setWidth 8 = b := by
  apply BitVec.eq_of_toNat_eq
  have hb := b.isLt
  rw [bitsValue_byteBits, BitVec.toNat_setWidth, BitVec.toNat_ofNat]
  omega

theorem inBits_one (s : State) : s.inBits 1 = [s.inBit s.inPos] := by simp [State.inBits, List.range_succ]

/-- A leaf parsed. -/
theorem Parsed.leaf {s : State} {v : Byte} (hlt : s.huf.nodeCnt.toNat < 511) (hb : s.inBit s.inPos = true)
    (hv : (s.afterRead 1).inBits 8 = byteBits v) :
    Parsed (.leaf v) s
      (((s.setHuf { s.huf with nodeCnt := s.huf.nodeCnt + 1 }).afterRead 9).setHuf
        { s.huf with node := s.huf.node.put s.huf.nodeCnt.toNat (.leaf v), nodeCnt := s.huf.nodeCnt + 1 }) where
  bits := by
    have : (treeBits (.leaf v)).length = 1 + 8 := by
      show (true :: byteBits v).length = _
      rw [List.length_cons, length_byteBits]
    rw [this, State.inBits_add, inBits_one, hb, hv]
    rfl
  fits := hlt
  frame := by
    have : (treeBits (.leaf v)).length = 9 := by
      show (true :: byteBits v).length = _
      rw [List.length_cons, length_byteBits]
    rw [this]
    rfl
  count := toNat_succ_nodeCnt hlt
  rooted := fun f hf => by
    refine .leaf ?_
    rw [hf _ (Nat.le_refl _) (Nat.lt_succ_self _)]
    exact (Store.read_put _ _ _ _ _).trans (if_pos rfl)
  others := fun j hj => by
    have h1 : (HTree.leaf v).nodes = 1 := rfl
    exact (Store.read_put _ _ _ _ _).trans (if_neg (by omega))

/-- An internal node parsed, from its two subtrees. -/
theorem Parsed.internal {s t u : State} {l r : HTree} (hlt : s.huf.nodeCnt.toNat < 511) (hb : s.inBit s.inPos = false)
    (hl : Parsed l ((s.setHuf { s.huf with nodeCnt := s.huf.nodeCnt + 1 }).afterRead 1) t) (hr : Parsed r t u) :
    Parsed (.internal l r) s
      (u.setHuf
        { u.huf with
          node := u.huf.node.put s.huf.nodeCnt.toNat
            (.internal (BitVec.ofNat 9 (s.huf.nodeCnt.toNat + 1)) (BitVec.ofNat 9 t.huf.nodeCnt.toNat)) }) := by
  have hc : ((s.setHuf { s.huf with nodeCnt := s.huf.nodeCnt + 1 }).afterRead 1).huf.nodeCnt.toNat =
      s.huf.nodeCnt.toNat + 1 := toNat_succ_nodeCnt hlt
  have hn : (HTree.internal l r).nodes = l.nodes + r.nodes + 1 := rfl
  have hlen : (treeBits (.internal l r)).length = 1 + ((treeBits l).length + (treeBits r).length) := by
    show (false :: (treeBits l ++ treeBits r)).length = _
    rw [List.length_cons, List.length_append, Nat.add_comm]
  have lcount := hl.count
  have rcount := hr.count
  have rfits := hr.fits
  have lpos := l.nodes_pos
  have rpos := r.nodes_pos
  have lothers := hl.others
  have lrooted := hl.rooted
  rw [hc] at lcount lothers lrooted
  have read : ∀ n, (s.setHuf { s.huf with nodeCnt := s.huf.nodeCnt + 1 }).afterRead n =
      (s.afterRead n).setHuf { s.huf with nodeCnt := s.huf.nodeCnt + 1 } := fun _ => rfl
  have hf1 := hl.frame
  have hf2 := hr.frame
  have tin : ∀ n, t.inBits n = (s.afterRead (1 + (treeBits l).length)).inBits n := by
    intro n
    rw [hf1, ← State.afterRead_add]
    rfl
  refine ⟨?_, by omega, ?_, ?_, ?_, ?_⟩
  · rw [hlen, State.inBits_add, inBits_one, hb, State.inBits_add]
    have h1 := hl.bits
    have h2 := hr.bits
    rw [tin] at h2
    rw [State.afterRead_add, h2]
    rw [read] at h1
    rw [show (s.afterRead 1).inBits (treeBits l).length = treeBits l from h1]
    rfl
  · rw [hlen, ← State.afterRead_add, ← State.afterRead_add]
    conv_lhs => rw [hf2, hf1]
    rw [hf1]
    rfl
  · show u.huf.nodeCnt.toNat = _
    omega
  · intro f hf
    have hread : ∀ j, s.huf.nodeCnt.toNat + 1 ≤ j → j < s.huf.nodeCnt.toNat + (HTree.internal l r).nodes →
        f j = u.huf.nodeAt j := by
      intro j h1 h2
      rw [hf j (by omega) h2]
      exact (Store.read_put _ _ _ _ _).trans (if_neg (by omega))
    have hroot : f s.huf.nodeCnt.toNat =
        .internal (BitVec.ofNat 9 (s.huf.nodeCnt.toNat + 1)) (BitVec.ofNat 9 t.huf.nodeCnt.toNat) := by
      rw [hf _ (Nat.le_refl _) (by omega)]
      exact (Store.read_put _ _ _ _ _).trans (if_pos rfl)
    refine .internal hroot ?_ ?_
    · rw [BitVec.toNat_ofNat, Nat.mod_eq_of_lt (by omega)]
      refine lrooted f fun j h1 h2 => ?_
      rw [hread j h1 (by omega), hr.others j (.inl (by omega))]
    · rw [BitVec.toNat_ofNat, Nat.mod_eq_of_lt (by omega)]
      exact hr.rooted f fun j h1 h2 => hread j (by omega) (by omega)
  · intro j hj
    refine ((Store.read_put _ _ _ _ _).trans (if_neg (by omega))).trans ?_
    show u.huf.nodeAt j = _
    rw [hr.others j (by omega), lothers j (by omega)]
    rfl

/-- Parse on the bits of a tree that the node store has room for answers that tree (R215). -/
theorem parseTree_of_bits (T : HTree) {depth : Nat} {s : State} (hd : T.height ≤ depth)
    (hf : s.huf.nodeCnt.toNat + T.nodes ≤ 511) (hb : s.inBits (treeBits T).length = treeBits T) :
    ∃ t, parseTree depth s = .ok s.huf.nodeCnt.toNat t ∧ Parsed T s t := by
  induction T generalizing depth s with
  | leaf v =>
    obtain ⟨d, rfl⟩ : ∃ d, depth = d + 1 := ⟨depth - 1, by have : (HTree.leaf v).height = 1 := rfl; omega⟩
    have hn : (HTree.leaf v).nodes = 1 := rfl
    have hlen : (treeBits (.leaf v)).length = 1 + 8 := by
      show (true :: byteBits v).length = _
      rw [List.length_cons, length_byteBits]
    rw [hlen, State.inBits_add, inBits_one] at hb
    obtain ⟨h1, h2⟩ : s.inBit s.inPos = true ∧ (s.afterRead 1).inBits 8 = byteBits v := List.cons.inj hb
    refine ⟨_, ?_, Parsed.leaf (by omega) h1 h2⟩
    unfold parseTree
    rw [Cmd.bind_of_ok (by rw [allocNode_run, if_neg (by omega)]), Cmd.bind_of_ok (readBit_run _)]
    show (if s.inBit s.inPos = true then _ else _ : Cmd Nat) _ = _
    rw [if_pos h1, Cmd.bind_of_ok (readBits_run 8 _), State.afterRead_add]
    have hv : (BitVec.ofNat 32
        (bitsValue (((s.setHuf { s.huf with nodeCnt := s.huf.nodeCnt + 1 }).afterRead 1).inBits 8))).setWidth 8 = v := by
      rw [show ((s.setHuf { s.huf with nodeCnt := s.huf.nodeCnt + 1 }).afterRead 1).inBits 8 = byteBits v from h2]
      exact setWidth_bitsValue_byteBits v
    rw [hv]
    rfl
  | internal l r ihl ihr =>
    have hh : (HTree.internal l r).height = max l.height r.height + 1 := rfl
    have hn : (HTree.internal l r).nodes = l.nodes + r.nodes + 1 := rfl
    obtain ⟨d, rfl⟩ : ∃ d, depth = d + 1 := ⟨depth - 1, by omega⟩
    have hlen : (treeBits (.internal l r)).length = 1 + ((treeBits l).length + (treeBits r).length) := by
      show (false :: (treeBits l ++ treeBits r)).length = _
      rw [List.length_cons, List.length_append, Nat.add_comm]
    rw [hlen, State.inBits_add, inBits_one] at hb
    obtain ⟨h1, h2⟩ : s.inBit s.inPos = false ∧
        (s.afterRead 1).inBits ((treeBits l).length + (treeBits r).length) = treeBits l ++ treeBits r :=
      List.cons.inj hb
    rw [State.inBits_add] at h2
    obtain ⟨h3, h4⟩ := List.append_inj h2 (State.length_inBits _ _)
    have hlt : s.huf.nodeCnt.toNat < 511 := by omega
    have hc : ((s.setHuf { s.huf with nodeCnt := s.huf.nodeCnt + 1 }).afterRead 1).huf.nodeCnt.toNat =
        s.huf.nodeCnt.toNat + 1 := toNat_succ_nodeCnt hlt
    obtain ⟨t, ht, hpt⟩ := ihl (depth := d)
      (s := (s.setHuf { s.huf with nodeCnt := s.huf.nodeCnt + 1 }).afterRead 1) (by omega) (by omega) h3
    have tcount := hpt.count
    obtain ⟨u, hu, hpu⟩ := ihr (depth := d) (s := t) (by omega) (by omega) (by rw [hpt.frame]; exact h4)
    refine ⟨_, ?_, Parsed.internal hlt h1 hpt hpu⟩
    unfold parseTree
    rw [Cmd.bind_of_ok (by rw [allocNode_run, if_neg (by omega)]), Cmd.bind_of_ok (readBit_run _)]
    show (if s.inBit s.inPos = true then _ else _ : Cmd Nat) _ = _
    rw [if_neg (by rw [h1]; decide), Cmd.bind_of_ok ht, Cmd.bind_of_ok hu, hc]
    rfl

/-- Parse reads a tree that the node store has room for, or ends in CORRUPT_TREE (R215, R362). -/
theorem parseTree_cases (depth : Nat) (s : State) (hn : s.huf.nodeCnt.toNat ≤ 511) :
    (∃ T t, parseTree depth s = .ok s.huf.nodeCnt.toNat t ∧ Parsed T s t) ∨
      ∃ u, parseTree depth s = .error .corruptTree u := by
  induction depth generalizing s with
  | zero => exact .inr ⟨s, rfl⟩
  | succ d ih =>
    by_cases hfull : s.huf.nodeCnt.toNat = 511
    · refine .inr ⟨s, ?_⟩
      unfold parseTree
      rw [Cmd.bind_of_error (by rw [allocNode_run, if_pos hfull])]
    · have hlt : s.huf.nodeCnt.toNat < 511 := by omega
      have hstart : ∀ f : Nat → Cmd Nat, (allocNode >>= f) s =
          f s.huf.nodeCnt.toNat (s.setHuf { s.huf with nodeCnt := s.huf.nodeCnt + 1 }) := fun f => by
        rw [Cmd.bind_of_ok (by rw [allocNode_run, if_neg hfull])]
      unfold parseTree
      rw [hstart, Cmd.bind_of_ok (readBit_run _)]
      cases hb : s.inBit s.inPos with
      | true =>
        have hb' : (s.setHuf { s.huf with nodeCnt := s.huf.nodeCnt + 1 }).inBit
          (s.setHuf { s.huf with nodeCnt := s.huf.nodeCnt + 1 }).inPos = true := hb
        rw [hb', if_pos rfl, Cmd.bind_of_ok (readBits_run 8 _), State.afterRead_add]
        refine .inl ⟨.leaf ((BitVec.ofNat 32 (bitsValue ((s.afterRead 1).inBits 8))).setWidth 8), _, rfl,
          Parsed.leaf hlt hb ?_⟩
        have hl := State.length_inBits (s.afterRead 1) 8
        have hlt8 := bitsValue_lt ((s.afterRead 1).inBits 8)
        rw [hl] at hlt8
        have hw := wordBits_bitsValue ((s.afterRead 1).inBits 8) (by rw [hl]; decide)
        rw [hl] at hw
        have : byteWord ((BitVec.ofNat 32 (bitsValue ((s.afterRead 1).inBits 8))).setWidth 8) =
            BitVec.ofNat 32 (bitsValue ((s.afterRead 1).inBits 8)) := by
          apply BitVec.eq_of_toNat_eq
          unfold byteWord
          rw [BitVec.toNat_setWidth, BitVec.toNat_setWidth, BitVec.toNat_ofNat]
          omega
        unfold byteBits
        rw [this, hw]
      | false =>
        have hb' : (s.setHuf { s.huf with nodeCnt := s.huf.nodeCnt + 1 }).inBit
          (s.setHuf { s.huf with nodeCnt := s.huf.nodeCnt + 1 }).inPos = false := hb
        have hc : ((s.setHuf { s.huf with nodeCnt := s.huf.nodeCnt + 1 }).afterRead 1).huf.nodeCnt.toNat =
            s.huf.nodeCnt.toNat + 1 := toNat_succ_nodeCnt hlt
        rw [hb', if_neg (by decide)]
        obtain ⟨l, t, ht, hl⟩ | ⟨u, hu⟩ := ih ((s.setHuf { s.huf with nodeCnt := s.huf.nodeCnt + 1 }).afterRead 1)
          (by omega)
        · have hcount := hl.count
          have hfits := hl.fits
          rw [Cmd.bind_of_ok ht]
          obtain ⟨r, u, hu, hr⟩ | ⟨u, hu⟩ := ih t (by omega)
          · rw [Cmd.bind_of_ok hu, hc]
            exact .inl ⟨.internal l r, _, rfl, Parsed.internal hlt hb hl hr⟩
          · rw [Cmd.bind_of_error hu]
            exact .inr ⟨u, rfl⟩
        · rw [Cmd.bind_of_error hu]
          exact .inr ⟨u, rfl⟩

/-- `U.NODECNT <- 0; U.ROOT <- Parse()` on the bits of a tree (R215). -/
theorem parseRoot_of_bits {T : HTree} {s : State} (hn : T.nodes ≤ 511) (hb : s.inBits (treeBits T).length = treeBits T) :
    ∃ t, parseRoot s = .ok ⟨⟩ t ∧ t.huf.tree = some T ∧ t.huf.nodeCnt.toNat = T.nodes ∧ t.huf.root = 0 ∧
      t = (s.afterRead (treeBits T).length).setHuf
        { s.huf with node := t.huf.node, nodeCnt := t.huf.nodeCnt, root := t.huf.root } := by
  obtain ⟨t, ht, hp⟩ := parseTree_of_bits T (depth := 512) (s := s.setHuf { s.huf with nodeCnt := 0 })
    (Nat.le_trans T.height_le_nodes (by omega)) (by show 0 + T.nodes ≤ 511; omega) hb
  refine ⟨t.setHuf { t.huf with root := 0 }, ?_, ?_, ?_, rfl, ?_⟩
  · unfold parseRoot
    rw [Cmd.modify_bind_run]
    exact (Cmd.bind_of_ok ht).trans rfl
  · refine Huffman.tree_of_rooted ?_ hn
    exact hp.rooted _ fun j _ _ => rfl
  · exact hp.count.trans (Nat.zero_add _)
  · conv_lhs => rw [hp.frame]
    rfl

theorem parseRoot_cases (s : State) :
    (∃ T, T.nodes ≤ 511 ∧ s.inBits (treeBits T).length = treeBits T) ∨ ∃ u, parseRoot s = .error .corruptTree u := by
  obtain ⟨T, t, -, hp⟩ | ⟨u, hu⟩ := parseTree_cases 512 (s.setHuf { s.huf with nodeCnt := 0 }) (Nat.zero_le _)
  · have hf := hp.fits
    exact .inl ⟨T, by have : (s.setHuf { s.huf with nodeCnt := 0 }).huf.nodeCnt.toNat = 0 := rfl
                      omega, hp.bits⟩
  · refine .inr ⟨u, ?_⟩
    unfold parseRoot
    rw [Cmd.modify_bind_run]
    exact Cmd.bind_of_error hu

end Sys2Proof.Machine
end

