-- ==== Sys2Proof/Laws/Lzw.lean ====
section
/-! SUPPORT. The LZW unit's operations: the search of the encoder's dictionary, the strings of the decoder's codes, what
an insertion leaves, and the invariants of both dictionaries (R52, R263, R264, R269 to R274). -/

namespace Sys2Proof.Machine

/-! ### The encoder's search (R263) -/

theorem findEntry_eq_some {next : Nat} {p : BitVec 12} {c : Byte} {l : List (Nat × DictEntry)} {x : Nat}
    (h : findEntry next p c l = some x) : 258 ≤ x ∧ x < next ∧ (x, { pre := p, suf := c }) ∈ l := by
  induction l with
  | nil => cases h
  | cons d rest ih =>
    obtain ⟨y, e⟩ := d
    unfold findEntry at h
    split at h
    · rename_i hy
      cases h
      obtain ⟨h1, h2, h3, h4⟩ := hy
      exact ⟨h1, h2, by obtain ⟨pre, suf⟩ := e; subst h3 h4; exact List.mem_cons_self ..⟩
    · obtain ⟨h1, h2, h3⟩ := ih h
      exact ⟨h1, h2, List.mem_cons_of_mem _ h3⟩

theorem findEntry_isSome {next : Nat} {p : BitVec 12} {c : Byte} {l : List (Nat × DictEntry)} {x : Nat}
    (h1 : 258 ≤ x) (h2 : x < next) (h3 : (x, { pre := p, suf := c }) ∈ l) : (findEntry next p c l).isSome := by
  induction l with
  | nil => cases h3
  | cons d rest ih =>
    obtain ⟨y, e⟩ := d
    unfold findEntry
    split
    · rfl
    · rename_i hy
      obtain h | h := List.mem_cons.1 h3
      · cases h
        exact absurd ⟨h1, h2, rfl, rfl⟩ hy
      · exact ih h

/-- What `EFind` answers is a code whose entry is the pair it looks for (R263). -/
theorem LzwEnc.find_eq_some {e : LzwEnc} {p : BitVec 12} {c : Byte} {x : Nat} (hw : e.dict.wf)
    (h : e.find p c = some x) : 258 ≤ x ∧ x < e.next.toNat ∧ e.dict.written x = some { pre := p, suf := c } := by
  obtain ⟨h1, h2, h3⟩ := findEntry_eq_some h
  exact ⟨h1, h2, cellAt_of_mem hw h3⟩

/-- Where `EFind` answers nothing, no assigned code has the entry (R263). -/
theorem LzwEnc.find_eq_none {e : LzwEnc} {p : BitVec 12} {c : Byte} (h : e.find p c = none) {x : Nat}
    (h1 : 258 ≤ x) (h2 : x < e.next.toNat) : e.dict.written x ≠ some { pre := p, suf := c } := by
  intro h3
  have := findEntry_isSome h1 h2 (mem_of_cellAt h3)
  unfold LzwEnc.find at h
  rw [h] at this
  cases this

/-! ### The dictionaries' invariants -/

theorem StringCode.mono {m n c : Nat} (h : StringCode m c) (hmn : m ≤ n) : StringCode n c :=
  ⟨Nat.lt_of_lt_of_le h.1 hmn, h.2⟩

theorem StringCode.literal (n : Nat) (hn : 258 ≤ n) (c : Byte) : StringCode n (c.setWidth 12 : BitVec 12).toNat := by
  have : (c.setWidth 12 : BitVec 12).toNat = c.toNat := by
    rw [BitVec.toNat_setWidth]
    exact Nat.mod_eq_of_lt (by have := c.isLt; omega)
  rw [this]
  have := c.isLt
  exact ⟨by omega, by omega, by omega⟩

theorem DictOk.empty (dict : Store DictEntry) : DictOk dict 258 := fun c h1 h2 => absurd h2 (by omega)

theorem DictDistinct.empty (dict : Store DictEntry) : DictDistinct dict 258 := fun c _ h1 h2 => absurd h2 (by omega)

/-- An insertion at the next code keeps the dictionary's entries well founded (R52, R264, R273). -/
theorem DictOk.put {dict : Store DictEntry} {next : Nat} {e : DictEntry} (h : DictOk dict next)
    (he : StringCode next e.pre.toNat) : DictOk (dict.put next e) (next + 1) := by
  intro c h1 h2
  rw [Store.written_put]
  by_cases hc : next = c
  · rw [if_pos hc]
    exact ⟨e, rfl, hc ▸ he⟩
  · rw [if_neg hc]
    exact h c h1 (by omega)

/-- An insertion of a pair no code has keeps the entries distinct (R263, R264). -/
theorem DictDistinct.put {dict : Store DictEntry} {next : Nat} {e : DictEntry} (h : DictDistinct dict next)
    (he : ∀ x, 258 ≤ x → x < next → dict.written x ≠ some e) : DictDistinct (dict.put next e) (next + 1) := by
  intro c d hc1 hc2 hd1 hd2 heq
  rw [Store.written_put, Store.written_put] at heq
  by_cases hc : next = c
  · by_cases hd : next = d
    · omega
    · rw [if_pos hc, if_neg hd] at heq
      exact absurd heq.symm (he d hd1 (by omega))
  · by_cases hd : next = d
    · rw [if_neg hc, if_pos hd] at heq
      exact absurd heq (he c hc1 (by omega))
    · rw [if_neg hc, if_neg hd] at heq
      exact h c d hc1 (by omega) hd1 (by omega) heq

/-! ### Widths -/

theorem widthFor_le (x : Nat) : 9 ≤ widthFor x ∧ widthFor x ≤ 12 := by
  unfold widthFor
  split
  · omega
  · split
    · omega
    · split <;> omega

theorem toNat_encWidth (fixed12 : Bool) (next : BitVec 13) :
    (BitVec.ofNat 4 (encWidth fixed12 next)).toNat = encWidth fixed12 next := by
  have := widthFor_le next.toNat
  rw [BitVec.toNat_ofNat]
  apply Nat.mod_eq_of_lt
  unfold encWidth
  split <;> omega

theorem encWidth_or (fixed12 : Bool) (next : BitVec 13) :
    (BitVec.ofNat 4 (encWidth fixed12 next)).toNat = 12 ∨
      (BitVec.ofNat 4 (encWidth fixed12 next)).toNat = widthFor next.toNat := by
  rw [toNat_encWidth]
  unfold encWidth
  split
  · exact .inl rfl
  · exact .inr rfl

/-- U.E_WIDTH holds the width of the flag `fixed12`: it was set under it (R56, R261). -/
def LzwEnc.InStep (fixed12 : Bool) (e : LzwEnc) : Prop := e.width.toNat = encWidth fixed12 e.next

/-- While LZW_FIXED12 is what it was when U.E_WIDTH was set, EmitCode's width is U.E_WIDTH (R261). -/
theorem LzwEnc.InStep.emitWidth {fixed12 : Bool} {e : LzwEnc} (h : e.InStep fixed12) :
    e.emitWidth fixed12 = e.width.toNat := h.symm

theorem LzwEnc.InStep.started (e : LzwEnc) (fixed12 : Bool) : (e.started fixed12).InStep fixed12 :=
  toNat_encWidth fixed12 258

/-- A byte keeps U.E_WIDTH in step with the flag (R264). -/
theorem LzwEnc.InStep.encodeByte {fixed12 : Bool} {e : LzwEnc} (h : e.InStep fixed12) (c : Byte) :
    (encodeByte fixed12 e c).next.InStep fixed12 := by
  unfold Machine.encodeByte
  split
  · exact h
  · split
    · exact h
    · split
      · exact toNat_encWidth fixed12 (e.next + 1)
      · exact toNat_encWidth fixed12 258

theorem toNat_succ_next {n : BitVec 13} (h : n.toNat < 4096) : (n + 1).toNat = n.toNat + 1 := by
  rw [BitVec.toNat_add]
  exact Nat.mod_eq_of_lt (by show n.toNat + 1 < 2 ^ 13; omega)

/-- The first code is a next code (R260). -/
theorem firstCode_range : 258 ≤ (258 : BitVec 13).toNat ∧ (258 : BitVec 13).toNat ≤ 4096 := by decide

/-! ### The encoder (R262, R264, R265) -/

theorem LzwEnc.Sound.started {e : LzwEnc} (h : e.Sound) (fixed12 : Bool) : (e.started fixed12).Sound where
  dict := h.dict
  next := firstCode_range
  width := encWidth_or fixed12 258
  pat := fun hp => Bool.noConfusion hp

/-- One byte keeps the encoder's invariant (R264). -/
theorem LzwEnc.Sound.encodeByte {e : LzwEnc} (h : e.Sound) (fixed12 : Bool) (c : Byte) :
    (encodeByte fixed12 e c).next.Sound := by
  obtain ⟨hn1, hn2⟩ := h.next
  unfold Machine.encodeByte
  split
  · exact ⟨h.dict, h.next, h.width, fun _ => StringCode.literal _ hn1 c⟩
  · split
    · rename_i x hx
      obtain ⟨h1, h2, -⟩ := LzwEnc.find_eq_some h.dict hx
      refine ⟨h.dict, h.next, h.width, fun _ => ?_⟩
      show StringCode e.next.toNat (BitVec.ofNat 12 x).toNat
      rw [BitVec.toNat_ofNat, Nat.mod_eq_of_lt (by omega)]
      exact ⟨h2, by omega, by omega⟩
    · split
      · rename_i hlt
        have hlt' : e.next.toNat < 4096 := hlt
        have hs := toNat_succ_next hlt'
        refine ⟨Store.wf_put h.dict _ _, ?_, encWidth_or _ _, fun _ => ?_⟩
        · show 258 ≤ (e.next + 1).toNat ∧ (e.next + 1).toNat ≤ 4096
          rw [hs]
          omega
        · exact StringCode.literal _ (by show 258 ≤ (e.next + 1).toNat; rw [hs]; omega) c
      · exact ⟨h.dict, firstCode_range, encWidth_or _ _, fun _ => StringCode.literal 258 (Nat.le_refl _) c⟩

/-- One byte keeps the dictionary's entries well founded and distinct (R263, R264). -/
theorem encodeByte_dict {e : LzwEnc} (h : e.Sound) (hd : DictOk e.dict e.next.toNat)
    (hx : DictDistinct e.dict e.next.toNat) (fixed12 : Bool) (c : Byte) :
    DictOk (encodeByte fixed12 e c).next.dict (encodeByte fixed12 e c).next.next.toNat ∧
      DictDistinct (encodeByte fixed12 e c).next.dict (encodeByte fixed12 e c).next.next.toNat := by
  unfold Machine.encodeByte
  split
  · exact ⟨hd, hx⟩
  · rename_i hp
    split
    · exact ⟨hd, hx⟩
    · rename_i hf
      split
      · rename_i hlt
        have hs := toNat_succ_next (show e.next.toNat < 4096 from hlt)
        show DictOk (e.dict.put e.next.toNat _) (e.next + 1).toNat ∧ DictDistinct _ (e.next + 1).toNat
        rw [hs]
        exact ⟨hd.put (h.pat (by simpa using hp)), hx.put fun x h1 h2 => LzwEnc.find_eq_none hf h1 h2⟩
      · exact ⟨DictOk.empty _, DictDistinct.empty _⟩

/-- EmitCode for each code (R261). -/
theorem emitCodes_writes {s : State} (w : Nat) (l : List (BitVec 12)) (hr : s.Room (l.length * w)) :
    ∃ t, emitCodes w l s = .ok ⟨⟩ t ∧ Writes (l.flatMap fun x => wordBits (x.setWidth 32) w) s t := by
  induction l generalizing s with
  | nil => exact ⟨s, rfl, Writes.refl s⟩
  | cons x xs ih =>
    rw [List.length_cons, Nat.succ_mul, Nat.add_comm] at hr
    obtain ⟨t, ht, hw⟩ := writeBits_writes (x.setWidth 32) w (hr.le (Nat.le_add_right _ _))
    obtain ⟨u, hu, hv⟩ := ih (hw.room (n := xs.length * w) (by rw [length_wordBits]; exact hr))
    exact ⟨u, by unfold emitCodes at hu ⊢; rw [forEach_cons, Cmd.bind_of_ok ht, hu], hw.trans hv⟩

/-! ### Strings of codes (R52) -/

section Strings

variable {f : Nat → DictEntry} {next : Nat}

theorem stands_of_stringFrom {depth c : Nat} {tail l : List Byte} (h : stringFrom f next depth c tail = some l) :
    ∃ m, Stands f next c m ∧ l = m ++ tail := by
  induction depth generalizing c tail with
  | zero => cases h
  | succ depth ih =>
    unfold stringFrom at h
    split at h
    · rename_i hc
      cases h
      exact ⟨_, .literal hc, rfl⟩
    · split at h
      · rename_i hc
        obtain ⟨m, hm, rfl⟩ := ih h
        exact ⟨m ++ [(f c).suf], .entry hc.1 hc.2 hm, by rw [List.append_assoc]; rfl⟩
      · cases h

/-- `StrX` of R52 on a dictionary whose prefixes go down: the walk answers the string the code stands for. -/
theorem stringFrom_of_stands (hf : ∀ c, 258 ≤ c → c < next → (f c).pre.toNat < c) {c : Nat} {m : List Byte}
    (h : Stands f next c m) {depth : Nat} (hd : c < depth) (tail : List Byte) :
    stringFrom f next depth c tail = some (m ++ tail) := by
  induction h generalizing depth tail with
  | literal hc =>
    obtain ⟨d, rfl⟩ : ∃ d, depth = d + 1 := ⟨depth - 1, by omega⟩
    unfold stringFrom
    rw [if_pos hc]
    rfl
  | @entry c l h1 h2 h3 ih =>
    obtain ⟨d, rfl⟩ : ∃ d, depth = d + 1 := ⟨depth - 1, by omega⟩
    unfold stringFrom
    rw [if_neg (by omega), if_pos ⟨h1, h2⟩, ih (by have := hf _ h1 h2; omega), List.append_assoc]
    rfl

theorem Stands.ne_nil {c : Nat} {m : List Byte} (h : Stands f next c m) : m ≠ [] := by
  cases h with
  | literal => simp
  | entry => simp

theorem Stands.code_lt {c : Nat} {m : List Byte} (h : Stands f next c m) : c ≤ 255 ∨ (258 ≤ c ∧ c < next) := by
  cases h with
  | literal hc => exact .inl hc
  | entry h1 h2 => exact .inr ⟨h1, h2⟩

end Strings

/-- The prefixes of the decoder's entries are below their codes. -/
theorem DictOk.pre_lt {d : LzwDec} (h : DictOk d.dict d.next.toNat) (c : Nat) (h1 : 258 ≤ c) (h2 : c < d.next.toNat) :
    (d.entryAt c).pre.toNat < c := by
  obtain ⟨e, he, hc⟩ := h c h1 h2
  have : d.entryAt c = e := Store.read_of_written he
  rw [this]
  exact hc.1

theorem LzwDec.knows_iff (d : LzwDec) (c : Nat) : d.knows c = true ↔ c ≤ 255 ∨ (258 ≤ c ∧ c < d.next.toNat) := by
  unfold LzwDec.knows
  rw [Bool.or_eq_true, Bool.and_eq_true, decide_eq_true_iff, decide_eq_true_iff, decide_eq_true_iff]
  rfl

/-- The decoder resolves exactly the codes that have a string, to that string (R269, R271, R272). -/
theorem LzwDec.resolve_eq_some {d : LzwDec} (hd : DictOk d.dict d.next.toNat) (hn : 258 ≤ d.next.toNat) (c : Nat)
    (l : List Byte) : d.resolve c = some l ↔ d.Resolves c l := by
  have pre := hd.pre_lt
  have back : ∀ {c m}, d.stringOf c = some m → Stands d.entryAt d.next.toNat c m := by
    intro c m h
    obtain ⟨m', h1, h2⟩ := stands_of_stringFrom h
    rw [h2, List.append_nil]
    exact h1
  have forth : ∀ {c m}, Stands d.entryAt d.next.toNat c m → d.stringOf c = some m := by
    intro c m h
    have := stringFrom_of_stands pre h (Nat.lt_succ_self c) []
    rw [List.append_nil] at this
    exact this
  unfold LzwDec.resolve
  by_cases hk : d.knows c = true
  · rw [if_pos hk]
    constructor
    · exact fun h => .inl (back h)
    · rintro (h | ⟨rfl, -⟩)
      · exact forth h
      · rw [LzwDec.knows_iff] at hk
        omega
  · rw [if_neg hk]
    have hk' := fun h => hk ((LzwDec.knows_iff d c).2 h)
    by_cases hs : c = d.next.toNat ∧ d.prevV = true
    · rw [if_pos hs]
      constructor
      · intro h
        split at h
        · rename_i b bs hb
          cases h
          exact .inr ⟨hs.1, hs.2, b, bs, back hb, rfl⟩
        · cases h
      · rintro (h | ⟨-, -, b, m, h, rfl⟩)
        · exact absurd h.code_lt hk'
        · rw [forth h]
    · rw [if_neg hs]
      constructor
      · exact fun h => nomatch h
      · rintro (h | ⟨h1, h2, -⟩)
        · exact absurd h.code_lt hk'
        · exact absurd ⟨h1, h2⟩ hs

theorem LzwDec.Resolves.code {d : LzwDec} {c : Nat} {l : List Byte} (h : d.Resolves c l) :
    c ≤ 255 ∨ (258 ≤ c ∧ c < d.next.toNat) ∨ (c = d.next.toNat ∧ d.prevV = true) := by
  obtain h | ⟨h1, h2, -⟩ := h
  · exact h.code_lt.imp id .inl
  · exact .inr (.inr ⟨h1, h2⟩)

theorem LzwDec.resolve_code {d : LzwDec} {c : Nat} {l : List Byte} (h : d.resolve c = some l) :
    c ≤ 255 ∨ (258 ≤ c ∧ c < d.next.toNat) ∨ (c = d.next.toNat ∧ d.prevV = true) := by
  unfold LzwDec.resolve at h
  split at h
  · rename_i hk
    rw [LzwDec.knows_iff] at hk
    exact hk.imp id .inl
  · split at h
    · rename_i hs
      exact .inr (.inr hs)
    · cases h

/-! ### The decoder's operations -/

theorem resolveCode_run (c : Nat) (s : State) :
    resolveCode c s = match s.lzwD.resolve c with | some l => .ok l s | none => .error .corruptStream s := by
  unfold resolveCode
  rw [Cmd.get_bind_run]
  cases s.lzwD.resolve c <;> rfl

theorem insertEntry_run (l : List Byte) (s : State) :
    insertEntry l s =
      if s.lzwD.prevV = true then
        if s.lzwD.next.toNat = 4096 then .error .corruptStream s
        else .ok ⟨⟩ (s.setLzwD (s.lzwD.insert (l.headD 0)))
      else .ok ⟨⟩ s := by
  unfold insertEntry
  rw [Cmd.get_bind_run]
  split
  · rw [raiseIf_bind_run]
    rfl
  · rfl

theorem emitBytes_writes {s : State} (l : List Byte) (hr : s.Room (8 * l.length)) :
    ∃ t, emitBytes l s = .ok ⟨⟩ t ∧ Writes (bytesBits l) s t := by
  induction l generalizing s with
  | nil => exact ⟨s, rfl, Writes.refl s⟩
  | cons b bs ih =>
    rw [List.length_cons] at hr
    obtain ⟨t, ht, hw⟩ := emitByte_writes b (hr.le (by omega))
    obtain ⟨u, hu, hv⟩ := ih (hw.room (n := 8 * bs.length) (by rw [length_byteBits]; exact hr.le (by omega)))
    exact ⟨u, by unfold emitBytes at hu ⊢; rw [forEach_cons, Cmd.bind_of_ok ht, hu], hw.trans hv⟩

theorem decWidth_le (fixed12 : Bool) (d : LzwDec) : decWidth fixed12 d ≤ 12 := by
  unfold decWidth
  split
  · exact Nat.le_refl _
  · exact (widthFor_le _).2

theorem readCode_run (s : State) :
    readCode s =
      .ok (bitsValue (s.inBits (decWidth s.ctrl.lzwFixed12 s.lzwD)))
        (s.afterRead (decWidth s.ctrl.lzwFixed12 s.lzwD)) := by
  unfold readCode
  rw [Cmd.get_bind_run, Cmd.bind_of_ok (readBits_run _ _), Cmd.pure_run]
  congr 1
  rw [BitVec.toNat_ofNat]
  apply Nat.mod_eq_of_lt
  have h1 := bitsValue_lt (s.inBits (decWidth s.ctrl.lzwFixed12 s.lzwD))
  rw [State.length_inBits] at h1
  have h2 : 2 ^ decWidth s.ctrl.lzwFixed12 s.lzwD ≤ 2 ^ 12 :=
    Nat.pow_le_pow_right (by decide) (decWidth_le _ _)
  omega

theorem LzwDec.Sound.started (d : LzwDec) : d.started.Sound where
  next := firstCode_range
  prev := fun h => Bool.noConfusion h

theorem LzwDec.Sound.clear (d : LzwDec) : d.clear.Sound where
  next := firstCode_range
  prev := fun h => Bool.noConfusion h

theorem LzwDec.Sound.insert {d : LzwDec} (h : d.Sound) (hn : d.next.toNat ≠ 4096) (b : Byte) : (d.insert b).Sound := by
  obtain ⟨h1, h2⟩ := h.next
  have hs := toNat_succ_next (n := d.next) (by omega)
  refine ⟨?_, fun hp => ?_⟩
  · show 258 ≤ (d.next + 1).toNat ∧ (d.next + 1).toNat ≤ 4096
    rw [hs]
    omega
  · show StringCode (d.next + 1).toNat _
    rw [hs]
    exact (h.prev hp).mono (Nat.le_succ _)

theorem DictOk.insert {d : LzwDec} (h : d.Sound) (hd : DictOk d.dict d.next.toNat) (hp : d.prevV = true)
    (hn : d.next.toNat ≠ 4096) (b : Byte) : DictOk (d.insert b).dict (d.insert b).next.toNat := by
  have h2 := h.next.2
  show DictOk (d.dict.put d.next.toNat _) (d.next + 1).toNat
  rw [toNat_succ_next (by omega)]
  exact hd.put (h.prev hp)

/-! ### The unit after a whole-buffer command (R56) -/

theorem freeNextCode_range (v : BitVec 13) : 258 ≤ (freeNextCode v).toNat ∧ (freeNextCode v).toNat ≤ 4096 := by
  unfold freeNextCode
  rw [BitVec.toNat_ofNat]
  omega

theorem freeCodeBelow_stringCode {next : Nat} (p : Nat) (h1 : 258 ≤ next) (h2 : next ≤ 4096) :
    StringCode next (BitVec.ofNat 12 (freeCodeBelow next p)).toNat := by
  have h := Nat.mod_lt p (show next > 0 by omega)
  unfold freeCodeBelow
  rw [BitVec.toNat_ofNat]
  split
  · rw [Nat.mod_eq_of_lt (by omega)]
    exact ⟨by omega, by omega, by omega⟩
  · rw [Nat.mod_eq_of_lt (by omega)]
    exact ⟨by omega, by omega, by omega⟩

theorem LzwEnc.Sound.discarded (draw : Nat) : (LzwEnc.discarded draw).Sound where
  dict := Store.wf_any draw
  next := freeNextCode_range _
  width := encWidth_or _ _
  pat := fun h => by
    have hp : decide (Config.freeValue .encPatV draw 0 1 = 1) = true := h
    show StringCode _ (freePattern _ (decide (Config.freeValue .encPatV draw 0 1 = 1)) _).toNat
    rw [hp]
    exact freeCodeBelow_stringCode _ (freeNextCode_range _).1 (freeNextCode_range _).2

theorem LzwDec.discarded_next (draw : Nat) :
    258 ≤ (LzwDec.discarded draw).next.toNat ∧ (LzwDec.discarded draw).next.toNat ≤ 4096 := freeNextCode_range _

end Sys2Proof.Machine
end

