-- ==== Sys2Proof/Laws/Container.lean ====
section
/-! SUPPORT. Writing and reading a container from its start: pseudocode that only appends bits, flushed parts, the end of a
whole-buffer command, and the input as the reader sees it from offset 0 (R100, R168, R182). -/

namespace Sys2Proof.Machine

/-! ### Pseudocode that only appends bits -/

/-- From every state whose OBUF takes them, `c` ends normally and has appended the bits `l`. -/
def Emits (c : Cmd Unit) (l : List Bool) : Prop := ∀ s : State, s.Room l.length → ∃ t, c s = .ok ⟨⟩ t ∧ Writes l s t

theorem emits_pure : Emits (pure ()) [] := fun s _ => ⟨s, rfl, Writes.refl s⟩

theorem Emits.bind {c : Cmd Unit} {f : Unit → Cmd Unit} {l m : List Bool} (hc : Emits c l) (hf : Emits (f ()) m) :
    Emits (c >>= f) (l ++ m) := by
  intro s hr
  rw [List.length_append] at hr
  obtain ⟨t, ht, hw⟩ := hc s (hr.le (Nat.le_add_right _ _))
  obtain ⟨u, hu, hv⟩ := hf t (hw.room hr)
  exact ⟨u, by rw [Cmd.bind_of_ok ht, hu], hw.trans hv⟩

theorem emits_writeBits (v : Word) (n : Nat) : Emits (writeBits v n) (wordBits v n) := fun s hr =>
  writeBits_writes v n (by rw [length_wordBits] at hr; exact hr)

theorem emits_emitByte (b : Byte) : Emits (emitByte b) (byteBits b) := emits_writeBits _ _

theorem emits_writeBitString (l : List Bool) : Emits (writeBitString l) l := fun _ hr => writeBitString_writes l hr

theorem emits_forEach {α : Type} {body : α → Cmd Unit} {f : α → List Bool} (h : ∀ x, Emits (body x) (f x)) :
    (l : List α) → Emits (forEach l body) (l.flatMap f)
  | [] => emits_pure
  | x :: xs => (h x).bind (emits_forEach h xs)

theorem emits_emitBytes (l : List Byte) : Emits (emitBytes l) (bytesBits l) := emits_forEach emits_emitByte l

theorem emits_serTree (T : HTree) : Emits (serTree T) (treeBits T) := fun _ hr => serTree_writes T hr

/-! ### Flushed parts -/

theorem length_zeroPad (l : List Bool) : (zeroPad l).length = l.length + (8 - l.length % 8) % 8 := by
  unfold zeroPad
  rw [List.length_append, List.length_replicate]

theorem length_zeroPad_mod (l : List Bool) : (zeroPad l).length % 8 = 0 := by
  rw [length_zeroPad]
  omega

/-- Bits written from a byte boundary, then flushed (R182). -/
theorem flush_writes {s t : State} {l : List Bool} (h0 : s.writer.nbits = 0) (hw : Writes l s t)
    (hr : s.Room (zeroPad l).length) : ∃ u, flushBits t = .ok ⟨⟩ u ∧ Writes (zeroPad l) s u ∧ u.writer.nbits = 0 := by
  have hn := hw.nbits
  rw [h0] at hn
  have hp : padLength t = (8 - l.length % 8) % 8 := by
    unfold padLength
    rw [hn]
    show (8 - (0 + l.length) % 8) % 8 = _
    rw [Nat.zero_add]
  rw [length_zeroPad] at hr
  obtain ⟨u, hu, hv, hz, -⟩ := flushBits_writes (s := t) (by rw [hp]; exact hw.room hr)
  refine ⟨u, hu, ?_, hz⟩
  rw [hp] at hv
  exact hw.trans hv

theorem Writes.aligned {l : List Bool} {s t : State} (h : Writes l s t) (h0 : s.writer.nbits = 0)
    (hl : l.length % 8 = 0) : t.writer.nbits = 0 := by
  apply BitVec.eq_of_toNat_eq
  rw [h.nbits, h0]
  show (0 + l.length) % 8 = 0
  rw [Nat.zero_add, hl]

/-! ### The whole output -/

theorem startWriter_room {s : State} {n : Nat} (h : s.Holds n) : (startWriter s).Room n := by
  refine ⟨h.1, ?_⟩
  show 0 + (0 + n) / 8 ≤ _
  rw [Nat.zero_add, Nat.zero_add]
  exact h.2

theorem outBits_startWriter (s : State) : (startWriter s).outBits = [] := rfl

/-- The bytes of the output are the bits written from the start, once they fill bytes. -/
theorem Writes.outBytes {l : List Bool} {s t : State} (h : Writes l s t) (h0 : s.outBits = [])
    (hn : t.writer.nbits = 0) : bytesBits t.outBytes = l := by
  have := h.bits
  rw [h0, List.nil_append] at this
  rw [← this]
  unfold State.outBits Writer.held
  rw [hn]
  exact (List.append_nil _).symm

/-- The bits of a byte list determine it. -/
theorem bytesBits_inj : {l m : List Byte} → bytesBits l = bytesBits m → l = m
  | [], [], _ => rfl
  | [], b :: bs, h => by
    have := congrArg List.length h
    rw [length_bytesBits, length_bytesBits] at this
    simp at this
  | b :: bs, [], h => by
    have := congrArg List.length h
    rw [length_bytesBits, length_bytesBits] at this
    simp at this
  | b :: bs, c :: cs, h => by
    obtain ⟨h1, h2⟩ := List.append_inj (show byteBits b ++ bytesBits bs = byteBits c ++ bytesBits cs from h)
      (by rw [length_byteBits, length_byteBits])
    have hv := congrArg bitsValue h1
    rw [bitsValue_byteBits, bitsValue_byteBits] at hv
    rw [BitVec.eq_of_toNat_eq hv, bytesBits_inj h2]

/-- The end of a successful whole-buffer command on a state reached from `s` by output, unit state, STATUS and the
container registers alone. -/
theorem callEnds_of {s t : State}
    (hf : t =
      { s with
        status := t.status, ext := t.ext, origSize := t.origSize, valid := t.valid
        writer := t.writer, reader := t.reader, huf := t.huf, lzwE := t.lzwE, lzwD := t.lzwD, ari := t.ari
        obuf := t.obuf, draws := t.draws })
    (hn : t.writer.nbits = 0) (ho : ∀ a, t.writer.outLen.toNat ≤ a → t.obufByte a = s.obufByte a) :
    CallEnds s (endCall t) where
  frame := by
    rw [hf]
    rfl
  flushed := hn
  others := ho

/-! ### The whole input -/

theorem getElem_bytesBits (l : List Byte) (i : Nat) (h : i < (bytesBits l).length) :
    (bytesBits l)[i] = streamBit (l[i / 8]'(by rw [length_bytesBits] at h; omega)) (i % 8) := by
  induction l generalizing i with
  | nil => simp [bytesBits] at h
  | cons b bs ih =>
    have hc : bytesBits (b :: bs) = byteBits b ++ bytesBits bs := rfl
    by_cases h8 : i < 8
    · have hi : i / 8 = 0 := by omega
      have hm : i % 8 = i := by omega
      simp only [hc]
      rw [List.getElem_append_left (by rw [length_byteBits]; exact h8)]
      unfold byteBits
      rw [getElem_wordBits, getLsbD_byteWord]
      unfold streamBit
      congr 1
      · simp [hi]
      · omega
    · simp only [hc]
      have hi : i / 8 = (i - 8) / 8 + 1 := by omega
      rw [List.getElem_append_right (by rw [length_byteBits]; omega)]
      rw [ih]
      simp only [length_byteBits]
      congr 1
      · simp [hi]
      · omega

/-- The input's bit at a position, as the reader sees it while its end is at or beyond the position's byte. -/
theorem inBit_input {s : State} {p : Nat} (h : p < s.inputBits.length) (hf : p / 8 < s.reader.fin.toNat) :
    s.inBit p = s.inputBits[p] := by
  have hlen : s.input.length = s.inLen.toNat := by simp [State.input, State.ibufBytes]
  unfold State.inputBits at h ⊢
  rw [getElem_bytesBits]
  unfold State.inBit
  rw [decide_eq_true hf, Bool.true_and]
  congr 1
  simp [State.input, State.ibufBytes]

theorem getElem_inBits (s : State) (n i : Nat) (h : i < (s.inBits n).length) :
    (s.inBits n)[i] = s.inBit (s.inPos + i) := by simp [State.inBits]

/-- The next bits of the reader, where it stands inside the input and its end does not cut them. -/
theorem inBits_input {s : State} {n : Nat} (h : s.inPos + n ≤ s.inputBits.length)
    (hf : s.inPos + n ≤ 8 * s.reader.fin.toNat) : s.inBits n = (s.inputBits.drop s.inPos).take n := by
  apply List.ext_getElem
  · rw [State.length_inBits, List.length_take, List.length_drop]
    omega
  · intro i h1 h2
    rw [State.length_inBits] at h1
    rw [List.getElem_take, List.getElem_drop, getElem_inBits]
    exact inBit_input (by omega) (by omega)

end Sys2Proof.Machine
end

