-- ==== Sys2Proof/Laws/HuffmanTree.lean ====
section
/-! SUPPORT. The tree builder: BuildTree on the node store grows the tree that R212 describes on trees. -/

namespace Sys2Proof.Machine

/-! ### The least live node (R212) -/

/-- `(WT, index)` in lexicographic order. -/
def LiveNode.Before (a b : LiveNode) : Prop := a.wt.toNat < b.wt.toNat ∨ (a.wt.toNat = b.wt.toNat ∧ a.idx ≤ b.idx)

theorem LiveNode.before_iff (a b : LiveNode) :
    a.before b = true ↔ a.wt.toNat < b.wt.toNat ∨ (a.wt.toNat = b.wt.toNat ∧ a.idx < b.idx) := by
  unfold LiveNode.before
  rw [Bool.or_eq_true, Bool.and_eq_true, decide_eq_true_iff, decide_eq_true_iff, decide_eq_true_iff, BitVec.toNat_inj]

theorem LiveNode.Before.trans {a b c : LiveNode} (h : a.Before b) (g : b.Before c) : a.Before c := by
  unfold LiveNode.Before at *
  omega

theorem leastFrom_spec (a : LiveNode) (l : List LiveNode) :
    leastFrom a l ∈ a :: l ∧ ∀ b ∈ a :: l, (leastFrom a l).Before b := by
  induction l generalizing a with
  | nil => exact ⟨List.mem_singleton.2 rfl, fun b hb => by rw [List.mem_singleton.1 hb]; exact .inr ⟨rfl, Nat.le_refl _⟩⟩
  | cons c rest ih =>
    unfold leastFrom
    by_cases hc : c.before a = true
    · rw [if_pos hc]
      obtain ⟨h1, h2⟩ := ih c
      have hca : c.Before a := ((LiveNode.before_iff c a).1 hc).imp id fun h => ⟨h.1, Nat.le_of_lt h.2⟩
      refine ⟨List.mem_cons_of_mem _ h1, fun b hb => ?_⟩
      obtain rfl | hb := List.mem_cons.1 hb
      · exact (h2 c (List.mem_cons_self ..)).trans hca
      · exact h2 b hb
    · rw [if_neg hc]
      obtain ⟨h1, h2⟩ := ih a
      have hac : a.Before c := by
        have : ¬ (c.wt.toNat < a.wt.toNat ∨ (c.wt.toNat = a.wt.toNat ∧ c.idx < a.idx)) :=
          fun h => hc ((LiveNode.before_iff c a).2 h)
        unfold LiveNode.Before
        omega
      refine ⟨?_, fun b hb => ?_⟩
      · obtain h | h := List.mem_cons.1 h1
        · rw [h]
          exact List.mem_cons_self ..
        · exact List.mem_cons_of_mem _ (List.mem_cons_of_mem _ h)
      · obtain rfl | hb := List.mem_cons.1 hb
        · exact h2 _ (List.mem_cons_self ..)
        · obtain rfl | hb := List.mem_cons.1 hb
          · exact (h2 a (List.mem_cons_self ..)).trans hac
          · exact h2 b (List.mem_cons_of_mem _ hb)

/-! ### Live nodes and the trees they stand for -/

/-- The live node of a sprout. -/
def Sprout.node (a : Sprout) : LiveNode := { wt := BitVec.ofNat 32 a.weight, idx := a.rank }

theorem Sprout.node_before {a b : Sprout} (ha : a.weight < 2 ^ 32) (hb : b.weight < 2 ^ 32) :
    a.node.Before b.node ↔ a.before b := by
  unfold LiveNode.Before Sprout.before Sprout.node
  rw [BitVec.toNat_ofNat, BitVec.toNat_ofNat, Nat.mod_eq_of_lt ha, Nat.mod_eq_of_lt hb]

theorem Sprout.eq_of_rank {S : List Sprout} (hn : (S.map Sprout.rank).Nodup) {a b : Sprout} (ha : a ∈ S) (hb : b ∈ S)
    (h : a.rank = b.rank) : a = b := List.inj_on_of_nodup_map hn ha hb h

theorem Sprout.node_inj {S : List Sprout} (hn : (S.map Sprout.rank).Nodup) {a b : Sprout} (ha : a ∈ S) (hb : b ∈ S)
    (h : a.node = b.node) : a = b := Sprout.eq_of_rank hn ha hb (congrArg LiveNode.idx h)

theorem map_erase_node {S : List Sprout} (hn : (S.map Sprout.rank).Nodup) {a : Sprout} (ha : a ∈ S) :
    (S.map Sprout.node).erase a.node = (S.erase a).map Sprout.node := by
  induction S with
  | nil => cases ha
  | cons b rest ih =>
    by_cases h : b = a
    · rw [h, List.map_cons, List.erase_cons_head, List.erase_cons_head]
    · have h' : ¬ b.node = a.node := fun h' => h (Sprout.node_inj hn (List.mem_cons_self ..) ha h')
      have hne : (b.node == a.node) = false := by simpa using h'
      have hne' : (b == a) = false := by simpa using h
      have hmem : a ∈ rest := (List.mem_cons.1 ha).resolve_left fun e => h e.symm
      rw [List.map_cons, List.erase_cons, List.erase_cons, hne, hne']
      rw [if_neg (by decide), if_neg (by decide), List.map_cons, ih (List.nodup_cons.1 hn).2 hmem]

theorem weight_le_sum {S : List Sprout} {a : Sprout} (ha : a ∈ S) : a.weight ≤ (S.map Sprout.weight).sum :=
  List.single_le_sum (fun _ _ => Nat.zero_le _) _ (List.mem_map_of_mem ha)

/-- Removing the least live node is removing the least sprout. -/
theorem takeLeast_sprouts {S : List Sprout} (hn : (S.map Sprout.rank).Nodup)
    (hw : (S.map Sprout.weight).sum < 2 ^ 32) (hne : S ≠ []) :
    ∃ a, a.leastOf S ∧ takeLeast (S.map Sprout.node) = some (a.node, (S.erase a).map Sprout.node) := by
  cases S with
  | nil => exact absurd rfl hne
  | cons c rest =>
    obtain ⟨h1, h2⟩ := leastFrom_spec c.node (rest.map Sprout.node)
    rw [← List.map_cons] at h1 h2
    obtain ⟨a, ha, hae⟩ := List.mem_map.1 h1
    refine ⟨a, ⟨ha, fun b hb => ?_⟩, ?_⟩
    · rw [← Sprout.node_before (Nat.lt_of_le_of_lt (weight_le_sum ha) hw)
        (Nat.lt_of_le_of_lt (weight_le_sum hb) hw), hae]
      exact h2 _ (List.mem_map_of_mem hb)
    · unfold takeLeast
      rw [List.map_cons]
      dsimp only
      rw [← List.map_cons, ← hae, map_erase_node hn ha]

theorem sum_erase_weight {S : List Sprout} {a : Sprout} (ha : a ∈ S) :
    (S.map Sprout.weight).sum = a.weight + ((S.erase a).map Sprout.weight).sum := by
  have := (List.perm_cons_erase ha).map Sprout.weight
  rw [this.sum_eq, List.map_cons, List.sum_cons]

/-! ### What grows (R212) -/

/-- The leaves of the tree are those of the trees it is grown from. -/
theorem Grown.leaves {k : Nat} {S : List Sprout} {T : HTree} (h : Grown k S T) :
    T.leaves.Perm (S.flatMap fun a => a.tree.leaves) := by
  induction h with
  | single k a => simp
  | @combine k S a b T ha hb _ ih =>
    refine ih.trans ?_
    have p1 := List.perm_cons_erase ha.1
    have p2 := List.perm_cons_erase hb.1
    have p : S.Perm (a :: b :: (S.erase a).erase b) := p1.trans (p2.cons a)
    refine List.Perm.trans ?_ (List.Perm.flatMap_right _ p.symm)
    rw [List.flatMap_cons, List.flatMap_cons, List.flatMap_cons]
    show ((a.tree.leaves ++ b.tree.leaves) ++ _).Perm _
    rw [List.append_assoc]

/-- The store's node after an internal node is put. -/
theorem Huffman.nodeAt_putInternal (h : Huffman) (i a b j : Nat) (wt : Word) :
    (h.putInternal i a b wt).nodeAt j =
      if i = j then .internal (BitVec.ofNat 9 a) (BitVec.ofNat 9 b) else h.nodeAt j := Store.read_put _ _ _ _ _

/-- BuildTree's loop grows a tree from the sprouts that the live nodes stand for (R212). -/
theorem combineNodes_grows (rounds : Nat) {S : List Sprout} {k : Nat} {h : Huffman} (hlen : S.length = rounds + 1)
    (hn : (S.map Sprout.rank).Nodup) (hr : ∀ a ∈ S, a.rank < k) (hk : k + rounds ≤ 511)
    (hw : (S.map Sprout.weight).sum < 2 ^ 32) (hlast : ∃ a ∈ S, a.rank = k - 1)
    (hroot : ∀ a ∈ S, ∀ f, (∀ j, j < k → f j = h.nodeAt j) → Rooted f a.rank a.tree) :
    ∃ T, Grown k S T ∧ Rooted (combineNodes rounds (S.map Sprout.node) k h).nodeAt (k + rounds - 1) T ∧
      (combineNodes rounds (S.map Sprout.node) k h).nodeCnt.toNat = k + rounds ∧
      (combineNodes rounds (S.map Sprout.node) k h).root.toNat = k + rounds - 1 ∧
      combineNodes rounds (S.map Sprout.node) k h =
        { h with
          node := (combineNodes rounds (S.map Sprout.node) k h).node
          nodeWt := (combineNodes rounds (S.map Sprout.node) k h).nodeWt
          nodeCnt := (combineNodes rounds (S.map Sprout.node) k h).nodeCnt
          root := (combineNodes rounds (S.map Sprout.node) k h).root } := by
  induction rounds generalizing S k h with
  | zero =>
    obtain ⟨a, rfl⟩ := List.length_eq_one_iff.1 hlen
    obtain ⟨b, hb, hbk⟩ := hlast
    rw [List.mem_singleton.1 hb] at hbk
    refine ⟨a.tree, .single k a, ?_, ?_, ?_, rfl⟩
    · rw [Nat.add_zero, ← hbk]
      exact hroot a (List.mem_singleton.2 rfl) _ fun j _ => rfl
    · show (BitVec.ofNat 10 k).toNat = k
      rw [BitVec.toNat_ofNat]
      exact Nat.mod_eq_of_lt (by omega)
    · show (BitVec.ofNat 9 (k - 1)).toNat = k - 1
      rw [BitVec.toNat_ofNat]
      exact Nat.mod_eq_of_lt (by omega)
  | succ rounds ih =>
    obtain ⟨a, ha, hta⟩ := takeLeast_sprouts hn hw (by intro h; rw [h] at hlen; cases hlen)
    have hlen1 : (S.erase a).length = rounds + 1 := by rw [List.length_erase_of_mem ha.1, hlen]; rfl
    have hsub1 : (S.erase a).Sublist S := List.erase_sublist
    have hn1 : ((S.erase a).map Sprout.rank).Nodup := hn.sublist (hsub1.map _)
    have hs1 := sum_erase_weight ha.1
    obtain ⟨b, hb, htb⟩ := takeLeast_sprouts hn1 (by omega) (by intro h; rw [h] at hlen1; cases hlen1)
    have hsub2 : ((S.erase a).erase b).Sublist (S.erase a) := List.erase_sublist
    have hs2 := sum_erase_weight hb.1
    have hbS : b ∈ S := hsub1.subset hb.1
    have hrest : ∀ c ∈ (S.erase a).erase b, c ∈ S := fun c hc => hsub1.subset (hsub2.subset hc)
    have hra := hr a ha.1
    have hrb := hr b hbS
    have step : combineNodes (rounds + 1) (S.map Sprout.node) k h =
        combineNodes rounds
          ((({ weight := a.weight + b.weight, rank := k, tree := .internal a.tree b.tree } : Sprout) ::
            (S.erase a).erase b).map Sprout.node) (k + 1)
          (h.putInternal k a.rank b.rank (a.node.wt + b.node.wt)) := by
      conv_lhs => unfold combineNodes
      rw [hta]
      dsimp only
      rw [htb]
      dsimp only
      rw [List.map_cons]
      congr 2
      unfold Sprout.node
      rw [BitVec.ofNat_add]
    obtain ⟨T, h1, h2, h3, h4, h5⟩ := ih
      (S := { weight := a.weight + b.weight, rank := k, tree := .internal a.tree b.tree } :: (S.erase a).erase b)
      (k := k + 1) (h := h.putInternal k a.rank b.rank (a.node.wt + b.node.wt))
      (by rw [List.length_cons, List.length_erase_of_mem hb.1, hlen1]; rfl)
      (by
        rw [List.map_cons, List.nodup_cons]
        refine ⟨fun hk' => ?_, hn1.sublist (hsub2.map _)⟩
        obtain ⟨c, hc, hck⟩ := List.mem_map.1 hk'
        have hck' : c.rank = k := hck
        have := hr c (hrest c hc)
        omega)
      (by
        intro c hc
        obtain rfl | hc := List.mem_cons.1 hc
        · show k < k + 1
          omega
        · have := hr c (hrest c hc)
          show c.rank < k + 1
          omega)
      (by omega)
      (by
        rw [List.map_cons, List.sum_cons]
        show a.weight + b.weight + _ < _
        omega)
      ⟨_, List.mem_cons_self .., rfl⟩
      (by
        intro c hc f hf
        have hold : ∀ j, j < k → f j = h.nodeAt j := by
          intro j hj
          rw [hf j (by omega), Huffman.nodeAt_putInternal, if_neg (by omega)]
        obtain rfl | hc := List.mem_cons.1 hc
        · refine .internal (l := BitVec.ofNat 9 a.rank) (r := BitVec.ofNat 9 b.rank) ?_ ?_ ?_
          · rw [hf k (Nat.lt_succ_self k), Huffman.nodeAt_putInternal, if_pos rfl]
          · rw [BitVec.toNat_ofNat, Nat.mod_eq_of_lt (by omega)]
            exact hroot a ha.1 f hold
          · rw [BitVec.toNat_ofNat, Nat.mod_eq_of_lt (by omega)]
            exact hroot b hbS f hold
        · exact hroot c (hrest c hc) f hold)
    rw [← step] at h2 h3 h4 h5
    have e : k + 1 + rounds = k + (rounds + 1) := by omega
    rw [e] at h2 h3 h4
    refine ⟨T, .combine ha hb h1, h2, h3, h4, h5.trans ?_⟩
    rfl

/-! ### The leaves BuildTree starts from (R212) -/

theorem putLeaves_nodeAt (h : Huffman) (k : Nat) (l : List Nat) (j : Nat) :
    (putLeaves h k l).nodeAt j =
      if k ≤ j then (match l[j - k]? with | some sym => .leaf (BitVec.ofNat 8 sym) | none => h.nodeAt j)
      else h.nodeAt j := by
  induction l generalizing h k with
  | nil => simp [putLeaves]
  | cons sym rest ih =>
    unfold putLeaves
    rw [ih]
    have hput : ∀ i, (h.putLeaf k sym).nodeAt i = if k = i then .leaf (BitVec.ofNat 8 sym) else h.nodeAt i :=
      fun i => Store.read_put _ _ _ _ _
    by_cases h1 : k ≤ j
    · rw [if_pos h1]
      by_cases h2 : k = j
      · subst h2
        rw [if_neg (by omega), hput, if_pos rfl, Nat.sub_self]
        rfl
      · rw [if_pos (by omega), hput, if_neg h2]
        obtain ⟨m, hm⟩ : ∃ m, j - k = m + 1 := ⟨j - k - 1, by omega⟩
        rw [hm, show j - (k + 1) = m by omega, List.getElem?_cons_succ]
    · rw [if_neg (by omega), if_neg h1, hput, if_neg (by omega)]

theorem putLeaves_frame (h : Huffman) (k : Nat) (l : List Nat) :
    putLeaves h k l = { h with node := (putLeaves h k l).node, nodeWt := (putLeaves h k l).nodeWt } := by
  induction l generalizing h k with
  | nil => rfl
  | cons sym rest ih =>
    unfold putLeaves
    conv_lhs => rw [ih]
    rfl

theorem liveLeaves_eq (h : Huffman) (count : Nat → Nat) (l : List Nat) (hl : ∀ i ∈ l, (h.freqAt i).toNat = count i)
    (k : Nat) :
    liveLeaves h k l =
      (l.zipIdx k).map fun p => ({ weight := count p.1, rank := p.2, tree := .leaf (BitVec.ofNat 8 p.1) } : Sprout).node := by
  induction l generalizing k with
  | nil => rfl
  | cons sym rest ih =>
    unfold liveLeaves
    rw [ih (fun i hi => hl i (List.mem_cons_of_mem _ hi)), List.zipIdx_cons, List.map_cons]
    congr 1
    unfold Sprout.node
    rw [← hl sym (List.mem_cons_self ..), BitVec.ofNat_toNat, BitVec.setWidth_eq]

theorem symbols_eq {h : Huffman} {count : Nat → Nat} (hc : ∀ i, i < 256 → (h.freqAt i).toNat = count i) :
    h.symbols = observedSymbols count := by
  unfold Huffman.symbols observedSymbols
  apply List.filter_congr
  intro i hi
  rw [decide_eq_decide, ← hc i (List.mem_range.1 hi)]
  constructor
  · exact fun h1 h2 => h1 (BitVec.eq_of_toNat_eq h2)
  · intro h1 h2
    rw [h2] at h1
    exact h1 rfl

theorem observedSymbols_lt {count : Nat → Nat} {i : Nat} (h : i ∈ observedSymbols count) : i < 256 :=
  List.mem_range.1 (List.mem_filter.1 h).1

theorem length_observedSymbols (count : Nat → Nat) : (observedSymbols count).length ≤ 256 := by
  refine Nat.le_trans (List.length_filter_le _ _) ?_
  rw [List.length_range]

theorem sum_observedSymbols (count : Nat → Nat) :
    ((observedSymbols count).map count).sum = ((List.range 256).map count).sum := by
  unfold observedSymbols
  generalize List.range 256 = l
  induction l with
  | nil => rfl
  | cons i rest ih =>
    by_cases h : count i = 0
    · rw [List.filter_cons_of_neg (by simpa using h), ih, List.map_cons, List.sum_cons, h, Nat.zero_add]
    · rw [List.filter_cons_of_pos (by simpa using h), List.map_cons, List.sum_cons, ih, List.map_cons, List.sum_cons]

theorem sprouts_weight (count : Nat → Nat) :
    ((sprouts count).map Sprout.weight).sum = ((List.range 256).map count).sum := by
  rw [← sum_observedSymbols]
  unfold sprouts
  rw [List.map_map]
  have : (Sprout.weight ∘ fun p : Nat × Nat =>
      ({ weight := count p.1, rank := p.2, tree := .leaf (BitVec.ofNat 8 p.1) } : Sprout)) = count ∘ Prod.fst := rfl
  rw [this, ← List.map_map, List.zipIdx_map_fst]

theorem sprouts_rank (count : Nat → Nat) :
    (sprouts count).map Sprout.rank = List.range' 0 (observedSymbols count).length := by
  unfold sprouts
  rw [List.map_map]
  have : (Sprout.rank ∘ fun p : Nat × Nat =>
      ({ weight := count p.1, rank := p.2, tree := .leaf (BitVec.ofNat 8 p.1) } : Sprout)) = Prod.snd := rfl
  rw [this, List.zipIdx_map_snd]

theorem sprouts_leaves (count : Nat → Nat) :
    ((sprouts count).flatMap fun a => a.tree.leaves) = (observedSymbols count).map (BitVec.ofNat 8) := by
  unfold sprouts
  rw [List.flatMap_map]
  have : (fun p : Nat × Nat => ({ weight := count p.1, rank := p.2, tree := .leaf (BitVec.ofNat 8 p.1) } : Sprout).tree.leaves) =
      fun p => [BitVec.ofNat 8 p.1] := rfl
  rw [this]
  have key : ∀ (l : List Nat) (k : Nat), ((l.zipIdx k).flatMap fun p => [BitVec.ofNat 8 p.1]) = l.map (BitVec.ofNat 8) := by
    intro l
    induction l with
    | nil => intro k; rfl
    | cons i rest ih => intro k; rw [List.zipIdx_cons, List.flatMap_cons, ih]; rfl
  exact key _ _

/-- The tree BuildTree makes has the observed symbols as its leaves, each once (R212). -/
theorem BuiltFrom.leaves {count : Nat → Nat} {T : HTree} (h : BuiltFrom count T) :
    T.leaves.Perm ((observedSymbols count).map (BitVec.ofNat 8)) := by
  have := Grown.leaves h
  rwa [sprouts_leaves] at this

theorem BuiltFrom.nodes {count : Nat → Nat} {T : HTree} (h : BuiltFrom count T) :
    T.nodes + 1 = 2 * (observedSymbols count).length := by
  rw [T.nodes_eq, h.leaves.length_eq, List.length_map]

/-- BuildTree on a table with at least one symbol (R212). -/
theorem Huffman.build_spec {h : Huffman} {count : Nat → Nat} (hc : ∀ i, i < 256 → (h.freqAt i).toNat = count i)
    (hw : ((List.range 256).map count).sum < 2 ^ 32) (hne : observedSymbols count ≠ []) :
    ∃ T, BuiltFrom count T ∧ h.build.tree = some T ∧
      h.build.nodeCnt.toNat = 2 * (observedSymbols count).length - 1 ∧
      h.build.root.toNat = 2 * (observedSymbols count).length - 2 ∧
      h.build =
        { h with
          node := h.build.node, nodeWt := h.build.nodeWt, nodeCnt := h.build.nodeCnt, root := h.build.root } := by
  have hpos : 0 < (observedSymbols count).length := List.length_pos_iff.2 hne
  have hle := length_observedSymbols count
  have hlen : (sprouts count).length = (observedSymbols count).length := by
    unfold sprouts
    rw [List.length_map, List.length_zipIdx]
  have hb : h.build =
      combineNodes ((observedSymbols count).length - 1) ((sprouts count).map Sprout.node)
        (observedSymbols count).length (putLeaves h 0 (observedSymbols count)) := by
    unfold Huffman.build
    rw [symbols_eq hc, liveLeaves_eq h count _ fun i hi => hc i (observedSymbols_lt hi)]
    unfold sprouts
    rw [List.map_map]
    rfl
  have hrank : ∀ a ∈ sprouts count, a.rank < (observedSymbols count).length := by
    intro a ha
    have : a.rank ∈ (sprouts count).map Sprout.rank := List.mem_map_of_mem ha
    rw [sprouts_rank, List.mem_range'_1] at this
    omega
  obtain ⟨T, h1, h2, h3, h4, h5⟩ := combineNodes_grows ((observedSymbols count).length - 1) (S := sprouts count)
    (k := (observedSymbols count).length) (h := putLeaves h 0 (observedSymbols count)) (by omega)
    (by rw [sprouts_rank]; exact List.nodup_range') hrank (by omega) (by rw [sprouts_weight]; exact hw)
    (by
      have : (observedSymbols count).length - 1 ∈ (sprouts count).map Sprout.rank := by
        rw [sprouts_rank, List.mem_range'_1]
        omega
      obtain ⟨a, ha, hr⟩ := List.mem_map.1 this
      exact ⟨a, ha, hr⟩)
    (by
      intro a ha f hf
      obtain ⟨p, hp, rfl⟩ := List.mem_map.1 ha
      have hp' := List.mem_zipIdx hp
      refine .leaf ?_
      show f p.2 = _
      rw [hf p.2 (by omega), putLeaves_nodeAt, if_pos (Nat.zero_le _)]
      have : (observedSymbols count)[p.2 - 0]? = some p.1 := by
        rw [Nat.sub_zero, List.getElem?_eq_getElem (by omega)]
        have := hp'.2.2
        simp only [Nat.sub_zero] at this
        rw [this]
      rw [this])
  rw [← hb] at h2 h3 h4 h5
  have hnodes := BuiltFrom.nodes h1
  refine ⟨T, h1, Huffman.tree_of_rooted ?_ (by omega), by omega, by omega, h5.trans ?_⟩
  · rw [h4]
    exact h2
  · conv_lhs => rw [putLeaves_frame]

/-! ### Counting (R210) -/

theorem occurrences_le (l : List Byte) (i : Nat) : occurrences l i ≤ l.length := List.countP_le_length

theorem occurrences_cons (b : Byte) (l : List Byte) (i : Nat) :
    occurrences (b :: l) i = occurrences l i + if b.toNat = i then 1 else 0 := by
  unfold occurrences
  rw [List.countP_cons]
  simp

/-- The counts of the byte values sum to the number of bytes. -/
theorem sum_occurrences (l : List Byte) : ((List.range 256).map (occurrences l)).sum = l.length := by
  induction l with
  | nil =>
    rw [List.sum_eq_zero]
    · rfl
    · intro x hx
      obtain ⟨i, -, rfl⟩ := List.mem_map.1 hx
      rfl
  | cons b bs ih =>
    have hone : ∀ n, ((List.range n).map fun i => if b.toNat = i then 1 else 0).sum = if b.toNat < n then 1 else 0 := by
      intro n
      induction n with
      | zero => rfl
      | succ n ihn =>
        rw [List.range_succ, List.map_append, List.sum_append, ihn, List.map_singleton, List.sum_singleton]
        split
        · rw [if_neg (by omega), if_pos (by omega)]
        · split
          · rw [if_pos (by omega)]
          · rw [if_neg (by omega)]
    have : (List.range 256).map (occurrences (b :: bs)) =
        (List.range 256).map fun i => occurrences bs i + if b.toNat = i then 1 else 0 :=
      List.map_congr_left fun i _ => occurrences_cons b bs i
    rw [this, List.sum_map_add, ih, hone, if_pos b.isLt, List.length_cons]

theorem countBytes_read (freq : Store Word) (l : List Byte) (i : Nat) :
    (countBytes freq l).read (unwrittenWord .freq) i =
      freq.read (unwrittenWord .freq) i + BitVec.ofNat 32 (occurrences l i) := by
  induction l generalizing freq with
  | nil => simp [countBytes, occurrences]
  | cons b bs ih =>
    unfold countBytes
    rw [ih, Store.read_put, occurrences_cons]
    by_cases h : b.toNat = i
    · rw [if_pos h, if_pos h, h, BitVec.ofNat_add, BitVec.add_assoc, BitVec.add_comm (BitVec.ofNat 32 (occurrences bs i))]
      rfl
    · rw [if_neg h, if_neg h, Nat.add_zero]

/-- HUF_FREQ's table (R210). -/
theorem fillFreq_freqAt (s : State) {i : Nat} (h : i < 256) :
    ((fillFreq s).huf.freqAt i).toNat = occurrences s.input i := by
  have hl : occurrences s.input i ≤ s.input.length := occurrences_le _ _
  have hlen : s.input.length = s.inLen.toNat := by simp [State.input, State.ibufBytes]
  have hlt := s.inLen.isLt
  have h0 : (s.huf.freq.fill 256 (0 : Word)).read (unwrittenWord .freq) i = 0 :=
    Store.read_of_written (by rw [Store.written_fill, if_pos h])
  show ((countBytes (s.huf.freq.fill 256 0) s.input).read (unwrittenWord .freq) i).toNat = _
  rw [countBytes_read, h0, show (0 : Word) = 0#32 from rfl, BitVec.zero_add, BitVec.toNat_ofNat]
  exact Nat.mod_eq_of_lt (by omega)

theorem length_input (s : State) : s.input.length = s.inLen.toNat := by simp [State.input, State.ibufBytes]

theorem observed_of_mem {l : List Byte} {a : Byte} (h : a ∈ l) : a.toNat ∈ observedSymbols (occurrences l) := by
  unfold observedSymbols
  rw [List.mem_filter, List.mem_range, decide_eq_true_iff]
  refine ⟨a.isLt, ?_⟩
  unfold occurrences
  exact Nat.ne_of_gt (List.countP_pos_iff.2 ⟨a, h, decide_eq_true rfl⟩)

end Sys2Proof.Machine
end

