-- ==== Sys2Proof/Laws/Arithmetic.lean ====
section
/-! SUPPORT. The arithmetic unit: the model of an occurrence table, the interval arithmetic between settled bounds, the
rescale loops on both sides, the lookup, and the table as it is written and read back. -/

namespace Sys2Proof.Machine

/-! ### The model (R310) -/

theorem modelCum_succ (occ : Nat → Nat) (i : Nat) : modelCum occ (i + 1) = modelCum occ i + modelCount occ i := by
  unfold modelCum
  rw [List.range_succ, List.map_append, List.sum_append, List.map_singleton, List.sum_singleton]

theorem modelCount_pos (occ : Nat → Nat) (i : Nat) : 1 ≤ modelCount occ i := by
  unfold modelCount
  split <;> omega

theorem modelCum_mono (occ : Nat → Nat) {i j : Nat} (h : i ≤ j) : modelCum occ i ≤ modelCum occ j := by
  induction j with
  | zero =>
    rw [Nat.le_zero.1 h]
  | succ j ih =>
    obtain rfl | h := Nat.eq_or_lt_of_le h
    · exact Nat.le_refl _
    · rw [modelCum_succ]
      exact Nat.le_trans (ih (by omega)) (Nat.le_add_right _ _)

theorem modelCum_lt (occ : Nat → Nat) {i j : Nat} (h : i < j) : modelCum occ i < modelCum occ j := by
  have h1 := modelCum_mono occ (show i + 1 ≤ j from h)
  have h2 := modelCount_pos occ i
  rw [modelCum_succ] at h1
  omega

theorem modelCum_bytes (occ : Nat → Nat) : (i : Nat) → i ≤ 256 → modelCum occ i = i + ((List.range i).map occ).sum
  | 0, _ => rfl
  | i + 1, h => by
    rw [modelCum_succ, modelCum_bytes occ i (by omega), List.range_succ, List.map_append, List.sum_append,
      List.map_singleton, List.sum_singleton]
    unfold modelCount
    rw [if_pos (by omega)]
    omega

/-- TOTAL is 257 more than the sum of the counts (R310). -/
theorem modelCum_total (occ : Nat → Nat) : modelCum occ 257 = 257 + ((List.range 256).map occ).sum := by
  rw [modelCum_succ, modelCum_bytes occ 256 (Nat.le_refl _)]
  show 256 + _ + 1 = _
  omega

theorem runningSums_getElem? (acc : Nat) (l : List Nat) (i : Nat) (h : i ≤ l.length) :
    (runningSums acc l)[i]? = some (acc + (l.take i).sum) := by
  induction l generalizing acc i with
  | nil =>
    have : i = 0 := by simpa using h
    subst this
    rfl
  | cons x xs ih =>
    cases i with
    | zero => rfl
    | succ i =>
      show (runningSums (acc + x) xs)[i]? = _
      rw [ih _ _ (by simpa using h), List.take_succ_cons, List.sum_cons, Nat.add_assoc]

theorem modelCounts_eq {a : Arith} {occ : Nat → Nat} (h : ∀ i, i < 256 → (a.occAt i).toNat = occ i) :
    a.modelCounts = (List.range 257).map (modelCount occ) := by
  unfold Arith.modelCounts
  rw [show List.range 257 = List.range 256 ++ [256] from List.range_succ, List.map_append]
  congr 1
  apply List.map_congr_left
  intro i hi
  have hi := List.mem_range.1 hi
  unfold modelCount
  rw [if_pos hi, h i hi]

/-- BuildModel on a table that holds `occ` (R310). -/
theorem buildModel_holds {a : Arith} {occ : Nat → Nat} (h : ∀ i, i < 256 → (a.occAt i).toNat = occ i)
    (hb : ((List.range 256).map occ).sum ≤ Config.ariMax) : a.buildModel.HoldsModel occ := by
  have hm : ((List.range 256).map occ).sum ≤ 0x3FFFFEFF := hb
  have ht := modelCum_total occ
  have hlt : ∀ i, i ≤ 257 → modelCum occ i < 2 ^ 32 := by
    intro i hi
    have := modelCum_mono occ hi
    omega
  have hc : ∀ i, i ≤ 256 → modelCount occ i < 2 ^ 32 := by
    intro i hi
    have := hlt (i + 1) (by omega)
    rw [modelCum_succ] at this
    omega
  refine ⟨h, fun i hi => ?_, fun i hi => ?_, ?_, hb⟩
  · have hw : a.buildModel.cnt.written i = some (BitVec.ofNat 32 (modelCount occ i)) := by
      show (a.cnt.load _).written i = _
      rw [Store.written_load, modelCounts_eq h, List.getElem?_map, List.getElem?_map, List.getElem?_range (by omega)]
      rfl
    unfold Arith.cntAt
    rw [Store.read_of_written hw, BitVec.toNat_ofNat]
    exact Nat.mod_eq_of_lt (hc i hi)
  · have hw : a.buildModel.cum.written i = some (BitVec.ofNat 32 (modelCum occ i)) := by
      show (a.cum.load _).written i = _
      rw [Store.written_load, modelCounts_eq h, List.getElem?_map,
        runningSums_getElem? _ _ _ (by rw [List.length_map, List.length_range]; exact hi), Nat.zero_add,
        ← List.map_take, List.take_range, Nat.min_eq_left hi]
      rfl
    unfold Arith.cumAt
    rw [Store.read_of_written hw, BitVec.toNat_ofNat]
    exact Nat.mod_eq_of_lt (hlt i hi)
  · show (BitVec.ofNat 32 a.modelCounts.sum).toNat = _
    rw [modelCounts_eq h, BitVec.toNat_ofNat]
    exact Nat.mod_eq_of_lt (hlt 257 (Nat.le_refl _))

theorem Arith.HoldsModel.total_le {a : Arith} {occ : Nat → Nat} (h : a.HoldsModel occ) : modelCum occ 257 ≤ 2 ^ 30 := by
  have hm : ((List.range 256).map occ).sum ≤ 0x3FFFFEFF := h.bound
  rw [modelCum_total]
  omega

theorem countOccurrences_read (st : Store Word) (l : List Byte) (i : Nat) :
    (countOccurrences st l).read (unwrittenWord .occ) i =
      st.read (unwrittenWord .occ) i + BitVec.ofNat 32 (occurrences l i) := by
  induction l generalizing st with
  | nil => simp [countOccurrences, occurrences]
  | cons b bs ih =>
    unfold countOccurrences
    rw [ih, Store.read_put, occurrences_cons]
    by_cases h : b.toNat = i
    · rw [if_pos h, if_pos h, h, BitVec.ofNat_add, BitVec.add_assoc, BitVec.add_comm (BitVec.ofNat 32 (occurrences bs i))]
      rfl
    · rw [if_neg h, if_neg h, Nat.add_zero]

/-- ARI_MODEL's model is the input's (R312). -/
theorem fillModel_holds {s : State} (h : s.inLen.toNat ≤ Config.ariMax) :
    (fillModel s).ari.HoldsModel (occurrences s.input) := by
  have hs := sum_occurrences s.input
  rw [length_input] at hs
  refine buildModel_holds (fun i hi => ?_) (by omega)
  have hl : occurrences s.input i ≤ s.input.length := occurrences_le _ _
  rw [length_input] at hl
  have h0 : (s.ari.occ.fill 256 (0 : Word)).read (unwrittenWord .occ) i = 0 :=
    Store.read_of_written (by rw [Store.written_fill, if_pos hi])
  have hlt := s.inLen.isLt
  show ((countOccurrences (s.ari.occ.fill 256 0) s.input).read (unwrittenWord .occ) i).toNat = _
  rw [countOccurrences_read, h0, show (0 : Word) = 0#32 from rfl, BitVec.zero_add, BitVec.toNat_ofNat]
  exact Nat.mod_eq_of_lt (by omega)

/-- The count intervals partition `[0, TOTAL)` (R310). -/
theorem modelCum_partition (occ : Nat → Nat) {v : Nat} :
    (n : Nat) → v < modelCum occ n → ∃ i, i < n ∧ modelCum occ i ≤ v ∧ v < modelCum occ (i + 1)
  | 0, h => by simp [modelCum] at h
  | n + 1, h => by
    by_cases hn : modelCum occ n ≤ v
    · exact ⟨n, by omega, hn, h⟩
    · obtain ⟨i, hi, h1, h2⟩ := modelCum_partition occ n (Nat.lt_of_not_le hn)
      exact ⟨i, by omega, h1, h2⟩

theorem modelCum_unique (occ : Nat → Nat) {v i j : Nat} (hi : modelCum occ i ≤ v) (hi' : v < modelCum occ (i + 1))
    (hj : modelCum occ j ≤ v) (hj' : v < modelCum occ (j + 1)) : i = j := by
  by_contra h
  obtain h | h := Nat.lt_or_gt_of_ne h
  · have := modelCum_mono occ (show i + 1 ≤ j from h)
    omega
  · have := modelCum_mono occ (show j + 1 ≤ i from h)
    omega

/-! ### Interval arithmetic (R311, R325) -/

/-- One interval's share of a range above TOTAL is not empty (R325). -/
theorem share_lt {rng total c d : Nat} (ht : 0 < total) (hr : total ≤ rng) (h : c < d) :
    rng * c / total + 1 ≤ rng * d / total := by
  have h1 : rng * (c + 1) ≤ rng * d := Nat.mul_le_mul_left _ h
  have h2 : rng * c + total ≤ rng * d := by rw [Nat.mul_add, Nat.mul_one] at h1; omega
  have h3 := Nat.div_le_div_right (c := total) h2
  rw [Nat.add_div_right _ ht] at h3
  exact h3

theorem share_le {rng total d : Nat} (ht : 0 < total) (h : d ≤ total) : rng * d / total ≤ rng := by
  have := Nat.div_le_div_right (c := total) (Nat.mul_le_mul_left rng h)
  rwa [Nat.mul_div_cancel _ ht] at this

/-- The bounds that Narrow gives for the count interval `[c, d)` of TOTAL (R311, R325). -/
theorem narrow_bounds {low high c d total : Nat} (hlh : low ≤ high) (ht : 0 < total) (hr : total ≤ high - low + 1)
    (hcd : c < d) (hd : d ≤ total) :
    low ≤ narrowLow low high c total ∧ narrowLow low high c total ≤ narrowHigh low high d total ∧
      narrowHigh low high d total ≤ high := by
  have h1 := share_lt ht hr hcd
  have h2 := share_le (rng := high - low + 1) ht hd
  unfold narrowLow narrowHigh
  generalize (high - low + 1) * c / total = x at *
  generalize (high - low + 1) * d / total = y at *
  omega

theorem Settled.range {low high : Nat} (h : Settled low high) : low ≤ high ∧ 2 ^ 30 + 2 ≤ high - low + 1 := by
  obtain ⟨h1, h2, h3, h4⟩ := h
  unfold Config.half at h1 h2
  unfold Config.quarter Config.threeQuarter at h4
  omega

/-- Between two symbols every interval of the model has a share, within the bounds (R325). -/
theorem Arith.HoldsModel.narrow_bounds {a : Arith} {occ : Nat → Nat} (h : a.HoldsModel occ) {low high sym : Nat}
    (hs : Settled low high) (hsym : sym ≤ 256) :
    low ≤ narrowLow low high (modelCum occ sym) (modelCum occ 257) ∧
      narrowLow low high (modelCum occ sym) (modelCum occ 257) ≤
        narrowHigh low high (modelCum occ (sym + 1)) (modelCum occ 257) ∧
      narrowHigh low high (modelCum occ (sym + 1)) (modelCum occ 257) ≤ high := by
  have hr := hs.range
  have ht := h.total_le
  have hp := modelCum_lt occ (show 0 < 257 by omega)
  exact Machine.narrow_bounds hr.1 (by omega) (by omega) (modelCum_lt occ (Nat.lt_succ_self _))
    (modelCum_mono occ (by omega))

/-- `Narrow(s)` on a unit that holds a model (R311). -/
theorem narrow_eq {a : Arith} {occ : Nat → Nat} (h : a.HoldsModel occ) {sym : Nat}
    (hsym : sym ≤ 256) :
    a.narrow sym =
      { a with
        low := BitVec.ofNat 32 (narrowLow a.low.toNat a.high.toNat (modelCum occ sym) (modelCum occ 257))
        high := BitVec.ofNat 32 (narrowHigh a.low.toNat a.high.toNat (modelCum occ (sym + 1)) (modelCum occ 257)) } := by
  unfold Arith.narrow Arith.rng narrowLow narrowHigh
  rw [h.cum sym (by omega), h.cum (sym + 1) (by omega), h.total]

/-! ### The rescale loop on the bounds (R315, R325) -/

/-- The loop exits within `k` passes from bounds at least `2^(32-k)` apart, and then they are settled. -/
theorem rescales_exist : (k low high : Nat) → low ≤ high → high < 2 ^ 32 → 2 ^ 32 ≤ (high - low + 1) * 2 ^ k →
    ∃ cs l h, Rescales low high cs l h ∧ Settled l h ∧ cs.length ≤ k ∧ l ≤ h := by
  intro k
  induction k with
  | zero =>
    intro low high h1 h2 h3
    rw [Nat.pow_zero, Nat.mul_one] at h3
    have e1 : low = 0 := by omega
    have e2 : high = 0xFFFFFFFF := by omega
    subst e1 e2
    exact ⟨[], 0, 0xFFFFFFFF, .exit (by decide) (by decide) (by decide), by unfold Settled; decide, Nat.le_refl _, by omega⟩
  | succ k ih =>
    intro low high h1 h2 h3
    have hq : Config.quarter = 0x40000000 := rfl
    have hh : Config.half = 0x80000000 := rfl
    have ht : Config.threeQuarter = 0xC0000000 := rfl
    have h3' : 2 ^ 32 ≤ (2 * (high - low + 1)) * 2 ^ k := by
      rwa [Nat.pow_succ (n := 2) (m := k), Nat.mul_comm (2 ^ k) 2, ← Nat.mul_assoc,
        Nat.mul_comm (high - low + 1) 2] at h3
    by_cases c1 : high < Config.half
    · obtain ⟨cs, l, h, r, st, len, le⟩ := ih (2 * low) (2 * high + 1) (by omega) (by omega)
        (by rw [show 2 * high + 1 - 2 * low + 1 = 2 * (high - low + 1) by omega]; exact h3')
      exact ⟨.e1 :: cs, l, h, .e1 c1 r, st, Nat.succ_le_succ len, le⟩
    · by_cases c2 : Config.half ≤ low
      · obtain ⟨cs, l, h, r, st, len, le⟩ := ih (2 * (low - Config.half)) (2 * (high - Config.half) + 1) (by omega)
          (by omega)
          (by rw [show 2 * (high - Config.half) + 1 - 2 * (low - Config.half) + 1 = 2 * (high - low + 1) by omega]
              exact h3')
        exact ⟨.e2 :: cs, l, h, .e2 c1 c2 r, st, Nat.succ_le_succ len, le⟩
      · by_cases c3 : Config.quarter ≤ low ∧ high < Config.threeQuarter
        · obtain ⟨cs, l, h, r, st, len, le⟩ := ih (2 * (low - Config.quarter)) (2 * (high - Config.quarter) + 1)
            (by omega) (by omega)
            (by rw [show 2 * (high - Config.quarter) + 1 - 2 * (low - Config.quarter) + 1 = 2 * (high - low + 1) by omega]
                exact h3')
          exact ⟨.e3 :: cs, l, h, .e3 c1 c2 c3.1 c3.2 r, st, Nat.succ_le_succ len, le⟩
        · exact ⟨[], low, high, .exit c1 c2 c3, ⟨by omega, by omega, by omega, by omega⟩, Nat.zero_le _, h1⟩

/-- What the loop does is determined by the bounds. -/
theorem Rescales.unique {low high l h l' h' : Nat} {cs cs' : List Rescale} (r : Rescales low high cs l h)
    (r' : Rescales low high cs' l' h') : cs = cs' ∧ l = l' ∧ h = h' := by
  induction r generalizing cs' with
  | exit a b c =>
    cases r' with
    | exit => exact ⟨rfl, rfl, rfl⟩
    | e1 a' => exact absurd a' a
    | e2 _ b' => exact absurd b' b
    | e3 _ _ c1 c2 => exact absurd ⟨c1, c2⟩ c
  | e1 a _ ih =>
    cases r' with
    | exit a' => exact absurd a a'
    | e1 _ r' => obtain ⟨rfl, e⟩ := ih r'; exact ⟨rfl, e⟩
    | e2 a' => exact absurd a a'
    | e3 a' => exact absurd a a'
  | e2 a b _ ih =>
    cases r' with
    | exit _ b' => exact absurd b b'
    | e1 a' => exact absurd a' a
    | e2 _ _ r' => obtain ⟨rfl, e⟩ := ih r'; exact ⟨rfl, e⟩
    | e3 _ b' => exact absurd b b'
  | e3 a b c1 c2 _ ih =>
    cases r' with
    | exit _ _ c => exact absurd ⟨c1, c2⟩ c
    | e1 a' => exact absurd a' a
    | e2 _ b' => exact absurd b' b
    | e3 _ _ _ _ r' => obtain ⟨rfl, e⟩ := ih r'; exact ⟨rfl, e⟩

/-- Every symbol's narrowing settles in at most 32 passes (R315, R325). -/
theorem Arith.HoldsModel.rescales {a : Arith} {occ : Nat → Nat} (h : a.HoldsModel occ) {low high sym : Nat}
    (hs : Settled low high) (hsym : sym ≤ 256) :
    ∃ cs l h, Rescales (narrowLow low high (modelCum occ sym) (modelCum occ 257))
        (narrowHigh low high (modelCum occ (sym + 1)) (modelCum occ 257)) cs l h ∧
      Settled l h ∧ cs.length ≤ 32 ∧ l ≤ h := by
  obtain ⟨h1, h2, h3⟩ := h.narrow_bounds hs hsym
  have := hs.2.2.1
  exact rescales_exist 32 _ _ h2 (by omega) (Nat.le_mul_of_pos_left _ (by omega))

/-- Each case of the loop on the unit's registers is the case on the bounds; nothing is lost in 32 bits. -/
theorem rescaleCase_cases (low high : Nat) :
    (high < Config.half ∧ rescaleCase low high = .e1) ∨
    (¬ high < Config.half ∧ Config.half ≤ low ∧ rescaleCase low high = .e2) ∨
    (¬ high < Config.half ∧ ¬ Config.half ≤ low ∧ (Config.quarter ≤ low ∧ high < Config.threeQuarter) ∧
      rescaleCase low high = .e3) ∨
    (¬ high < Config.half ∧ ¬ Config.half ≤ low ∧ ¬ (Config.quarter ≤ low ∧ high < Config.threeQuarter) ∧
      rescaleCase low high = .stop) := by
  unfold rescaleCase
  by_cases a : high < Config.half
  · exact .inl ⟨a, if_pos a⟩
  · rw [if_neg a]
    by_cases b : Config.half ≤ low
    · exact .inr (.inl ⟨a, b, if_pos b⟩)
    · rw [if_neg b]
      by_cases c : Config.quarter ≤ low ∧ high < Config.threeQuarter
      · exact .inr (.inr (.inl ⟨a, b, c, if_pos c⟩))
      · exact .inr (.inr (.inr ⟨a, b, c, if_neg c⟩))

theorem toNat_ofNat32 {n : Nat} (h : n < 2 ^ 32) : (BitVec.ofNat 32 n).toNat = n := by
  rw [BitVec.toNat_ofNat]
  exact Nat.mod_eq_of_lt h

/-! ### The encoder's loop -/

/-- Writing bits does not touch the arithmetic unit. -/
theorem Writes.setAri {l : List Bool} {s t : State} (h : Writes l s t) (a : Arith) :
    Writes l (s.setAri a) (t.setAri a) where
  frame := by
    have e := h.frame
    generalize t.writer = w at e ⊢
    generalize t.obuf = o at e ⊢
    rw [e]
    rfl
  bits := h.bits
  outLen := h.outLen
  nbits := h.nbits
  tidy := h.tidy
  others := h.others

theorem Writes.ari {l : List Bool} {s t : State} (h : Writes l s t) : t.ari = s.ari := by
  rw [h.frame]
  rfl

/-- `t` is `s` with the bits `l` written and the arithmetic unit at `a`. -/
def WritesAri (l : List Bool) (a : Arith) (s t : State) : Prop := ∃ u, Writes l s u ∧ t = u.setAri a

theorem WritesAri.refl (s : State) : WritesAri [] s.ari s s := ⟨s, Writes.refl s, rfl⟩

theorem WritesAri.trans {l m : List Bool} {a b : Arith} {s t u : State} (h : WritesAri l a s t)
    (g : WritesAri m b t u) : WritesAri (l ++ m) b s u := by
  obtain ⟨v, hv, rfl⟩ := h
  obtain ⟨w, hw, rfl⟩ := g
  exact ⟨w.setAri v.ari, hv.trans (hw.setAri v.ari), rfl⟩

theorem WritesAri.room {l : List Bool} {a : Arith} {s t : State} {n : Nat} (h : WritesAri l a s t)
    (hr : s.Room (l.length + n)) : t.Room n := by
  obtain ⟨u, hu, rfl⟩ := h
  exact hu.room hr

theorem WritesAri.ari {l : List Bool} {a : Arith} {s t : State} (h : WritesAri l a s t) : t.ari = a := by
  obtain ⟨u, -, rfl⟩ := h
  rfl

theorem repeat_writeBit_writes (b : Bool) (n : Nat) {s : State} (hr : s.Room n) :
    ∃ t, repeatN n (writeBit b) s = .ok ⟨⟩ t ∧ Writes (List.replicate n b) s t := by
  induction n generalizing s with
  | zero => exact ⟨s, rfl, Writes.refl s⟩
  | succ n ih =>
    obtain ⟨t, ht, hw⟩ := writeBit_writes b (hr.le (show 1 ≤ n + 1 by omega))
    obtain ⟨u, hu, hv⟩ := ih (hw.room (n := n) (by rw [List.length_singleton, Nat.add_comm]; exact hr))
    exact ⟨u, by rw [repeatN_succ, Cmd.bind_of_ok ht, hu], hw.trans hv⟩

/-- `OutputBit(b)` (R315). -/
theorem outputBit_writes (b : Bool) {s : State} (hr : s.Room (resolvedBits s.ari.pending.toNat b).length) :
    ∃ t, outputBit b s = .ok ⟨⟩ t ∧
      WritesAri (resolvedBits s.ari.pending.toNat b) { s.ari with pending := 0 } s t := by
  have hl : (resolvedBits s.ari.pending.toNat b).length = 1 + s.ari.pending.toNat := by
    unfold resolvedBits
    rw [List.length_cons, List.length_replicate, Nat.add_comm]
  rw [hl] at hr
  obtain ⟨t, ht, hw⟩ := writeBit_writes b (hr.le (Nat.le_add_right _ _))
  obtain ⟨u, hu, hv⟩ := repeat_writeBit_writes (!b) s.ari.pending.toNat (hw.room (by rw [List.length_singleton]; exact hr))
  refine ⟨u.setAri { u.ari with pending := 0 }, ?_, u, hw.trans hv, ?_⟩
  · unfold outputBit
    rw [Cmd.get_bind_run, Cmd.bind_of_ok ht, Cmd.bind_of_ok hu]
    rfl
  · rw [(hw.trans hv).ari]

theorem doubled_low {a : Arith} {c : Rescale} (h : 2 * (a.low.toNat - c.offset) < 2 ^ 32) :
    (a.doubled c).low.toNat = 2 * (a.low.toNat - c.offset) := toNat_ofNat32 h

theorem doubled_high {a : Arith} {c : Rescale} (h : 2 * (a.high.toNat - c.offset) + 1 < 2 ^ 32) :
    (a.doubled c).high.toNat = 2 * (a.high.toNat - c.offset) + 1 := toNat_ofNat32 h

/-- What EncRescale does from the bounds `low` and `high` when the loop takes the cases `cs` (R315): it writes their
bits and leaves the bounds at the exit and the bits still pending. -/
def Encodes (low high : Nat) (cs : List Rescale) (l h : Nat) : Prop :=
  ∀ (passes : Nat) (s : State), s.ari.low.toNat = low → s.ari.high.toNat = high → cs.length ≤ passes → low ≤ high →
    s.ari.pending.toNat + cs.length < 2 ^ 64 → s.Room (rescaleBits s.ari.pending.toNat cs).length →
    ∃ t, encRescale passes s = .ok ⟨⟩ t ∧
      WritesAri (rescaleBits s.ari.pending.toNat cs)
        { s.ari with
          low := BitVec.ofNat 32 l, high := BitVec.ofNat 32 h
          pending := BitVec.ofNat 64 (rescalePending s.ari.pending.toNat cs) } s t

theorem Encodes.exit {low high : Nat} (a : ¬ high < Config.half) (b : ¬ Config.half ≤ low)
    (c : ¬ (Config.quarter ≤ low ∧ high < Config.threeQuarter)) : Encodes low high [] low high := by
  intro passes s hl hh' _ _ _ _
  have same : WritesAri [] { s.ari with
      low := BitVec.ofNat 32 low, high := BitVec.ofNat 32 high
      pending := BitVec.ofNat 64 s.ari.pending.toNat } s s := by
    have : ({ s.ari with
      low := BitVec.ofNat 32 low, high := BitVec.ofNat 32 high
      pending := BitVec.ofNat 64 s.ari.pending.toNat } : Arith) = s.ari := by
      rw [← hl, ← hh', BitVec.ofNat_toNat, BitVec.ofNat_toNat, BitVec.ofNat_toNat, BitVec.setWidth_eq,
        BitVec.setWidth_eq, BitVec.setWidth_eq]
    rw [this]
    exact WritesAri.refl s
  cases passes with
  | zero => exact ⟨s, rfl, same⟩
  | succ passes =>
    refine ⟨s, ?_, same⟩
    unfold encRescale
    rw [Cmd.get_bind_run, hl, hh']
    obtain ⟨x, -⟩ | ⟨-, x, -⟩ | ⟨-, -, x, -⟩ | ⟨-, -, -, e⟩ := rescaleCase_cases low high
    · exact absurd x a
    · exact absurd x b
    · exact absurd x c
    · rw [e]
      rfl

/-- The cases E1 and E2, which output a bit. -/
theorem Encodes.output {c : Rescale} {bit : Bool} {low high low' high' l h : Nat} {cs : List Rescale}
    (hbits : ∀ p, rescaleBits p (c :: cs) = resolvedBits p bit ++ rescaleBits 0 cs)
    (hpending : ∀ p, rescalePending p (c :: cs) = rescalePending 0 cs)
    (hrun : ∀ passes s, s.ari.low.toNat = low → s.ari.high.toNat = high →
      encRescale (passes + 1) s =
        (outputBit bit >>= fun _ => (modify fun t => t.setAri (t.ari.doubled c)) >>= fun _ => encRescale passes) s)
    (el : low' = 2 * (low - c.offset)) (eh : high' = 2 * (high - c.offset) + 1)
    (hlt : high < 2 ^ 32 → low ≤ high → high' < 2 ^ 32 ∧ low' ≤ high')
    (ih : Encodes low' high' cs l h) : Encodes low high (c :: cs) l h := by
  intro passes s hl hh hp hlh hpend hr
  have hb := s.ari.high.isLt
  rw [hh] at hb
  obtain ⟨h1, h2⟩ := hlt hb hlh
  rw [List.length_cons] at hp hpend
  obtain ⟨passes, rfl⟩ : ∃ k, passes = k + 1 := ⟨passes - 1, by omega⟩
  rw [hbits] at hr ⊢
  rw [hpending]
  rw [List.length_append] at hr
  obtain ⟨t, ht, hw⟩ := outputBit_writes bit (hr.le (Nat.le_add_right _ _))
  have hroom := hw.room hr
  have hari := hw.ari
  have hpz : t.ari.pending.toNat = 0 := by rw [hari]; rfl
  have htl : t.ari.low.toNat = low := by rw [hari]; exact hl
  have hth : t.ari.high.toNat = high := by rw [hari]; exact hh
  obtain ⟨u, hu, hv⟩ := ih passes (t.setAri (t.ari.doubled c))
    (by
      show (t.ari.doubled c).low.toNat = low'
      rw [doubled_low (by rw [htl, ← el]; omega), htl, el])
    (by
      show (t.ari.doubled c).high.toNat = high'
      rw [doubled_high (by rw [hth, ← eh]; exact h1), hth, eh])
    (by omega) h2
    (by
      show t.ari.pending.toNat + _ < _
      rw [hpz]
      omega)
    (by
      show t.Room (rescaleBits t.ari.pending.toNat cs).length
      rw [hpz]
      exact hroom)
  refine ⟨u, ?_, ?_⟩
  · rw [hrun passes s hl hh, Cmd.bind_of_ok ht, Cmd.modify_bind_run]
    exact hu
  · have hstep : WritesAri [] (t.ari.doubled c) t (t.setAri (t.ari.doubled c)) := ⟨t, Writes.refl t, rfl⟩
    have hall := (hw.trans hstep).trans hv
    rw [List.append_nil, show (t.setAri (t.ari.doubled c)).ari.pending = t.ari.pending from rfl, hpz] at hall
    rw [show (t.setAri (t.ari.doubled c)).ari = { t.ari with
      low := (t.ari.doubled c).low, high := (t.ari.doubled c).high } from rfl, hari] at hall
    exact hall

/-- The case E3, which defers a bit. -/
theorem Encodes.defer {low high l h : Nat} {cs : List Rescale} (a : ¬ high < Config.half) (b : ¬ Config.half ≤ low)
    (c : Config.quarter ≤ low ∧ high < Config.threeQuarter)
    (ih : Encodes (2 * (low - Config.quarter)) (2 * (high - Config.quarter) + 1) cs l h) :
    Encodes low high (.e3 :: cs) l h := by
  intro passes s hl hh hp hlh hpend hr
  have hq : Config.quarter = 0x40000000 := rfl
  have hf : Config.threeQuarter = 0xC0000000 := rfl
  rw [List.length_cons] at hp hpend
  obtain ⟨passes, rfl⟩ : ∃ k, passes = k + 1 := ⟨passes - 1, by omega⟩
  have e : rescaleCase low high = .e3 := by unfold rescaleCase; rw [if_neg a, if_neg b, if_pos c]
  have hpn : (s.ari.pending + 1).toNat = s.ari.pending.toNat + 1 := by
    rw [BitVec.toNat_add]
    show (s.ari.pending.toNat + 1) % 2 ^ 64 = _
    omega
  obtain ⟨d, hd⟩ : ∃ d, d = Arith.doubled { s.ari with pending := s.ari.pending + 1 } .e3 := ⟨_, rfl⟩
  have h1 : d.low.toNat = 2 * (low - Config.quarter) := by
    rw [hd, doubled_low (by show 2 * (s.ari.low.toNat - Config.quarter) < _; rw [hl]; omega), ← hl]
    rfl
  have h2 : d.high.toNat = 2 * (high - Config.quarter) + 1 := by
    rw [hd, doubled_high (by show 2 * (s.ari.high.toNat - Config.quarter) + 1 < _; rw [hh]; omega), ← hh]
    rfl
  have hdp : d.pending.toNat = s.ari.pending.toNat + 1 := by
    have : d.pending = s.ari.pending + 1 := by rw [hd]; rfl
    rw [this, hpn]
  have hda : ∀ x y z, ({ d with low := x, high := y, pending := z } : Arith) =
      { s.ari with low := x, high := y, pending := z } := fun x y z => by
    simp only [hd, Arith.doubled]
  obtain ⟨u, hu, hv⟩ := ih passes (s.setAri d) h1 h2 (by omega) (by omega)
    (by
      show d.pending.toNat + _ < _
      omega)
    (by
      show s.Room (rescaleBits d.pending.toNat cs).length
      rw [hdp]
      exact hr)
  refine ⟨u, ?_, ?_⟩
  · unfold encRescale
    rw [Cmd.get_bind_run, hl, hh, e, ← hd]
    exact hu
  · have hstep : WritesAri [] d s (s.setAri d) := ⟨s, Writes.refl s, rfl⟩
    have hall := hstep.trans hv
    rw [List.nil_append, show (s.setAri d).ari = d from rfl, hda, hdp] at hall
    exact hall

/-- `EncRescale()` (R315). -/
theorem Rescales.encodes {low high l h : Nat} {cs : List Rescale} (r : Rescales low high cs l h) :
    Encodes low high cs l h := by
  have hh : Config.half = 0x80000000 := rfl
  have h1 : Rescale.e1.offset = 0 := rfl
  have h2 : Rescale.e2.offset = 0x80000000 := rfl
  induction r with
  | exit a b c => exact Encodes.exit a b c
  | @e1 low high l h cs a _ ih =>
    have e : rescaleCase low high = .e1 := by unfold rescaleCase; rw [if_pos a]
    refine Encodes.output (bit := false) (fun _ => rfl) (fun _ => rfl) (fun passes s hl hh => ?_) rfl rfl
      (fun _ _ => by omega) ih
    rw [encRescale, Cmd.get_bind_run, hl, hh, e]
  | @e2 low high l h cs a b _ ih =>
    have e : rescaleCase low high = .e2 := by unfold rescaleCase; rw [if_neg a, if_pos b]
    refine Encodes.output (bit := true) (fun _ => rfl) (fun _ => rfl) (fun passes s hl hh => ?_) rfl rfl
      (fun _ _ => by omega) ih
    rw [encRescale, Cmd.get_bind_run, hl, hh, e]
  | e3 a b c1 c2 _ ih => exact Encodes.defer a b ⟨c1, c2⟩ ih

/-- `Narrow(s); EncRescale()` (R316). -/
theorem encodeSymbol_writes {s : State} {occ : Nat → Nat} {sym l h : Nat} {cs : List Rescale}
    (hm : s.ari.HoldsModel occ) (hs : Settled s.ari.low.toNat s.ari.high.toNat) (hsym : sym ≤ 256)
    (r : Rescales (narrowLow s.ari.low.toNat s.ari.high.toNat (modelCum occ sym) (modelCum occ 257))
      (narrowHigh s.ari.low.toNat s.ari.high.toNat (modelCum occ (sym + 1)) (modelCum occ 257)) cs l h)
    (hlen : cs.length ≤ 32) (hp : s.ari.pending.toNat + 32 < 2 ^ 64)
    (hr : s.Room (rescaleBits s.ari.pending.toNat cs).length) :
    ∃ t, encodeSymbol sym s = .ok ⟨⟩ t ∧
      WritesAri (rescaleBits s.ari.pending.toNat cs)
        { s.ari with
          low := BitVec.ofNat 32 l, high := BitVec.ofNat 32 h
          pending := BitVec.ofNat 64 (rescalePending s.ari.pending.toNat cs) } s t := by
  obtain ⟨h1, h2, h3⟩ := hm.narrow_bounds hs hsym
  have hb := s.ari.high.isLt
  obtain ⟨t, ht, hw⟩ := r.encodes rescalePasses (s.setAri (s.ari.narrow sym))
    (by
      show (s.ari.narrow sym).low.toNat = _
      rw [narrow_eq hm hsym]
      exact toNat_ofNat32 (by omega))
    (by
      show (s.ari.narrow sym).high.toNat = _
      rw [narrow_eq hm hsym]
      exact toNat_ofNat32 (by omega))
    hlen h2
    (by
      show s.ari.pending.toNat + _ < _
      omega)
    hr
  refine ⟨t, ht, ?_⟩
  have hstep : WritesAri [] (s.ari.narrow sym) s (s.setAri (s.ari.narrow sym)) := ⟨s, Writes.refl s, rfl⟩
  exact hstep.trans hw

/-- The flush of the range encoder (R317). -/
theorem flushRangeEncoder_writes {s : State} (hp : s.ari.pending.toNat + 1 < 2 ^ 64)
    (hr : s.Room (rangeFlushBits s.ari.low.toNat s.ari.pending.toNat).length) :
    ∃ t, flushRangeEncoder s = .ok ⟨⟩ t ∧
      WritesAri (rangeFlushBits s.ari.low.toNat s.ari.pending.toNat) { s.ari with pending := 0 } s t := by
  have hpn : (s.ari.pending + 1).toNat = s.ari.pending.toNat + 1 := by
    rw [BitVec.toNat_add]
    show (s.ari.pending.toNat + 1) % 2 ^ 64 = _
    omega
  have e : rangeFlushBits s.ari.low.toNat s.ari.pending.toNat =
      resolvedBits (s.setAri { s.ari with pending := s.ari.pending + 1 }).ari.pending.toNat
        (decide (Config.quarter ≤ s.ari.low.toNat)) := by
    unfold rangeFlushBits
    rw [← hpn]
    rfl
  rw [e] at hr ⊢
  obtain ⟨t, ht, u, hu, rfl⟩ := outputBit_writes (decide (Config.quarter ≤ s.ari.low.toNat))
    (s := s.setAri { s.ari with pending := s.ari.pending + 1 }) hr
  exact ⟨_, ht, u.setAri s.ari, hu.setAri s.ari, rfl⟩

/-! ### The decoder (R319, R320, R321) -/

theorem inBits_succ (s : State) (n : Nat) : s.inBits (n + 1) = s.inBit s.inPos :: (s.afterRead 1).inBits n := by
  rw [Nat.add_comm, State.inBits_add]
  rfl

/-- `DecRescale()` (R320): one input bit shifted into VALUE for each case; VALUE stays within the bounds. -/
theorem Rescales.decodes {low high l h : Nat} {cs : List Rescale} (r : Rescales low high cs l h) :
    ∀ (passes : Nat) (s : State), s.ari.low.toNat = low → s.ari.high.toNat = high → cs.length ≤ passes →
      low ≤ s.ari.value.toNat → s.ari.value.toNat ≤ high →
      decRescale passes s =
          .ok ⟨⟩ ((s.afterRead cs.length).setAri
            { s.ari with
              low := BitVec.ofNat 32 l, high := BitVec.ofNat 32 h
              value := BitVec.ofNat 32 (rescaleValue s.ari.value.toNat cs (s.inBits cs.length)) }) ∧
        l ≤ rescaleValue s.ari.value.toNat cs (s.inBits cs.length) ∧
        rescaleValue s.ari.value.toNat cs (s.inBits cs.length) ≤ h := by
  have step : ∀ {c : Rescale} {low high low' high' l h : Nat} {cs : List Rescale}, rescaleCase low high = c →
      c ≠ .stop → low' = 2 * (low - c.offset) → high' = 2 * (high - c.offset) + 1 → c.offset ≤ low →
      (high < 2 ^ 32 → high' < 2 ^ 32) →
      (∀ (passes : Nat) (s : State), s.ari.low.toNat = low' → s.ari.high.toNat = high' → cs.length ≤ passes →
        low' ≤ s.ari.value.toNat → s.ari.value.toNat ≤ high' →
        decRescale passes s =
            .ok ⟨⟩ ((s.afterRead cs.length).setAri
              { s.ari with
                low := BitVec.ofNat 32 l, high := BitVec.ofNat 32 h
                value := BitVec.ofNat 32 (rescaleValue s.ari.value.toNat cs (s.inBits cs.length)) }) ∧
          l ≤ rescaleValue s.ari.value.toNat cs (s.inBits cs.length) ∧
          rescaleValue s.ari.value.toNat cs (s.inBits cs.length) ≤ h) →
      ∀ (passes : Nat) (s : State), s.ari.low.toNat = low → s.ari.high.toNat = high → (c :: cs).length ≤ passes →
        low ≤ s.ari.value.toNat → s.ari.value.toNat ≤ high →
        decRescale passes s =
            .ok ⟨⟩ ((s.afterRead (c :: cs).length).setAri
              { s.ari with
                low := BitVec.ofNat 32 l, high := BitVec.ofNat 32 h
                value := BitVec.ofNat 32 (rescaleValue s.ari.value.toNat (c :: cs) (s.inBits (c :: cs).length)) }) ∧
          l ≤ rescaleValue s.ari.value.toNat (c :: cs) (s.inBits (c :: cs).length) ∧
          rescaleValue s.ari.value.toNat (c :: cs) (s.inBits (c :: cs).length) ≤ h := by
    intro c low high low' high' l h cs hc hne el eh hoff hlt ih passes s hl hh hp h1 h2
    have hb := s.ari.high.isLt
    rw [hh] at hb
    have hb' := hlt hb
    rw [List.length_cons] at hp
    obtain ⟨passes, rfl⟩ : ∃ k, passes = k + 1 := ⟨passes - 1, by omega⟩
    have hbit : (s.inBit s.inPos).toNat ≤ 1 := Bool.toNat_le _
    obtain ⟨w, hw⟩ : ∃ w, w = 2 * (s.ari.value.toNat - c.offset) + (s.inBit s.inPos).toNat := ⟨_, rfl⟩
    have hwl : w < 2 ^ 32 := by omega
    obtain ⟨d, hd⟩ : ∃ d, d = { s.ari.doubled c with value := s.ari.shiftedValue c (s.inBit s.inPos) } := ⟨_, rfl⟩
    have hdl : d.low.toNat = low' := by
      rw [hd]
      show (s.ari.doubled c).low.toNat = low'
      rw [doubled_low (by rw [hl, ← el]; omega), hl, el]
    have hdh : d.high.toNat = high' := by
      rw [hd]
      show (s.ari.doubled c).high.toNat = high'
      rw [doubled_high (by rw [hh, ← eh]; exact hb'), hh, eh]
    have hdv : d.value.toNat = w := by
      rw [hd, hw]
      exact toNat_ofNat32 (by rw [← hw]; exact hwl)
    have hda : ∀ x y z, ({ d with low := x, high := y, value := z } : Arith) =
        { s.ari with low := x, high := y, value := z } := fun x y z => by
      simp only [hd, Arith.doubled]
    obtain ⟨hrun, hlo, hhi⟩ := ih passes ((s.afterRead 1).setAri d) hdl hdh (by omega)
      (by show low' ≤ d.value.toNat; rw [hdv]; omega) (by show d.value.toNat ≤ high'; rw [hdv]; omega)
    have e1 : ((s.afterRead 1).setAri d).inBits cs.length = (s.afterRead 1).inBits cs.length := rfl
    have e2 : ((s.afterRead 1).setAri d).ari = d := rfl
    have e3 : ((s.afterRead 1).setAri d).afterRead cs.length = ((s.afterRead 1).afterRead cs.length).setAri d := rfl
    rw [e1, e2, hdv] at hlo hhi hrun
    rw [hda, e3, State.afterRead_add] at hrun
    have hv : rescaleValue s.ari.value.toNat (c :: cs) (s.inBits (c :: cs).length) =
        rescaleValue w cs ((s.afterRead 1).inBits cs.length) := by
      rw [List.length_cons, inBits_succ]
      show rescaleValue (2 * (s.ari.value.toNat - c.offset) + _) cs _ = _
      rw [← hw]
    rw [hv]
    refine ⟨?_, hlo, hhi⟩
    rw [decRescale, Cmd.get_bind_run, hl, hh, hc]
    show (if c = .stop then pure () else _ : Cmd Unit) s = _
    rw [if_neg hne, Cmd.bind_of_ok (readBit_run s), Cmd.modify_bind_run]
    rw [show (s.afterRead 1).ari = s.ari from rfl, ← hd, hrun, List.length_cons, Nat.add_comm]
    rfl
  have hh : Config.half = 0x80000000 := rfl
  have hq : Config.quarter = 0x40000000 := rfl
  have ht : Config.threeQuarter = 0xC0000000 := rfl
  have o1 : Rescale.e1.offset = 0 := rfl
  have o2 : Rescale.e2.offset = 0x80000000 := rfl
  have o3 : Rescale.e3.offset = 0x40000000 := rfl
  induction r with
  | @exit low high a b c =>
    intro passes s hl hh _ h1 h2
    have same : ({ s.ari with
        low := BitVec.ofNat 32 low, high := BitVec.ofNat 32 high
        value := BitVec.ofNat 32 s.ari.value.toNat } : Arith) = s.ari := by
      rw [← hl, ← hh, BitVec.ofNat_toNat, BitVec.ofNat_toNat, BitVec.ofNat_toNat, BitVec.setWidth_eq,
        BitVec.setWidth_eq, BitVec.setWidth_eq]
    refine ⟨?_, h1, h2⟩
    show _ = EStateM.Result.ok _ ((s.afterRead 0).setAri { s.ari with
        low := BitVec.ofNat 32 low, high := BitVec.ofNat 32 high
        value := BitVec.ofNat 32 s.ari.value.toNat })
    rw [same, State.afterRead_zero]
    cases passes with
    | zero => rfl
    | succ passes =>
      rw [decRescale, Cmd.get_bind_run, hl, hh]
      obtain ⟨x, -⟩ | ⟨-, x, -⟩ | ⟨-, -, x, -⟩ | ⟨-, -, -, e⟩ := rescaleCase_cases low high
      · exact absurd x a
      · exact absurd x b
      · exact absurd x c
      · rw [e]
        rfl
  | e1 a _ ih =>
    exact step (by unfold rescaleCase; rw [if_pos a]) (by decide) rfl rfl (by omega) (by omega) ih
  | e2 a b _ ih =>
    exact step (by unfold rescaleCase; rw [if_neg a, if_pos b]) (by decide) rfl rfl (by omega) (by omega) ih
  | e3 a b c1 c2 _ ih =>
    exact step (by unfold rescaleCase; rw [if_neg a, if_neg b, if_pos ⟨c1, c2⟩]) (by decide) rfl rfl (by omega)
      (by omega) ih

/-- The scaled value of R319. -/
def scaledValue (low high value total : Nat) : Nat := ((value - low + 1) * total - 1) / (high - low + 1)

/-- The interval that holds the scaled value narrows to bounds that hold VALUE (R319). -/
theorem scaledValue_narrow {low high value total c d : Nat} (h1 : low ≤ value) (ht : 0 < total)
    (hc : c ≤ scaledValue low high value total) (hd : scaledValue low high value total < d) :
    narrowLow low high c total ≤ value ∧ value ≤ narrowHigh low high d total := by
  unfold scaledValue at hc hd
  have hpos : 0 < (value - low + 1) * total := Nat.mul_pos (Nat.succ_pos _) ht
  have k1 := (Nat.le_div_iff_mul_le (Nat.succ_pos _)).1 hc
  have k2 := (Nat.div_lt_iff_lt_mul (Nat.succ_pos _)).1 hd
  have m1 : (high - low + 1) * c = c * (high - low).succ := Nat.mul_comm _ _
  have m2 : (high - low + 1) * d = d * (high - low).succ := Nat.mul_comm _ _
  have j1 : (high - low + 1) * c / total < value - low + 1 := by
    rw [Nat.div_lt_iff_lt_mul ht]
    omega
  have j2 : value - low + 1 ≤ (high - low + 1) * d / total := by
    rw [Nat.le_div_iff_mul_le ht]
    omega
  unfold narrowLow narrowHigh
  generalize (high - low + 1) * c / total = x at *
  generalize (high - low + 1) * d / total = y at *
  omega

theorem scaledValue_lt {low high value total : Nat} (h1 : low ≤ value) (h2 : value ≤ high) (ht : 0 < total) :
    scaledValue low high value total < total := by
  unfold scaledValue
  rw [Nat.div_lt_iff_lt_mul (Nat.succ_pos _)]
  have : (value - low + 1) * total ≤ (high - low + 1) * total := Nat.mul_le_mul_right _ (by omega)
  have hpos : 0 < (value - low + 1) * total := Nat.mul_pos (Nat.succ_pos _) ht
  rw [Nat.mul_comm total]
  have : (high - low).succ * total = (high - low + 1) * total := rfl
  omega

/-- `Lookup()` with VALUE within the bounds (R319): the one symbol whose interval holds the scaled value. -/
theorem lookup_run {s : State} {occ : Nat → Nat} (hm : s.ari.HoldsModel occ)
    (h1 : s.ari.low.toNat ≤ s.ari.value.toNat) (h2 : s.ari.value.toNat ≤ s.ari.high.toNat) :
    ∃ sym, sym ≤ 256 ∧
      modelCum occ sym ≤ scaledValue s.ari.low.toNat s.ari.high.toNat s.ari.value.toNat (modelCum occ 257) ∧
      scaledValue s.ari.low.toNat s.ari.high.toNat s.ari.value.toNat (modelCum occ 257) < modelCum occ (sym + 1) ∧
      lookup s = .ok sym s := by
  have ht := modelCum_lt occ (show 0 < 257 by omega)
  have h0 : modelCum occ 0 = 0 := rfl
  obtain ⟨sym, hsym, hc, hd⟩ := modelCum_partition occ 257 (scaledValue_lt h1 h2 (by omega))
  refine ⟨sym, by omega, hc, hd, ?_⟩
  have hsc : s.ari.scaled = scaledValue s.ari.low.toNat s.ari.high.toNat s.ari.value.toNat (modelCum occ 257) := by
    unfold Arith.scaled scaledValue Arith.rng
    rw [hm.total]
  have hf : s.ari.find = some sym := by
    unfold Arith.find
    rw [if_neg (by omega), hsc]
    unfold Arith.symbolAt
    cases hx : (List.range 257).find? fun i =>
        decide ((s.ari.cumAt i).toNat ≤ scaledValue s.ari.low.toNat s.ari.high.toNat s.ari.value.toNat (modelCum occ 257)) &&
          decide (scaledValue s.ari.low.toNat s.ari.high.toNat s.ari.value.toNat (modelCum occ 257) <
            (s.ari.cumAt (i + 1)).toNat) with
    | none =>
      rw [List.find?_eq_none] at hx
      refine absurd ?_ (hx sym (List.mem_range.2 hsym))
      rw [hm.cum sym (by omega), hm.cum (sym + 1) (by omega), decide_eq_true hc, decide_eq_true hd]
      rfl
    | some i =>
      have hi := List.mem_range.1 (List.mem_of_find?_eq_some hx)
      have hp := List.find?_some hx
      simp only [Bool.and_eq_true, decide_eq_true_eq] at hp
      rw [hm.cum i (by omega), hm.cum (i + 1) (by omega)] at hp
      rw [modelCum_unique occ hp.1 hp.2 hc hd]
  unfold lookup
  rw [Cmd.get_bind_run, hf]
  rfl

/-- `Narrow(s); DecRescale()` for the looked-up symbol (R321). -/
theorem consumeSymbol_run {s : State} {occ : Nat → Nat} {sym l h : Nat} {cs : List Rescale}
    (hm : s.ari.HoldsModel occ) (hs : Settled s.ari.low.toNat s.ari.high.toNat) (hsym : sym ≤ 256)
    (h1 : s.ari.low.toNat ≤ s.ari.value.toNat)
    (hc : modelCum occ sym ≤ scaledValue s.ari.low.toNat s.ari.high.toNat s.ari.value.toNat (modelCum occ 257))
    (hd : scaledValue s.ari.low.toNat s.ari.high.toNat s.ari.value.toNat (modelCum occ 257) < modelCum occ (sym + 1))
    (r : Rescales (narrowLow s.ari.low.toNat s.ari.high.toNat (modelCum occ sym) (modelCum occ 257))
      (narrowHigh s.ari.low.toNat s.ari.high.toNat (modelCum occ (sym + 1)) (modelCum occ 257)) cs l h)
    (hlen : cs.length ≤ 32) :
    consumeSymbol sym s =
        .ok ⟨⟩ ((s.afterRead cs.length).setAri
          { s.ari with
            low := BitVec.ofNat 32 l, high := BitVec.ofNat 32 h
            value := BitVec.ofNat 32 (rescaleValue s.ari.value.toNat cs (s.inBits cs.length)) }) ∧
      l ≤ rescaleValue s.ari.value.toNat cs (s.inBits cs.length) ∧
      rescaleValue s.ari.value.toNat cs (s.inBits cs.length) ≤ h := by
  obtain ⟨n1, n2, n3⟩ := hm.narrow_bounds hs hsym
  have hb := s.ari.high.isLt
  have ht := modelCum_lt occ (show 0 < 257 by omega)
  obtain ⟨v1, v2⟩ := scaledValue_narrow h1 (show 0 < modelCum occ 257 by omega) hc hd
  exact r.decodes rescalePasses (s.setAri (s.ari.narrow sym))
    (by
      show (s.ari.narrow sym).low.toNat = _
      rw [narrow_eq hm hsym]
      exact toNat_ofNat32 (by omega))
    (by
      show (s.ari.narrow sym).high.toNat = _
      rw [narrow_eq hm hsym]
      exact toNat_ofNat32 (by omega))
    hlen v1 v2

/-! ### The table (R313, R322) -/

theorem observed_eq {a : Arith} {occ : Nat → Nat} (h : ∀ i, i < 256 → (a.occAt i).toNat = occ i) :
    a.observed = observedSymbols occ := by
  unfold Arith.observed observedSymbols
  apply List.filter_congr
  intro i hi
  rw [← h i (List.mem_range.1 hi), decide_eq_decide]
  constructor
  · intro hne h0
    exact hne (BitVec.eq_of_toNat_eq h0)
  · intro hne h0
    exact hne (by rw [h0]; rfl)

theorem emits_forEach_mem {α : Type} {body : α → Cmd Unit} {f : α → List Bool} :
    (l : List α) → (∀ x ∈ l, Emits (body x) (f x)) → Emits (forEach l body) (l.flatMap f)
  | [], _ => emits_pure
  | x :: xs, h =>
    (h x (List.mem_cons_self ..)).bind (emits_forEach_mem xs fun y hy => h y (List.mem_cons_of_mem _ hy))

/-- ARI_WRTBL's table (R313). -/
theorem emits_writeTable {a : Arith} {occ : Nat → Nat} (h : ∀ i, i < 256 → (a.occAt i).toNat = occ i) :
    Emits (writeTable a) (tableBits occ) := by
  unfold writeTable tableBits tableEntryBits
  rw [observed_eq h]
  refine (emits_writeBits _ 16).bind (emits_forEach_mem _ fun i hi => (emits_writeBits _ 8).bind ?_)
  have hi := observedSymbols_lt hi
  have e : a.occAt i = BitVec.ofNat 32 (occ i) := by
    apply BitVec.eq_of_toNat_eq
    rw [← h i hi, BitVec.ofNat_toNat, BitVec.setWidth_eq]
  rw [e]
  exact emits_writeBits _ 32

/-- The bits of one table entry (R134). -/
def entryBits (occ : Nat → Nat) (i : Nat) : List Bool :=
  wordBits (BitVec.ofNat 32 i) 8 ++ wordBits (BitVec.ofNat 32 (occ i)) 32

theorem length_entryBits (occ : Nat → Nat) (l : List Nat) : (l.flatMap (entryBits occ)).length = 40 * l.length := by
  induction l with
  | nil => rfl
  | cons x xs ih =>
    rw [List.flatMap_cons, List.length_append, ih, List.length_cons]
    unfold entryBits
    rw [List.length_append, length_wordBits, length_wordBits]
    omega

/-- The counts of the symbols `l` put into a table. -/
def putEntries (occ : Nat → Nat) (st : Store Word) : List Nat → Store Word
  | [] => st
  | x :: xs => putEntries occ (st.put x (BitVec.ofNat 32 (occ x))) xs

theorem putEntries_read (occ : Nat → Nat) (st : Store Word) (l : List Nat) (i : Nat) :
    (putEntries occ st l).read (unwrittenWord .occ) i =
      if i ∈ l then BitVec.ofNat 32 (occ i) else st.read (unwrittenWord .occ) i := by
  induction l generalizing st with
  | nil => simp [putEntries]
  | cons x xs ih =>
    unfold putEntries
    rw [ih, Store.read_put]
    by_cases h : i ∈ xs
    · rw [if_pos h, if_pos (List.mem_cons_of_mem _ h)]
    · rw [if_neg h]
      by_cases hx : x = i
      · subst hx
        rw [if_pos rfl, if_pos (List.mem_cons_self ..)]
      · rw [if_neg hx, if_neg (by simp [h, Ne.symm hx])]

/-- `ReadEntries`' loop on the bits of increasing symbols with non-zero counts (R322). -/
theorem readEntriesFrom_run (occ : Nat → Nat) (l : List Nat) :
    ∀ (least sum : Nat) (s : State), l.Pairwise (· < ·) →
      (∀ x ∈ l, least ≤ x ∧ x < 256 ∧ occ x ≠ 0 ∧ occ x < 2 ^ 32) →
      s.inBits (40 * l.length) = l.flatMap (entryBits occ) →
      readEntriesFrom l.length least sum s =
        .ok (sum + (l.map occ).sum)
          ((s.afterRead (40 * l.length)).setAri { s.ari with occ := putEntries occ s.ari.occ l }) := by
  induction l with
  | nil =>
    intro least sum s _ _ _
    show EStateM.Result.ok sum s = EStateM.Result.ok sum ((s.afterRead 0).setAri s.ari)
    rw [State.afterRead_zero]
    rfl
  | cons x xs ih =>
    intro least sum s hp hl hb
    obtain ⟨hle, hx, hne, hlt⟩ := hl x (List.mem_cons_self ..)
    have hp' := List.pairwise_cons.1 hp
    have hlen : 40 * (x :: xs).length = 8 + (32 + 40 * xs.length) := by rw [List.length_cons]; omega
    rw [hlen, State.inBits_add, State.inBits_add, List.flatMap_cons, entryBits, List.append_assoc] at hb
    obtain ⟨b1, hb⟩ := List.append_inj hb (by rw [State.length_inBits, length_wordBits])
    obtain ⟨b2, b3⟩ := List.append_inj hb (by rw [State.length_inBits, length_wordBits])
    rw [State.afterRead_add] at b3
    have v1 : (BitVec.ofNat 32 (bitsValue (s.inBits 8))).toNat = x := by
      rw [b1, bitsValue_wordBits, toNat_ofNat32 (by omega), toNat_ofNat32 (by omega)]
      omega
    have v2 : BitVec.ofNat 32 (bitsValue ((s.afterRead 8).inBits 32)) = BitVec.ofNat 32 (occ x) := by
      rw [b2, bitsValue_wordBits, toNat_ofNat32 hlt, Nat.mod_eq_of_lt hlt]
    have v3 : BitVec.ofNat 32 (occ x) ≠ 0 := by
      intro h0
      have := congrArg BitVec.toNat h0
      rw [toNat_ofNat32 hlt] at this
      exact hne this
    have hrun := ih (x + 1) (sum + occ x)
      ((s.afterRead 40).setAri { s.ari with occ := s.ari.occ.put x (BitVec.ofNat 32 (occ x)) }) hp'.2
      (fun y hy => ⟨hp'.1 y hy, (hl y (List.mem_cons_of_mem _ hy)).2⟩) b3
    rw [List.length_cons, readEntriesFrom, Cmd.bind_of_ok (readBits_run 8 s), Cmd.bind_of_ok (readBits_run 32 _),
      raiseIf_bind_run, v1, v2, if_neg (by rintro (h | h); exacts [absurd h (by omega), v3 h]), Cmd.modify_bind_run,
      toNat_ofNat32 hlt, State.afterRead_add]
    refine hrun.trans ?_
    rw [List.map_cons, List.sum_cons, Nat.add_assoc]
    congr 1
    show (((s.afterRead 40).afterRead (40 * xs.length)).setAri _ : State) = _
    rw [State.afterRead_add, show 40 * (xs.length + 1) = 40 + 40 * xs.length by omega]
    rfl

/-- `ReadEntries(k)` on the entries of a table whose counts sum to at most ARI_MAX (R322). -/
theorem readEntries_run {s : State} {occ : Nat → Nat} (hs : ((List.range 256).map occ).sum ≤ Config.ariMax)
    (hb : s.inBits (tableEntryBits occ).length = tableEntryBits occ) :
    ∃ st : Store Word,
      readEntries (observedSymbols occ).length s =
        .ok ((List.range 256).map occ).sum
          ((s.afterRead (tableEntryBits occ).length).setAri { s.ari with occ := st }) ∧
      ∀ i, i < 256 → (st.read (unwrittenWord .occ) i).toNat = occ i := by
  have hm : ((List.range 256).map occ).sum ≤ 0x3FFFFEFF := hs
  have hle : ∀ i, i < 256 → occ i ≤ ((List.range 256).map occ).sum := fun i hi =>
    List.le_sum_of_mem (List.mem_map.2 ⟨i, List.mem_range.2 hi, rfl⟩)
  have hlen : (tableEntryBits occ).length = 40 * (observedSymbols occ).length := length_entryBits occ _
  rw [hlen] at hb
  have hrun := readEntriesFrom_run occ (observedSymbols occ) 0 0
    (s.setAri { s.ari with occ := s.ari.occ.fill 256 0 })
    (List.Pairwise.sublist List.filter_sublist List.pairwise_lt_range)
    (fun x hx => by
      have hx' := observedSymbols_lt hx
      have := hle x hx'
      exact ⟨Nat.zero_le _, hx', by simpa [observedSymbols, hx'] using hx, by omega⟩) hb
  refine ⟨putEntries occ (s.ari.occ.fill 256 0) (observedSymbols occ), ?_, fun i hi => ?_⟩
  · unfold readEntries
    rw [Cmd.modify_bind_run, Cmd.bind_of_ok hrun, Nat.zero_add, sum_observedSymbols, raiseIf_bind_run,
      if_neg (by show ¬ _ > 0x3FFFFEFF; omega), hlen]
    rfl
  · rw [putEntries_read]
    by_cases h : i ∈ observedSymbols occ
    · rw [if_pos h]
      have := hle i hi
      exact toNat_ofNat32 (by omega)
    · rw [if_neg h, Store.read_of_written (v := 0) (by rw [Store.written_fill, if_pos hi])]
      unfold observedSymbols at h
      rw [List.mem_filter, List.mem_range, decide_eq_true_iff] at h
      have : occ i = 0 := by
        by_contra h0
        exact h ⟨hi, h0⟩
      rw [this]
      rfl

end Sys2Proof.Machine
end

