-- ==== Sys2Proof/Laws/Encoding.lean ====
section
/-! SUPPORT. The fields of a command word and the word of its fields (R120), and when a class accepts a word (R122). -/

namespace Sys2Proof

theorem opcField_commandWord (o : BitVec 8) (c : BitVec 6) (m : BitVec 16) : opcField (commandWord o c m) = o := by
  apply BitVec.eq_of_getLsbD_eq
  intro i hi
  unfold opcField commandWord
  simp [hi, show i < 32 by omega, show i < 16 by omega]

theorem cntField_commandWord (o : BitVec 8) (c : BitVec 6) (m : BitVec 16) : cntField (commandWord o c m) = c := by
  apply BitVec.eq_of_getLsbD_eq
  intro i hi
  unfold cntField commandWord
  simp [hi, show 8 + i < 32 by omega, show 8 + i < 16 by omega, show i < 32 by omega,
    BitVec.getLsbD_of_ge o (8 + i) (by omega)]

theorem rsvField_commandWord (o : BitVec 8) (c : BitVec 6) (m : BitVec 16) : rsvField (commandWord o c m) = 0 := by
  apply BitVec.eq_of_getLsbD_eq
  intro i hi
  unfold rsvField commandWord
  simp [show 14 + i < 32 by omega, show 14 + i < 16 by omega, BitVec.getLsbD_of_ge o (14 + i) (by omega),
    BitVec.getLsbD_of_ge c (14 + i - 8) (by omega)]

theorem immField_commandWord (o : BitVec 8) (c : BitVec 6) (m : BitVec 16) : immField (commandWord o c m) = m := by
  apply BitVec.eq_of_getLsbD_eq
  intro i hi
  unfold immField commandWord
  simp [hi, show 16 + i < 32 by omega, show i < 32 by omega, BitVec.getLsbD_of_ge o (16 + i) (by omega),
    BitVec.getLsbD_of_ge c (16 + i - 8) (by omega)]

/-- A word with RSV 0 is the word of its fields. -/
theorem commandWord_fields (w : Word) (h : rsvField w = 0) :
    commandWord (opcField w) (cntField w) (immField w) = w := by
  apply BitVec.eq_of_getLsbD_eq
  intro i hi
  have hr : ∀ j, j < 2 → w.getLsbD (14 + j) = false := by
    intro j hj
    have := congrArg (fun b => BitVec.getLsbD b j) h
    unfold rsvField at this
    simpa [hj] using this
  unfold commandWord opcField cntField immField
  simp only [BitVec.getLsbD_or, BitVec.getLsbD_setWidth, BitVec.getLsbD_shiftLeft, BitVec.getLsbD_extractLsb']
  by_cases h8 : i < 8
  · simp [hi, h8, show i < 16 by omega]
  · by_cases h14 : i < 14
    · simp [hi, h8, show i < 16 by omega, show i - 8 < 6 by omega, show i - 8 < 32 by omega,
        show 8 + (i - 8) = i by omega]
    · by_cases h16 : i < 16
      · have := hr (i - 14) (by omega)
        rw [show 14 + (i - 14) = i by omega] at this
        simp [h8, h16, this, show ¬ i - 8 < 6 by omega]
      · simp [hi, h8, h16, show ¬ i - 8 < 6 by omega, show i - 16 < 16 by omega, show i - 16 < 32 by omega,
          show 16 + (i - 16) = i by omega]

theorem legalIf_eq_ok {w : Word} {a b : Bool} {i j : Instr} :
    legalIf w a b i = .ok j ↔ rsvField w = 0 ∧ a = true ∧ b = true ∧ i = j := by
  unfold legalIf
  split
  · simp_all
  · split
    · simp_all
    · split
      · simp_all
      · simp_all

theorem setWidth_setWidth_eight (m : BitVec 16) (h : m.toNat ≤ 255) : (m.setWidth 8).setWidth 16 = m := by
  apply BitVec.eq_of_toNat_eq
  rw [BitVec.toNat_setWidth, BitVec.toNat_setWidth]
  omega

theorem setWidth_setWidth_nine (m : BitVec 16) (h : m.toNat ≤ 256) : (m.setWidth 9).setWidth 16 = m := by
  apply BitVec.eq_of_toNat_eq
  rw [BitVec.toNat_setWidth, BitVec.toNat_setWidth]
  omega

end Sys2Proof
end

