-- ==== Sys2Proof/Laws/Flags.lean ====
section
/-! SUPPORT. The bits of the words that flag registers read as (R33, R34, R45). -/

namespace Sys2Proof.Machine

/-- Bit `i` of a word made of bits is its `i`-th bit. -/
theorem getLsbD_wordOfBits (l : List Bool) (i : Nat) (h : i < 32) : (wordOfBits l).getLsbD i = l.getD i false := by
  induction l generalizing i with
  | nil => simp [wordOfBits]
  | cons b bs ih =>
    have e : bitWord b = (BitVec.ofBool b).setWidth 32 := by cases b <;> rfl
    unfold wordOfBits
    rw [e, BitVec.getLsbD_or, BitVec.getLsbD_shiftLeft, BitVec.getLsbD_setWidth]
    cases i with
    | zero => simp
    | succ i =>
      rw [Nat.add_sub_cancel, ih i (by omega)]
      simp [h]

theorem ctrlWord_ctrlOfWord (w : Word) : ctrlWord (ctrlOfWord w) = w &&& 0x1F := by
  apply BitVec.eq_of_getLsbD_eq
  intro i hi
  unfold ctrlWord ctrlOfWord
  rw [getLsbD_wordOfBits _ _ hi, BitVec.getLsbD_and]
  interval_cases i <;> simp

/-- A write to STATUS clears the write-one-to-clear bits written as 1 (R34). -/
theorem statusWord_writeOneToClear (s : State) (w : Word) :
    statusWord (s.setStatus (s.status.writeOneToClear w)) = statusWord s &&& ~~~(w &&& 0x3C2) := by
  apply BitVec.eq_of_getLsbD_eq
  intro i hi
  unfold statusWord Status.writeOneToClear
  rw [BitVec.getLsbD_and, getLsbD_wordOfBits _ _ hi, getLsbD_wordOfBits _ _ hi, BitVec.getLsbD_not,
    BitVec.getLsbD_and]
  interval_cases i <;> simp [State.setStatus]

end Sys2Proof.Machine
end

