-- ==== Sys2Proof/Laws/Host.lean ====
section
/-! SUPPORT. One step by its move: the core's, reset, a host read, a host write; and where an offset lies (R92). -/

namespace Sys2Proof.Machine

theorem step_idle_tape {s : State} (ht : s.tape = []) : step s = coreMove exec s := by
  unfold step nextStep
  rw [ht]

theorem step_core_eq {s : State} {rest : List Move} (ht : s.tape = .core :: rest) :
    step s = coreMove exec (s.setTape rest) := by
  unfold step nextStep
  rw [ht]
  rfl

theorem step_reset_eq {s : State} {rest : List Move} (ht : s.tape = .reset :: rest) :
    step s = .next (resetFrom (s.setTape rest)) := by
  unfold step nextStep
  rw [ht]
  rfl

theorem step_read_eq {s : State} {bits off : Nat} {rest : List Move} (ht : s.tape = .read bits off :: rest) :
    step s = hostRead bits off (s.setTape rest) := by
  unfold step nextStep
  rw [ht]
  rfl

theorem step_write_eq {s : State} {bits off : Nat} {w : Word} {rest : List Move}
    (ht : s.tape = .write bits off w :: rest) : step s = hostWrite bits off w (s.setTape rest) := by
  unfold step nextStep
  rw [ht]
  rfl

/-- The core's move while BUSY, for a word that the gate lets run and that decodes (R161). -/
theorem coreMove_of_decode {s t : State} {i : Instr} (hb : s.seq.phase = .busy) (hg : gated s = false)
    (hd : decode s.seq.cmdWord = .ok i) (he : exec i s = .next t) : coreMove exec s = .next (complete t) := by
  unfold coreMove commandStep
  rw [if_pos hb, hg, if_neg (by decide), hd]
  show completeOutcome (exec i s) = _
  rw [he]
  rfl

/-- The core's move (R161): whatever it runs, it ends in the completion of the skipped state, of the error completion on
it, or of a command's outcome. -/
theorem coreMove_cases {s t : State} (h : coreMove exec s = .next t) :
    (s.seq.phase = .idle ∧ t = s) ∨
      (s.seq.phase = .busy ∧
        (t = complete s ∨ t = complete (takeError .illegalCommand s) ∨ ∃ i u, exec i s = .next u ∧ t = complete u)) := by
  unfold coreMove at h
  split at h
  · rename_i hb
    refine .inr ⟨hb, ?_⟩
    unfold commandStep at h
    split at h
    · cases h
      exact .inl rfl
    · split at h
      · cases h
        exact .inr (.inl rfl)
      · rename_i i _
        cases hu : exec i s with
        | next u =>
          rw [hu] at h
          cases h
          exact .inr (.inr ⟨i, u, hu, rfl⟩)
        | fault f => rw [hu] at h; cases h
        | refused r => rw [hu] at h; cases h
  · rename_i hb
    cases h
    refine .inl ⟨?_, rfl⟩
    cases hp : s.seq.phase with
    | idle => rfl
    | busy => exact absurd hp hb

theorem placeOf_regs {off : Nat} (h : off < 0x10000) : placeOf off = .regs off := if_pos h

theorem placeOf_ext {i : Nat} (h : 0x10000 + i < 0x20000) : placeOf (0x10000 + i) = .extbuf i := by
  unfold placeOf
  rw [if_neg (by omega), if_pos h, Nat.add_sub_cancel_left]

theorem placeOf_ibuf {i : Nat} (h : 0x1000000 + i < 0x2000000) : placeOf (0x1000000 + i) = .ibuf i := by
  unfold placeOf
  rw [if_neg (by omega), if_neg (by omega), if_neg (by omega), if_pos h, Nat.add_sub_cancel_left]

theorem placeOf_obuf {i : Nat} (h : 0x2000000 + i < 0x3000000) : placeOf (0x2000000 + i) = .obuf i := by
  unfold placeOf
  rw [if_neg (by omega), if_neg (by omega), if_neg (by omega), if_neg (by omega), if_pos h, Nat.add_sub_cancel_left]

theorem busError_none_iff (p : Params) (hp : p.Ok) (bits off : Nat) :
    busError p bits (placeOf off) = none ↔ AccessAllowed p bits off := by
  obtain ⟨⟨h1, h2⟩, ⟨h3, h4⟩, h5⟩ := hp
  unfold Config.bufferLimit at h2 h4
  unfold placeOf AccessAllowed
  split
  · unfold busError
    simp only
    split
    · simp; omega
    · split
      · simp; omega
      · simp; omega
  · split
    · unfold busError; simp only
      split
      · simp; omega
      · split
        · simp; omega
        · simp; omega
    · split
      · simp [busError]; omega
      · split
        · unfold busError; simp only
          split
          · simp; omega
          · split
            · simp; omega
            · simp; omega
        · split
          · unfold busError; simp only
            split
            · simp; omega
            · split
              · simp; omega
              · simp; omega
          · simp [busError]; omega

theorem step_read {s t : State} {bits off : Nat} {rest : List Move} (ht : s.tape = .read bits off :: rest)
    (h : step s = .next t) :
    t = ((s.setTape rest).setBus (readPlace (s.setTape rest) (placeOf off))).setDraws (s.draws + 1) := by
  rw [step_read_eq ht] at h
  unfold hostRead at h
  split at h
  · cases h
  · cases h; rfl

theorem step_write {s t : State} {bits off : Nat} {w : Word} {rest : List Move}
    (ht : s.tape = .write bits off w :: rest) (h : step s = .next t) :
    t =
      if s.seq.phase = .busy then writeBusy (s.setTape rest) (placeOf off)
      else writeIdle w (s.setTape rest) (placeOf off) := by
  rw [step_write_eq ht] at h
  unfold hostWrite at h
  split at h
  · cases h
  · cases h; rfl

theorem offset_ofOffset (r : Reg) : Reg.ofOffset r.offset = some r := by cases r <;> decide +kernel

theorem offset_lt (r : Reg) : r.offset < 0x90 := by cases r <;> decide +kernel

theorem ofOffset_none {off : Nat} (h : 0x90 ≤ off) : Reg.ofOffset off = none := by
  unfold Reg.ofOffset
  rw [List.find?_eq_none]
  intro r _
  have := offset_lt r
  simp; omega

theorem readWindow_offset (s : State) (r : Reg) :
    readWindow s r.offset = if s.seq.phase = .busy then readRegBusy s r else readReg s r := by
  unfold readWindow
  rw [offset_ofOffset]

theorem readWindow_reserved (s : State) {off : Nat} (h : Reg.ofOffset off = none) : readWindow s off = 0 := by
  unfold readWindow
  rw [h]

theorem writeIdle_offset (w : Word) (s : State) (r : Reg) : writeIdle w s (.regs r.offset) = writeReg r w s := by
  show (match Reg.ofOffset r.offset with | none => s | some r => writeReg r w s) = _
  rw [offset_ofOffset]

/-- A register's offset is its own (R32). -/
theorem offset_of_ofOffset {off : Nat} {r : Reg} (h : Reg.ofOffset off = some r) : off = r.offset := by
  have := List.find?_some h
  exact (of_decide_eq_true this).symm

/-- A write to a read-only or reserved offset changes nothing (R32). -/
theorem writeIdle_ignored (w : Word) (s : State) {off : Nat} (h : WriteIgnored off) :
    writeIdle w s (.regs off) = s := by
  obtain ⟨-, h⟩ := h
  show (match Reg.ofOffset off with | none => s | some r => writeReg r w s) = s
  cases hr : Reg.ofOffset off with
  | none => rfl
  | some r =>
    have ho := offset_of_ofOffset hr
    subst ho
    cases r <;> first | rfl | exact absurd h (by decide)

end Sys2Proof.Machine
end

