-- ==== Sys2Proof/Laws/PerInstr.lean ====
section
/-! SUPPORT. The family FieldsPlaced, one lemma per command: its word meets the row of the opcode map that has its
mnemonic, and the operands the assembler writes are the word's CNT and IMM (R120 to R123, R126). -/

namespace Sys2Proof.Laws.FieldsPlaced

open Sys2Proof.Machine (CommandRow commandRows)

/-- The word of a well-formed command meets its row of the opcode map, and holds its operands. -/
def Statement (i : Instr) : Prop :=
  WellFormed i →
    (∃ r ∈ commandRows, r.name = mnemonic i ∧ r.Fits (encode i)) ∧
      ∀ n ∈ asmOperands i, n = (cntField (encode i)).toNat ∨ n = (immField (encode i)).toNat

/-- A word built from fields meets a row whose opcode it has and whose limits its operands keep. -/
theorem fits_commandWord {o : BitVec 8} {c : BitVec 6} {m : BitVec 16} {r : CommandRow} (ho : o.toNat = r.opc)
    (hc : c.toNat ≤ r.cntMax) (hm : m.toNat ≤ r.immMax) : r.Fits (commandWord o c m) := by
  unfold CommandRow.Fits
  rw [opcField_commandWord, rsvField_commandWord, cntField_commandWord, immField_commandWord]
  exact ⟨ho, rfl, hc, hm⟩

theorem toNat_setWidth_sixteen_of_eight (sym : BitVec 8) : (sym.setWidth 16).toNat = sym.toNat := by
  have := sym.isLt
  rw [BitVec.toNat_setWidth]
  omega

theorem setWidth_sixteen_le_of_eight (sym : BitVec 8) : (sym.setWidth 16).toNat ≤ 255 := by
  have := sym.isLt
  rw [toNat_setWidth_sixteen_of_eight]
  omega

theorem toNat_setWidth_sixteen_of_nine (sym : BitVec 9) : (sym.setWidth 16).toNat = sym.toNat := by
  have := sym.isLt
  rw [BitVec.toNat_setWidth]
  omega

theorem nop : Statement (.nop) := fun _ =>
  ⟨⟨Machine.rowZ 0x00 "NOP", by decide, rfl, fits_commandWord rfl (by decide) (by decide)⟩, by decide⟩

theorem argLo (imm : BitVec 16) : Statement (.argLo imm) := fun _ =>
  ⟨⟨Machine.rowImm 0x01 "ARG_LO" 0xFFFF, by decide, rfl, fits_commandWord rfl (by decide) (Nat.le_of_lt_succ imm.isLt)⟩,
    fun n hn => .inr (by rw [List.mem_singleton.1 hn]; exact congrArg _ (immField_commandWord _ _ _).symm)⟩

theorem argHi (imm : BitVec 16) : Statement (.argHi imm) := fun _ =>
  ⟨⟨Machine.rowImm 0x02 "ARG_HI" 0xFFFF, by decide, rfl, fits_commandWord rfl (by decide) (Nat.le_of_lt_succ imm.isLt)⟩,
    fun n hn => .inr (by rw [List.mem_singleton.1 hn]; exact congrArg _ (immField_commandWord _ _ _).symm)⟩

theorem clrErr : Statement (.clrErr) := fun _ =>
  ⟨⟨Machine.rowZ 0x03 "CLR_ERR", by decide, rfl, fits_commandWord rfl (by decide) (by decide)⟩, by decide⟩

theorem bsWinit : Statement (.bsWinit) := fun _ =>
  ⟨⟨Machine.rowZ 0x10 "BS_WINIT", by decide, rfl, fits_commandWord rfl (by decide) (by decide)⟩, by decide⟩

theorem bsWrite (cnt : BitVec 6) : Statement (.bsWrite cnt) := fun h =>
  ⟨⟨⟨0x11, "BS_WRITE", 32, 0⟩, by decide, rfl, fits_commandWord rfl (of_decide_eq_true h) (by decide)⟩,
    fun n hn => .inl (by rw [List.mem_singleton.1 hn]; exact congrArg _ (cntField_commandWord _ _ _).symm)⟩

theorem bsWritei (cnt : BitVec 6) (imm : BitVec 16) : Statement (.bsWritei cnt imm) := fun h =>
  ⟨⟨⟨0x12, "BS_WRITEI", 16, 0xFFFF⟩, by decide, rfl, fits_commandWord rfl (of_decide_eq_true h) (Nat.le_of_lt_succ imm.isLt)⟩,
    fun n hn => by
      rcases List.mem_cons.1 hn with rfl | hn
      · exact .inl (congrArg _ (cntField_commandWord _ _ _).symm)
      · exact .inr (by rw [List.mem_singleton.1 hn]; exact congrArg _ (immField_commandWord _ _ _).symm)⟩

theorem bsFlush : Statement (.bsFlush) := fun _ =>
  ⟨⟨Machine.rowZ 0x13 "BS_FLUSH", by decide, rfl, fits_commandWord rfl (by decide) (by decide)⟩, by decide⟩

theorem bsRinit : Statement (.bsRinit) := fun _ =>
  ⟨⟨Machine.rowZ 0x14 "BS_RINIT", by decide, rfl, fits_commandWord rfl (by decide) (by decide)⟩, by decide⟩

theorem bsRead (cnt : BitVec 6) : Statement (.bsRead cnt) := fun h =>
  ⟨⟨⟨0x15, "BS_READ", 32, 0⟩, by decide, rfl, fits_commandWord rfl (of_decide_eq_true h) (by decide)⟩,
    fun n hn => .inl (by rw [List.mem_singleton.1 hn]; exact congrArg _ (cntField_commandWord _ _ _).symm)⟩

theorem bsAlign : Statement (.bsAlign) := fun _ =>
  ⟨⟨Machine.rowZ 0x16 "BS_ALIGN", by decide, rfl, fits_commandWord rfl (by decide) (by decide)⟩, by decide⟩

theorem hufFreq : Statement (.hufFreq) := fun _ =>
  ⟨⟨Machine.rowZ 0x20 "HUF_FREQ", by decide, rfl, fits_commandWord rfl (by decide) (by decide)⟩, by decide⟩

theorem hufTree : Statement (.hufTree) := fun _ =>
  ⟨⟨Machine.rowZ 0x21 "HUF_TREE", by decide, rfl, fits_commandWord rfl (by decide) (by decide)⟩, by decide⟩

theorem hufCodes : Statement (.hufCodes) := fun _ =>
  ⟨⟨Machine.rowZ 0x22 "HUF_CODES", by decide, rfl, fits_commandWord rfl (by decide) (by decide)⟩, by decide⟩

theorem hufSertree : Statement (.hufSertree) := fun _ =>
  ⟨⟨Machine.rowZ 0x23 "HUF_SERTREE", by decide, rfl, fits_commandWord rfl (by decide) (by decide)⟩, by decide⟩

theorem hufDestree : Statement (.hufDestree) := fun _ =>
  ⟨⟨Machine.rowZ 0x24 "HUF_DESTREE", by decide, rfl, fits_commandWord rfl (by decide) (by decide)⟩, by decide⟩

theorem hufEncsym (sym : BitVec 8) : Statement (.hufEncsym sym) := fun _ =>
  ⟨⟨Machine.rowImm 0x25 "HUF_ENCSYM" 255, by decide, rfl, fits_commandWord rfl (by decide) (setWidth_sixteen_le_of_eight sym)⟩,
    fun n hn => .inr (by
      rw [List.mem_singleton.1 hn]
      exact (toNat_setWidth_sixteen_of_eight sym).symm.trans (congrArg _ (immField_commandWord _ _ _).symm))⟩

theorem hufDecsym : Statement (.hufDecsym) := fun _ =>
  ⟨⟨Machine.rowZ 0x26 "HUF_DECSYM", by decide, rfl, fits_commandWord rfl (by decide) (by decide)⟩, by decide⟩

theorem hufFreqRd (sym : BitVec 8) : Statement (.hufFreqRd sym) := fun _ =>
  ⟨⟨Machine.rowImm 0x27 "HUF_FREQ_RD" 255, by decide, rfl, fits_commandWord rfl (by decide) (setWidth_sixteen_le_of_eight sym)⟩,
    fun n hn => .inr (by
      rw [List.mem_singleton.1 hn]
      exact (toNat_setWidth_sixteen_of_eight sym).symm.trans (congrArg _ (immField_commandWord _ _ _).symm))⟩

theorem hufCodelen (sym : BitVec 8) : Statement (.hufCodelen sym) := fun _ =>
  ⟨⟨Machine.rowImm 0x28 "HUF_CODELEN" 255, by decide, rfl, fits_commandWord rfl (by decide) (setWidth_sixteen_le_of_eight sym)⟩,
    fun n hn => .inr (by
      rw [List.mem_singleton.1 hn]
      exact (toNat_setWidth_sixteen_of_eight sym).symm.trans (congrArg _ (immField_commandWord _ _ _).symm))⟩

theorem hufCompress : Statement (.hufCompress) := fun _ =>
  ⟨⟨Machine.rowZ 0x2E "HUF_COMPRESS", by decide, rfl, fits_commandWord rfl (by decide) (by decide)⟩, by decide⟩

theorem hufDecompress : Statement (.hufDecompress) := fun _ =>
  ⟨⟨Machine.rowZ 0x2F "HUF_DECOMPRESS", by decide, rfl, fits_commandWord rfl (by decide) (by decide)⟩, by decide⟩

theorem lzwEncReset : Statement (.lzwEncReset) := fun _ =>
  ⟨⟨Machine.rowZ 0x30 "LZW_ENC_RESET", by decide, rfl, fits_commandWord rfl (by decide) (by decide)⟩, by decide⟩

theorem lzwEncByte (sym : BitVec 8) : Statement (.lzwEncByte sym) := fun _ =>
  ⟨⟨Machine.rowImm 0x31 "LZW_ENC_BYTE" 255, by decide, rfl, fits_commandWord rfl (by decide) (setWidth_sixteen_le_of_eight sym)⟩,
    fun n hn => .inr (by
      rw [List.mem_singleton.1 hn]
      exact (toNat_setWidth_sixteen_of_eight sym).symm.trans (congrArg _ (immField_commandWord _ _ _).symm))⟩

theorem lzwEncEnd : Statement (.lzwEncEnd) := fun _ =>
  ⟨⟨Machine.rowZ 0x32 "LZW_ENC_END", by decide, rfl, fits_commandWord rfl (by decide) (by decide)⟩, by decide⟩

theorem lzwDecReset : Statement (.lzwDecReset) := fun _ =>
  ⟨⟨Machine.rowZ 0x33 "LZW_DEC_RESET", by decide, rfl, fits_commandWord rfl (by decide) (by decide)⟩, by decide⟩

theorem lzwDecCode : Statement (.lzwDecCode) := fun _ =>
  ⟨⟨Machine.rowZ 0x34 "LZW_DEC_CODE", by decide, rfl, fits_commandWord rfl (by decide) (by decide)⟩, by decide⟩

theorem lzwCompress : Statement (.lzwCompress) := fun _ =>
  ⟨⟨Machine.rowZ 0x3E "LZW_COMPRESS", by decide, rfl, fits_commandWord rfl (by decide) (by decide)⟩, by decide⟩

theorem lzwDecompress : Statement (.lzwDecompress) := fun _ =>
  ⟨⟨Machine.rowZ 0x3F "LZW_DECOMPRESS", by decide, rfl, fits_commandWord rfl (by decide) (by decide)⟩, by decide⟩

theorem ariModel : Statement (.ariModel) := fun _ =>
  ⟨⟨Machine.rowZ 0x40 "ARI_MODEL", by decide, rfl, fits_commandWord rfl (by decide) (by decide)⟩, by decide⟩

theorem ariWrtbl : Statement (.ariWrtbl) := fun _ =>
  ⟨⟨Machine.rowZ 0x41 "ARI_WRTBL", by decide, rfl, fits_commandWord rfl (by decide) (by decide)⟩, by decide⟩

theorem ariRdtbl : Statement (.ariRdtbl) := fun _ =>
  ⟨⟨Machine.rowZ 0x42 "ARI_RDTBL", by decide, rfl, fits_commandWord rfl (by decide) (by decide)⟩, by decide⟩

theorem ariEncInit : Statement (.ariEncInit) := fun _ =>
  ⟨⟨Machine.rowZ 0x43 "ARI_ENC_INIT", by decide, rfl, fits_commandWord rfl (by decide) (by decide)⟩, by decide⟩

theorem ariEncSym (sym : BitVec 9) : Statement (.ariEncSym sym) := fun h =>
  ⟨⟨Machine.rowImm 0x44 "ARI_ENC_SYM" 256, by decide, rfl, fits_commandWord rfl (by decide)
      ((toNat_setWidth_sixteen_of_nine sym).le.trans (of_decide_eq_true h))⟩,
    fun n hn => .inr (by
      rw [List.mem_singleton.1 hn]
      exact (toNat_setWidth_sixteen_of_nine sym).symm.trans (congrArg _ (immField_commandWord _ _ _).symm))⟩

theorem ariEncFlush : Statement (.ariEncFlush) := fun _ =>
  ⟨⟨Machine.rowZ 0x45 "ARI_ENC_FLUSH", by decide, rfl, fits_commandWord rfl (by decide) (by decide)⟩, by decide⟩

theorem ariDecInit : Statement (.ariDecInit) := fun _ =>
  ⟨⟨Machine.rowZ 0x46 "ARI_DEC_INIT", by decide, rfl, fits_commandWord rfl (by decide) (by decide)⟩, by decide⟩

theorem ariDecSym : Statement (.ariDecSym) := fun _ =>
  ⟨⟨Machine.rowZ 0x47 "ARI_DEC_SYM", by decide, rfl, fits_commandWord rfl (by decide) (by decide)⟩, by decide⟩

theorem ariCompress : Statement (.ariCompress) := fun _ =>
  ⟨⟨Machine.rowZ 0x4E "ARI_COMPRESS", by decide, rfl, fits_commandWord rfl (by decide) (by decide)⟩, by decide⟩

theorem ariDecompress : Statement (.ariDecompress) := fun _ =>
  ⟨⟨Machine.rowZ 0x4F "ARI_DECOMPRESS", by decide, rfl, fits_commandWord rfl (by decide) (by decide)⟩, by decide⟩

end Sys2Proof.Laws.FieldsPlaced
end

