-- ==== Sys2Proof/Tests/Slice0.lean ====
section
/-! SUPPORT. The model's own tests. Every expected value is the spec's: the encodings of R120 to R123, the vectors of
95_test_vectors.md (named in each comment) and hand evaluation of a rule. The witnesses at the end meet the hypotheses
of the statements. -/

set_option Elab.async false

namespace Sys2Proof.Tests

open Sys2Proof.Machine

/-! ### Well-formedness refuses (R122) -/

theorem test_wellFormed_refuses_bsWrite_33 : ¬ WellFormed (.bsWrite 33) := by decide
theorem test_wellFormed_refuses_bsWritei_17 : ¬ WellFormed (.bsWritei 17 0) := by decide
theorem test_wellFormed_refuses_bsRead_33 : ¬ WellFormed (.bsRead 33) := by decide
theorem test_wellFormed_refuses_ariEncSym_257 : ¬ WellFormed (.ariEncSym 257) := by decide
theorem test_wellFormed_accepts_the_limits :
    WellFormed (.bsWrite 32) ∧ WellFormed (.bsWritei 16 0xFFFF) ∧ WellFormed (.bsRead 32) ∧
      WellFormed (.ariEncSym 256) := by decide

/-! ### Decoding, word by word (R120 to R123; 95_test_vectors.md Conventions) -/

theorem test_decode_control :
    decode 0x00000000 = .ok .nop ∧ decode 0xBEEF0001 = .ok (.argLo 0xBEEF) ∧
      decode 0xDEAD0002 = .ok (.argHi 0xDEAD) ∧ decode 0x00000003 = .ok .clrErr := by decide +kernel

theorem test_decode_bitstream :
    decode 0x00000010 = .ok .bsWinit ∧ decode 0x00002011 = .ok (.bsWrite 32) ∧
      decode 0x00050312 = .ok (.bsWritei 3 5) ∧ decode 0x00000013 = .ok .bsFlush ∧
      decode 0x00000014 = .ok .bsRinit ∧ decode 0x00000315 = .ok (.bsRead 3) ∧
      decode 0x00000016 = .ok .bsAlign := by decide +kernel

theorem test_decode_huffman :
    decode 0x00000020 = .ok .hufFreq ∧ decode 0x00000021 = .ok .hufTree ∧ decode 0x00000022 = .ok .hufCodes ∧
      decode 0x00000023 = .ok .hufSertree ∧ decode 0x00000024 = .ok .hufDestree ∧
      decode 0x00410025 = .ok (.hufEncsym 0x41) ∧ decode 0x00000026 = .ok .hufDecsym ∧
      decode 0x00410027 = .ok (.hufFreqRd 0x41) ∧ decode 0x00420028 = .ok (.hufCodelen 0x42) ∧
      decode 0x0000002E = .ok .hufCompress ∧ decode 0x0000002F = .ok .hufDecompress := by decide +kernel

theorem test_decode_lzw :
    decode 0x00000030 = .ok .lzwEncReset ∧ decode 0x00410031 = .ok (.lzwEncByte 0x41) ∧
      decode 0x00000032 = .ok .lzwEncEnd ∧ decode 0x00000033 = .ok .lzwDecReset ∧
      decode 0x00000034 = .ok .lzwDecCode ∧ decode 0x0000003E = .ok .lzwCompress ∧
      decode 0x0000003F = .ok .lzwDecompress := by decide +kernel

theorem test_decode_arithmetic :
    decode 0x00000040 = .ok .ariModel ∧ decode 0x00000041 = .ok .ariWrtbl ∧ decode 0x00000042 = .ok .ariRdtbl ∧
      decode 0x00000043 = .ok .ariEncInit ∧ decode 0x01000044 = .ok (.ariEncSym 256) ∧
      decode 0x00000045 = .ok .ariEncFlush ∧ decode 0x00000046 = .ok .ariDecInit ∧
      decode 0x00000047 = .ok .ariDecSym ∧ decode 0x0000004E = .ok .ariCompress ∧
      decode 0x0000004F = .ok .ariDecompress := by decide +kernel

/-- L2-CTL-7: unlisted opcodes. -/
theorem test_decode_refuses_unlisted :
    decode 0x04 = .error .unlistedOpcode ∧ decode 0x0F = .error .unlistedOpcode ∧
      decode 0x17 = .error .unlistedOpcode ∧ decode 0x29 = .error .unlistedOpcode ∧
      decode 0x35 = .error .unlistedOpcode ∧ decode 0x48 = .error .unlistedOpcode ∧
      decode 0x50 = .error .unlistedOpcode ∧ decode 0xFF = .error .unlistedOpcode := by decide +kernel

/-- L2-CTL-8 to 16: a field outside its class. -/
theorem test_decode_refuses_fields :
    decode 0x00004000 = .error .reservedNotZero ∧ decode 0x00008000 = .error .reservedNotZero ∧
      decode 0x00004001 = .error .reservedNotZero ∧ decode 0x00000100 = .error .cntOutOfRange ∧
      decode 0x00002111 = .error .cntOutOfRange ∧ decode 0x00001112 = .error .cntOutOfRange ∧
      decode 0x00002115 = .error .cntOutOfRange ∧ decode 0x00010000 = .error .immOutOfRange ∧
      decode 0x01010044 = .error .immOutOfRange ∧ decode 0x01000031 = .error .immOutOfRange ∧
      decode 0x00010003 = .error .immOutOfRange := by decide +kernel

theorem test_decodeTableWord : decodeTableWord 32 0x00050312 = some (.bsWritei 3 5) := by decide +kernel

/-! ### Small states and what is read off them -/

/-- The state after a command; a command always answers one (R406). -/
def after (i : Instr) (s : State) : State :=
  match exec i s with
  | .next t => t
  | .fault _ => s
  | .refused _ => s

theorem exec_after (i : Instr) (s : State) : exec i s = .next (after i s) := by
  unfold after
  rw [exec_eq_runCmd]
  obtain ⟨t, -, h⟩ | ⟨e, t, -, h⟩ := runCmd_cases (commandOf i) s <;> rw [h]

/-- The state one step later. -/
def afterStep (s : State) : State :=
  match step s with
  | .next t => t
  | .fault _ => s
  | .refused _ => s

theorem step_answers {s : State} {rest : List Move} (h : s.tape = .core :: rest) : ∃ t, step s = .next t := by
  rw [step_core_eq h]
  unfold coreMove
  split
  · unfold commandStep
    split
    · exact ⟨_, rfl⟩
    · split
      · exact ⟨_, rfl⟩
      · rw [exec_after]
        exact ⟨_, rfl⟩
  · exact ⟨_, rfl⟩

theorem step_afterStep {s : State} {rest : List Move} (h : s.tape = .core :: rest) : step s = .next (afterStep s) := by
  obtain ⟨t, ht⟩ := step_answers h
  unfold afterStep
  rw [ht]

/-- Reset with the bytes `l` loaded ("Load X" of 95_test_vectors.md). -/
def load (l : List Byte) : State :=
  (State.reset.setIbuf (State.reset.ibuf.load l)).setInLen (BitVec.ofNat 32 l.length)

/-- The same with the reader at offset 0 (BS_RINIT with ARG 0). -/
def reading (l : List Byte) : State := (load l).setReader { ptr := 0, bit := 0, fin := BitVec.ofNat 32 l.length }

/-- Reset with the command word `w` accepted, the host's moves `tape` to come. -/
def busyWith (w : Word) (tape : List Move) : State := (acceptCommand w State.reset).setTape tape

/-- The same with ERR set by a CORRUPT_TREE. -/
def errWith (w : Word) (tape : List Move) : State :=
  ((busyWith w tape).setStatus { (busyWith w tape).status with err := true }).setErr
    { code := .corruptTree, cmd := 0x24, pos := 0 }

/-- BS_WSTATE. -/
def wstate (s : State) : Word := readReg s .bsWstate

/-- The valid bits as the host reads them. -/
def validBits (s : State) : Word := readReg s .unitValid

/-! ### Control (L2-CTL) -/

theorem test_nop : (after .nop (load [1])).arg = 0 ∧ (after .nop (load [1])).inLen = 1 := by decide +kernel
theorem test_argLo : (after (.argLo 0xBEEF) (State.reset.setArg 0x12345678)).arg = 0x1234BEEF := by decide +kernel
theorem test_argHi : (after (.argHi 0xDEAD) (State.reset.setArg 0x1234BEEF)).arg = 0xDEADBEEF := by decide +kernel
theorem test_clrErr :
    (after .clrErr (errWith 3 [])).status.err = false ∧ (after .clrErr (errWith 3 [])).err.code = .noError ∧
      (after .clrErr (errWith 3 [])).err.cmd = 0 := by decide +kernel

/-! ### Bit stream (L2-BS, L3-P1) -/

/-- A writer that holds the bits 101. -/
def heldBits : State := State.reset.setWriter { acc := 5, nbits := 3, outLen := 0 }

theorem test_bsWinit : (after .bsWinit heldBits).writer = { acc := 0, nbits := 0, outLen := 0 } := by decide +kernel
theorem test_bsWrite :
    (after (.bsWrite 32) (heldBits.setArg 0xDEADBEEF)).outBytes = [0xBB, 0xD5, 0xB7, 0xDD] ∧
      wstate (after (.bsWrite 32) (heldBits.setArg 0xDEADBEEF)) = 0x307 := by decide +kernel
theorem test_bsWritei : wstate (after (.bsWritei 3 5) State.reset) = 0x305 := by decide +kernel
theorem test_bsWritei_low_bits_only : wstate (after (.bsWritei 3 0xFFFD) State.reset) = 0x305 := by decide +kernel
theorem test_bsFlush :
    (after .bsFlush (State.reset.setWriter { acc := 0x1F, nbits := 5, outLen := 0 })).outBytes = [0xF8] := by
  decide +kernel
theorem test_bsRinit :
    (after .bsRinit ((load [1, 2, 3, 4]).setArg 9)).reader = { ptr := 9, bit := 0, fin := 4 } := by decide +kernel
theorem test_bsRead :
    (after (.bsRead 3) (reading [0xB0])).res = 5 ∧ (after (.bsRead 3) (reading [0xB0])).reader.bit = 3 := by
  decide +kernel
theorem test_bsRead_past_the_end :
    (after (.bsRead 12) (reading [0xB0])).res = 0xB00 ∧ (after (.bsRead 12) (reading [0xB0])).status.rdOvr = true ∧
      (after (.bsRead 12) (reading [0xB0])).reader.ptr = 1 := by decide +kernel
theorem test_bsAlign :
    (after .bsAlign ((reading [0xA5]).setReader { ptr := 0, bit := 4, fin := 1 })).reader =
      { ptr := 1, bit := 0, fin := 1 } := by decide +kernel

/-! ### Huffman (L2-HUF) -/

/-- "AAAB" counted (L2-HUF-S1). -/
def counted : State := after .hufFreq (load [0x41, 0x41, 0x41, 0x42])
/-- Reset with the tree of "AAAB" in the node store (L2-HUF-S2). -/
def built : State :=
  (State.reset.setHuf
    { State.reset.huf with
      node := State.reset.huf.node.load [.leaf 0x41, .leaf 0x42, .internal 1 0], nodeCnt := 3, root := 2 }).setValid
    { UnitValid.cleared with tree := true }
/-- Its codes made (L2-HUF-S3). -/
def coded : State := after .hufCodes built

theorem test_hufFreq :
    counted.huf.freqAt 0x41 = 3 ∧ counted.huf.freqAt 0x42 = 1 ∧ counted.huf.freqAt 0x43 = 0 ∧
      validBits counted = 1 := by decide +kernel
theorem test_hufTree :
    (after .hufTree counted).huf.nodeAt 0 = .leaf 0x41 ∧ (after .hufTree counted).huf.nodeAt 1 = .leaf 0x42 ∧
      (after .hufTree counted).huf.nodeAt 2 = .internal 1 0 ∧ (after .hufTree counted).huf.nodeCnt = 3 ∧
      (after .hufTree counted).huf.root = 2 ∧ validBits (after .hufTree counted) = 3 := by decide +kernel
theorem test_hufCodes :
    coded.huf.codeAt 0x41 = [true] ∧ coded.huf.codeAt 0x42 = [false] ∧ validBits coded = 6 := by decide +kernel
theorem test_hufSertree :
    (after .hufSertree built).outBytes = [0x50, 0xA8] ∧ wstate (after .hufSertree built) = 0x301 := by decide +kernel
theorem test_hufDestree :
    (after .hufDestree (reading [0x50, 0xA8, 0x20])).huf.nodeAt 0 = .internal 1 2 ∧
      (after .hufDestree (reading [0x50, 0xA8, 0x20])).huf.nodeAt 1 = .leaf 0x42 ∧
      (after .hufDestree (reading [0x50, 0xA8, 0x20])).huf.nodeAt 2 = .leaf 0x41 ∧
      (after .hufDestree (reading [0x50, 0xA8, 0x20])).huf.nodeCnt = 3 ∧
      validBits (after .hufDestree (reading [0x50, 0xA8, 0x20])) = 2 := by decide +kernel
theorem test_hufEncsym : wstate (after (.hufEncsym 0x41) coded) = 0x101 := by decide +kernel
theorem test_hufEncsym_no_code :
    (after (.hufEncsym 0x43) coded).err.code = .stateError := by decide +kernel
/-- A state whose reader stands at the payload of "AAAB" under its tree (L2-HUF-S12). -/
def walking : State := (built.setIbuf (built.ibuf.load [0xE0])).setReader { ptr := 0, bit := 0, fin := 1 }
theorem test_hufDecsym :
    (after .hufDecsym walking).res = 0x41 ∧ (after .hufDecsym walking).reader.bit = 1 := by decide +kernel
theorem test_hufFreqRd : (after (.hufFreqRd 0x41) counted).res = 3 := by decide +kernel
theorem test_hufCodelen :
    (after (.hufCodelen 0x42) coded).res = 1 ∧ (after (.hufCodelen 0x43) coded).res = 0 := by decide +kernel
/-- L2-HUF-C4. -/
theorem test_hufCompress :
    (after .hufCompress (load [0x41, 0x41, 0x41, 0x42])).outBytes =
      [0x00, 0x00, 0x00, 0x00, 0x04, 0x50, 0xA8, 0x20, 0xE0, 0x04] := by decide +kernel
/-- L2-HUF-D3. -/
theorem test_hufDecompress :
    (after .hufDecompress (load [0x00, 0x00, 0x00, 0x00, 0x04, 0x50, 0xA8, 0x20, 0xE0, 0x04, 0x00])).outBytes =
      [0x41, 0x41, 0x41, 0x42] := by decide +kernel
/-- L2-HUF-E5. -/
theorem test_hufDecompress_short_payload :
    (after .hufDecompress (load [0x00, 0x00, 0x00, 0x00, 0x05, 0x50, 0xA8, 0x20, 0xE0, 0x04])).err.code =
        .corruptStream ∧
      (after .hufDecompress (load [0x00, 0x00, 0x00, 0x00, 0x05, 0x50, 0xA8, 0x20, 0xE0, 0x04])).err.pos = 8 := by
  decide +kernel

/-! ### LZW (L2-LZW) -/

/-- The encoder with "A" pending (L2-LZW-S2). -/
def pending : State := after (.lzwEncByte 0x41) (after .lzwEncReset State.reset)
/-- The encoder after "AB". -/
def learned : State := after (.lzwEncByte 0x42) pending

theorem test_lzwEncReset :
    (after .lzwEncReset State.reset).lzwE.next = 258 ∧ (after .lzwEncReset State.reset).lzwE.width = 9 ∧
      validBits (after .lzwEncReset State.reset) = 8 := by decide +kernel
theorem test_lzwEncByte_first :
    readReg pending .lzwEPat = 0x80000041 ∧ pending.writer.outLen = 0 ∧ wstate pending = 0 := by decide +kernel
theorem test_lzwEncByte_emits :
    learned.outBytes = [0x20] ∧ wstate learned = 0x101 ∧ learned.lzwE.next = 259 ∧
      learned.lzwE.entryAt 258 = { pre := 0x41, suf := 0x42 } ∧ readReg learned .lzwEPat = 0x80000042 := by
  decide +kernel
theorem test_lzwEncEnd :
    (after .lzwEncEnd learned).outBytes = [0x20, 0x90, 0xA0] ∧ validBits (after .lzwEncEnd learned) = 0 := by
  decide +kernel
/-- R403: LZW_FIXED12 set after "AB": the codes 66 and 256 in the 12 bits of their own command's flag, after one held
bit of code 65; U.E_WIDTH is not set again (R261). -/
theorem test_lzwEncEnd_flagChanged :
    (after .lzwEncEnd (learned.setCtrl { learned.ctrl with lzwFixed12 := true })).outBytes = [0x20, 0x82, 0x10, 0x80] ∧
      wstate (after .lzwEncEnd (learned.setCtrl { learned.ctrl with lzwFixed12 := true })) = 0x100 ∧
      (after .lzwEncEnd (learned.setCtrl { learned.ctrl with lzwFixed12 := true })).lzwE.width = 9 := by
  decide +kernel
/-- The decoder's session open, the codes 65, 257, 66, 258 to read (L2-LZW-S6). -/
def decoding : State := after .lzwDecReset (reading [0x20, 0xC0, 0x48, 0x50, 0x20])
theorem test_lzwDecReset : decoding.lzwD.next = 258 ∧ validBits decoding = 0x10 := by decide +kernel
theorem test_lzwDecCode :
    (after .lzwDecCode decoding).res = 65 ∧ (after .lzwDecCode decoding).outBytes = [0x41] ∧
      readReg (after .lzwDecCode decoding) .lzwDPrev = 0x80000041 := by decide +kernel
/-- L2-LZW-S6: CLEAR. -/
theorem test_lzwDecCode_clear :
    (after .lzwDecCode (after .lzwDecCode decoding)).res = 257 ∧
      readReg (after .lzwDecCode (after .lzwDecCode decoding)) .lzwDPrev = 0x00000041 := by decide +kernel
/-- L2-LZW-C5. -/
theorem test_lzwCompress :
    (after .lzwCompress (load [0x41, 0x42, 0x41, 0x42, 0x41, 0x42, 0x41, 0x42])).outBytes =
      [0x00, 0x00, 0x00, 0x00, 0x00, 0x08, 0x01, 0x00, 0x00, 0x00, 0x07, 0x20, 0x90, 0xA0, 0x50, 0x42, 0x14, 0x00] := by
  decide +kernel
/-- L2-LZW-C2: the stored form. -/
theorem test_lzwCompress_stored :
    (after .lzwCompress (load [0x41])).outBytes = [0x00, 0x00, 0x00, 0x00, 0x00, 0x01, 0x00, 0x41] ∧
      (after .lzwCompress (load [0x41])).status.stored = true := by decide +kernel
/-- L2-LZW-C9 decoded. -/
theorem test_lzwDecompress :
    (after .lzwDecompress
      (load [0x00, 0x00, 0x00, 0x00, 0x00, 0x04, 0x01, 0x00, 0x00, 0x00, 0x05, 0x20, 0xC0, 0x88, 0x30, 0x00])).outBytes =
      [0x41, 0x41, 0x41, 0x41] := by decide +kernel
/-- L2-LZW-E10. -/
theorem test_lzwDecompress_past_n :
    (after .lzwDecompress
      (load [0x00, 0x00, 0x00, 0x00, 0x00, 0x03, 0x01, 0x00, 0x00, 0x00, 0x05, 0x20, 0x90, 0xA0, 0x50, 0x40])).err.pos =
      14 := by decide +kernel

/-! ### Arithmetic coder (L2-ARI) -/

/-- Reset with the model of "A" in the RAMs (L2-ARI-S1). -/
def modelled : State :=
  (State.reset.setAri
    { State.reset.ari with
      occ := State.reset.ari.occ.load ((List.range 256).map fun i => if i = 0x41 then 1 else 0)
      cnt := State.reset.ari.cnt.load ((List.range 257).map fun i => if i = 0x41 then 2 else 1)
      cum := State.reset.ari.cum.load ((List.range 258).map fun i => BitVec.ofNat 32 (if i ≤ 0x41 then i else i + 1))
      total := 258 }).setValid
    { UnitValid.cleared with ariModel := true }
/-- Its encoder's session open (L2-ARI-S3). -/
def encoding : State := after .ariEncInit modelled
/-- Its decoder's session open on `42 7A` (L2-ARI-S7). -/
def ranging : State :=
  after .ariDecInit ((modelled.setIbuf (modelled.ibuf.load [0x42, 0x7A])).setReader { ptr := 0, bit := 0, fin := 2 })

theorem test_ariModel :
    (after .ariModel (load [0x41])).ari.occAt 0x41 = 1 ∧ (after .ariModel (load [0x41])).ari.cumAt 0x41 = 65 ∧
      (after .ariModel (load [0x41])).ari.cumAt 0x42 = 67 ∧ (after .ariModel (load [0x41])).ari.cumAt 257 = 258 ∧
      (after .ariModel (load [0x41])).ari.total = 258 ∧ validBits (after .ariModel (load [0x41])) = 0x20 := by
  decide +kernel
theorem test_ariWrtbl : (after .ariWrtbl modelled).outBytes = [0x00, 0x01, 0x41, 0x00, 0x00, 0x00, 0x01] := by
  decide +kernel
theorem test_ariRdtbl :
    (after .ariRdtbl (reading [0x00, 0x01, 0x41, 0x00, 0x00, 0x00, 0x01])).ari.cumAt 0x42 = 67 ∧
      (after .ariRdtbl (reading [0x00, 0x01, 0x41, 0x00, 0x00, 0x00, 0x01])).ari.total = 258 := by decide +kernel
theorem test_ariEncInit : encoding.ari.high = 0xFFFFFFFF ∧ validBits encoding = 0x60 := by decide +kernel
theorem test_ariEncSym :
    (after (.ariEncSym 0x41) encoding).ari.low = 0x1FC07F00 ∧
      (after (.ariEncSym 0x41) encoding).ari.high = 0x9EC27AFF ∧
      wstate (after (.ariEncSym 0x41) encoding) = 0x610 := by decide +kernel
theorem test_ariEncFlush :
    validBits (after .ariEncFlush (after (.ariEncSym 256) (after (.ariEncSym 0x41) encoding))) = 0x20 ∧
      (after .bsFlush (after .ariEncFlush (after (.ariEncSym 256) (after (.ariEncSym 0x41) encoding)))).outBytes =
        [0x42, 0x7A] := by decide +kernel
theorem test_ariDecInit :
    ranging.ari.value = 0x427A0000 ∧ ranging.reader.ptr = 4 ∧ ranging.status.rdOvr = true ∧
      validBits ranging = 0xA0 := by decide +kernel
theorem test_ariDecSym :
    (after .ariDecSym ranging).res = 0x41 ∧ (after .ariDecSym ranging).ari.low = 0x1FC07F00 ∧
      (after .ariDecSym ranging).ari.value = 0x9E800000 ∧ (after .ariDecSym ranging).reader.bit = 6 := by
  decide +kernel
/-- VALUE at the top of the range is EOF's share (R319). -/
theorem test_ariDecSym_eof :
    (after .ariDecSym (ranging.setAri { ranging.ari with value := 0xFFFFFFFF })).res = 256 ∧
      validBits (after .ariDecSym (ranging.setAri { ranging.ari with value := 0xFFFFFFFF })) = 0x20 := by decide +kernel
/-- L2-ARI-C2. -/
theorem test_ariCompress :
    (after .ariCompress (load [0x41])).outBytes =
      [0x00, 0x00, 0x00, 0x00, 0x00, 0x00, 0x01, 0x00, 0x01, 0x41, 0x00, 0x00, 0x00, 0x01, 0x42, 0x7A] := by
  decide +kernel
/-- L2-ARI-C2 decoded. -/
theorem test_ariDecompress :
    (after .ariDecompress
      (load [0x00, 0x00, 0x00, 0x00, 0x00, 0x00, 0x01, 0x00, 0x01, 0x41, 0x00, 0x00, 0x00, 0x01, 0x42, 0x7A])).outBytes =
      [0x41] := by decide +kernel

/-! ### The frame (L2-ERR, L2-RST) -/

/-- L2-CTL-7 from reset. -/
theorem test_illegal_word :
    (afterStep (busyWith 4 [.core])).err = { code := .illegalCommand, cmd := 4, pos := 0 } ∧
      statusWord (afterStep (busyWith 4 [.core])) = 0x006 := by decide +kernel
/-- L3-P5 step 3. -/
theorem test_gated : statusWord (afterStep (errWith 0x2F [.core])) = 0x006 := by decide +kernel
/-- L2-ERR-1. -/
theorem test_state_error :
    (afterStep (busyWith 0x21 [.core])).err = { code := .stateError, cmd := 0x21, pos := 0 } := by decide +kernel
/-- L2-RST-1. -/
theorem test_reset_registers :
    readWindow State.reset 0x000 = 0x43550001 ∧ readWindow State.reset 0x004 = 4 ∧
      readWindow State.reset 0x054 = 258 ∧ readWindow State.reset 0x064 = 9 ∧
      readWindow State.reset 0x070 = 0xFFFFFFFF ∧ readWindow State.reset 0x084 = 4096 ∧
      irq State.reset = false := by decide +kernel
theorem test_withFetchWord :
    (afterStep (State.reset.withFetchWord 32 0xBEEF0001)).arg = 0x0000BEEF ∧
      statusWord (afterStep (State.reset.withFetchWord 32 0xBEEF0001)) = 0x002 := by decide +kernel

/-! ### Witnesses: states and operands that meet the statements' hypotheses -/

/-- The machine answers a next state. -/
def answers (s : State) : Bool :=
  match step s with
  | .next _ => true
  | .fault _ => false
  | .refused _ => false

theorem step_of_answers {s : State} (h : answers s = true) : step s = .next (afterStep s) := by
  unfold answers at h
  unfold afterStep
  split at h <;> simp_all

/-- Reset with one host move to come. -/
def hostMove (m : Move) : State := State.reset.setTape [m]

/-- A writer with one byte out and the bits 101 held. -/
def oneByteOut : State :=
  (State.reset.setObuf (State.reset.obuf.put 0 0x41)).setWriter { acc := 5, nbits := 3, outLen := 1 }

theorem witness_DecodeInvertsEncode : WellFormed (.ariEncSym 256) ∧ WellFormed (.bsWrite 0) := by decide

theorem witness_EncodeInvertsDecode : decode 0xFFFF1012 = .ok (.bsWritei 16 0xFFFF) := by decide +kernel

theorem illegal_of_error {w : Word} {r : Reject} (h : decode w = .error r) : Illegal w := by
  intro i hi
  rw [h] at hi
  cases hi

theorem witness_LegalWordsAreTheOpcodeMap :
    (decode 0x00002011 = .ok (.bsWrite 32) ∧
      { opc := 0x11, name := "BS_WRITE", cntMax := 32, immMax := 0 } ∈ commandRows ∧
      CommandRow.Fits { opc := 0x11, name := "BS_WRITE", cntMax := 32, immMax := 0 } 0x00002011) ∧
      (busyWith 0x100 [.core]).seq.phase = .busy ∧ (busyWith 0x100 [.core]).tape = [.core] ∧
      Illegal (busyWith 0x100 [.core]).seq.cmdWord :=
  ⟨⟨by decide +kernel, by decide, by unfold CommandRow.Fits; decide⟩, rfl, rfl,
    illegal_of_error (r := Reject.cntOutOfRange) (by decide +kernel)⟩

/-- No move left, and a `core` move; the word that runs though ERR is set. -/
theorem witness_StepRunsTheDecodedCommand :
    ((busyWith 0xBEEF0001 []).seq.phase = .busy ∧ decode (busyWith 0xBEEF0001 []).seq.cmdWord = .ok (.argLo 0xBEEF) ∧
      (busyWith 0xBEEF0001 []).status.err = false ∧ (busyWith 0xBEEF0001 []).tape = [] ∧
      exec (.argLo 0xBEEF) (busyWith 0xBEEF0001 []) = .next (after (.argLo 0xBEEF) (busyWith 0xBEEF0001 []))) ∧
    ((errWith 3 [.core]).seq.phase = .busy ∧ decode (errWith 3 [.core]).seq.cmdWord = .ok .clrErr ∧
      (errWith 3 [.core]).tape = [.core] ∧
      exec .clrErr ((errWith 3 [.core]).setTape []) = .next (after .clrErr ((errWith 3 [.core]).setTape []))) :=
  ⟨⟨rfl, by decide +kernel, rfl, rfl, exec_after ..⟩, rfl, by decide +kernel, rfl, exec_after ..⟩

theorem witness_CompletionKeepsTheResult : oneByteOut.Sound where
  params := by decide
  ibufWf := by decide
  obufWf := by decide
  extbufWf := by decide
  ibufSize := by decide
  obufSize := by decide
  extbufSize := by decide
  outLen := by decide
  output := fun a ha => by
    have : a = 0 := by
      have : oneByteOut.writer.outLen.toNat = 1 := rfl
      omega
    subst this
    rfl
  tidy := by unfold Writer.Tidy; decide
  rdEnd := by decide
  busy := by decide
  noError := by decide
  anError := by decide

theorem witness_ErrGateIgnoresCommands :
    ((errWith 0x2F []).seq.phase = .busy ∧ (errWith 0x2F []).status.err = true ∧
      (errWith 0x2F []).seq.cmdWord ≠ 0x00000003 ∧ (errWith 0x2F []).tape = []) ∧
    ((errWith 0x103 [.core]).seq.phase = .busy ∧ (errWith 0x103 [.core]).status.err = true ∧
      (errWith 0x103 [.core]).seq.cmdWord ≠ 0x00000003 ∧ (errWith 0x103 [.core]).tape = [.core]) := by decide

theorem witness_CommandAcceptance :
    ((hostMove (.write 32 0x18 7)).tape = [.write 32 0x18 7] ∧ (hostMove (.write 32 0x18 7)).seq.phase = .idle) ∧
      ((busyWith 0 [.write 32 0x18 7]).tape = [.write 32 0x18 7] ∧
        (busyWith 0 [.write 32 0x18 7]).seq.phase = .busy) ∧
      ((busyWith 0 [.core]).tape = [.core] ∧ (busyWith 0 [.core]).seq.phase = .busy) ∧
      (hostMove .core).tape = [.core] ∧ (hostMove .core).seq.phase = .idle := by decide

/-- HUF_TREE with no table counted raises. -/
theorem witness_ErrorCompletionSavesAndDiscards :
    exec .hufTree State.reset = .next (after .hufTree State.reset) ∧ State.reset.status.err = false ∧
      (after .hufTree State.reset).status.err = true := ⟨exec_after .., rfl, by decide +kernel⟩

theorem witness_CommandsLeaveTheHostsState :
    exec .bsWinit (busyWith 0x10 []) = .next (after .bsWinit (busyWith 0x10 [])) ∧
      ∀ imm, Instr.bsWinit ≠ .argLo imm ∧ Instr.bsWinit ≠ .argHi imm := ⟨exec_after .., by simp⟩

/-- A command that writes neither RES nor ORIG_SIZE, and a compress that ends well. -/
theorem witness_RegistersHaveTheirWriters :
    (exec .bsFlush heldBits = .next (after .bsFlush heldBits) ∧ heldBits.status.err = false ∧
      Instr.bsFlush.writesRes = false ∧ Instr.bsFlush.wholeBuffer = false ∧ Instr.bsFlush ≠ .lzwDecompress ∧
      Instr.bsFlush ≠ .ariDecompress ∧ Instr.bsFlush ≠ .clrErr ∧ (after .bsFlush heldBits).status.err = false) ∧
    (exec .lzwCompress (load [0x41]) = .next (after .lzwCompress (load [0x41])) ∧
      (load [0x41]).status.err = false ∧ (after .lzwCompress (load [0x41])).status.err = false) :=
  ⟨⟨exec_after .., rfl, rfl, rfl, by simp, by simp, by simp, by decide +kernel⟩, exec_after .., rfl,
    by decide +kernel⟩

theorem witness_StatusBitsByCommand :
    exec .nop (reading [0xB0]) = .next (after .nop (reading [0xB0])) ∧
      (after (.bsRead 12) (reading [0xB0])).status.rdOvr = true := ⟨exec_after .., by decide +kernel⟩

theorem witness_MissingStateRaisesStateError :
    (∀ i ∈ [Instr.hufTree, Instr.hufCodes, Instr.hufSertree, Instr.hufEncsym 0, Instr.hufDecsym, Instr.hufFreqRd 0,
      Instr.hufCodelen 0, Instr.lzwEncByte 0], i.needs State.reset.valid = false) ∧
    ∀ i ∈ [Instr.lzwEncEnd, Instr.lzwDecCode, Instr.ariWrtbl, Instr.ariEncSym 256, Instr.ariEncFlush, Instr.ariDecSym],
      i.needs State.reset.valid = false := by decide

theorem witness_WholeBufferCommandsEndClean :
    Instr.hufCompress.wholeBuffer = true ∧ exec .hufCompress (load []) = .next (after .hufCompress (load [])) :=
  ⟨rfl, exec_after ..⟩

/-- The first and last location of every space, and the nearest ones outside, unaligned or of the wrong width. -/
theorem witness_BusErrorsAreExactlyTheBadAccesses :
    State.reset.params.Ok ∧ (hostMove (.read 32 0)).tape = [.read 32 0] ∧
      (hostMove (.write 8 0x10000 7)).tape = [.write 8 0x10000 7] ∧
      (∀ a ∈ [(32, 0), (32, 0xFFFC), (8, 0x10000), (8, 0x1003F), (8, 0x1000000), (8, 0x1000FFF), (8, 0x2000000),
        (8, 0x2000FFF)], AccessAllowed Params.standard a.1 a.2) ∧
      ∀ a ∈ [(32, 0xFFFE), (8, 0xFFFC), (8, 0x10040), (32, 0x1000000), (8, 0x1001000), (8, 0x2001000), (8, 0x3000000)],
        ¬ AccessAllowed Params.standard a.1 a.2 := by
  refine ⟨by decide, rfl, rfl, ?_, ?_⟩ <;> unfold AccessAllowed <;> decide

/-- A read of each register window edge and of the first and last byte of every buffer, while IDLE. -/
theorem witness_ReadsHaveNoSideEffect :
    ∀ a ∈ [(32, Reg.id.offset), (32, Reg.extMaxR.offset), (32, 0x90), (32, 0xFFFC), (8, 0x10000), (8, 0x1003F),
      (8, 0x1000000), (8, 0x1000FFF), (8, 0x2000000), (8, 0x2000FFF)],
      (hostMove (.read a.1 a.2)).tape = [.read a.1 a.2] ∧ (hostMove (.read a.1 a.2)).seq.phase = .idle ∧
        step (hostMove (.read a.1 a.2)) = .next (afterStep (hostMove (.read a.1 a.2))) := by
  have key : ∀ a ∈ [(32, Reg.id.offset), (32, Reg.extMaxR.offset), (32, 0x90), (32, 0xFFFC), (8, 0x10000),
      (8, 0x1003F), (8, 0x1000000), (8, 0x1000FFF), (8, 0x2000000), (8, 0x2000FFF)],
      answers (hostMove (.read a.1 a.2)) = true := by decide +kernel
  exact fun a ha => ⟨rfl, rfl, step_of_answers (key a ha)⟩

/-- A write of every named register, of ignored offsets at their edges, and of each buffer's first and last byte. -/
theorem witness_WritesHaveTheirLocationsEffect :
    State.reset.params.Ok ∧ WriteIgnored 0 ∧ WriteIgnored 0x90 ∧ WriteIgnored 0xFFFC ∧
      ∀ a ∈ [(32, 0x004), (32, 0x008), (32, 0x01C), (32, 0x024), (32, 0x02C), (32, 0), (32, 0x90), (32, 0xFFFC),
        (8, 0x10000), (8, 0x1003F), (8, 0x1000000), (8, 0x1000FFF), (8, 0x2000000), (8, 0x2000FFF)],
        (hostMove (.write a.1 a.2 0x11F)).tape = [.write a.1 a.2 0x11F] ∧
          (hostMove (.write a.1 a.2 0x11F)).seq.phase = .idle ∧
          step (hostMove (.write a.1 a.2 0x11F)) = .next (afterStep (hostMove (.write a.1 a.2 0x11F))) := by
  have key : ∀ a ∈ [(32, 0x004), (32, 0x008), (32, 0x01C), (32, 0x024), (32, 0x02C), (32, 0), (32, 0x90),
      (32, 0xFFFC), (8, 0x10000), (8, 0x1003F), (8, 0x1000000), (8, 0x1000FFF), (8, 0x2000000), (8, 0x2000FFF)],
      answers (hostMove (.write a.1 a.2 0x11F)) = true := by decide +kernel
  exact ⟨by decide, by unfold WriteIgnored; decide, by unfold WriteIgnored; decide, by unfold WriteIgnored; decide,
    fun a ha => ⟨rfl, rfl, step_of_answers (key a ha)⟩⟩

theorem witness_AccessesWhileBusy :
    (∀ a ∈ [(32, 0x000), (32, 0x084), (32, 0x088), (32, 0x08C), (32, 0x008)],
      (busyWith 0 [.read a.1 a.2]).tape = [.read a.1 a.2] ∧ (busyWith 0 [.read a.1 a.2]).seq.phase = .busy ∧
        step (busyWith 0 [.read a.1 a.2]) = .next (afterStep (busyWith 0 [.read a.1 a.2]))) ∧
    ∀ a ∈ [(32, 0x000), (32, 0x01C), (32, 0xFFFC), (8, 0x10000), (8, 0x2000FFF)],
      (busyWith 0 [.write a.1 a.2 7]).tape = [.write a.1 a.2 7] ∧ (busyWith 0 [.write a.1 a.2 7]).seq.phase = .busy ∧
        step (busyWith 0 [.write a.1 a.2 7]) = .next (afterStep (busyWith 0 [.write a.1 a.2 7])) := by
  have reads : ∀ a ∈ [(32, 0x000), (32, 0x084), (32, 0x088), (32, 0x08C), (32, 0x008)],
      answers (busyWith 0 [.read a.1 a.2]) = true := by decide +kernel
  have writes : ∀ a ∈ [(32, 0x000), (32, 0x01C), (32, 0xFFFC), (8, 0x10000), (8, 0x2000FFF)],
      answers (busyWith 0 [.write a.1 a.2 7]) = true := by decide +kernel
  exact ⟨fun a ha => ⟨rfl, rfl, step_of_answers (reads a ha)⟩, fun a ha => ⟨rfl, rfl, step_of_answers (writes a ha)⟩⟩

theorem witness_ResetValues :
    (busyWith 0x2F [.reset]).tape = [.reset] ∧ 0 ∉ parameterOffsets ∧ 0x90 ∉ parameterOffsets ∧
      0x90 ∉ resetNonZero.map Prod.fst := by decide

theorem witness_InterruptOutput :
    ((busyWith 0 [.core]).seq.phase = .busy ∧ step (busyWith 0 [.core]) = .next (afterStep (busyWith 0 [.core]))) ∧
      ∀ off ∈ [0x008, 0x018, 0x004], (hostMove (.write 32 off 0x12)).seq.phase = .idle ∧
        step (hostMove (.write 32 off 0x12)) = .next (afterStep (hostMove (.write 32 off 0x12))) := by
  have key : ∀ off ∈ [0x008, 0x018, 0x004], answers (hostMove (.write 32 off 0x12)) = true := by decide +kernel
  exact ⟨⟨rfl, step_afterStep rfl⟩, fun off h => ⟨rfl, step_of_answers (key off h)⟩⟩

/-- The same with BS_FLUSH accepted. -/
def flushing : State := acceptCommand 0x13 oneByteOut

theorem witness_StepKeepsSound : flushing.Sound ∧ step flushing = .next (afterStep flushing) where
  left := { witness_CompletionKeepsTheResult with
    busy := by decide, noError := by decide, anError := by decide, tidy := by unfold Writer.Tidy; decide }
  right := step_of_answers (by decide +kernel)

theorem witness_InvariantsHoldAtReset : Params.standard.Ok := by decide

/-! Bit stream -/

theorem witness_WriteCommandsAppendBits :
    WellFormed (.bsWrite 32) ∧ heldBits.Room 32 ∧ WellFormed (.bsWrite 0) ∧ heldBits.Room 0 ∧
      WellFormed (.bsWritei 16 0xFFFF) ∧ heldBits.Room 16 := by
  unfold State.Room
  decide

theorem witness_FlushPadsTheHeldBits :
    State.reset.writer.nbits = 0 ∧ heldBits.Room ((8 - heldBits.writer.nbits.toNat) % 8) := by
  unfold State.Room
  decide

/-- A full output, seven bits held. -/
def fullOutput : State := State.reset.setWriter { acc := 0x7F, nbits := 7, outLen := 4096 }

theorem witness_FullOutputRaisesIoFailure :
    fullOutput.params.Ok ∧ fullOutput.writer.outLen.toNat ≤ fullOutput.params.obufSize ∧ ¬ fullOutput.Room 1 ∧
      ¬ fullOutput.Room ((8 - fullOutput.writer.nbits.toNat) % 8) := by
  unfold State.Room
  decide

/-- IN_LEN one above IBUF_SIZE. -/
def longInput : State := State.reset.setInLen 4097

theorem witness_ReaderStart :
    (load [1]).inLen.toNat ≤ (load [1]).params.ibufSize ∧
      (State.reset.setInLen 4096).inLen.toNat ≤ (State.reset.setInLen 4096).params.ibufSize ∧
      longInput.params.ibufSize < longInput.inLen.toNat := by decide

theorem witness_ReaderCommands : WellFormed (.bsRead 0) ∧ WellFormed (.bsRead 32) := by decide

/-! Huffman -/

/-- The tree of "AAAB". -/
def treeAAAB : HTree := .internal (.leaf 0x42) (.leaf 0x41)

theorem built_tree : built.huf.tree = some treeAAAB := by decide +kernel

/-- A valid tree and its valid codes. -/
theorem witness_StepKeepsHufSound : (coded.setTape [.core]).HufSound ∧
    step (coded.setTape [.core]) = .next (afterStep (coded.setTape [.core])) where
  left :=
    { freq := by decide +kernel
      tree := fun _ => ⟨treeAAAB, by decide +kernel, by decide, by decide +kernel⟩
      codes := fun _ => by decide +kernel }
  right := step_afterStep rfl

theorem witness_HufFreqCounts :
    (load [0x41]).inLen.toNat ≤ (load [0x41]).params.ibufSize ∧ longInput.params.ibufSize < longInput.inLen.toNat := by
  decide

/-- "AAAB"'s counts, and a table of zeros. -/
def countAAAB (i : Nat) : Nat := if i = 0x41 then 3 else if i = 0x42 then 1 else 0

/-- An empty table. -/
def emptyTable : State :=
  (State.reset.setHuf { State.reset.huf with freq := State.reset.huf.freq.fill 256 0 }).setValid
    { UnitValid.cleared with freq := true }

theorem witness_HufTreeBuilds :
    (counted.valid.freq = true ∧ (∀ i, i < 256 → (counted.huf.freqAt i).toNat = countAAAB i) ∧
      ((List.range 256).map countAAAB).sum < 2 ^ 32 ∧ observedSymbols countAAAB ≠ []) ∧
    (emptyTable.valid.freq = true ∧ (∀ i, i < 256 → (emptyTable.huf.freqAt i).toNat = 0) ∧
      ((List.range 256).map fun _ => 0).sum < 2 ^ 32 ∧ observedSymbols (fun _ => 0) = []) := by
  refine ⟨⟨by decide +kernel, by decide +kernel, by decide +kernel, by decide +kernel⟩, rfl, fun i hi => ?_,
    by decide +kernel, by decide +kernel⟩
  have : emptyTable.huf.freq.written i = some 0 := by
    show (State.reset.huf.freq.fill 256 0).written i = some 0
    rw [Store.written_fill, if_pos hi]
  unfold Huffman.freqAt
  rw [Store.read_of_written this]
  rfl

theorem witness_HufCodesArePaths : built.valid.tree = true ∧ built.huf.tree = some treeAAAB := ⟨rfl, built_tree⟩

theorem witness_HufSertreeWritesTheTree :
    built.valid.tree = true ∧ built.huf.tree = some treeAAAB ∧ built.Room (treeBits treeAAAB).length := by
  refine ⟨rfl, built_tree, ?_⟩
  unfold State.Room
  decide

theorem true_mem_treeBits (T : HTree) : true ∈ treeBits T := by
  induction T with
  | leaf v => simp [treeBits]
  | internal l r ihl _ => simp [treeBits, ihl]

/-- Past the input every bit is 0, and no tree's bits are all 0. -/
theorem witness_HufDestreeRebuilds :
    (treeAAAB.nodes ≤ 511 ∧
      (reading [0x50, 0xA8, 0x20]).inBits (treeBits treeAAAB).length = treeBits treeAAAB) ∧
    ∀ T : HTree, T.nodes ≤ 511 → State.reset.inBits (treeBits T).length ≠ treeBits T := by
  refine ⟨by decide +kernel, fun T _ h => ?_⟩
  have hm := true_mem_treeBits T
  rw [← h] at hm
  obtain ⟨i, -, hi⟩ := List.mem_map.1 hm
  simp [State.inBit, State.reset, State.resetWith] at hi

theorem witness_HufEncsymWritesTheCode :
    coded.valid.codes = true ∧ coded.huf.codeAt (0x41 : Byte).toNat ≠ [] ∧
      coded.Room (coded.huf.codeAt (0x41 : Byte).toNat).length ∧ coded.huf.codeAt (0x43 : Byte).toNat = [] := by
  refine ⟨by decide +kernel, by decide +kernel, ?_, by decide +kernel⟩
  unfold State.Room
  decide +kernel

theorem witness_HufDecsymWalksTheTree : walking.valid.tree = true ∧ walking.huf.tree = some treeAAAB := by
  decide +kernel

theorem witness_HufObservers : counted.valid.freq = true ∧ coded.valid.codes = true := by decide +kernel

theorem witness_HufCodesArePrefixFree :
    (load [0x41, 0x42]).inLen.toNat ≤ (load [0x41, 0x42]).params.ibufSize ∧
      exec .hufFreq (load [0x41, 0x42]) = .next (after .hufFreq (load [0x41, 0x42])) ∧
      exec .hufTree (after .hufFreq (load [0x41, 0x42])) =
        .next (after .hufTree (after .hufFreq (load [0x41, 0x42]))) ∧
      (after .hufTree (after .hufFreq (load [0x41, 0x42]))).status.err = false ∧
      exec .hufCodes (after .hufTree (after .hufFreq (load [0x41, 0x42]))) =
        .next (after .hufCodes (after .hufTree (after .hufFreq (load [0x41, 0x42])))) :=
  ⟨by decide, exec_after .., exec_after .., by decide +kernel, exec_after ..⟩

theorem builtFrom_A : BuiltFrom (fun i => if i = 0x41 then 1 else 0) (.leaf 0x41) := by
  unfold BuiltFrom
  have : sprouts (fun i => if i = 0x41 then 1 else 0) = [{ weight := 1, rank := 0, tree := .leaf 0x41 }] := by
    decide +kernel
  rw [this]
  exact Grown.single ..

theorem occurrences_A : occurrences [0x41] = fun i => if i = 0x41 then 1 else 0 := by
  funext i
  simp [occurrences, List.countP_cons]
  split <;> split <;> first | rfl | omega

/-- The empty input; and "A", under the tree BuildTree makes for it. -/
theorem witness_HufCompressWritesTheContainer :
    ((load []).inLen.toNat ≤ (load []).params.ibufSize ∧ (load []).input = [] ∧ (load []).Holds 48) ∧
    ((load [0x41]).inLen.toNat ≤ (load [0x41]).params.ibufSize ∧ (load [0x41]).params.Ok ∧ (load [0x41]).input ≠ [] ∧
      BuiltFrom (occurrences (load [0x41]).input) (.leaf 0x41) ∧
      (load [0x41]).Holds (hufContainer (load [0x41]).ctrl.isbin (.leaf 0x41) (load [0x41]).input).length) := by
  have hi : (load [0x41]).input = [0x41] := by decide +kernel
  refine ⟨⟨by decide, rfl, by unfold State.Holds; decide⟩, by decide, by decide, by rw [hi]; simp, ?_, ?_⟩
  · rw [hi, occurrences_A]
    exact builtFrom_A
  · unfold State.Holds
    decide +kernel

/-- originalSize 0; a leaf root with one payload byte nobody reads; "AAAB" under an internal root (L2-HUF-D3). -/
theorem witness_HufDecompressReadsTheContainer :
    ((load [0, 0, 0, 0, 0, 0]).params.Ok ∧
      (load [0, 0, 0, 0, 0, 0]).inLen.toNat ≤ (load [0, 0, 0, 0, 0, 0]).params.ibufSize ∧
      (load [0, 0, 0, 0, 0, 0]).inputBits = byteBits 0 ++ wordBits 0 32 ++ byteBits 0) ∧
    ((load [0, 0, 0, 0, 3, 0xA0, 0x80, 0xFF, 7]).inputBits =
      byteBits 0 ++ wordBits 3 32 ++ (treeBits (.leaf 0x41) ++ List.replicate 7 false) ++ byteBits 0xFF ++ byteBits 7) ∧
    (treeAAAB.nodes ≤ 511 ∧ treeAAAB.Spells [true, true, true, false] [0x41, 0x41, 0x41, 0x42] ∧
      (load [0, 0, 0, 0, 4, 0x50, 0xA8, 0x20, 0xE0, 4]).inputBits =
        byteBits 0 ++ wordBits (BitVec.ofNat 32 4) 32 ++ (treeBits treeAAAB ++ List.replicate 5 false) ++
          ([true, true, true, false] ++ [] ++ List.replicate 4 false) ++ byteBits (BitVec.ofNat 8 4)) := by
  have a : treeAAAB.Reaches [true] 0x41 := .right (.leaf _)
  have b : treeAAAB.Reaches [false] 0x42 := .left (.leaf _)
  exact ⟨⟨by decide, by decide, by decide +kernel⟩, by decide +kernel, by decide,
    .cons a (.cons a (.cons a (.cons b .nil))), by decide +kernel⟩

/-- A block that holds the bytes `l`, the output of another, as its input. -/
theorem witness_HufRoundTrip :
    (load [0x41]).params.Ok ∧ (load [0x41]).inLen.toNat ≤ (load [0x41]).params.ibufSize ∧
      (load [0x41]).status.err = false ∧ exec .hufCompress (load [0x41]) = .next (after .hufCompress (load [0x41])) ∧
      (after .hufCompress (load [0x41])).status.err = false ∧
      HandsOver (after .hufCompress (load [0x41])) (load [0, 0, 0, 0, 1, 0xA0, 0x80, 0, 1])
        (load [0x41]).inLen.toNat := by
  have key : (after .hufCompress (load [0x41])).status.err = false ∧
      (load [0, 0, 0, 0, 1, 0xA0, 0x80, 0, 1]).inLen = (after .hufCompress (load [0x41])).writer.outLen ∧
      (load [0, 0, 0, 0, 1, 0xA0, 0x80, 0, 1]).input = (after .hufCompress (load [0x41])).outBytes := by decide +kernel
  exact ⟨by decide, by decide, rfl, exec_after .., key.1, by decide, key.2.1, by decide, key.2.2, by decide⟩

/-! LZW -/

theorem low_limit : 258 ≤ 4096 := by decide

theorem high_limit : 4096 ≤ 4096 := Nat.le_refl _

theorem noBit {P : Prop} (h : false = true) : P := absurd h Bool.false_ne_true

theorem letterCode {n : Nat} (h : 65 < n) : StringCode n 65 := ⟨h, by decide, by decide⟩

theorem one_code {P : Nat → Prop} (h : P 258) : ∀ c, 258 ≤ c → c < 259 → P c := by
  intro c h1 h2
  have : c = 258 := by omega
  exact this ▸ h

/-- A dictionary without an assigned code. -/
theorem no_code {P : Nat → Prop} : ∀ c, 258 ≤ c → c < 258 → P c := fun _ _ _ => by omega

/-- The encoder's state after "AB" without the bits it wrote: one code assigned, "B" pending. -/
def feeding : State :=
  (State.reset.setLzwE
    { State.reset.lzwE with
      dict := State.reset.lzwE.dict.put 258 { pre := 0x41, suf := 0x42 }
      next := 259, pat := 0x42, patV := true }).setValid
    { UnitValid.cleared with lzwE := true }

/-- The same with "A" pending. -/
def extending : State := feeding.setLzwE { feeding.lzwE with pat := 0x41 }

/-- The same with no pattern yet. -/
def opening : State := feeding.setLzwE { feeding.lzwE with patV := false }

theorem feeding_dict : feeding.lzwE.dict.written 258 = some { pre := 0x41, suf := 0x42 } := rfl

theorem feeding_dictOk : DictOk feeding.lzwE.dict 259 :=
  one_code ⟨_, feeding_dict, by decide, by decide, by decide⟩

theorem feeding_distinct : DictDistinct feeding.lzwE.dict 259 := fun c d h1 h2 h3 h4 _ => by omega

theorem fresh_next : 258 ≤ (258 : BitVec 13).toNat ∧ (258 : BitVec 13).toNat ≤ 4096 := ⟨Nat.le_refl _, low_limit⟩

theorem feeding_sound : feeding.LzwSound :=
  ⟨⟨by decide, by decide, by decide, fun _ => by unfold StringCode; decide⟩, fresh_next,
    fun _ => ⟨feeding_dictOk, feeding_distinct⟩, noBit⟩

theorem extending_sound : extending.LzwSound :=
  ⟨⟨by decide, by decide, by decide, fun _ => by unfold StringCode; decide⟩, fresh_next,
    fun _ => ⟨feeding_dictOk, feeding_distinct⟩, noBit⟩

theorem opening_sound : opening.LzwSound :=
  ⟨⟨by decide, by decide, by decide, noBit⟩, fresh_next,
    fun _ => ⟨feeding_dictOk, feeding_distinct⟩, noBit⟩

theorem witness_StepKeepsLzwSound : feeding.LzwSound ∧ step feeding = .next (afterStep feeding) :=
  ⟨feeding_sound, step_of_answers (by decide +kernel)⟩

/-- An entry for every code: the prefixes 0 to 14 with every byte, in order. -/
def fullEntry (c : Nat) : DictEntry :=
  { pre := BitVec.ofNat 12 ((c - 258) / 256), suf := BitVec.ofNat 8 ((c - 258) % 256) }

/-- The dictionary with every code assigned. -/
def fullDict (st : Store DictEntry) : Store DictEntry :=
  { st with cells := (List.range 4096).map fun c => (c, fullEntry c) }

theorem fullDict_written (st : Store DictEntry) {c : Nat} (h : c < 4096) :
    (fullDict st).written c = some (fullEntry c) := by
  show cellAt _ _ = _
  simp only [fullDict]
  rw [cellAt_range_map, if_pos h]

theorem fullDict_ok (st : Store DictEntry) : DictOk (fullDict st) 4096 := by
  intro c h1 h2
  have : (fullEntry c).pre.toNat = (c - 258) / 256 := by
    simp only [fullEntry, BitVec.toNat_ofNat]
    omega
  exact ⟨_, fullDict_written st h2, by omega, by omega, by omega⟩

theorem fullEntry_inj {c d : Nat} (h1 : 258 ≤ c) (h2 : c < 4096) (h3 : 258 ≤ d) (h4 : d < 4096)
    (h : fullEntry c = fullEntry d) : c = d := by
  have hp := congrArg (fun e => e.pre.toNat) h
  have hs := congrArg (fun e => e.suf.toNat) h
  simp only [fullEntry, BitVec.toNat_ofNat] at hp hs
  omega

theorem fullDict_distinct (st : Store DictEntry) : DictDistinct (fullDict st) 4096 := by
  intro c d h1 h2 h3 h4 h
  rw [fullDict_written st h2, fullDict_written st h4] at h
  exact fullEntry_inj h1 h2 h3 h4 (Option.some.inj h)

theorem fullDict_wf (st : Store DictEntry) : (fullDict st).wf := by
  show List.Pairwise _ _
  simp only [fullDict]
  rw [List.map_map]
  have : (Prod.fst ∘ fun c => (c, fullEntry c)) = id := rfl
  rw [this, List.map_id]
  exact List.pairwise_lt_range

/-- An encoder with a full dictionary, the literal 15 pending. -/
def brimming : State :=
  (State.reset.setLzwE
    { dict := fullDict State.reset.lzwE.dict, next := 4096, width := 12, pat := 15, patV := true }).setValid
    { UnitValid.cleared with lzwE := true }

theorem fullEnc_sound (d : Store DictEntry) :
    LzwEnc.Sound { dict := fullDict d, next := 4096, width := 12, pat := 15, patV := true } :=
  ⟨fullDict_wf d, ⟨low_limit, high_limit⟩, .inl rfl,
    fun _ => ⟨(by decide : 15 < 4096), (by decide : 15 ≠ 256), (by decide : 15 ≠ 257)⟩⟩

theorem brimming_sound : brimming.LzwSound where
  enc := fullEnc_sound State.reset.lzwE.dict
  decNext := fresh_next
  encDict := fun _ => ⟨fullDict_ok State.reset.lzwE.dict, fullDict_distinct State.reset.lzwE.dict⟩
  dec := noBit

/-- The four cases of the encoder. -/
theorem witness_LzwEncByteFeeds :
    (opening.valid.lzwE = true ∧ opening.LzwSound ∧ opening.lzwE.patV = false) ∧
    (extending.valid.lzwE = true ∧ extending.LzwSound ∧ extending.lzwE.patV = true ∧ 258 < extending.lzwE.next.toNat ∧
      extending.lzwE.entryAt 258 = { pre := extending.lzwE.pat, suf := 0x42 }) ∧
    (feeding.valid.lzwE = true ∧ feeding.LzwSound ∧ feeding.lzwE.patV = true ∧
      (∀ x, 258 ≤ x → x < feeding.lzwE.next.toNat → feeding.lzwE.entryAt x ≠ { pre := feeding.lzwE.pat, suf := 0x41 }) ∧
      feeding.lzwE.next.toNat < 4096 ∧
      (if feeding.ctrl.lzwFixed12 then 12 else widthFor feeding.lzwE.next.toNat) = 9 ∧ feeding.Room 9) ∧
    brimming.valid.lzwE = true ∧ brimming.LzwSound ∧ brimming.lzwE.patV = true ∧
      (∀ x, 258 ≤ x → x < brimming.lzwE.next.toNat →
        brimming.lzwE.entryAt x ≠ { pre := brimming.lzwE.pat, suf := 0x41 }) ∧
      brimming.lzwE.next.toNat = 4096 ∧
      (if brimming.ctrl.lzwFixed12 then 12 else widthFor brimming.lzwE.next.toNat) = 12 ∧
      brimming.Room (2 * 12) := by
  refine ⟨⟨rfl, opening_sound, rfl⟩, ⟨rfl, extending_sound, rfl, by decide, rfl⟩,
    ⟨rfl, feeding_sound, rfl, one_code (by decide +kernel), by decide, by decide, by unfold State.Room; decide⟩,
    rfl, brimming_sound, rfl, ?_, by decide, by decide, by unfold State.Room; decide⟩
  intro x h1 h2 h
  have hx : x < 4096 := h2
  have : brimming.lzwE.entryAt x = fullEntry x := Store.read_of_written (fullDict_written _ hx)
  rw [this] at h
  have hp := congrArg (fun e => e.pre.toNat) h
  have : (15 : BitVec 12).toNat = 15 := rfl
  simp only [fullEntry, BitVec.toNat_ofNat] at hp
  have : brimming.lzwE.pat.toNat = 15 := rfl
  omega

theorem witness_LzwEncEndCloses :
    feeding.valid.lzwE = true ∧ (if feeding.ctrl.lzwFixed12 then 12 else widthFor feeding.lzwE.next.toNat) = 9 ∧
      feeding.Room ((if feeding.lzwE.patV then 2 else 1) * 9) := by
  unfold State.Room
  decide

/-- The decoder's session open at the bytes `l`, the dictionary empty. -/
def decodingOf (l : List Byte) : State :=
  (reading l).setValid { UnitValid.cleared with lzwD := true }

theorem decodingOf_sound (l : List Byte) : (decodingOf l).LzwSound :=
  ⟨⟨List.Pairwise.nil, ⟨Nat.le_refl _, low_limit⟩, .inr rfl, noBit⟩,
    ⟨Nat.le_refl _, low_limit⟩, noBit, fun _ => ⟨⟨⟨Nat.le_refl _, low_limit⟩, noBit⟩, no_code⟩⟩

/-- The same with "A" the previous code: the next assigned code is 258. -/
def decodingAfterA (l : List Byte) : State :=
  (decodingOf l).setLzwD { (decodingOf l).lzwD with prev := 0x41, prevV := true }

theorem decodingAfterA_sound (l : List Byte) : (decodingAfterA l).LzwSound :=
  ⟨(decodingOf_sound l).enc, ⟨Nat.le_refl _, low_limit⟩, noBit,
    fun _ => ⟨⟨⟨Nat.le_refl _, low_limit⟩, fun _ => letterCode (by decide : 65 < 258)⟩, no_code⟩⟩

/-- The same with every code assigned. -/
def decodingFull (l : List Byte) : State :=
  (decodingOf l).setLzwD { dict := fullDict State.reset.lzwD.dict, next := 4096, prev := 0x41, prevV := true }

theorem decodingFull_sound (l : List Byte) : (decodingFull l).LzwSound :=
  ⟨(decodingOf_sound l).enc, ⟨low_limit, high_limit⟩, noBit,
    fun _ => ⟨⟨⟨low_limit, high_limit⟩, fun _ => letterCode (by decide : 65 < 4096)⟩, fullDict_ok _⟩⟩

/-- EOS, CLEAR, a literal into an empty decoder, a literal and a self-reference after "A", an invalid code, and an
insertion into a full dictionary. -/
theorem witness_LzwDecCodeResolves :
    ((decodingOf [0x80, 0x00]).valid.lzwD = true ∧ (decodingOf [0x80, 0x00]).LzwSound ∧
      bitsValue ((decodingOf [0x80, 0x00]).inBits 9) = 256 ∧ bitsValue ((decodingOf [0x80, 0x80]).inBits 9) = 257) ∧
    (bitsValue ((decodingOf [0x20, 0x80]).inBits 9) = 65 ∧ (decodingOf [0x20, 0x80]).lzwD.Resolves 65 [0x41] ∧
      (decodingOf [0x20, 0x80]).lzwD.prevV = false ∧ (decodingOf [0x20, 0x80]).Room 8) ∧
    ((decodingAfterA [0x21, 0x00]).valid.lzwD = true ∧ (decodingAfterA [0x21, 0x00]).LzwSound ∧
      bitsValue ((decodingAfterA [0x21, 0x00]).inBits 9) = 66 ∧
      (decodingAfterA [0x21, 0x00]).lzwD.Resolves 66 [0x42] ∧ (decodingAfterA [0x21, 0x00]).lzwD.prevV = true ∧
      (decodingAfterA [0x21, 0x00]).lzwD.next.toNat < 4096 ∧ (decodingAfterA [0x21, 0x00]).Room 8) ∧
    (bitsValue ((decodingAfterA [0x81, 0x00]).inBits 9) = 258 ∧
      (decodingAfterA [0x81, 0x00]).lzwD.Resolves 258 [0x41, 0x41] ∧ (decodingAfterA [0x81, 0x00]).Room 16) ∧
    (bitsValue ((decodingOf [0x96, 0x00]).inBits 9) = 300 ∧
      ∀ l, ¬ (decodingOf [0x96, 0x00]).lzwD.Resolves 300 l) ∧
    ((decodingFull [0x00, 0x00]).valid.lzwD = true ∧ (decodingFull [0x00, 0x00]).LzwSound ∧
      bitsValue ((decodingFull [0x00, 0x00]).inBits 12) = 0 ∧ (decodingFull [0x00, 0x00]).lzwD.Resolves 0 [0] ∧
      (decodingFull [0x00, 0x00]).lzwD.prevV = true ∧ (decodingFull [0x00, 0x00]).lzwD.next.toNat = 4096) := by
  refine ⟨⟨rfl, decodingOf_sound _, by decide +kernel, by decide +kernel⟩,
    ⟨by decide +kernel, .inl (.literal (by decide)), rfl, by unfold State.Room; decide⟩,
    ⟨rfl, decodingAfterA_sound _, by decide +kernel, .inl (.literal (by decide)), rfl, by decide,
      by unfold State.Room; decide⟩,
    ⟨by decide +kernel, .inr ⟨rfl, rfl, 0x41, [], .literal (by decide), rfl⟩, by unfold State.Room; decide⟩,
    ⟨by decide +kernel, ?_⟩,
    rfl, decodingFull_sound _, by decide +kernel, .inl (.literal (by decide)), rfl, by decide⟩
  rintro l (h | ⟨h, -, -⟩)
  · have hn : (decodingOf [0x96, 0x00]).lzwD.next.toNat = 258 := rfl
    rw [hn] at h
    cases h with
    | literal h => omega
    | entry h1 h2 _ => omega
  · have hn : (decodingOf [0x96, 0x00]).lzwD.next.toNat = 258 := rfl
    omega

theorem load_sound (l : List Byte) : (load l).LzwSound :=
  ⟨⟨List.Pairwise.nil, ⟨Nat.le_refl _, low_limit⟩, .inr rfl, noBit⟩,
    ⟨Nat.le_refl _, low_limit⟩, noBit, noBit⟩

/-- "ABABABAB", which compresses. -/
def abab : List Byte := [0x41, 0x42, 0x41, 0x42, 0x41, 0x42, 0x41, 0x42]

/-- The stored form, and the compressed one. -/
theorem witness_LzwCompressWritesTheContainer :
    ((load [0x41]).LzwSound ∧ (load [0x41]).inLen.toNat ≤ (load [0x41]).params.ibufSize ∧
      (load [0x41]).ext.len.toNat ≤ (load [0x41]).params.extMax ∧
      ((load [0x41]).ctrl.lzwFallbackEn &&
        decide ((load [0x41]).input.length ≤ lzwBytes (load [0x41]).ctrl.lzwFixed12 (load [0x41]).input)) = true ∧
      (load [0x41]).Holds (lzwStored (load [0x41]).extension (load [0x41]).input).length) ∧
    ((load abab).LzwSound ∧ (load abab).inLen.toNat ≤ (load abab).params.ibufSize ∧
      (load abab).ext.len.toNat ≤ (load abab).params.extMax ∧
      ((load abab).ctrl.lzwFallbackEn &&
        decide ((load abab).input.length ≤ lzwBytes (load abab).ctrl.lzwFixed12 (load abab).input)) = false ∧
      (load abab).Holds (lzwCompressed false (load abab).extension (load abab).input).length) := by
  refine ⟨⟨load_sound _, by decide, by decide, by decide +kernel, ?_⟩, load_sound _, by decide, by decide,
    by decide +kernel, ?_⟩ <;> unfold State.Holds <;> decide +kernel

/-- A stored container with an extension byte and a byte after it, and a compressed one. -/
theorem witness_LzwDecompressReadsTheContainer :
    ((load [0, 1, 0x58, 0, 0, 0, 1, 0, 0x41, 9]).params.Ok ∧
      (load [0, 1, 0x58, 0, 0, 0, 1, 0, 0x41, 9]).inLen.toNat ≤
        (load [0, 1, 0x58, 0, 0, 0, 1, 0, 0x41, 9]).params.ibufSize ∧
      (load [0, 1, 0x58, 0, 0, 0, 1, 0, 0x41, 9]).inputBits = lzwStored [0x58] [0x41] ++ byteBits 9) ∧
    (load [0, 0, 0, 0, 0, 1, 1, 0, 0, 0, 3, 0x20, 0xC0, 0x00]).inputBits = lzwCompressed false [] [0x41] ++ [] := by
  decide +kernel

theorem witness_LzwRoundTrip :
    (load [0x41]).params.Ok ∧ (load [0x41]).LzwSound ∧ (load [0x41]).inLen.toNat ≤ (load [0x41]).params.ibufSize ∧
      (load [0x41]).status.err = false ∧ exec .lzwCompress (load [0x41]) = .next (after .lzwCompress (load [0x41])) ∧
      (after .lzwCompress (load [0x41])).status.err = false ∧
      HandsOver (after .lzwCompress (load [0x41])) (load [0, 0, 0, 0, 0, 1, 0, 0x41]) (load [0x41]).inLen.toNat ∧
      (load [0, 0, 0, 0, 0, 1, 0, 0x41]).ctrl.lzwFixed12 = (load [0x41]).ctrl.lzwFixed12 :=
  ⟨by decide, load_sound _, by decide, rfl, exec_after .., by decide +kernel,
    ⟨by decide, by decide +kernel, by decide, by decide +kernel, by decide⟩, rfl⟩

/-! Arithmetic coder -/

/-- The occurrences of "A" alone. -/
def occA (i : Nat) : Nat := if i = 0x41 then 1 else 0

theorem modelled_holds : modelled.ari.HoldsModel occA where
  occurred := fun i hi => by
    have : modelled.ari.occ.written i = some (if i = 0x41 then 1 else 0) := by
      show (State.reset.ari.occ.load _).written i = _
      rw [Store.written_load]
      simp [hi]
    unfold Arith.occAt
    rw [Store.read_of_written this]
    unfold occA
    split <;> rfl
  cnt := fun i hi => by
    have : modelled.ari.cnt.written i = some (if i = 0x41 then 2 else 1) := by
      show (State.reset.ari.cnt.load _).written i = _
      rw [Store.written_load]
      simp [show i < 257 by omega]
    unfold Arith.cntAt
    rw [Store.read_of_written this]
    unfold modelCount occA
    split <;> split <;> first | rfl | omega
  cum := fun i hi => by
    have hw : modelled.ari.cum.written i = some (BitVec.ofNat 32 (if i ≤ 0x41 then i else i + 1)) := by
      show (State.reset.ari.cum.load _).written i = _
      rw [Store.written_load]
      simp [show i < 258 by omega]
    have key : ∀ j, j ≤ 257 → modelCum occA j = if j ≤ 0x41 then j else j + 1 := by
      intro j
      induction j with
      | zero => intro _; rfl
      | succ j ih =>
        intro hj
        have := ih (by omega)
        unfold modelCum at this ⊢
        rw [List.range_succ, List.map_append, List.sum_append, this]
        simp only [List.map_cons, List.map_nil, List.sum_cons, List.sum_nil, modelCount, occA]
        split <;> split <;> split <;> first | omega | (split <;> omega)
    unfold Arith.cumAt
    rw [Store.read_of_written hw, key i hi, BitVec.toNat_ofNat]
    split <;> omega
  total := by decide +kernel
  bound := by decide +kernel

theorem holds_of_same {a b : Arith} (h : b.HoldsModel occA)
    (e : (a.occ = b.occ ∧ a.cnt = b.cnt) ∧ a.cum = b.cum ∧ a.total = b.total) : a.HoldsModel occA := by
  obtain ⟨⟨e1, e2⟩, e3, e4⟩ := e
  exact
    { occurred := by unfold Arith.occAt; rw [e1]; exact h.occurred
      cnt := by unfold Arith.cntAt; rw [e2]; exact h.cnt
      cum := by unfold Arith.cumAt; rw [e3]; exact h.cum
      total := by rw [e4]; exact h.total
      bound := h.bound }

theorem holds_with_value {a : Arith} {occ : Nat → Nat} (h : a.HoldsModel occ) (v : Word) :
    ({ a with value := v } : Arith).HoldsModel occ := ⟨h.occurred, h.cnt, h.cum, h.total, h.bound⟩

theorem encoding_holds : encoding.ari.HoldsModel occA := holds_of_same modelled_holds (by decide +kernel)

theorem ranging_holds : ranging.ari.HoldsModel occA := holds_of_same modelled_holds (by decide +kernel)

/-- A valid model and an open decoder's session, between two symbols. -/
theorem ranging_sound : ranging.AriSound where
  model := fun _ => ⟨occA, ranging_holds⟩
  bounds := fun _ => by unfold Settled; decide +kernel
  value := fun _ => by decide +kernel
  single := .inl (by decide +kernel)

theorem witness_StepKeepsAriSound : ranging.AriSound ∧ step ranging = .next (afterStep ranging) :=
  ⟨ranging_sound, step_of_answers (by decide +kernel)⟩

theorem witness_AriModelPartitions :
    ((load [0x41]).params.Ok ∧ (load [0x41]).inLen.toNat ≤ (load [0x41]).params.ibufSize) ∧
      longInput.params.ibufSize < longInput.inLen.toNat ∧ modelled.ari.HoldsModel occA ∧
      257 < modelled.ari.total.toNat :=
  ⟨⟨by decide, by decide⟩, by decide, modelled_holds, by decide +kernel⟩

theorem witness_AriTables :
    (modelled.valid.ariModel = true ∧ modelled.ari.HoldsModel occA ∧ modelled.Room (tableBits occA).length) ∧
    (((List.range 256).map occA).sum ≤ Config.ariMax ∧
      (reading [0x00, 0x01, 0x41, 0x00, 0x00, 0x00, 0x01]).inBits (tableBits occA).length = tableBits occA) := by
  refine ⟨⟨rfl, modelled_holds, ?_⟩, by decide +kernel, by decide +kernel⟩
  unfold State.Room
  decide +kernel

/-- The rescale loop after "A" from the full range (L2-ARI-S4). -/
theorem rescales_A : Rescales 1082065404 1115359723 [.e1, .e2, .e1, .e1, .e1, .e1] 532709120 2663545599 :=
  .e1 (by decide) <| .e2 (by decide) (by decide) <| .e1 (by decide) <| .e1 (by decide) <| .e1 (by decide) <|
    .e1 (by decide) <| .exit (by decide) (by decide) (by decide)

/-- The rescale loop after EOF then. -/
theorem rescales_EOF :
    Rescales 2655286543 2663545599 [.e2, .e1, .e1, .e2, .e2, .e2, .e2, .e1] 1148522240 3262840831 :=
  .e2 (by decide) (by decide) <| .e1 (by decide) <| .e1 (by decide) <| .e2 (by decide) (by decide) <|
    .e2 (by decide) (by decide) <| .e2 (by decide) (by decide) <| .e2 (by decide) (by decide) <| .e1 (by decide) <|
    .exit (by decide) (by decide) (by decide)

theorem narrows_A :
    narrowLow 0 0xFFFFFFFF (modelCum occA 0x41) (modelCum occA 257) = 1082065404 ∧
      narrowHigh 0 0xFFFFFFFF (modelCum occA 0x42) (modelCum occA 257) = 1115359723 := by decide +kernel

theorem narrows_EOF :
    narrowLow 532709120 2663545599 (modelCum occA 256) (modelCum occA 257) = 2655286543 ∧
      narrowHigh 532709120 2663545599 (modelCum occA 257) (modelCum occA 257) = 2663545599 := by decide +kernel

theorem occurrences_occA : occurrences [0x41] = occA := by
  funext i
  simp [occurrences, occA, List.countP_cons]
  split <;> split <;> first | rfl | omega

/-- The stream of "A", `42 7A` (L2-ARI-C2). -/
theorem rangeStream_A : RangeStream [0x41] (bytesBits [0x42, 0x7A]) := by
  have first := rescales_A
  rw [← narrows_A.1, ← narrows_A.2] at first
  have second : Rescales (narrowLow 532709120 2663545599 (modelCum occA 256) (modelCum occA 257))
      (narrowHigh 532709120 2663545599 (modelCum occA 257) (modelCum occA 257))
      [.e2, .e1, .e1, .e2, .e2, .e2, .e2, .e1] 1148522240 3262840831 := by
    rw [narrows_EOF.1, narrows_EOF.2]
    exact rescales_EOF
  have tail : RangeCoded occA 532709120 2663545599 0 [256]
      (rescaleBits 0 [.e2, .e1, .e1, .e2, .e2, .e2, .e2, .e1] ++ rangeFlushBits 1148522240 0) :=
    RangeCoded.symbol (sym := 256) second (.flush 1148522240 3262840831 0)
  have all : RangeCoded occA 0 0xFFFFFFFF 0 [65, 256] (rescaleBits 0 [.e1, .e2, .e1, .e1, .e1, .e1] ++
      (rescaleBits 0 [.e2, .e1, .e1, .e2, .e2, .e2, .e2, .e1] ++ rangeFlushBits 1148522240 0)) :=
    RangeCoded.symbol (sym := 65) first tail
  have e : rescaleBits 0 [.e1, .e2, .e1, .e1, .e1, .e1] ++
      (rescaleBits 0 [.e2, .e1, .e1, .e2, .e2, .e2, .e2, .e1] ++ rangeFlushBits 1148522240 0) =
      bytesBits [0x42, 0x7A] := by decide +kernel
  rw [e] at all
  unfold RangeStream
  rw [occurrences_occA]
  exact all

theorem witness_AriEncSymNarrows :
    WellFormed (.ariEncSym 256) ∧ encoding.valid.ariModel = true ∧ encoding.valid.ariEnc = true ∧
      encoding.ari.HoldsModel occA ∧ Settled encoding.ari.low.toNat encoding.ari.high.toNat ∧
      encoding.ari.pending.toNat + 32 < 2 ^ 64 ∧
      encoding.Room (rescaleBits 0 [.e1, .e2, .e1, .e1, .e1, .e1]).length := by
  refine ⟨by decide, by decide +kernel, by decide +kernel, encoding_holds, ?_, by decide +kernel, ?_⟩
  · unfold Settled
    decide +kernel
  · unfold State.Room
    decide +kernel

theorem witness_AriEncFlushResolves :
    encoding.valid.ariEnc = true ∧ encoding.ari.pending.toNat + 1 < 2 ^ 64 ∧
      encoding.Room (encoding.ari.pending.toNat + 2) := by
  unfold State.Room
  decide +kernel

/-- A data symbol next, and (VALUE at the top of the range) EOF next. -/
theorem witness_AriDecSymFinds :
    (ranging.valid.ariModel = true ∧ ranging.valid.ariDec = true ∧ ranging.ari.HoldsModel occA ∧
      Settled ranging.ari.low.toNat ranging.ari.high.toNat ∧ ranging.ari.low.toNat ≤ ranging.ari.value.toNat ∧
      ranging.ari.value.toNat ≤ ranging.ari.high.toNat) ∧
    ({ ranging.ari with value := 0xFFFFFFFF } : Arith).HoldsModel occA ∧
      ranging.ari.low.toNat ≤ (0xFFFFFFFF : Word).toNat ∧ (0xFFFFFFFF : Word).toNat ≤ ranging.ari.high.toNat := by
  refine ⟨⟨by decide +kernel, by decide +kernel, ranging_holds, ?_, by decide +kernel, by decide +kernel⟩,
    holds_with_value ranging_holds _, by decide +kernel, by decide +kernel⟩
  unfold Settled
  decide +kernel

theorem witness_AriCompressWritesTheContainer :
    (load [0x41]).params.Ok ∧ (load [0x41]).inLen.toNat ≤ (load [0x41]).params.ibufSize ∧
      (load [0x41]).ext.len.toNat ≤ (load [0x41]).params.extMax ∧
      RangeStream (load [0x41]).input (bytesBits [0x42, 0x7A]) ∧
      (load [0x41]).Holds
        (ariHeader (boolByte false) (load [0x41]).extension [0x41] ++ zeroPad (bytesBits [0x42, 0x7A])).length := by
  have hi : (load [0x41]).input = [0x41] := by decide +kernel
  refine ⟨by decide, by decide, by decide, by rw [hi]; exact rangeStream_A, ?_⟩
  unfold State.Holds
  decide +kernel

/-- L2-ARI-C2's container with a byte after it. -/
theorem witness_AriDecompressReadsTheContainer :
    (load [0, 0, 0, 0, 0, 0, 1, 0, 1, 0x41, 0, 0, 0, 1, 0x42, 0x7A, 9]).params.Ok ∧
      (load [0, 0, 0, 0, 0, 0, 1, 0, 1, 0x41, 0, 0, 0, 1, 0x42, 0x7A, 9]).inLen.toNat ≤ Params.standard.ibufSize ∧
      RangeStream [0x41] (bytesBits [0x42, 0x7A]) ∧
      (load [0, 0, 0, 0, 0, 0, 1, 0, 1, 0x41, 0, 0, 0, 1, 0x42, 0x7A, 9]).inputBits =
        ariHeader 0 [] [0x41] ++ bytesBits [0x42, 0x7A] ++ byteBits 9 :=
  ⟨by decide, by decide, rangeStream_A, by decide +kernel⟩

theorem witness_AriRoundTrip :
    (load [0x41]).params.Ok ∧ (load [0x41]).inLen.toNat ≤ (load [0x41]).params.ibufSize ∧
      (load [0x41]).status.err = false ∧ exec .ariCompress (load [0x41]) = .next (after .ariCompress (load [0x41])) ∧
      (after .ariCompress (load [0x41])).status.err = false ∧
      HandsOver (after .ariCompress (load [0x41]))
        (load [0, 0, 0, 0, 0, 0, 1, 0, 1, 0x41, 0, 0, 0, 1, 0x42, 0x7A]) (load [0x41]).inLen.toNat := by
  have key : (after .ariCompress (load [0x41])).status.err = false ∧
      (load [0, 0, 0, 0, 0, 0, 1, 0, 1, 0x41, 0, 0, 0, 1, 0x42, 0x7A]).inLen =
        (after .ariCompress (load [0x41])).writer.outLen ∧
      (load [0, 0, 0, 0, 0, 0, 1, 0, 1, 0x41, 0, 0, 0, 1, 0x42, 0x7A]).input =
        (after .ariCompress (load [0x41])).outBytes := by decide +kernel
  exact ⟨by decide, by decide, rfl, exec_after .., key.1, by decide, key.2.1, by decide, key.2.2, by decide⟩

/-! Errors of the containers -/

/-- EXT_LEN one above EXT_MAX. -/
def longExtension : State := (load [0x41]).setExt { len := 65, off := 0 }

theorem witness_BadContainersAreRefused :
    longInput.params.ibufSize < longInput.inLen.toNat ∧
      (longExtension.inLen.toNat ≤ longExtension.params.ibufSize ∧
        longExtension.params.extMax < longExtension.ext.len.toNat) ∧
      (load [0, 0, 0, 0]).inLen.toNat < 5 ∧ (load [0]).inLen.toNat < 2 ∧ (load [0, 0]).inLen.toNat < 3 ∧
      (2 ≤ (load [0, 3, 0x58]).inLen.toNat ∧ bitsValue ((load [0, 3, 0x58]).inputBits.take 16) = 3) ∧
      (3 ≤ (load [1, 0, 3, 0x58]).inLen.toNat ∧
        bitsValue (((load [1, 0, 3, 0x58]).inputBits.drop 8).take 16) = 3) ∧
      (load [0, 0, 0, 0, 0, 1, 2]).inLen.toNat ≤ (load [0, 0, 0, 0, 0, 1, 2]).params.ibufSize ∧
      (load [0, 0, 0, 0, 0, 1, 2]).params.Ok ∧
      (load [0, 0, 0, 0, 0, 1, 2]).inputBits =
        wordBits (BitVec.ofNat 32 0) 16 ++ bytesBits [] ++ wordBits 1 32 ++ byteBits 2 ++ [] := by
  refine ⟨by decide, ⟨by decide, by decide⟩, by decide, by decide, by decide, ⟨by decide, ?_⟩, ⟨by decide, ?_⟩,
    by decide, by decide, ?_⟩ <;> decide +kernel

end Sys2Proof.Tests
end

namespace Sys2Proof.Machine

/-! ## What a command leaves of a part of the state -/

/-- The part `f` of the state is the same after as before. -/
def Same {β : Type} (f : State → β) (s t : State) : Prop := f t = f s

theorem steady_same {β : Type} (f : State → β) : Steady (Same f) := ⟨fun _ => rfl, fun h g => g.trans h⟩

/-- The bit `f` is not cleared. -/
def Grows (f : State → Bool) (s t : State) : Prop := f s = true → f t = true

theorem steady_grows (f : State → Bool) : Steady (Grows f) := ⟨fun _ => id, fun h g => g ∘ h⟩

theorem Cmd.Within.of_ok {α : Type} {R : State → State → Prop} {c : Cmd α} (hc : Cmd.Within R c) {s t : State} {a : α}
    (h : c s = .ok a t) : R s t := by
  have hs := hc s
  unfold Cmd.At at hs
  rwa [h] at hs

theorem Cmd.Within.of_error {α : Type} {R : State → State → Prop} {c : Cmd α} (hc : Cmd.Within R c) {s t : State}
    {e : ErrCode} (h : c s = .error e t) : R s t := by
  have hs := hc s
  unfold Cmd.At at hs
  rw [h] at hs
  exact hs.1

/-- A command leaves every part of the state that none of its updates reaches. -/
theorem commandOf_same {β : Type} (f : State → β) (i : Instr)
    (hw : ∀ s v, f (State.setWriter s v) = f s := by intros; rfl)
    (hb : ∀ s v, f (State.setObuf s v) = f s := by intros; rfl)
    (hr : ∀ s v, f (State.setReader s v) = f s := by intros; rfl)
    (hh : ∀ s v, f (State.setHuf s v) = f s := by intros; rfl)
    (he : ∀ s v, f (State.setLzwE s v) = f s := by intros; rfl)
    (hd : ∀ s v, f (State.setLzwD s v) = f s := by intros; rfl)
    (ha : ∀ s v, f (State.setAri s v) = f s := by intros; rfl)
    (hv : ∀ s v, f (State.setValid s v) = f s := by intros; rfl)
    (hdr : ∀ s v, f (State.setDraws s v) = f s := by intros; rfl)
    (hOver : ∀ s, f (State.setRdOvr s true) = f s := by intros; rfl)
    (hArg : (∃ imm, i = .argLo imm ∨ i = .argHi imm) → ∀ s v, f (State.setArg s v) = f s := by intros; rfl)
    (hClr : i = .clrErr → ∀ s, f (acknowledgeError s) = f s := by intros; rfl)
    (hRes : i.writesRes = true → ∀ s v, f (State.setRes s v) = f s := by intros; rfl)
    (hOrig : i.wholeBuffer = true → ∀ s v, f (State.setOrigSize s v) = f s := by intros; rfl)
    (hExt : i = .lzwDecompress ∨ i = .ariDecompress → ∀ s v, f (State.setExt s v) = f s := by intros; rfl)
    (hNoOver : i = .bsRinit ∨ i = .hufDecompress ∨ i = .lzwDecompress ∨ i = .ariDecompress →
      ∀ s, f (State.setRdOvr s false) = f s := by intros; rfl)
    (hAnom : i = .ariDecSym ∨ i = .ariDecompress → ∀ s, f (State.flagAnomaly s) = f s := by intros; rfl)
    (hIsbin : i = .hufDecompress ∨ i = .ariDecompress → ∀ s b, f (State.setIsbinIn s b) = f s := by intros; rfl)
    (hStored : i = .lzwCompress ∨ i = .lzwDecompress → ∀ s b, f (State.setStored s b) = f s := by intros; rfl)
    (hEos : i = .lzwDecReset ∨ i = .lzwDecCode ∨ i = .lzwDecompress → ∀ s b, f (State.setLzwEos s b) = f s := by
      intros; rfl) :
    Cmd.Within (Same f) (commandOf i) :=
  commandOf_within (steady_same f) i hw hb hr hh he hd ha hv hdr hOver hArg hClr hRes hOrig hExt hNoOver hAnom hIsbin
    hStored hEos

/-- A part that neither the command nor the error completion reaches is the same after `exec`. -/
theorem exec_same {β : Type} {f : State → β} {i : Instr} {s t : State} (hc : Cmd.Within (Same f) (commandOf i))
    (h : exec i s = .next t) (he : ∀ e u, f (takeError e u) = f u := by intros; rfl) : f t = f s := by
  obtain h | ⟨e, u, rfl, h, -⟩ := exec_within hc h
  · exact h
  · exact (he e u).trans h

/-- On success a part that the command does not reach is the same after `exec`. -/
theorem exec_same_of_noError {β : Type} {f : State → β} {i : Instr} {s t : State}
    (hc : Cmd.Within (Same f) (commandOf i)) (h : exec i s = .next t) (hn : t.status.err = false) : f t = f s := by
  obtain h | ⟨e, u, rfl, -, -⟩ := exec_within hc h
  · exact h
  · cases hn

/-- The host's registers, buffers and moves, without ARG. -/
def State.hostPart (s : State) : Ctrl × Word × Memory × Memory × Params × Seq × List Move × BusReply :=
  (s.ctrl, s.inLen, s.ibuf, s.extbuf, s.params, s.seq, s.tape, s.bus)

theorem hostPart_eq_iff {s t : State} :
    t.hostPart = s.hostPart ↔
      t.ctrl = s.ctrl ∧ t.inLen = s.inLen ∧ t.ibuf = s.ibuf ∧ t.extbuf = s.extbuf ∧ t.params = s.params ∧
        t.seq = s.seq ∧ t.tape = s.tape ∧ t.bus = s.bus := by
  simp [State.hostPart]

theorem exec_hostPart {i : Instr} {s t : State} (h : exec i s = .next t) : t.hostPart = s.hostPart :=
  exec_same (commandOf_same State.hostPart i) h

/-- Settles O11: no command's updates reach the host's part; ARG is written by ARG_LO and ARG_HI only. -/
theorem commandsLeaveTheHostsState : Obligations.CommandsLeaveTheHostsState := by
  intro i s t h
  obtain ⟨hctrl, hlen, hibuf, hext, hparams, hseq, htape, hbus⟩ := hostPart_eq_iff.1 (exec_hostPart h)
  refine ⟨hctrl, hlen, hibuf, hext, hparams, hseq, htape, hbus, fun hi => ?_⟩
  refine exec_same (commandOf_same State.arg i (hArg := ?_)) h
  rintro ⟨imm, hlo | hhi⟩
  · exact absurd hlo (hi imm).1
  · exact absurd hhi (hi imm).2

/-- Settles O13: each STATUS bit is a part of the state, and the updates that reach it are those of the commands named
for it. -/
theorem statusBitsByCommand : Obligations.StatusBitsByCommand := by
  intro i s t h
  have grown : ∀ {f : State → Bool}, Cmd.Within (Grows f) (commandOf i) → (∀ e u, f (takeError e u) = f u) →
      f s = true → f t = true := by
    intro f hc he hs
    obtain hst | ⟨e, u, rfl, hsu, -⟩ := exec_within hc h
    · exact hst hs
    · exact (he e u).trans (hsu hs)
  refine ⟨exec_same (commandOf_same (·.status.done) i) h, exec_same (commandOf_same (·.status.cmdLost) i) h,
    exec_same (commandOf_same (·.status.wrLost) i) h, ?_, ?_, ?_, ?_, ?_, ?_⟩
  · exact grown (f := (·.status.anomaly))
      (commandOf_within (steady_grows _) i (fun _ _ => id) (fun _ _ => id) (fun _ _ => id) (fun _ _ => id)
        (fun _ _ => id) (fun _ _ => id) (fun _ _ => id) (fun _ _ => id) (fun _ _ => id) (fun _ => id)
        (hArg := fun _ _ _ => id) (hClr := fun _ _ => id) (hRes := fun _ _ _ => id) (hOrig := fun _ _ _ => id)
        (hExt := fun _ _ _ => id) (hNoOver := fun _ _ => id) (hAnom := fun _ _ _ => rfl) (hIsbin := fun _ _ _ => id)
        (hStored := fun _ _ _ => id) (hEos := fun _ _ _ => id)) (fun _ _ => rfl)
  · exact fun h1 h2 => exec_same (commandOf_same (·.status.anomaly) i (hAnom := fun hi => (hi.elim h1 h2).elim)) h
  · intro h1 h2 h3 h4
    exact grown (f := (·.status.rdOvr))
      (commandOf_within (steady_grows _) i (fun _ _ => id) (fun _ _ => id) (fun _ _ => id) (fun _ _ => id)
        (fun _ _ => id) (fun _ _ => id) (fun _ _ => id) (fun _ _ => id) (fun _ _ => id) (fun _ _ => rfl)
        (hArg := fun _ _ _ => id) (hClr := fun _ _ => id) (hRes := fun _ _ _ => id) (hOrig := fun _ _ _ => id)
        (hExt := fun _ _ _ => id)
        (hNoOver := fun hi => (hi.elim h1 fun hi => hi.elim h2 fun hi => hi.elim h3 h4).elim)
        (hAnom := fun _ _ => id) (hIsbin := fun _ _ _ => id) (hStored := fun _ _ _ => id)
        (hEos := fun _ _ _ => id)) (fun _ _ => rfl)
  · exact fun h1 h2 => exec_same (commandOf_same (·.status.isbinIn) i (hIsbin := fun hi => (hi.elim h1 h2).elim)) h
  · exact fun h1 h2 => exec_same (commandOf_same (·.status.stored) i (hStored := fun hi => (hi.elim h1 h2).elim)) h
  · exact fun h1 h2 h3 => exec_same (commandOf_same (·.status.lzwEos) i
      (hEos := fun hi => (hi.elim h1 fun hi => hi.elim h2 h3).elim)) h

/-! ### ORIG_SIZE of the compress commands -/

/-- Once ORIG_SIZE holds IN_LEN it keeps holding it. -/
def SizeKept (s t : State) : Prop := t.inLen = s.inLen ∧ (s.origSize = s.inLen → t.origSize = s.inLen)

theorem steady_sizeKept : Steady SizeKept :=
  ⟨fun _ => ⟨rfl, id⟩, fun h g => ⟨g.1.trans h.1, fun hs => (g.2 ((h.2 hs).trans h.1.symm)).trans h.1⟩⟩

/-- A compress command that has passed its checks runs on from its start the same when it is started there again. -/
theorem compress_restart {i : Instr} (hi : i = .hufCompress ∨ i = .lzwCompress ∨ i = .ariCompress) {s t : State}
    (h : commandOf i s = .ok () t) :
    commandOf i ((startWriter s).setOrigSize s.inLen) = .ok () t := by
  obtain rfl | rfl | rfl := hi <;>
    simp only [commandOf, hufCompress, lzwCompress, ariCompress, checkIn_bind_run, checkExt_bind_run] at h ⊢
  · split at h
    · cases h
    · rwa [if_neg (by assumption)]
  · split at h
    · cases h
    · split at h
      · cases h
      · rwa [if_neg (by assumption), if_neg (by assumption)]
  · split at h
    · cases h
    · split at h
      · cases h
      · rwa [if_neg (by assumption), if_neg (by assumption)]

/-- A compress command that succeeds leaves ORIG_SIZE = IN_LEN (R44). -/
theorem compress_origSize {i : Instr} (hi : i = .hufCompress ∨ i = .lzwCompress ∨ i = .ariCompress) {s t : State}
    (h : commandOf i s = .ok () t) : t.origSize = s.inLen := by
  have hW : Output SizeKept := output_of_blind steady_sizeKept fun _ _ _ => ⟨rfl, id⟩
  have hc : Cmd.Within SizeKept (commandOf i) := by
    obtain rfl | rfl | rfl := hi
    · exact hufCompress_within steady_sizeKept hW (fun _ _ => ⟨rfl, id⟩) (fun _ => ⟨rfl, fun _ => rfl⟩)
        fun _ => ⟨rfl, id⟩
    · exact lzwCompress_within steady_sizeKept hW (fun _ _ => ⟨rfl, id⟩) (fun _ _ => ⟨rfl, id⟩)
        (fun _ _ => ⟨rfl, id⟩) (fun _ => ⟨rfl, fun _ => rfl⟩) fun _ => ⟨rfl, id⟩
    · exact ariCompress_within steady_sizeKept (fun _ _ => ⟨rfl, id⟩) hW (fun _ => ⟨rfl, fun _ => rfl⟩)
        fun _ => ⟨rfl, id⟩
  exact (hc.of_ok (compress_restart hi h)).2 rfl

/-- Settles O12: each register is a part of the state, reached by the commands named for it; a compress command writes
IN_LEN to ORIG_SIZE before anything else. -/
theorem registersHaveTheirWriters : Obligations.RegistersHaveTheirWriters := by
  intro i s t h _
  refine ⟨fun hi => ?_, fun hi => ?_, fun hi hn => ?_, fun h1 h2 => ?_, fun hi => ?_⟩
  · exact exec_same_of_noError (commandOf_same State.res i (hRes := fun hw => by simp [hi] at hw)) h
  · exact exec_same (commandOf_same State.origSize i (hOrig := fun hw => by simp [hi] at hw)) h
  · obtain ⟨u, hu, he⟩ | ⟨e, u, -, he⟩ := exec_cases i s
    · cases h.symm.trans he
      exact compress_origSize hi hu
    · cases h.symm.trans he
      cases hn
  · exact exec_same (commandOf_same State.ext i (hExt := fun hi => (hi.elim h1 h2).elim)) h
  · exact exec_same_of_noError (commandOf_same State.err i (hClr := fun hc => absurd hc hi)) h

/-! ## Missing valid bits -/

theorem need_missing {α : Type} {bit : UnitValid → Bool} {s : State} (f : Unit → Cmd α) (h : bit s.valid = false) :
    (need bit >>= f) s = .error .stateError s := by
  rw [need_bind_run, if_pos h]

/-- A command that needs two valid bits raises on whichever is missing. -/
theorem need_need_missing {α : Type} {bit bit' : UnitValid → Bool} {s : State} (f : Unit → Cmd α)
    (h : (bit s.valid && bit' s.valid) = false) :
    (need bit >>= fun _ => need bit' >>= f) s = .error .stateError s := by
  rw [need_bind_run]
  split
  · rfl
  · rename_i hb
    exact need_missing f (by simpa [hb] using h)

/-- Settles O14: every command with a row in R367's table begins with `need`. -/
theorem missingStateRaisesStateError : Obligations.MissingStateRaisesStateError := by
  intro i s h
  apply exec_of_error
  cases i with
  | hufTree | hufFreqRd sym | hufCodes | hufSertree | hufDecsym | hufEncsym sym | hufCodelen sym =>
    exact need_missing _ h
  | lzwEncByte sym | lzwEncEnd | lzwDecCode => exact need_missing _ h
  | ariWrtbl | ariEncFlush => exact need_missing _ h
  | ariEncSym sym | ariDecSym => exact need_need_missing _ h
  | _ => cases h

end Sys2Proof.Machine

namespace Sys2Proof.Machine

/-! ## Completion -/

/-- Completion keeps every written byte below OUT_LEN (R93). -/
theorem obufByte_complete {s : State} {a : Nat} (ha : a < s.writer.outLen.toNat)
    (hw : (s.obuf.written a).isSome = true) : (complete s).obufByte a = s.obufByte a := by
  obtain ⟨b, hb⟩ := Option.isSome_iff_exists.1 hw
  have hc : (complete s).obuf.written a = some b := by
    show (s.obuf.keepBelow _ _).written a = _
    rw [Store.written_keepBelow, if_pos ha, hb]
  exact (Store.read_of_written hc).trans (Store.read_of_written hb).symm

theorem outBytes_complete {s : State} (h : s.Sound) : (complete s).outBytes = s.outBytes :=
  List.map_congr_left fun a ha => obufByte_complete (List.mem_range.1 ha) (h.output a (List.mem_range.1 ha))

/-- Settles O6: the cut at OUT_LEN is the only part of completion that touches OBUF, and Sound says the bytes below are
written. -/
theorem completionKeepsTheResult : Obligations.CompletionKeepsTheResult := by
  intro s h
  refine ⟨rfl, rfl, outBytes_complete h, ?_, rfl⟩
  show bytesBits (complete s).outBytes ++ _ = _
  rw [outBytes_complete h]
  rfl

/-! ## Host accesses -/

theorem idle_ne_busy {s : State} (h : s.seq.phase = .idle) : ¬ s.seq.phase = .busy := by
  rw [h]
  decide

/-- What the host reads of a byte while IDLE is the byte (R97). -/
theorem readBuffer_idle {s : State} (h : s.seq.phase = .idle) (b : Byte) : readBuffer s b = b :=
  if_neg (idle_ne_busy h)

/-- Settles O17: a read is `readPlace` with the reply and the draw kept apart. -/
theorem readsHaveNoSideEffect : Obligations.ReadsHaveNoSideEffect := by
  intro s t bits off rest ht h
  have hbus : t.bus = readPlace (s.setTape rest) (placeOf off) := by rw [step_read ht h]; rfl
  refine ⟨by rw [step_read ht h]; rfl, fun hi => ?_⟩
  have hidle : (s.setTape rest).seq.phase = .idle := hi
  refine ⟨?_, fun h1 h2 => ?_, fun i => ⟨?_, ?_, ?_⟩⟩
  · rintro r rfl
    rw [hbus, placeOf_regs (Nat.lt_trans (offset_lt r) (by decide))]
    show BusReply.word (readWindow _ _) = _
    rw [readWindow_offset, if_neg (idle_ne_busy hidle)]
    cases r <;> rfl
  · rw [hbus, placeOf_regs h2]
    exact congrArg _ (readWindow_reserved _ (ofOffset_none h1))
  · rintro rfl hlt
    rw [hbus, placeOf_ext hlt]
    exact congrArg _ (readBuffer_idle hidle _)
  · rintro rfl hlt
    rw [hbus, placeOf_ibuf hlt]
    exact congrArg _ (readBuffer_idle hidle _)
  · rintro rfl hlt
    rw [hbus, placeOf_obuf hlt]
    exact congrArg _ (readBuffer_idle hidle _)

/-- The byte at `j` after a host write of `w` to the byte at `i` (R97). -/
theorem read_put_byte (d : Nat → Nat → Byte) (m : Memory) (i j : Nat) (w : Word) :
    (m.put i (w.setWidth 8)).read d j = if j = i then w.extractLsb' 0 8 else m.read d j := by
  have hw : w.setWidth 8 = w.extractLsb' 0 8 := by
    apply BitVec.eq_of_getLsbD_eq
    intro k hk
    simp [hk]
  rw [Store.read_put, hw]
  exact if_congr eq_comm rfl rfl

/-- A write while IDLE to a register's offset is `writeReg` (R32). -/
theorem step_write_reg {s t : State} {bits : Nat} {w : Word} {rest : List Move} (r : Reg)
    (hi : s.seq.phase = .idle) (ht : s.tape = .write bits r.offset w :: rest) (h : step s = .next t) :
    t = writeReg r w (s.setTape rest) := by
  rw [step_write ht h, if_neg (idle_ne_busy hi), placeOf_regs (Nat.lt_trans (offset_lt r) (by decide)),
    writeIdle_offset]

/-- Settles O18: each location's write is one update of the state. -/
theorem writesHaveTheirLocationsEffect : Obligations.WritesHaveTheirLocationsEffect := by
  intro s t bits off w rest _ hi ht h
  have hplace : t = writeIdle w (s.setTape rest) (placeOf off) := by rw [step_write ht h, if_neg (idle_ne_busy hi)]
  refine ⟨?_, ?_, ?_, ?_, ?_, fun hig => ?_, fun i => ⟨?_, ?_, ?_⟩⟩
  · rintro rfl
    rw [step_write_reg .ctrl hi ht h]
    exact ⟨rfl, ctrlWord_ctrlOfWord w⟩
  · rintro rfl
    rw [step_write_reg .status hi ht h]
    exact ⟨rfl, statusWord_writeOneToClear (s.setTape rest) w⟩
  · rintro rfl
    rw [step_write_reg .arg hi ht h]
    rfl
  · rintro rfl
    rw [step_write_reg .inLen hi ht h]
    rfl
  · rintro rfl
    rw [step_write_reg .extLen hi ht h]
    rfl
  · rw [hplace, placeOf_regs hig.1, writeIdle_ignored _ _ hig]
    rfl
  · rintro rfl hlt
    rw [placeOf_ext hlt] at hplace
    subst hplace
    exact ⟨rfl, fun j => read_put_byte _ _ _ _ _⟩
  · rintro rfl hlt
    rw [placeOf_ibuf hlt] at hplace
    subst hplace
    exact ⟨rfl, fun j => read_put_byte _ _ _ _ _⟩
  · rintro rfl hlt
    rw [placeOf_obuf hlt] at hplace
    subst hplace
    exact ⟨rfl, fun j => read_put_byte _ _ _ _ _⟩

/-! ## Reset and the interrupt -/

theorem readWindow_resetFrom (s : State) (r : Reg) :
    readWindow (resetFrom s) r.offset = readReg (resetFrom s) r := by
  rw [readWindow_offset]
  exact if_neg (by show ¬ Phase.idle = Phase.busy; decide)

/-- Reset leaves 0 in every register outside the list of non-zero reset values and the parameters (R32). -/
theorem readReg_resetFrom_zero (s : State) (r : Reg) (h1 : r.offset ∉ resetNonZero.map Prod.fst)
    (h2 : r.offset ∉ parameterOffsets) : readReg (resetFrom s) r = 0 := by
  cases r with
  | id | ctrl | lzwENext | lzwEWidth | lzwDNext | lzwDWidth | ariHigh => exact absurd (by decide) h1
  | ibufSz | obufSz | extMaxR => exact absurd (by decide) h2
  | status => exact (by decide : wordOfBits (List.replicate 10 false) = 0)
  | unitValid => exact (by decide : validWord UnitValid.cleared = 0)
  | bsWstate => exact (by decide : ((0 : BitVec 3) ++ (0 : Byte)).setWidth 32 = (0 : Word))
  | lzwEPat | lzwDPrev => exact (by decide : codeView false 0 = 0)
  | ariPendHi => exact (by decide : (0 : BitVec 64).extractLsb' 32 32 = (0 : Word))
  | _ => rfl

/-- Settles O20: the reset state's registers, read one by one. -/
theorem resetValues : Obligations.ResetValues := by
  intro s rest ht
  refine ⟨_, step_reset_eq ht, rfl, rfl, rfl, rfl, rfl, ?_, fun off h1 h2 => ?_,
    readWindow_resetFrom _ .ibufSz, readWindow_resetFrom _ .obufSz, readWindow_resetFrom _ .extMaxR⟩
  · intro p hp
    simp only [resetNonZero, List.mem_cons, List.not_mem_nil, or_false] at hp
    obtain rfl | rfl | rfl | rfl | rfl | rfl | rfl := hp
    · exact readWindow_resetFrom _ .id
    · exact (readWindow_resetFrom _ .ctrl).trans (by decide : ctrlWord ⟨false, false, true, false, false⟩ = 0x4)
    · exact readWindow_resetFrom _ .lzwENext
    · exact readWindow_resetFrom _ .lzwEWidth
    · exact readWindow_resetFrom _ .lzwDNext
    · exact readWindow_resetFrom _ .lzwDWidth
    · exact readWindow_resetFrom _ .ariHigh
  · cases hr : Reg.ofOffset off with
    | none => exact readWindow_reserved _ hr
    | some r =>
      obtain rfl := offset_of_ofOffset hr
      rw [readWindow_resetFrom, readReg_resetFrom_zero _ r h1 h2]

theorem irq_complete (s : State) : irq (complete s) = s.ctrl.irqEn := rfl

/-- Settles O21: completion sets DONE and no command writes CTRL; the three host writes clear one of the two bits. -/
theorem interruptOutput : Obligations.InterruptOutput := by
  intro s t rest w h
  refine ⟨fun hb ht => ?_, fun hi ht => ?_, fun hi ht => ?_, fun hi ht => ?_⟩
  · rw [step_core_eq ht] at h
    obtain ⟨hi, -⟩ | ⟨-, rfl | rfl | ⟨i, u, hu, rfl⟩⟩ := coreMove_cases h
    · exact absurd hb (idle_ne_busy hi)
    · exact ⟨rfl, rfl⟩
    · exact ⟨rfl, rfl⟩
    · obtain ⟨hctrl, -⟩ := hostPart_eq_iff.1 (exec_hostPart hu)
      exact ⟨by rw [irq_complete, hctrl]; rfl, rfl⟩
  · rw [step_write_reg .status hi ht h]
    show (s.status.done && !w.getLsbD 1 && s.ctrl.irqEn) = (s.status.done && s.ctrl.irqEn && !w.getLsbD 1)
    rw [Bool.and_right_comm]
  · rw [step_write_reg .cmd hi ht h]
    rfl
  · rw [step_write_reg .ctrl hi ht h]
    rfl

/-! ## The invariants at reset -/

section Reset

variable (p : Params) (draw : Nat) (tape : List Move) (bus : BusReply)

theorem resetWith_sound (hp : p.Ok) : (State.resetWith p draw tape bus).Sound where
  params := hp
  ibufWf := List.Pairwise.nil
  obufWf := List.Pairwise.nil
  extbufWf := List.Pairwise.nil
  ibufSize := fun _ hc => nomatch hc
  obufSize := fun _ hc => nomatch hc
  extbufSize := fun _ hc => nomatch hc
  outLen := Nat.zero_le _
  output := fun _ ha => absurd ha (Nat.not_lt_zero _)
  tidy := Nat.one_pos
  rdEnd := Nat.zero_le _
  busy := fun _ => rfl
  noError := fun _ => rfl
  anError := fun h => nomatch h

theorem resetWith_lzwSound : (State.resetWith p draw tape bus).LzwSound where
  enc := ⟨List.Pairwise.nil, firstCode_range, .inr rfl, fun h => nomatch h⟩
  decNext := firstCode_range
  encDict := fun h => nomatch h
  dec := fun h => nomatch h

/-- With UNIT_VALID clear the Huffman unit's invariant promises nothing (R45). -/
theorem hufSound_of_cleared {s : State} (h : s.valid = UnitValid.cleared) : s.HufSound := by
  constructor <;> intro hv <;> rw [h] at hv <;> cases hv

/-- With UNIT_VALID clear the arithmetic unit's invariant promises nothing (R45). -/
theorem ariSound_of_cleared {s : State} (h : s.valid = UnitValid.cleared) : s.AriSound where
  model := fun hv => by rw [h] at hv; cases hv
  bounds := fun hv => by rw [h] at hv; exact hv.elim nofun nofun
  value := fun hv => by rw [h] at hv; cases hv
  single := .inl (by rw [h]; rfl)

end Reset

/-- Settles O22: the buffers and the writer are empty, the dictionaries too, and every valid bit is 0. -/
theorem invariantsHoldAtReset : Obligations.InvariantsHoldAtReset := fun p draw tape bus hp =>
  ⟨resetWith_sound p draw tape bus hp, resetWith_lzwSound p draw tape bus, hufSound_of_cleared rfl,
    ariSound_of_cleared rfl⟩

/-! ## The model of the input -/

theorem execAriModel_fits {s : State} (h1 : s.inLen.toNat ≤ s.params.ibufSize) (h2 : s.inLen.toNat ≤ Config.ariMax) :
    exec .ariModel s = .next ((fillModel s).setValid s.valid.afterModel) := by
  apply exec_of_ok
  show ariModel s = _
  unfold ariModel
  rw [checkIn_bind_run, if_neg (by omega), Cmd.get_bind_run, raiseIf_bind_run, if_neg (by omega)]
  rfl

theorem execAriModel_tooLong {s : State} (h : s.params.ibufSize < s.inLen.toNat) :
    exec .ariModel s = .next (takeError .ioFailure s) := by
  apply exec_of_error
  show ariModel s = _
  unfold ariModel
  rw [checkIn_bind_run, if_pos h]

/-- Settles O52: IBUF is smaller than ARI_MAX, so the model is built; the intervals are a sum's steps. -/
theorem ariModelPartitions : Obligations.AriModelPartitions := by
  refine ⟨fun s hp hlen => ?_, fun s => execAriModel_tooLong, fun a occ v hm hv => ?_⟩
  · obtain ⟨⟨-, hbuf⟩, -⟩ := hp
    have hmax : s.inLen.toNat ≤ Config.ariMax := by unfold Config.bufferLimit at hbuf; unfold Config.ariMax; omega
    exact ⟨_, execAriModel_fits hlen hmax, fillModel_holds hmax, rfl⟩
  · rw [hm.total] at hv
    obtain ⟨i, hi, h1, h2⟩ := modelCum_partition occ 257 hv
    refine ⟨i, by omega, ?_, fun j hj h3 h4 => ?_⟩
    · rw [hm.cum i (by omega), hm.cum (i + 1) (by omega)]
      exact ⟨h1, h2⟩
    · rw [hm.cum j (by omega)] at h3
      rw [hm.cum (j + 1) (by omega)] at h4
      exact modelCum_unique occ h3 h4 h1 h2

end Sys2Proof.Machine

namespace Sys2Proof.Machine

/-! ## Commands by what they change -/

/-- What a command changes apart from the bit stream, RES and the faults. -/
inductive Domain where
  /-- Only the writer, the reader and RES. -/
  | stream
  /-- ARG, the error registers, or the start of the writer or the reader. -/
  | control
  /-- The Huffman unit. -/
  | huffman
  /-- The LZW unit. -/
  | lzw
  /-- The arithmetic unit. -/
  | arithmetic
  /-- All of it: the whole-buffer commands. -/
  | whole

/-- The domain of each command. -/
def domainOf : Instr → Domain
  | .nop | .bsWrite _ | .bsWritei _ _ | .bsFlush | .bsRead _ | .bsAlign => .stream
  | .hufSertree | .hufEncsym _ | .hufDecsym | .hufFreqRd _ | .hufCodelen _ | .ariWrtbl => .stream
  | .argLo _ | .argHi _ | .clrErr | .bsWinit | .bsRinit => .control
  | .hufFreq | .hufTree | .hufCodes | .hufDestree => .huffman
  | .lzwEncReset | .lzwEncByte _ | .lzwEncEnd | .lzwDecReset | .lzwDecCode => .lzw
  | .ariModel | .ariRdtbl | .ariEncInit | .ariEncSym _ | .ariEncFlush | .ariDecInit | .ariDecSym => .arithmetic
  | .hufCompress | .hufDecompress | .lzwCompress | .lzwDecompress | .ariCompress | .ariDecompress => .whole

theorem wholeBuffer_of_domainOf {i : Instr} (h : domainOf i = .whole) : i.wholeBuffer = true := by
  cases i with
  | hufCompress | hufDecompress | lzwCompress | lzwDecompress | ariCompress | ariDecompress => rfl
  | _ => cases h

section

variable {R : State → State → Prop} (h : Steady R) (hW : Output R) (hR : Input R)
  (hRes : ∀ (s : State) v, R s (s.setRes v))

include h hW hR hRes

/-- A command stays within a relation if its domain does. -/
theorem commandOf_within_domain (i : Instr) (hControl : domainOf i = .control → Cmd.Within R (commandOf i))
    (hHuf : domainOf i = .huffman → Cmd.Within R (commandOf i))
    (hLzw : domainOf i = .lzw → Cmd.Within R (commandOf i))
    (hAri : domainOf i = .arithmetic → Cmd.Within R (commandOf i))
    (hWhole : domainOf i = .whole → Cmd.Within R (commandOf i)) : Cmd.Within R (commandOf i) := by
  cases i with
  | nop => exact within_pure h _
  | bsWrite cnt => exact within_getAny h fun _ => writeBits_within h hW _ _
  | bsWritei cnt imm => exact writeBits_within h hW _ _
  | bsFlush => exact hW.flush
  | bsRead cnt => exact within_bind h (readBits_within h hR _) fun _ => within_modify fun s => hRes s _
  | bsAlign => exact hR.align
  | hufSertree =>
    exact within_bind h (within_need h _) fun _ => within_bind h (currentTree_within h) fun _ => serTree_within h hW _
  | hufEncsym sym =>
    exact within_bind h (within_need h _) fun _ => within_getAny h fun _ =>
      within_bind h (within_raiseIf h _ _) fun _ => writeBitString_within h hW _
  | hufDecsym =>
    exact within_bind h (within_need h _) fun _ => within_bind h (currentTree_within h) fun _ =>
      within_bind h (walkSymbol_within h hR _) fun _ => within_modify fun s => hRes s _
  | hufFreqRd sym | hufCodelen sym =>
    exact within_bind h (within_need h _) fun _ => within_modify fun s => hRes s _
  | ariWrtbl => exact within_bind h (within_need h _) fun _ => within_getAny h fun _ => writeTable_within h hW _
  | argLo imm | argHi imm | clrErr | bsWinit | bsRinit => exact hControl rfl
  | hufFreq | hufTree | hufCodes | hufDestree => exact hHuf rfl
  | lzwEncReset | lzwEncByte sym | lzwEncEnd | lzwDecReset | lzwDecCode => exact hLzw rfl
  | ariModel | ariRdtbl | ariEncInit | ariEncSym sym | ariEncFlush | ariDecInit | ariDecSym => exact hAri rfl
  | hufCompress | hufDecompress | lzwCompress | lzwDecompress | ariCompress | ariDecompress => exact hWhole rfl

omit hW hRes in
/-- The Huffman unit's commands change the unit and its three valid bits only. -/
theorem huffman_within (hh : ∀ (s : State) v, R s (s.setHuf v))
    (hv : ∀ (s : State) a b c, R s (s.setValid { s.valid with freq := a, tree := b, codes := c })) {i : Instr}
    (hi : domainOf i = .huffman) : Cmd.Within R (commandOf i) := by
  cases i with
  | hufFreq =>
    exact within_bind h (within_checkIn h) fun _ => within_modify fun s => h.trans (hh s _) (hv _ true false false)
  | hufTree =>
    exact within_bind h (within_need h _) fun _ => within_bind h (buildTree_within h fun s => hh s _) fun _ =>
      within_modify fun s => hv s s.valid.freq true false
  | hufCodes =>
    exact within_bind h (within_need h _) fun _ => within_bind h (currentTree_within h) fun _ =>
      within_modify fun s => h.trans (hh s _) (hv _ s.valid.freq s.valid.tree true)
  | hufDestree =>
    exact within_bind h (parseRoot_within h hR hh) fun _ => within_modify fun s => hv s false true false
  | _ => cases hi

/-- The LZW unit's commands change the unit, its two valid bits, RES and LZW_EOS only. -/
theorem lzw_within (he : ∀ (s : State) v, R s (s.setLzwE v)) (hd : ∀ (s : State) v, R s (s.setLzwD v))
    (hl : ∀ (s : State) b, R s (s.setLzwEos b))
    (hv : ∀ (s : State) a b, R s (s.setValid { s.valid with lzwE := a, lzwD := b })) {i : Instr}
    (hi : domainOf i = .lzw) : Cmd.Within R (commandOf i) := by
  cases i with
  | lzwEncReset => exact within_modify fun s => h.trans (he s _) (hv _ true s.valid.lzwD)
  | lzwEncByte sym => exact within_bind h (within_need h _) fun _ => encByte_within h hW he _
  | lzwEncEnd =>
    exact within_bind h (within_need h _) fun _ => within_getAny h fun _ =>
      within_bind h (emitCodes_within h hW _ _) fun _ =>
        within_modify fun s => h.trans (he s _) (hv _ false s.valid.lzwD)
  | lzwDecReset =>
    exact within_modify fun s => h.trans (hd s _) (h.trans (hl _ false) (hv _ s.valid.lzwE true))
  | lzwDecCode =>
    exact lzwDecCode_within h hW hR hd hRes fun s => h.trans (hl s true) (hv _ s.valid.lzwE false)
  | _ => cases hi

/-- The arithmetic unit's commands change the unit, its three valid bits, RES and ANOMALY only. -/
theorem arithmetic_within (ha : ∀ (s : State) v, R s (s.setAri v)) (hf : ∀ s : State, R s s.flagAnomaly)
    (hv : ∀ (s : State) a b c, R s (s.setValid { s.valid with ariModel := a, ariEnc := b, ariDec := c })) {i : Instr}
    (hi : domainOf i = .arithmetic) : Cmd.Within R (commandOf i) := by
  cases i with
  | ariModel =>
    exact within_bind h (within_checkIn h) fun _ =>
      within_checked h fun s => h.trans (ha s _) (hv _ true false false)
  | ariRdtbl =>
    exact within_bind h (readBits_within h hR _) fun _ => within_bind h (within_raiseIf h _ _) fun _ =>
      within_bind h (readEntries_within h ha hR _) fun _ =>
        within_modify fun s => h.trans (ha s _) (hv _ true false false)
  | ariEncInit => exact within_modify fun s => h.trans (ha s _) (hv _ s.valid.ariModel true false)
  | ariEncSym sym =>
    exact within_bind h (within_need h _) fun _ => within_bind h (within_need h _) fun _ =>
      encodeSymbol_within h ha hW _
  | ariEncFlush =>
    exact within_bind h (within_need h _) fun _ => within_bind h (flushRangeEncoder_within h ha hW) fun _ =>
      within_modify fun s => hv s s.valid.ariModel false s.valid.ariDec
  | ariDecInit =>
    exact within_bind h (startRangeDecoder_within h ha hR) fun _ =>
      within_modify fun s => hv s s.valid.ariModel false true
  | ariDecSym =>
    exact ariDecSym_within h hR ha hf hRes fun s => hv s s.valid.ariModel s.valid.ariEnc false
  | _ => cases hi

end

/-! ## Pseudocode from a precondition to a postcondition -/

/-- From every state in `P`, `c` ends normally with an answer and a state in `Q`, or raises in a state in `E`. -/
def Cmd.Takes {α : Type} (P : State → Prop) (c : Cmd α) (Q : α → State → Prop) (E : State → Prop) : Prop :=
  ∀ s, P s → match c s with
    | .ok a t => Q a t
    | .error _ t => E t

/-- The precondition that says nothing. -/
def Anything (_ : State) : Prop := True

section Takes

variable {α β : Type} {P E : State → Prop} {Q : α → State → Prop} {S : β → State → Prop}

theorem Cmd.Takes.of_ok {c : Cmd α} (h : Cmd.Takes P c Q E) {s t : State} {a : α} (hs : P s) (hc : c s = .ok a t) :
    Q a t := by
  have := h s hs
  rwa [hc] at this

theorem Cmd.Takes.of_error {c : Cmd α} (h : Cmd.Takes P c Q E) {s t : State} {e : ErrCode} (hs : P s)
    (hc : c s = .error e t) : E t := by
  have := h s hs
  rwa [hc] at this

theorem takes_of_cases {c : Cmd α} (hok : ∀ s a t, P s → c s = .ok a t → Q a t)
    (herr : ∀ s e t, P s → c s = .error e t → E t) : Cmd.Takes P c Q E := by
  intro s hs
  cases hc : c s with
  | ok a t => exact hok s a t hs hc
  | error e t => exact herr s e t hs hc

theorem takes_bind {c : Cmd α} {f : α → Cmd β} (hc : Cmd.Takes P c Q E) (hf : ∀ a, Cmd.Takes (Q a) (f a) S E) :
    Cmd.Takes P (c >>= f) S E := by
  intro s hs
  cases hcs : c s with
  | ok a t =>
    rw [Cmd.bind_of_ok hcs]
    exact hf a t (hc.of_ok hs hcs)
  | error e t =>
    rw [Cmd.bind_of_error hcs]
    exact hc.of_error hs hcs

theorem takes_pure {Q : State → Prop} (a : α) (h : ∀ s, P s → Q s) : Cmd.Takes P (pure a : Cmd α) (fun _ => Q) E := h

theorem takes_raise (e : ErrCode) (h : ∀ s, P s → E s) : Cmd.Takes P (raise e : Cmd α) Q E := h

theorem takes_raiseIf (p : Prop) [Decidable p] (e : ErrCode) (h : ∀ s, P s → E s) :
    Cmd.Takes P (raiseIf p e) (fun _ s => P s ∧ ¬ p) E := by
  intro s hs
  rw [raiseIf_run]
  by_cases hp : p
  · rw [if_pos hp]
    exact h s hs
  · rw [if_neg hp]
    exact ⟨hs, hp⟩

theorem takes_get {f : State → Cmd β} (hf : ∀ s, P s → Cmd.Takes (· = s) (f s) S E) :
    Cmd.Takes P ((get : Cmd State) >>= f) S E := fun s hs => hf s hs s rfl

/-- What was read is not used in what follows but through `f`. -/
theorem takes_getAny {f : State → Cmd β} (hf : ∀ s, Cmd.Takes P (f s) S E) :
    Cmd.Takes P ((get : Cmd State) >>= f) S E := fun s hs => hf s s hs

theorem takes_modify {g : State → State} {Q : State → Prop} (hg : ∀ s, P s → Q (g s)) :
    Cmd.Takes P (modify g : Cmd PUnit) (fun _ => Q) E := hg

theorem takes_forEach {I : State → Prop} {body : α → Cmd Unit}
    (hb : ∀ x, Cmd.Takes I (body x) (fun _ => I) E) : (l : List α) → Cmd.Takes I (forEach l body) (fun _ => I) E
  | [] => takes_pure () fun _ => id
  | x :: xs => takes_bind (hb x) fun _ => takes_forEach hb xs

theorem takes_repeatN {I : State → Prop} {body : Cmd Unit} (hb : Cmd.Takes I body (fun _ => I) E) :
    (n : Nat) → Cmd.Takes I (repeatN n body) (fun _ => I) E
  | 0 => takes_pure () fun _ => id
  | n + 1 => takes_bind hb fun _ => takes_repeatN hb n

/-- Pseudocode that stays within a relation keeps what the relation keeps. -/
theorem takes_of_within {R : State → State → Prop} {I J : State → Prop} {c : Cmd α} (hc : Cmd.Within R c)
    (hI : ∀ s t, R s t → I s → J t) (hE : ∀ s t, R s t → I s → E t) : Cmd.Takes I c (fun _ => J) E :=
  takes_of_cases (fun s _ t hs h => hI s t (hc.of_ok h) hs) fun s _ t hs h => hE s t (hc.of_error h) hs

/-- Only the last part of a sequence decides where it ends, if nothing is asked of the rest. -/
theorem takes_last {Q : β → State → Prop} {c : Cmd α} {f : α → Cmd β}
    (hf : ∀ a, Cmd.Takes Anything (f a) Q Anything) : Cmd.Takes Anything (c >>= f) Q Anything :=
  takes_bind (Q := fun _ => Anything) (fun s _ => by split <;> trivial) hf

end Takes

/-! ## The held bits of whole-buffer commands (R168) -/

/-- A bit written moves NBITS on by one, around from 7 to 0 (R46, R181). -/
theorem writeBit_nbits {b : Bool} {s t : State} (h : writeBit b s = .ok ⟨⟩ t) :
    t.writer.nbits = s.writer.nbits + 1 := by
  unfold writeBit at h
  simp only [Cmd.get_bind_run] at h
  split at h
  · rename_i h7
    have hn : s.writer.nbits + 1 = 0 := by
      apply BitVec.eq_of_toNat_eq
      rw [BitVec.toNat_add]
      show (s.writer.nbits.toNat + 1) % 2 ^ 3 = 0
      omega
    cases hp : putByte (shiftInByte s.writer.acc b) s with
    | ok a u =>
      rw [Cmd.bind_of_ok hp] at h
      cases h
      exact hn.symm
    | error e u =>
      rw [Cmd.bind_of_error hp] at h
      cases h
  · cases h
    rfl

/-- `n` bits written move NBITS on by `n`. -/
theorem writeBits_nbits {v : Word} {n : Nat} {s t : State} (h : writeBits v n s = .ok ⟨⟩ t) :
    t.writer.nbits = s.writer.nbits + BitVec.ofNat 3 n := by
  induction n generalizing s with
  | zero =>
    cases h
    exact (BitVec.add_zero _).symm
  | succ n ih =>
    change (writeBit (v.getLsbD n) >>= fun _ => writeBits v n) s = _ at h
    cases hb : writeBit (v.getLsbD n) s with
    | ok a u =>
      rw [Cmd.bind_of_ok hb] at h
      rw [ih h, writeBit_nbits hb, BitVec.add_assoc, Nat.add_comm n 1, BitVec.ofNat_add]
      rfl
    | error e u =>
      rw [Cmd.bind_of_error hb] at h
      cases h

/-- The writer holds no bits. -/
def Aligned (s : State) : Prop := s.writer.nbits = 0

theorem writeBits_aligned (v : Word) {n : Nat} (hn : BitVec.ofNat 3 n = 0 := by decide) :
    Cmd.Takes Aligned (writeBits v n) (fun _ => Aligned) Anything :=
  takes_of_cases (fun s _ t hs h => by
    show t.writer.nbits = 0
    rw [writeBits_nbits h, hn, hs]
    rfl) fun _ _ _ _ _ => trivial

theorem emitByte_aligned (b : Byte) : Cmd.Takes Aligned (emitByte b) (fun _ => Aligned) Anything :=
  writeBits_aligned _

theorem emitBytes_aligned (l : List Byte) : Cmd.Takes Aligned (emitBytes l) (fun _ => Aligned) Anything :=
  takes_forEach emitByte_aligned l

theorem flushBits_aligned : Cmd.Takes Anything flushBits (fun _ => Aligned) Anything := by
  refine takes_get fun s _ => ?_
  split
  · rename_i h0
    exact takes_pure _ fun t ht => by subst ht; exact h0
  · exact takes_bind (Q := fun _ => Anything) (takes_of_cases (fun _ _ _ _ _ => trivial) fun _ _ _ _ _ => trivial)
      fun _ => takes_modify fun _ _ => rfl

theorem endCall_aligned : Cmd.Takes Aligned (modify endCall : Cmd PUnit) (fun _ => Aligned) Anything :=
  takes_modify fun _ => id

/-- After a flush the last byte leaves no held bits. -/
theorem hufCompressBody_aligned : Cmd.Takes Anything hufCompressBody (fun _ => Aligned) Anything :=
  takes_last fun _ => takes_last fun _ => takes_last fun _ => takes_last fun _ => takes_last fun _ =>
    takes_last fun _ => takes_last fun _ => takes_last fun _ => takes_bind flushBits_aligned fun _ => emitByte_aligned _

theorem hufCompress_aligned : Cmd.Takes Anything hufCompress (fun _ => Aligned) Anything := by
  refine takes_last fun _ => takes_bind (Q := fun _ => Aligned) (takes_modify fun _ _ => rfl) fun _ =>
    takes_getAny fun s => takes_bind (emitByte_aligned _) fun _ => takes_bind (writeBits_aligned _) fun _ =>
      takes_bind (Q := fun _ => Aligned) ?_ fun _ => endCall_aligned
  unfold hufCompressRest
  split
  · exact emitByte_aligned _
  · exact fun t _ => hufCompressBody_aligned t trivial

theorem lzwCompress_aligned : Cmd.Takes Anything lzwCompress (fun _ => Aligned) Anything := by
  refine takes_last fun _ => takes_last fun _ => takes_bind (Q := fun _ => Aligned) (takes_modify fun _ _ => rfl)
    fun _ => takes_getAny fun s => takes_bind (writeBits_aligned _) fun _ => takes_bind (emitBytes_aligned _) fun _ =>
      takes_bind (writeBits_aligned _) fun _ => takes_bind (Q := fun _ => Aligned) ?_ fun _ => endCall_aligned
  unfold lzwWriteForm
  split
  · exact takes_bind (emitByte_aligned _) fun _ => takes_bind (emitBytes_aligned _) fun _ => takes_modify fun _ => id
  · have body : Cmd.Takes Anything (lzwWriteCompressed (payloadBytes s) s.input) (fun _ => Aligned) Anything :=
      takes_last fun _ => takes_last fun _ => takes_last fun _ => takes_last fun _ => takes_last fun _ =>
        takes_bind flushBits_aligned fun _ => takes_modify fun _ => id
    exact fun t _ => body t trivial

theorem ariCompress_aligned : Cmd.Takes Anything ariCompress (fun _ => Aligned) Anything :=
  takes_last fun _ => takes_last fun _ => takes_last fun _ => takes_last fun _ => takes_last fun _ =>
    takes_last fun _ => takes_last fun _ => takes_last fun _ => takes_last fun _ => takes_last fun _ =>
      takes_last fun _ => takes_last fun _ => takes_last fun _ => takes_last fun _ => takes_last fun _ =>
        takes_last fun _ => takes_bind flushBits_aligned fun _ => endCall_aligned

end Sys2Proof.Machine

namespace Sys2Proof.Machine

/-! ## What holds while a decompress command runs -/

/-- D_NEXT lies in 258 to 4096 (R51). -/
def LzwDec.NextOk (d : LzwDec) : Prop := 258 ≤ d.next.toNat ∧ d.next.toNat ≤ 4096

/-- `t` is between the start and the end of a decompress command that began in `s` and passed CheckIn (R168): the writer
holds no bits, RD_END is within IBUF (R184), D_NEXT is within its bounds if it was. -/
structure Reading (s t : State) : Prop where
  params : t.params = s.params
  aligned : t.writer.nbits = 0
  rdEnd : t.reader.fin.toNat ≤ s.params.ibufSize
  next : s.lzwD.NextOk → t.lzwD.NextOk

/-- What is left of it where the command raises. -/
structure Bounded (s t : State) : Prop where
  rdEnd : s.reader.fin.toNat ≤ s.params.ibufSize → t.reader.fin.toNat ≤ s.params.ibufSize
  next : s.lzwD.NextOk → t.lzwD.NextOk

/-- The part of the state that `Reading` speaks of. -/
def State.readingPart (s : State) : Params × BitVec 3 × Word × BitVec 13 :=
  (s.params, s.writer.nbits, s.reader.fin, s.lzwD.next)

theorem Bounded.refl (s : State) : Bounded s s := ⟨id, id⟩

section

variable {s : State}

theorem Reading.bounded {t : State} (h : Reading s t) : Bounded s t := ⟨fun _ => h.rdEnd, h.next⟩

theorem Reading.of_same {t u : State} (hs : Same State.readingPart t u) (h : Reading s t) : Reading s u := by
  simp only [Same, State.readingPart, Prod.mk.injEq] at hs
  obtain ⟨hp, hn, hf, hd⟩ := hs
  refine ⟨hp.trans h.params, hn.trans h.aligned, hf ▸ h.rdEnd, fun ho => ?_⟩
  unfold LzwDec.NextOk at *
  rw [hd]
  exact h.next ho

/-- Pseudocode that touches none of it keeps it. -/
theorem reading_of_within {α : Type} {c : Cmd α} (hc : Cmd.Within (Same State.readingPart) c) :
    Cmd.Takes (Reading s) c (fun _ => Reading s) (Bounded s) :=
  takes_of_within hc (fun _ _ => Reading.of_same) fun _ _ hs h => (h.of_same hs).bounded

theorem reading_modify {g : State → State} (hg : ∀ t, Same State.readingPart t (g t)) :
    Cmd.Takes (Reading s) (modify g : Cmd PUnit) (fun _ => Reading s) (Bounded s) :=
  takes_modify fun t => Reading.of_same (hg t)

theorem input_readingPart : Input (Same State.readingPart) where
  bit := by
    refine within_get fun s => ?_
    have hfin : s.reader.nextBit.fin = s.reader.fin := by unfold Reader.nextBit; split <;> rfl
    split
    · show Same State.readingPart s (s.setReader s.reader.nextBit)
      unfold Same State.readingPart
      rw [State.setReader_reader, hfin]
      rfl
    · show Same State.readingPart s ((s.setReader s.reader.nextBit).setRdOvr true)
      unfold Same State.readingPart
      rw [State.setRdOvr_reader, State.setReader_reader, hfin]
      rfl
  align := within_modify fun s => by
    have hfin : s.reader.aligned.fin = s.reader.fin := by unfold Reader.aligned; split <;> rfl
    unfold Same State.readingPart
    rw [State.setReader_reader, hfin]
    rfl

theorem emitByte_reading (b : Byte) : Cmd.Takes (Reading s) (emitByte b) (fun _ => Reading s) (Bounded s) := by
  have hW : Output (Same fun t : State => (t.params, t.reader, t.lzwD)) :=
    output_of_blind (steady_same _) fun _ _ _ => rfl
  have kept := emitByte_within (steady_same _) hW b
  refine takes_of_cases (fun t _ u ht hu => ?_) fun t e u ht hu => ?_
  · obtain ⟨hp, hr, hd⟩ : _ ∧ _ ∧ _ := by simpa only [Same, Prod.mk.injEq] using kept.of_ok hu
    exact ⟨hp.trans ht.params, (emitByte_aligned b).of_ok ht.aligned hu, hr ▸ ht.rdEnd, hd ▸ ht.next⟩
  · obtain ⟨-, hr, hd⟩ : _ ∧ _ ∧ _ := by simpa only [Same, Prod.mk.injEq] using kept.of_error hu
    exact ⟨fun _ => hr ▸ ht.rdEnd, hd ▸ ht.next⟩

theorem emitBytes_reading (l : List Byte) : Cmd.Takes (Reading s) (emitBytes l) (fun _ => Reading s) (Bounded s) :=
  takes_forEach emitByte_reading l

/-- A new RD_END at or below IN_LEN's bound (R222, R278). -/
theorem Reading.setFin {t : State} (h : Reading s t) {n : Nat} (hn : n ≤ s.params.ibufSize) :
    Reading s (t.setReader { t.reader with fin := BitVec.ofNat 32 n }) where
  params := h.params
  aligned := h.aligned
  rdEnd := by
    show (BitVec.ofNat 32 n).toNat ≤ _
    rw [BitVec.toNat_ofNat]
    exact (Nat.mod_le _ _).trans hn
  next := h.next

/-- The reader is left with an end within IBUF (R184, V5). -/
theorem discarded_fin_le (ibufSize draw : Nat) : (Reader.discarded ibufSize draw).fin.toNat ≤ ibufSize := by
  show (BitVec.ofNat 32 _).toNat ≤ _
  rw [BitVec.toNat_ofNat]
  exact (Nat.mod_le _ _).trans (Nat.le_of_lt_succ (Nat.mod_lt _ (Nat.succ_pos _)))

theorem endCall_reading : Cmd.Takes (Reading s) (modify endCall : Cmd PUnit) (fun _ => Reading s) (Bounded s) :=
  takes_modify fun t h =>
    ⟨h.params, h.aligned, h.params ▸ discarded_fin_le t.params.ibufSize t.draws, fun _ => LzwDec.discarded_next _⟩

/-- The common start of the decompress commands (R168). -/
theorem decompress_start {f : State → Cmd Unit}
    (hf : s.inLen.toNat ≤ s.params.ibufSize →
      Cmd.Takes (Reading s) (f (startReader (startWriter s))) (fun _ => Reading s) (Bounded s)) :
    Cmd.Takes (· = s)
      (checkIn >>= fun _ => (modify fun t => startReader (startWriter t)) >>= fun _ => (get : Cmd State) >>= f)
      (fun _ => Reading s) (Bounded s) := by
  rintro s rfl
  rw [checkIn_bind_run]
  by_cases hlen : s.inLen.toNat > s.params.ibufSize
  · rw [if_pos hlen]
    exact Bounded.refl s
  · rw [if_neg hlen, Cmd.modify_bind_run, Cmd.get_bind_run]
    exact hf (by omega) _ ⟨rfl, rfl, by show s.inLen.toNat ≤ _; omega, id⟩

/-! ### HUF_DECOMPRESS -/

theorem decodePayload_reading (l0 r0 : HTree) : (avail : Nat) → (l r : HTree) → (left : Nat) →
    Cmd.Takes (Reading s) (decodePayload l0 r0 avail l r left) (fun _ => Reading s) (Bounded s)
  | _, _, _, 0 => by
    unfold decodePayload
    exact takes_pure _ fun _ => id
  | 0, _, _, _ + 1 => takes_raise _ fun _ h => h.bounded
  | avail + 1, l, r, left + 1 => takes_bind (reading_of_within input_readingPart.bit) fun b => by
      split
      · exact takes_bind (emitByte_reading _) fun _ => decodePayload_reading l0 r0 avail _ _ _
      · exact decodePayload_reading l0 r0 avail _ _ _

theorem hufDecompressBody_reading {len : Nat} (hlen : len ≤ s.params.ibufSize) (n : Nat) :
    Cmd.Takes (Reading s) (hufDecompressBody len n) (fun _ => Reading s) (Bounded s) := by
  have h := steady_same State.readingPart
  refine takes_bind (reading_of_within (parseRoot_within h input_readingPart fun _ _ => rfl)) fun _ =>
    takes_bind (reading_of_within input_readingPart.align) fun _ => takes_getAny fun u =>
      takes_bind (reading_of_within (within_raiseIf h _ _)) fun _ =>
        takes_bind (reading_of_within (within_raiseIf h _ _)) fun _ =>
          takes_bind (reading_of_within (currentTree_within h)) fun T => ?_
  split
  · exact takes_repeatN (emitByte_reading _) _
  · exact takes_bind (takes_modify fun t ht => ht.setFin (by omega)) fun _ => decodePayload_reading _ _ _ _ _ _

theorem hufDecompress_reading : Cmd.Takes (· = s) hufDecompress (fun _ => Reading s) (Bounded s) := by
  have h := steady_same State.readingPart
  refine decompress_start fun hlen => takes_bind (reading_of_within (within_raiseIf h _ _)) fun _ =>
    takes_bind (reading_of_within (readBits_within h input_readingPart _)) fun _ =>
      takes_bind (reading_modify fun _ => rfl) fun _ =>
        takes_bind (reading_of_within (readBits_within h input_readingPart _)) fun n =>
          takes_bind (reading_modify fun _ => rfl) fun _ =>
            takes_bind (Q := fun _ => Reading s) ?_ fun _ => endCall_reading
  unfold hufDecompressRest
  split
  · exact takes_pure _ fun _ => id
  · exact hufDecompressBody_reading hlen _

/-! ### LZW_DECOMPRESS -/

/-- An insertion keeps D_NEXT within its bounds: none is made into a full dictionary (R273). -/
theorem insertEntry_nextOk {l : List Byte} {t u : State} (h : insertEntry l t = .ok ⟨⟩ u) (hn : t.lzwD.NextOk) :
    u.lzwD.NextOk := by
  rw [insertEntry_run] at h
  split at h
  · split at h
    · cases h
    · rename_i hfull
      cases h
      obtain ⟨h1, h2⟩ := hn
      have hs := toNat_succ_next (n := t.lzwD.next) (by omega)
      show 258 ≤ (t.lzwD.next + 1).toNat ∧ (t.lzwD.next + 1).toNat ≤ 4096
      omega
  · cases h
    exact hn

theorem insertEntry_reading (l : List Byte) :
    Cmd.Takes (Reading s) (insertEntry l) (fun _ => Reading s) (Bounded s) := by
  have kept : Cmd.Within (Same fun t : State => (t.params, t.writer, t.reader)) (insertEntry l) :=
    insertEntry_within (steady_same (fun t : State => (t.params, t.writer, t.reader))) (fun _ _ => rfl) l
  refine takes_of_cases (fun t _ u ht hu => ?_) fun t e u ht hu => ?_
  · obtain ⟨hp, hw, hr⟩ : _ ∧ _ ∧ _ := by simpa only [Same, Prod.mk.injEq] using kept.of_ok hu
    exact ⟨hp.trans ht.params, hw ▸ ht.aligned, hr ▸ ht.rdEnd, fun ho => insertEntry_nextOk hu (ht.next ho)⟩
  · rw [insertEntry_run] at hu
    split at hu
    · split at hu <;> cases hu
      exact ht.bounded
    · cases hu

theorem decompressCode_reading (left : Nat) :
    Cmd.Takes (Reading s) (decompressCode left) (fun _ => Reading s) (Bounded s) := by
  have h := steady_same State.readingPart
  refine takes_bind (reading_of_within (readCode_within h input_readingPart)) fun c => ?_
  split
  · exact takes_raise _ fun _ ht => ht.bounded
  · split
    · exact takes_bind
        (takes_modify fun t ht => ⟨ht.params, ht.aligned, ht.rdEnd, fun _ => firstCode_range⟩) fun _ =>
          takes_pure _ fun _ => id
    · exact takes_bind (reading_of_within (resolveCode_within h c)) fun str =>
        takes_bind (insertEntry_reading str) fun _ => takes_bind (reading_of_within (within_raiseIf h _ _)) fun _ =>
          takes_bind (emitBytes_reading str) fun _ => takes_bind (reading_modify fun _ => rfl) fun _ =>
            takes_pure _ fun _ => id

theorem decompressLoop_reading : (rounds left : Nat) →
    Cmd.Takes (Reading s) (decompressLoop rounds left) (fun _ => Reading s) (Bounded s)
  | _, 0 => by
    unfold decompressLoop
    exact takes_pure _ fun _ => id
  | 0, _ + 1 => takes_raise _ fun _ h => h.bounded
  | rounds + 1, left + 1 => takes_bind (decompressCode_reading _) fun _ => decompressLoop_reading rounds _

theorem lzwReadForm_reading (flag : Word) {len : Nat} (hlen : len ≤ s.params.ibufSize) (start n : Nat) :
    Cmd.Takes (Reading s) (lzwReadForm flag len start n) (fun _ => Reading s) (Bounded s) := by
  have h := steady_same State.readingPart
  unfold lzwReadForm
  split
  · exact takes_bind (reading_of_within (within_raiseIf h _ _)) fun _ => takes_bind (reading_modify fun _ => rfl)
      fun _ => takes_getAny fun _ => emitBytes_reading _
  · split
    · refine takes_bind (reading_modify fun _ => rfl) fun _ => takes_bind (reading_of_within (within_raiseIf h _ _))
        fun _ => takes_bind (reading_of_within (readBits_within h input_readingPart _)) fun m =>
          takes_bind (takes_raiseIf _ _ fun _ ht => ht.bounded) fun _ =>
            takes_bind (Q := fun _ => Reading s) (takes_modify fun t ht => ?_) fun _ => decompressLoop_reading _ _
      obtain ⟨ht, hm⟩ := ht
      have hf := ht.setFin (n := start + 4 + m.toNat) (by omega)
      exact ⟨hf.params, hf.aligned, hf.rdEnd, fun _ => firstCode_range⟩
    · exact takes_raise _ fun _ ht => ht.bounded

theorem lzwDecompress_reading : Cmd.Takes (· = s) lzwDecompress (fun _ => Reading s) (Bounded s) := by
  have h := steady_same State.readingPart
  exact decompress_start fun hlen => takes_bind (reading_of_within (within_raiseIf h _ _)) fun _ =>
    takes_bind (reading_of_within (readBits_within h input_readingPart _)) fun l =>
      takes_bind (reading_of_within (within_raiseIf h _ _)) fun _ => takes_bind (reading_modify fun _ => rfl) fun _ =>
        takes_bind (reading_of_within (readBits_within h input_readingPart _)) fun n =>
          takes_bind (reading_modify fun _ => rfl) fun _ =>
            takes_bind (reading_of_within (readBits_within h input_readingPart _)) fun f =>
              takes_bind (lzwReadForm_reading f hlen _ _) fun _ => endCall_reading

/-! ### ARI_DECOMPRESS -/

theorem ariReadHeader_readingPart (len : Nat) : Cmd.Within (Same State.readingPart) (ariReadHeader len) :=
  have h := steady_same State.readingPart
  have read := readBits_within h input_readingPart
  within_bind h (within_raiseIf h _ _) fun _ => within_bind h (read _) fun _ =>
    within_bind h (within_modify fun _ => rfl) fun _ => within_bind h (read _) fun _ =>
      within_bind h (within_raiseIf h _ _) fun _ => within_bind h (within_modify fun _ => rfl) fun _ =>
        within_bind h (read _) fun _ => within_bind h (within_modify fun _ => rfl) fun _ =>
          within_bind h (read _) fun _ => within_bind h (within_raiseIf h _ _) fun _ => within_pure h _

theorem decompressSymbol_reading : Cmd.Takes (Reading s) decompressSymbol (fun _ => Reading s) (Bounded s) := by
  have h := steady_same State.readingPart
  exact takes_bind (reading_of_within (lookup_within h fun _ => rfl)) fun sym =>
    takes_bind (reading_of_within (within_raiseIf h _ _)) fun _ =>
      takes_bind (reading_of_within (consumeSymbol_within h (fun _ _ => rfl) input_readingPart sym)) fun _ =>
        emitByte_reading _

theorem ariDecompress_reading : Cmd.Takes (· = s) ariDecompress (fun _ => Reading s) (Bounded s) := by
  have h := steady_same State.readingPart
  have ha : ∀ (t : State) v, Same State.readingPart t (t.setAri v) := fun _ _ => rfl
  exact decompress_start fun _ => takes_bind (reading_of_within (ariReadHeader_readingPart _)) fun p =>
    takes_bind (reading_of_within (readEntries_within h ha input_readingPart _)) fun sum =>
      takes_bind (reading_of_within (within_raiseIf h _ _)) fun _ =>
        takes_bind (reading_modify fun t => ha t _) fun _ =>
          takes_bind (reading_of_within (startRangeDecoder_within h ha input_readingPart)) fun _ =>
            takes_bind (takes_repeatN decompressSymbol_reading _) fun _ => endCall_reading

/-- A decompress command keeps RD_END and D_NEXT within their bounds and ends with no held bits. -/
theorem decompress_reading {i : Instr} (hi : i = .hufDecompress ∨ i = .lzwDecompress ∨ i = .ariDecompress) :
    Cmd.Takes (· = s) (commandOf i) (fun _ => Reading s) (Bounded s) := by
  obtain rfl | rfl | rfl := hi
  · exact hufDecompress_reading
  · exact lzwDecompress_reading
  · exact ariDecompress_reading

end

/-! ## The end of whole-buffer commands -/

/-- Every whole-buffer command's last act is `endCall` (R45, R168). -/
theorem wholeBuffer_cleared {i : Instr} (hi : i.wholeBuffer = true) :
    Cmd.Takes Anything (commandOf i) (fun _ t => t.valid = UnitValid.cleared) Anything := by
  have last : Cmd.Takes Anything (modify endCall : Cmd PUnit) (fun _ t => t.valid = UnitValid.cleared) Anything :=
    takes_modify fun _ _ => rfl
  cases i with
  | hufCompress | hufDecompress | lzwCompress | lzwDecompress | ariCompress | ariDecompress =>
    repeat refine takes_last fun _ => ?_
    exact last
  | _ => cases hi

theorem wholeBuffer_aligned {i : Instr} (hi : i.wholeBuffer = true) {s t : State} (h : commandOf i s = .ok () t) :
    t.writer.nbits = 0 := by
  cases i with
  | hufCompress => exact hufCompress_aligned.of_ok trivial h
  | lzwCompress => exact lzwCompress_aligned.of_ok trivial h
  | ariCompress => exact ariCompress_aligned.of_ok trivial h
  | hufDecompress => exact (hufDecompress_reading.of_ok rfl h).aligned
  | lzwDecompress => exact (lzwDecompress_reading.of_ok rfl h).aligned
  | ariDecompress => exact (ariDecompress_reading.of_ok rfl h).aligned
  | _ => cases hi

/-- Settles O15: on success `endCall` clears the valid bits and the output was flushed or written in bytes; on an error
the error completion does both. -/
theorem wholeBufferCommandsEndClean : Obligations.WholeBufferCommandsEndClean := by
  intro i s t hi h
  obtain ⟨u, hu, he⟩ | ⟨e, u, -, he⟩ := exec_cases i s
  · cases h.symm.trans he
    exact ⟨(wholeBuffer_cleared hi).of_ok trivial hu, wholeBuffer_aligned hi hu⟩
  · cases h.symm.trans he
    exact ⟨rfl, rfl⟩

end Sys2Proof.Machine

namespace Sys2Proof.Machine

/-! ## Invariants along a step -/

/-- What holds before holds after. -/
def Keeps (I : State → Prop) (s t : State) : Prop := I s → I t

theorem steady_keeps (I : State → Prop) : Steady (Keeps I) := ⟨fun _ => id, fun h g => g ∘ h⟩

theorem within_mono {α : Type} {R S : State → State → Prop} {c : Cmd α} (hRS : ∀ s t, R s t → S s t)
    (hc : Cmd.Within R c) : Cmd.Within S c := by
  intro s
  have hs := hc s
  unfold Cmd.At at *
  split at hs
  · exact hRS _ _ hs
  · exact ⟨hRS _ _ hs.1, hs.2⟩

theorem Input.mono {R S : State → State → Prop} (hRS : ∀ s t, R s t → S s t) (hR : Input R) : Input S :=
  ⟨within_mono hRS hR.bit, within_mono hRS hR.align⟩

/-- A command's outcome from what its pseudocode takes: success, or the error completion (R161, R366). -/
theorem exec_takes {P Q E : State → Prop} {i : Instr} {s t : State}
    (hc : Cmd.Takes P (commandOf i) (fun _ => Q) E) (hs : P s) (h : exec i s = .next t) :
    Q t ∨ ∃ e u, t = takeError e u ∧ E u := by
  obtain ⟨u, hu, he⟩ | ⟨e, u, hu, he⟩ := exec_cases i s
  · cases h.symm.trans he
    exact .inl (hc.of_ok hs hu)
  · cases h.symm.trans he
    exact .inr ⟨e, u, rfl, hc.of_error hs hu⟩

/-- The decoder answers well-formed commands only (R122, R124): a class's check of CNT or IMM is what the command's
operand needs. -/
theorem wellFormed_of_decode {w : Word} {i : Instr} (h : decode w = .ok i) : WellFormed i := by
  unfold decode at h
  split at h <;>
    simp only [classZ, classI16, classC32, classCI16, classS8, classS9, legalIf_eq_ok, reduceCtorEq] at h <;>
    obtain ⟨-, hcnt, himm, rfl⟩ := h
  case h_6 | h_7 | h_10 => exact hcnt
  case h_34 =>
    refine decide_eq_true ?_
    have hi := of_decide_eq_true himm
    rw [BitVec.toNat_setWidth]
    omega
  all_goals rfl

/-! ### Parts no host access touches -/

/-- The parameters, UNIT_VALID and the units. -/
def State.units (s : State) : Params × UnitValid × Huffman × LzwEnc × LzwDec × Arith :=
  (s.params, s.valid, s.huf, s.lzwE, s.lzwD, s.ari)

theorem writeReg_units (r : Reg) (w : Word) (s : State) : (writeReg r w s).units = s.units := by cases r <;> rfl

/-- No host write reaches the units (R45 to R56: read-only). -/
theorem hostWrite_units {bits off : Nat} {w : Word} {s t : State} (h : hostWrite bits off w s = .next t) :
    t.units = s.units := by
  unfold hostWrite at h
  split at h
  · cases h
  · cases h
    split
    · unfold writeBusy
      split <;> rfl
    · cases placeOf off with
      | regs off =>
        show (match Reg.ofOffset off with | none => s | some r => writeReg r w s).units = _
        cases Reg.ofOffset off with
        | none => rfl
        | some r => exact writeReg_units r w s
      | _ => rfl

/-- What a step does not break: the induction step of an invariant, one hypothesis for each agent's act. -/
structure Stable (I : State → Prop) : Prop where
  tape : ∀ {s} v, I s → I (s.setTape v)
  read : ∀ {s} b d, I s → I ((s.setBus b).setDraws d)
  write : ∀ {s t bits off w}, I s → hostWrite bits off w s = .next t → I t
  reset : ∀ {s}, I s → I (resetFrom s)
  complete : ∀ {s}, I s → I (complete s)
  illegal : ∀ {s}, I s → I (takeError .illegalCommand s)
  exec : ∀ {i s t}, WellFormed i → I s → exec i s = .next t → I t

section

variable {I : State → Prop} (h : Stable I) {s t : State}

include h

theorem Stable.coreMove (hs : I s) (hm : coreMove Machine.exec s = .next t) : I t := by
  unfold Machine.coreMove at hm
  split at hm
  · unfold commandStep at hm
    split at hm
    · cases hm
      exact h.complete hs
    · cases hd : decode s.seq.cmdWord with
      | error r =>
        rw [hd] at hm
        cases hm
        exact h.complete (h.illegal hs)
      | ok i =>
        rw [hd] at hm
        change completeOutcome (Machine.exec i s) = _ at hm
        obtain ⟨u, -, hu⟩ | ⟨e, u, -, hu⟩ := exec_cases i s
        all_goals
          rw [hu] at hm
          cases hm
          exact h.complete (h.exec (wellFormed_of_decode hd) hs hu)
  · cases hm
    exact hs

/-- An invariant of every act is an invariant of every step. -/
theorem Stable.step (hs : I s) (hm : step s = .next t) : I t := by
  cases htape : s.tape with
  | nil =>
    rw [step_idle_tape htape] at hm
    exact h.coreMove hs hm
  | cons m rest =>
    have hr := h.tape rest hs
    cases m with
    | core =>
      rw [step_core_eq htape] at hm
      exact h.coreMove hr hm
    | reset =>
      rw [step_reset_eq htape] at hm
      cases hm
      exact h.reset hr
    | read bits off =>
      rw [step_read htape hm]
      exact h.read _ _ hr
    | write bits off w =>
      rw [step_write_eq htape] at hm
      exact h.write hr hm

end

/-- An invariant of the units: host accesses and completion do not reach it. -/
theorem stable_of_units {I : State → Prop} (hI : ∀ {s t : State}, t.units = s.units → I s → I t)
    (reset : ∀ {s}, I s → I (resetFrom s)) (illegal : ∀ {s}, I s → I (takeError .illegalCommand s))
    (exec : ∀ {i s t}, WellFormed i → I s → exec i s = .next t → I t) : Stable I where
  tape := fun _ => hI rfl
  read := fun _ _ => hI rfl
  write := fun hs hw => hI (hostWrite_units hw) hs
  reset := reset
  complete := hI rfl
  illegal := illegal
  exec := exec

/-! ## Registers and buffers -/

/-! ### The writer and OBUF -/

/-- What `State.Sound` says of the writer and OBUF (R42, R46, R90). -/
structure OutOk (p : Params) (obuf : Memory) (w : Writer) : Prop where
  params : p.Ok
  wf : obuf.wf
  size : ∀ c ∈ obuf.cells, c.1 < p.obufSize
  outLen : w.outLen.toNat ≤ p.obufSize
  output : ∀ a, a < w.outLen.toNat → (obuf.written a).isSome = true
  tidy : w.Tidy

/-- The part of `State.Sound` that speaks of the writer and OBUF. -/
def OutSound (s : State) : Prop := OutOk s.params s.obuf s.writer

theorem OutSound.started {s : State} (h : OutSound s) : OutSound (startWriter s) :=
  { h with
    outLen := Nat.zero_le _
    output := fun _ ha => absurd ha (Nat.not_lt_zero _)
    tidy := Nat.one_pos }

/-- A byte put where OBUF has room, the writer emptied (R181, R182). -/
theorem OutSound.putByte {s : State} (h : OutSound s) (hr : s.writer.outLen.toNat ≠ s.params.obufSize) (b : Byte) :
    OutSound ((s.setObuf (s.obuf.put s.writer.outLen.toNat b)).setWriter
      { acc := 0, nbits := 0, outLen := s.writer.outLen + 1 }) := by
  obtain ⟨hp, hwf, hsize, hle, hout, -⟩ := h
  obtain ⟨-, ⟨-, hmax⟩, -⟩ := id hp
  unfold Config.bufferLimit at hmax
  have hsucc : (s.writer.outLen + 1).toNat = s.writer.outLen.toNat + 1 := by
    rw [BitVec.toNat_add]
    exact Nat.mod_eq_of_lt (by show s.writer.outLen.toNat + 1 < 2 ^ 32; omega)
  refine ⟨hp, Store.wf_put hwf _ _, fun c hc => ?_, ?_, fun a ha => ?_, Nat.one_pos⟩
  · obtain rfl | hc := mem_putCell hc
    · show s.writer.outLen.toNat < s.params.obufSize
      omega
    · exact hsize c hc
  · show (s.writer.outLen + 1).toNat ≤ s.params.obufSize
    omega
  · change a < (s.writer.outLen + 1).toNat at ha
    show ((s.obuf.put _ b).written a).isSome = true
    rw [Store.written_put]
    split
    · rfl
    · exact hout a (by omega)

theorem putByte_run (b : Byte) (s : State) :
    putByte b s =
      if s.writer.outLen.toNat = s.params.obufSize then .error .ioFailure s
      else .ok ⟨⟩ ((s.setObuf (s.obuf.put s.writer.outLen.toNat b)).setWriter
        { s.writer with outLen := s.writer.outLen + 1 }) := by
  unfold putByte
  rw [Cmd.get_bind_run, raiseIf_bind_run]
  rfl

/-- PutByte with the writer emptied after it, as a full byte and a flush do it (R181, R182). -/
theorem putByte_empty_outSound (b : Byte) :
    Cmd.Within (Keeps OutSound)
      (putByte b >>= fun _ => (modify fun t => t.setWriter { t.writer with acc := 0, nbits := 0 } : Cmd PUnit)) := by
  intro s
  unfold Cmd.At
  have hrun := putByte_run b s
  split at hrun
  · rw [Cmd.bind_of_error hrun]
    exact ⟨id, by decide⟩
  · rename_i hr
    rw [Cmd.bind_of_ok hrun]
    exact fun h => h.putByte hr b

theorem output_outSound : Output (Keeps OutSound) where
  bit := fun b => within_get fun s => by
    dsimp only
    split
    · exact putByte_empty_outSound _ s
    · rename_i h8
      intro h
      have hn := s.writer.nbits.isLt
      have hk : (s.writer.nbits + 1).toNat = s.writer.nbits.toNat + 1 := by
        rw [BitVec.toNat_add]
        exact Nat.mod_eq_of_lt (by show s.writer.nbits.toNat + 1 < 2 ^ 3; omega)
      refine { h with tidy := ?_ }
      show (shiftInByte s.writer.acc b).toNat < 2 ^ (s.writer.nbits + 1).toNat
      rw [hk]
      exact shiftInByte_toNat_lt _ _ _ h.tidy
  flush := within_getAny (steady_keeps _) fun s => by
    split
    · exact within_pure (steady_keeps _) _
    · exact putByte_empty_outSound _

/-- Every command keeps the writer and OBUF sound: they change through the writer's operations alone. -/
theorem commandOf_outSound (i : Instr) : Cmd.Within (Keeps OutSound) (commandOf i) := by
  have h := steady_keeps OutSound
  have hW := output_outSound
  have hR : Input (Keeps OutSound) := input_of_blind h (fun _ _ => id) fun _ => id
  have hStart : ∀ s : State, Keeps OutSound s ((startWriter s).setOrigSize s.inLen) := fun _ => OutSound.started
  have hRead : ∀ s : State, Keeps OutSound s (startReader (startWriter s)) := fun _ => OutSound.started
  refine commandOf_within_domain h hW hR (fun _ _ => id) i (fun hi => ?_)
    (huffman_within h hR (fun _ _ => id) fun _ _ _ _ => id)
    (lzw_within h hW hR (fun _ _ => id) (fun _ _ => id) (fun _ _ => id) (fun _ _ => id) fun _ _ _ => id)
    (arithmetic_within h hW hR (fun _ _ => id) (fun _ _ => id) (fun _ => id) fun _ _ _ _ => id) fun hi => ?_
  · cases i with
    | argLo imm | argHi imm | clrErr => exact within_modify fun _ => id
    | bsWinit => exact within_modify fun _ => OutSound.started
    | bsRinit => exact within_bind h (within_checkIn h) fun _ => within_modify fun _ => id
    | _ => cases hi
  · cases i with
    | hufCompress => exact hufCompress_within h hW (fun _ _ => id) hStart fun _ => id
    | hufDecompress =>
      exact hufDecompress_within h hW hR (fun _ _ => id) (fun _ _ => id) hRead (fun _ => id) (fun _ _ => id)
        fun _ _ => id
    | lzwCompress =>
      exact lzwCompress_within h hW (fun _ _ => id) (fun _ _ => id) (fun _ _ => id) hStart fun _ => id
    | lzwDecompress =>
      exact lzwDecompress_within h hW hR (fun _ _ => id) (fun _ _ => id) hRead (fun _ => id) (fun _ _ => id)
        (fun _ _ => id) (fun _ _ => id) fun _ _ => id
    | ariCompress => exact ariCompress_within h (fun _ _ => id) hW hStart fun _ => id
    | ariDecompress =>
      exact ariDecompress_within h hW hR (fun _ _ => id) (fun _ _ => id) hRead (fun _ => id) (fun _ _ => id)
        (fun _ _ => id) (fun _ _ => id) fun _ => id
    | _ => cases hi

theorem exec_outSound {i : Instr} {s t : State} (hs : OutSound s) (h : exec i s = .next t) : OutSound t := by
  obtain hk | ⟨e, u, rfl, hk, -⟩ := exec_within (commandOf_outSound i) h
  · exact hk hs
  · exact ⟨(hk hs).params, Store.wf_any _, nofun, Nat.zero_le _,
      fun _ ha => absurd ha (Nat.not_lt_zero _), Nat.one_pos⟩

/-! ### RD_END -/

/-- RD_END is within IBUF (R184). -/
def EndSound (s : State) : Prop := s.reader.fin.toNat ≤ s.params.ibufSize

theorem keeps_endSound_of_same {s t : State} (h : Same State.readingPart s t) : Keeps EndSound s t := by
  obtain ⟨hp, -, hf, -⟩ : _ ∧ _ ∧ _ ∧ _ := by simpa only [Same, State.readingPart, Prod.mk.injEq] using h
  unfold Keeps EndSound
  rw [hp, hf]
  exact id

theorem endCall_endSound (s : State) : Keeps EndSound s (endCall s) := fun _ =>
  discarded_fin_le s.params.ibufSize s.draws

/-- BS_RINIT sets RD_END to IN_LEN after CheckIn (R183). -/
theorem bsRinit_endSound : Cmd.Within (Keeps EndSound) bsRinit := by
  intro s
  unfold Cmd.At bsRinit
  rw [checkIn_bind_run]
  by_cases hlen : s.inLen.toNat > s.params.ibufSize
  · rw [if_pos hlen]
    exact ⟨id, by decide⟩
  · rw [if_neg hlen]
    exact fun _ => Nat.le_of_not_lt hlen

/-- Every command but the decompress commands keeps RD_END within IBUF: only BS_RINIT sets it. -/
theorem commandOf_endSound {i : Instr} (hi : i ≠ .hufDecompress ∧ i ≠ .lzwDecompress ∧ i ≠ .ariDecompress) :
    Cmd.Within (Keeps EndSound) (commandOf i) := by
  have h := steady_keeps EndSound
  have hW : Output (Keeps EndSound) := output_of_blind h fun _ _ _ => id
  have hR : Input (Keeps EndSound) := input_readingPart.mono fun _ _ => keeps_endSound_of_same
  refine commandOf_within_domain h hW hR (fun _ _ => id) i (fun hc => ?_)
    (huffman_within h hR (fun _ _ => id) fun _ _ _ _ => id)
    (lzw_within h hW hR (fun _ _ => id) (fun _ _ => id) (fun _ _ => id) (fun _ _ => id) fun _ _ _ => id)
    (arithmetic_within h hW hR (fun _ _ => id) (fun _ _ => id) (fun _ => id) fun _ _ _ _ => id) fun hw => ?_
  · cases i with
    | argLo imm | argHi imm | clrErr | bsWinit => exact within_modify fun _ => id
    | bsRinit => exact bsRinit_endSound
    | _ => cases hc
  · cases i with
    | hufCompress => exact hufCompress_within h hW (fun _ _ => id) (fun _ => id) endCall_endSound
    | lzwCompress =>
      exact lzwCompress_within h hW (fun _ _ => id) (fun _ _ => id) (fun _ _ => id) (fun _ => id) endCall_endSound
    | ariCompress => exact ariCompress_within h (fun _ _ => id) hW (fun _ => id) endCall_endSound
    | hufDecompress => exact absurd rfl hi.1
    | lzwDecompress => exact absurd rfl hi.2.1
    | ariDecompress => exact absurd rfl hi.2.2
    | _ => cases hw

theorem exec_endSound {i : Instr} {s t : State} (hs : EndSound s) (h : exec i s = .next t) : EndSound t := by
  obtain ⟨-, -, -, -, hp, -⟩ := hostPart_eq_iff.1 (exec_hostPart h)
  by_cases hi : i = .hufDecompress ∨ i = .lzwDecompress ∨ i = .ariDecompress
  · unfold EndSound at *
    rw [hp]
    obtain hr | ⟨e, u, rfl, hb⟩ := exec_takes (decompress_reading hi) rfl h
    · exact hr.rdEnd
    · exact hb.rdEnd hs
  · simp only [not_or] at hi
    obtain hk | ⟨e, u, rfl, hk, -⟩ := exec_within (commandOf_endSound hi) h
    · exact hk hs
    · exact hk hs

/-! ### The error registers -/

/-- The error registers are 0 exactly while ERR is 0 (R37). -/
def ErrSound (s : State) : Prop :=
  (s.status.err = false → s.err = { code := .noError, cmd := 0, pos := 0 }) ∧
    (s.status.err = true → s.err.code ≠ .noError)

theorem takeError_errSound {e : ErrCode} (he : e ≠ .noError) (s : State) : ErrSound (takeError e s) :=
  ⟨nofun, fun _ => he⟩

theorem exec_errSound {i : Instr} {s t : State} (hs : ErrSound s) (h : exec i s = .next t) : ErrSound t := by
  have hc : Cmd.Within (Keeps ErrSound) (commandOf i) :=
    commandOf_within (steady_keeps _) i (fun _ _ => id) (fun _ _ => id) (fun _ _ => id) (fun _ _ => id)
      (fun _ _ => id) (fun _ _ => id) (fun _ _ => id) (fun _ _ => id) (fun _ _ => id) (fun _ => id)
      (hArg := fun _ _ _ => id) (hClr := fun _ _ _ => ⟨fun _ => rfl, nofun⟩)
      (hRes := fun _ _ _ => id) (hOrig := fun _ _ _ => id) (hExt := fun _ _ _ => id) (hNoOver := fun _ _ => id)
      (hAnom := fun _ _ => id) (hIsbin := fun _ _ _ => id) (hStored := fun _ _ _ => id) (hEos := fun _ _ _ => id)
  obtain hk | ⟨e, u, rfl, -, he⟩ := exec_within hc h
  · exact hk hs
  · exact takeError_errSound he u

/-! ### The whole invariant -/

theorem State.Sound.out {s : State} (h : s.Sound) : OutSound s :=
  ⟨h.params, h.obufWf, h.obufSize, h.outLen, h.output, h.tidy⟩

theorem exec_sound {i : Instr} {s t : State} (hs : s.Sound) (h : exec i s = .next t) : t.Sound := by
  obtain ⟨-, -, hibuf, hext, hparams, hseq, -⟩ := hostPart_eq_iff.1 (exec_hostPart h)
  have hdone : t.status.done = s.status.done := exec_same (commandOf_same (·.status.done) i) h
  obtain ⟨-, owf, osize, olen, oout, otidy⟩ := exec_outSound hs.out h
  obtain ⟨herr, herr'⟩ := exec_errSound ⟨hs.noError, hs.anError⟩ h
  have hend : EndSound t := exec_endSound hs.rdEnd h
  exact
    { params := hparams ▸ hs.params
      ibufWf := hibuf ▸ hs.ibufWf
      obufWf := owf
      extbufWf := hext ▸ hs.extbufWf
      ibufSize := by rw [hibuf, hparams]; exact hs.ibufSize
      obufSize := osize
      extbufSize := by rw [hext, hparams]; exact hs.extbufSize
      outLen := olen
      output := oout
      tidy := otidy
      rdEnd := hend
      busy := by rw [hseq, hdone]; exact hs.busy
      noError := herr
      anError := herr' }

theorem illegal_sound {s : State} (h : s.Sound) : (takeError .illegalCommand s).Sound :=
  { h with
    obufWf := Store.wf_any _
    obufSize := fun _ hc => nomatch hc
    outLen := Nat.zero_le _
    output := fun _ ha => absurd ha (Nat.not_lt_zero _)
    tidy := Nat.one_pos
    noError := (takeError_errSound (by decide) s).1
    anError := (takeError_errSound (by decide) s).2 }

theorem complete_sound {s : State} (h : s.Sound) : (complete s).Sound :=
  { h with
    obufWf := Store.wf_keepBelow h.obufWf _ _
    obufSize := fun c hc => h.obufSize c (List.mem_of_mem_filter hc)
    output := fun a ha => by
      change a < s.writer.outLen.toNat at ha
      show ((s.obuf.keepBelow _ _).written a).isSome = true
      rw [Store.written_keepBelow, if_pos ha]
      exact h.output a ha
    busy := fun hb => nomatch hb }

theorem writeReg_sound {s : State} (h : s.Sound) (r : Reg) (w : Word) : (writeReg r w s).Sound := by
  cases r with
  | cmd => exact { h with busy := fun _ => rfl }
  | ctrl | arg | inLen | extLen => exact { h with }
  | status =>
    refine { h with busy := fun hb => ?_ }
    show (s.status.done && _) = false
    rw [h.busy hb, Bool.false_and]
  | _ => exact h

/-- A byte written inside a buffer keeps its size. -/
theorem put_size {m : Memory} {n i : Nat} (h : ∀ c ∈ m.cells, c.1 < n) (hi : i < n) (b : Byte) :
    ∀ c ∈ (m.put i b).cells, c.1 < n := by
  intro c hc
  obtain rfl | hc := mem_putCell hc
  · exact hi
  · exact h c hc

theorem writeIdle_sound {s : State} (h : s.Sound) (w : Word) {bits : Nat} {place : Place}
    (hb : busError s.params bits place = none) : (writeIdle w s place).Sound := by
  have inside : ∀ {i n : Nat} {e : Option Fault},
      (if i ≥ n then some Fault.busErrorUnmapped else e) = none → i < n := by
    intro i n e he
    by_contra hn
    rw [if_pos (Nat.le_of_not_lt hn)] at he
    cases he
  cases place with
  | regs off =>
    show (match Reg.ofOffset off with | none => s | some r => writeReg r w s).Sound
    cases Reg.ofOffset off with
    | none => exact h
    | some r => exact writeReg_sound h r w
  | extbuf i =>
    exact { h with
      extbufWf := Store.wf_put h.extbufWf _ _
      extbufSize := put_size h.extbufSize (inside hb) _ }
  | ibuf i =>
    exact { h with
      ibufWf := Store.wf_put h.ibufWf _ _
      ibufSize := put_size h.ibufSize (inside hb) _ }
  | obuf i =>
    exact { h with
      obufWf := Store.wf_put h.obufWf _ _
      obufSize := put_size h.obufSize (inside hb) _
      output := fun a ha => by
        show ((s.obuf.put i _).written a).isSome = true
        rw [Store.written_put]
        split
        · rfl
        · exact h.output a ha }
  | outside => exact h

theorem hostWrite_sound {bits off : Nat} {w : Word} {s t : State} (hs : s.Sound)
    (h : hostWrite bits off w s = .next t) : t.Sound := by
  unfold hostWrite at h
  split at h
  · cases h
  · rename_i hb
    cases h
    split
    · unfold writeBusy
      split <;> exact { hs with }
    · exact writeIdle_sound hs w hb

theorem stable_sound : Stable State.Sound where
  tape := fun _ h => { h with }
  read := fun _ _ h => { h with }
  write := hostWrite_sound
  reset := fun {s} h => resetWith_sound s.params s.draws s.tape s.bus h.params
  complete := complete_sound
  illegal := illegal_sound
  exec := fun _ => exec_sound

/-- Settles O23: each part of the invariant is kept by the acts that reach it. -/
theorem stepKeepsSound : Obligations.StepKeepsSound := fun _ _ => stable_sound.step

end Sys2Proof.Machine

namespace Sys2Proof.Machine

/-! ## The Huffman unit -/

/-! ### BuildTree makes a tree whatever the weights (R212) -/

theorem takeLeast_node {S : List Sprout} (hn : (S.map Sprout.rank).Nodup) (hne : S ≠ []) :
    ∃ a ∈ S, takeLeast (S.map Sprout.node) = some (a.node, (S.erase a).map Sprout.node) := by
  cases S with
  | nil => exact absurd rfl hne
  | cons c rest =>
    obtain ⟨hmem, -⟩ := leastFrom_spec c.node (rest.map Sprout.node)
    rw [← List.map_cons] at hmem
    obtain ⟨a, ha, hae⟩ := List.mem_map.1 hmem
    refine ⟨a, ha, ?_⟩
    rw [← map_erase_node hn ha, hae]
    rfl

/-- The live trees `S` of BuildTree, rooted in the nodes below `k`, which are all theirs (R212). -/
structure Forest (nodeAt : Nat → Node) (k : Nat) (S : List Sprout) : Prop where
  ranks : (S.map Sprout.rank).Nodup
  below : ∀ a ∈ S, a.rank < k
  last : ∃ a ∈ S, a.rank = k - 1
  rooted : ∀ a ∈ S, ∀ f, (∀ j, j < k → f j = nodeAt j) → Rooted f a.rank a.tree
  nodes : (S.map fun a => a.tree.nodes).sum = k

/-- The sprout that joins two. -/
def Sprout.join (a b : Sprout) (k : Nat) : Sprout :=
  { weight := a.weight + b.weight, rank := k, tree := .internal a.tree b.tree }

/-- Joining two live trees under a new node (R212). -/
theorem Forest.join {h : Huffman} {k : Nat} {S : List Sprout} {a b : Sprout} (hS : Forest h.nodeAt k S) (ha : a ∈ S)
    (hb : b ∈ S.erase a) (hk : k ≤ 511) (wt : Word) :
    Forest (h.putInternal k a.rank b.rank wt).nodeAt (k + 1) (a.join b k :: (S.erase a).erase b) := by
  have hbS : b ∈ S := List.mem_of_mem_erase hb
  have rest : ∀ c ∈ (S.erase a).erase b, c ∈ S := fun c hc => List.mem_of_mem_erase (List.mem_of_mem_erase hc)
  have hra := hS.below a ha
  have hrb := hS.below b hbS
  refine ⟨?_, fun c hc => ?_, ⟨_, List.mem_cons_self .., rfl⟩, fun c hc f hf => ?_, ?_⟩
  · refine List.nodup_cons.2 ⟨fun hmem => ?_, ?_⟩
    · obtain ⟨c, hc, hck⟩ := List.mem_map.1 hmem
      change c.rank = k at hck
      have := hS.below c (rest c hc)
      omega
    · exact hS.ranks.sublist ((List.erase_sublist.trans List.erase_sublist).map _)
  · obtain rfl | hc := List.mem_cons.1 hc
    · exact Nat.lt_succ_self k
    · exact Nat.lt_succ_of_lt (hS.below c (rest c hc))
  · have old : ∀ j, j < k → f j = h.nodeAt j := fun j hj => by
      rw [hf j (by omega), Huffman.nodeAt_putInternal, if_neg (by omega)]
    obtain rfl | hc := List.mem_cons.1 hc
    · refine .internal (l := BitVec.ofNat 9 a.rank) (r := BitVec.ofNat 9 b.rank) ?_ ?_ ?_
      · show f k = _
        rw [hf k (Nat.lt_succ_self k), Huffman.nodeAt_putInternal, if_pos rfl]
      · rw [BitVec.toNat_ofNat, Nat.mod_eq_of_lt (by omega)]
        exact hS.rooted a ha f old
      · rw [BitVec.toNat_ofNat, Nat.mod_eq_of_lt (by omega)]
        exact hS.rooted b hbS f old
    · exact hS.rooted c (rest c hc) f old
  · have sa := ((List.perm_cons_erase ha).map fun c : Sprout => c.tree.nodes).sum_eq
    have sb := ((List.perm_cons_erase hb).map fun c : Sprout => c.tree.nodes).sum_eq
    have hsum := hS.nodes
    rw [List.map_cons, List.sum_cons] at sa sb ⊢
    show a.tree.nodes + b.tree.nodes + 1 + _ = _
    omega

/-- BuildTree's loop ends with one tree, whose nodes are all that are used (R212). -/
theorem combineNodes_tree (rounds : Nat) {S : List Sprout} {k : Nat} {h : Huffman} (hlen : S.length = rounds + 1)
    (hk : k + rounds ≤ 511) (hS : Forest h.nodeAt k S) :
    ∃ T, (combineNodes rounds (S.map Sprout.node) k h).tree = some T ∧ T.nodes ≤ 511 ∧
      (combineNodes rounds (S.map Sprout.node) k h).nodeCnt.toNat = T.nodes := by
  induction rounds generalizing S k h with
  | zero =>
    obtain ⟨a, rfl⟩ := List.length_eq_one_iff.1 hlen
    have hnodes : a.tree.nodes = k := by simpa using hS.nodes
    obtain ⟨b, hb, hlast⟩ := hS.last
    rw [List.mem_singleton.1 hb] at hlast
    refine ⟨a.tree, Huffman.tree_of_rooted ?_ (by omega), by omega, ?_⟩
    · show Rooted h.nodeAt (BitVec.ofNat 9 (k - 1)).toNat a.tree
      rw [BitVec.toNat_ofNat, Nat.mod_eq_of_lt (by omega), ← hlast]
      exact hS.rooted a (List.mem_singleton.2 rfl) _ fun _ _ => rfl
    · show (BitVec.ofNat 10 k).toNat = _
      rw [BitVec.toNat_ofNat, Nat.mod_eq_of_lt (by omega), hnodes]
  | succ rounds ih =>
    obtain ⟨a, ha, hta⟩ := takeLeast_node hS.ranks (by rintro rfl; cases hlen)
    have hlen1 : (S.erase a).length = rounds + 1 := by rw [List.length_erase_of_mem ha, hlen]; rfl
    obtain ⟨b, hb, htb⟩ := takeLeast_node (hS.ranks.sublist (List.erase_sublist.map _))
      (by intro hnil; rw [hnil] at hlen1; cases hlen1)
    have step : combineNodes (rounds + 1) (S.map Sprout.node) k h =
        combineNodes rounds ((a.join b k :: (S.erase a).erase b).map Sprout.node) (k + 1)
          (h.putInternal k a.rank b.rank (a.node.wt + b.node.wt)) := by
      rw [combineNodes, hta]
      dsimp only
      rw [htb]
      dsimp only
      rw [List.map_cons]
      unfold Sprout.join Sprout.node
      rw [BitVec.ofNat_add]
    rw [step]
    refine ih ?_ (by omega) (hS.join ha hb (by omega) _)
    rw [List.length_cons, List.length_erase_of_mem hb, hlen1]
    rfl

/-- The leaves BuildTree starts from are a forest of single nodes (R212). -/
theorem sprouts_forest (h : Huffman) {count : Nat → Nat} (hne : observedSymbols count ≠ []) :
    Forest (putLeaves h 0 (observedSymbols count)).nodeAt (observedSymbols count).length (sprouts count) := by
  have hpos : 0 < (observedSymbols count).length := List.length_pos_iff.2 hne
  refine ⟨by rw [sprouts_rank]; exact List.nodup_range', fun a ha => ?_, ?_, fun a ha f hf => ?_, ?_⟩
  · have hr : a.rank ∈ (sprouts count).map Sprout.rank := List.mem_map_of_mem ha
    rw [sprouts_rank, List.mem_range'_1] at hr
    omega
  · have hr : (observedSymbols count).length - 1 ∈ (sprouts count).map Sprout.rank := by
      rw [sprouts_rank, List.mem_range'_1]
      omega
    obtain ⟨a, ha, hr⟩ := List.mem_map.1 hr
    exact ⟨a, ha, hr⟩
  · obtain ⟨p, hp, rfl⟩ := List.mem_map.1 ha
    obtain ⟨-, hlt, hget⟩ := List.mem_zipIdx hp
    simp only [Nat.sub_zero] at hget
    refine .leaf ?_
    show f p.2 = _
    rw [hf p.2 (by omega), putLeaves_nodeAt, if_pos (Nat.zero_le _), Nat.sub_zero,
      List.getElem?_eq_getElem (by omega), ← hget]
  · unfold sprouts
    rw [List.map_map]
    show (List.map (fun _ => 1) (observedSymbols count).zipIdx).sum = _
    rw [List.map_const', List.sum_replicate, List.length_zipIdx, smul_eq_mul, Nat.mul_one]

theorem combineNodes_freq (rounds : Nat) (live : List LiveNode) (k : Nat) (h : Huffman) :
    (combineNodes rounds live k h).freq = h.freq := by
  induction rounds generalizing live k h with
  | zero => rfl
  | succ rounds ih =>
    unfold combineNodes
    split
    · rfl
    · split
      · rfl
      · exact ih _ _ _

theorem build_freqAt (h : Huffman) (i : Nat) : h.build.freqAt i = h.freqAt i := by
  have hfreq : h.build.freq = h.freq := by
    unfold Huffman.build
    rw [combineNodes_freq, putLeaves_frame]
  unfold Huffman.freqAt
  rw [hfreq]

/-- BuildTree of a table with a symbol leaves a tree of at most 511 nodes, counted by NODECNT. -/
theorem build_tree {h : Huffman} (hne : h.symbols ≠ []) :
    ∃ T, h.build.tree = some T ∧ T.nodes ≤ 511 ∧ h.build.nodeCnt.toNat = T.nodes := by
  have hs : h.symbols = observedSymbols fun i => (h.freqAt i).toNat := symbols_eq fun _ _ => rfl
  have hlive : liveLeaves h 0 h.symbols = (sprouts fun i => (h.freqAt i).toNat).map Sprout.node := by
    rw [liveLeaves_eq h (fun i => (h.freqAt i).toNat) _ fun _ _ => rfl, hs]
    unfold sprouts
    rw [List.map_map]
    rfl
  have hle := length_observedSymbols fun i => (h.freqAt i).toNat
  have hpos := List.length_pos_iff.2 hne
  rw [hs] at hne hpos
  unfold Huffman.build
  rw [hlive, hs]
  refine combineNodes_tree _ ?_ (by omega) (sprouts_forest h hne)
  unfold sprouts
  rw [List.length_map, List.length_zipIdx]
  omega

/-! ### Codes have at most 255 bits (R48, R213) -/

/-- A leaf's path is shorter than the number of leaves. -/
theorem pathTo_length_lt {T : HTree} {v : Byte} {p : List Bool} (h : T.pathTo v = some p) :
    p.length < T.leaves.length := by
  have leaves_pos : ∀ U : HTree, 0 < U.leaves.length := fun U => by
    have h1 := U.nodes_eq
    have h2 := U.nodes_pos
    omega
  have reached := HTree.reaches_of_pathTo h
  clear h
  induction reached with
  | leaf v => exact Nat.one_pos
  | @left l r p v _ ih =>
    have := leaves_pos r
    show (false :: p).length < (l.leaves ++ r.leaves).length
    rw [List.length_cons, List.length_append]
    omega
  | @right l r p v _ ih =>
    have := leaves_pos l
    show (true :: p).length < (l.leaves ++ r.leaves).length
    rw [List.length_cons, List.length_append]
    omega

theorem codeFor_length_le {T : HTree} (hT : T.nodes ≤ 511) (v : Byte) : (T.codeFor v).length ≤ 255 := by
  cases T with
  | leaf x =>
    unfold HTree.codeFor
    dsimp only
    split <;> decide
  | internal l r =>
    unfold HTree.codeFor
    dsimp only
    cases hp : (HTree.internal l r).pathTo v with
    | none => exact Nat.zero_le _
    | some p =>
      have h1 := pathTo_length_lt hp
      have h2 := (HTree.internal l r).nodes_eq
      show p.length ≤ 255
      omega

/-! ### The invariant -/

/-- The part of the state that the Huffman unit's invariant speaks of. -/
def State.hufPart (s : State) : Params × Bool × Bool × Bool × Huffman :=
  (s.params, s.valid.freq, s.valid.tree, s.valid.codes, s.huf)

theorem hufSound_of_same {s t : State} (h : t.hufPart = s.hufPart) (hs : s.HufSound) : t.HufSound := by
  obtain ⟨hp, hf, ht, hc, hh⟩ : _ ∧ _ ∧ _ ∧ _ ∧ _ := by simpa only [State.hufPart, Prod.mk.injEq] using h
  exact ⟨by rw [hp, hf, hh]; exact hs.freq, by rw [ht, hh]; exact hs.tree, by rw [hc, hh]; exact hs.codes⟩

theorem hufFreq_hufSound : Cmd.Takes State.HufSound hufFreq (fun _ => State.HufSound) Anything := by
  intro s hs
  unfold hufFreq
  rw [checkIn_bind_run]
  by_cases hlen : s.inLen.toNat > s.params.ibufSize
  · rw [if_pos hlen]
    trivial
  · rw [if_neg hlen]
    refine ⟨fun _ => ?_, nofun, nofun⟩
    show ((List.range 256).map fun i => ((fillFreq s).huf.freqAt i).toNat).sum ≤ s.params.ibufSize
    rw [List.map_congr_left fun i hi => fillFreq_freqAt s (List.mem_range.1 hi)]
    have hsum := sum_occurrences s.input
    rw [length_input] at hsum
    change ((List.range 256).map fun i => occurrences s.input i).sum = _ at hsum
    omega

theorem buildTree_run (s : State) :
    buildTree s = if s.huf.symbols = [] then .error .emptyInput s else .ok ⟨⟩ (s.setHuf s.huf.build) := by
  unfold buildTree
  rw [Cmd.get_bind_run, raiseIf_bind_run]
  rfl

theorem hufTree_hufSound : Cmd.Takes State.HufSound hufTree (fun _ => State.HufSound) Anything := by
  intro s hs
  unfold hufTree
  rw [need_bind_run]
  by_cases hv : s.valid.freq = false
  · rw [if_pos hv]
    trivial
  · rw [if_neg hv]
    have hrun := buildTree_run s
    by_cases he : s.huf.symbols = []
    · rw [if_pos he] at hrun
      rw [Cmd.bind_of_error hrun]
      trivial
    · rw [if_neg he] at hrun
      rw [Cmd.bind_of_ok hrun]
      refine ⟨fun hf => ?_, fun _ => build_tree he, nofun⟩
      show ((List.range 256).map fun i => (s.huf.build.freqAt i).toNat).sum ≤ s.params.ibufSize
      simp only [build_freqAt]
      exact hs.freq hf

theorem hufCodes_hufSound : Cmd.Takes State.HufSound hufCodes (fun _ => State.HufSound) Anything := by
  intro s hs
  unfold hufCodes
  rw [need_bind_run]
  by_cases hv : s.valid.tree = false
  · rw [if_pos hv]
    trivial
  · rw [if_neg hv]
    obtain ⟨T, hT, hn, hcnt⟩ := hs.tree (Bool.eq_true_of_not_eq_false hv)
    rw [Cmd.bind_of_ok (currentTree_run hT)]
    refine ⟨hs.freq, hs.tree, fun _ i hi => ?_⟩
    have hcode := fillCodes_codeAt T s (BitVec.ofNat 8 i)
    rw [BitVec.toNat_ofNat, Nat.mod_eq_of_lt hi] at hcode
    show ((fillCodes T s).huf.codeAt i).length ≤ 255
    rw [hcode]
    exact codeFor_length_le hn _

theorem hufDestree_hufSound : Cmd.Takes State.HufSound hufDestree (fun _ => State.HufSound) Anything := by
  intro s _
  unfold hufDestree
  obtain ⟨T, hn, hbits⟩ | ⟨u, hu⟩ := parseRoot_cases s
  · obtain ⟨t, ht, htree, hcnt, -⟩ := parseRoot_of_bits hn hbits
    rw [Cmd.bind_of_ok ht]
    exact ⟨nofun, fun _ => ⟨T, htree, hn, hcnt⟩, nofun⟩
  · rw [Cmd.bind_of_error hu]
    trivial

theorem huffman_hufSound {i : Instr} (hi : domainOf i = .huffman) :
    Cmd.Takes State.HufSound (commandOf i) (fun _ => State.HufSound) Anything := by
  cases i with
  | hufFreq => exact hufFreq_hufSound
  | hufTree => exact hufTree_hufSound
  | hufCodes => exact hufCodes_hufSound
  | hufDestree => exact hufDestree_hufSound
  | _ => cases hi

/-- The other commands that are not whole-buffer commands do not reach the Huffman unit. -/
theorem commandOf_hufPart {i : Instr} (hh : domainOf i ≠ .huffman) (hw : domainOf i ≠ .whole) :
    Cmd.Within (Same State.hufPart) (commandOf i) := by
  have h := steady_same State.hufPart
  have hW : Output (Same State.hufPart) := output_of_blind h fun _ _ _ => rfl
  have hR : Input (Same State.hufPart) := input_of_blind h (fun _ _ => rfl) fun _ => rfl
  refine commandOf_within_domain h hW hR (fun _ _ => rfl) i (fun hi => ?_) (fun hi => absurd hi hh)
    (lzw_within h hW hR (fun _ _ => rfl) (fun _ _ => rfl) (fun _ _ => rfl) (fun _ _ => rfl) fun _ _ _ => rfl)
    (arithmetic_within h hW hR (fun _ _ => rfl) (fun _ _ => rfl) (fun _ => rfl) fun _ _ _ _ => rfl)
    fun hi => absurd hi hw
  cases i with
  | argLo imm | argHi imm | clrErr | bsWinit => exact within_modify fun _ => rfl
  | bsRinit => exact within_bind h (within_checkIn h) fun _ => within_modify fun _ => rfl
  | _ => cases hi

theorem exec_hufSound {i : Instr} {s t : State} (hs : s.HufSound) (h : exec i s = .next t) : t.HufSound := by
  by_cases hw : domainOf i = .whole
  · exact hufSound_of_cleared (wholeBufferCommandsEndClean i s t (wholeBuffer_of_domainOf hw) h).1
  · by_cases hh : domainOf i = .huffman
    · obtain ht | ⟨e, u, rfl, -⟩ := exec_takes (huffman_hufSound hh) hs h
      · exact ht
      · exact hufSound_of_cleared rfl
    · obtain ht | ⟨e, u, rfl, -⟩ := exec_within (commandOf_hufPart hh hw) h
      · exact hufSound_of_same ht hs
      · exact hufSound_of_cleared rfl

theorem stable_hufSound : Stable State.HufSound :=
  stable_of_units (fun hu => hufSound_of_same (by
      obtain ⟨hp, hv, hh, -⟩ : _ ∧ _ ∧ _ ∧ _ := by simpa only [State.units, Prod.mk.injEq] using hu
      unfold State.hufPart
      rw [hp, hv, hh]))
    (fun _ => hufSound_of_cleared rfl) (fun _ => hufSound_of_cleared rfl) fun _ => exec_hufSound

/-- Settles O25: the unit's four commands make what its valid bits promise. -/
theorem stepKeepsHufSound : Obligations.StepKeepsHufSound := fun _ _ => stable_hufSound.step

end Sys2Proof.Machine

namespace Sys2Proof.Machine

/-! ## The LZW unit -/

/-! ### The encoder -/

/-- The encoder's part of `State.LzwSound`. -/
def EncOk (s : State) : Prop :=
  s.lzwE.Sound ∧
    (s.valid.lzwE = true → DictOk s.lzwE.dict s.lzwE.next.toNat ∧ DictDistinct s.lzwE.dict s.lzwE.next.toNat)

/-- The part of the state that `EncOk` speaks of. -/
def State.encPart (s : State) : Bool × LzwEnc := (s.valid.lzwE, s.lzwE)

theorem output_encOk : Output (Keeps EncOk) := output_of_blind (steady_keeps _) fun _ _ _ => id

theorem input_encOk : Input (Keeps EncOk) := input_of_blind (steady_keeps _) (fun _ _ => id) fun _ => id

theorem EncOk.started {s : State} (h : EncOk s) : EncOk ((startEncoder s).setValid { s.valid with lzwE := true }) :=
  ⟨h.1.started _, fun _ => ⟨DictOk.empty _, DictDistinct.empty _⟩⟩

theorem endCall_encOk (s : State) : Keeps EncOk s (endCall s) := fun _ => ⟨LzwEnc.Sound.discarded _, nofun⟩

/-- Codes emitted and then an update: the encoder that the update finds is the one before (R264, R265). -/
theorem emitCodes_modify_encOk {s : State} (w : Nat) (l : List (BitVec 12)) {g : State → State}
    (hg : ∀ t, Same State.encPart s t → Keeps EncOk s (g t)) :
    Cmd.At (Keeps EncOk) (emitCodes w l >>= fun _ => (modify g : Cmd PUnit)) s := by
  have h := steady_same State.encPart
  have kept := emitCodes_within h (output_of_blind h fun _ _ _ => rfl) w l
  have keeps := emitCodes_within (steady_keeps EncOk) output_encOk w l s
  unfold Cmd.At at keeps ⊢
  cases hc : emitCodes w l s with
  | ok a t =>
    rw [Cmd.bind_of_ok hc]
    exact hg t (kept.of_ok hc)
  | error e t =>
    rw [hc] at keeps
    rw [Cmd.bind_of_error hc]
    exact keeps

theorem encByte_encOk (c : Byte) : Cmd.Within (Keeps EncOk) (encByte c) :=
  within_get fun s => emitCodes_modify_encOk _ _ fun t ht hs => by
    obtain ⟨hv, -⟩ : _ ∧ _ := by simpa only [Same, State.encPart, Prod.mk.injEq] using ht
    obtain ⟨hsound, hdict⟩ := hs
    refine ⟨hsound.encodeByte _ c, fun ho => ?_⟩
    obtain ⟨hok, hdist⟩ := hdict (hv ▸ ho)
    exact encodeByte_dict hsound hok hdist _ c

theorem encEnd_encOk : Cmd.Within (Keeps EncOk) encEnd :=
  within_get fun s => emitCodes_modify_encOk _ _ fun t ht hs => by
    obtain ⟨-, he⟩ : _ ∧ _ := by simpa only [Same, State.encPart, Prod.mk.injEq] using ht
    obtain ⟨hdict, hnext, hwidth, -⟩ := hs.1
    rw [← he] at hdict hnext hwidth
    exact ⟨⟨hdict, hnext, hwidth, nofun⟩, nofun⟩

theorem lzwCompress_encOk : Cmd.Within (Keeps EncOk) lzwCompress := by
  have h := steady_keeps EncOk
  have hW := output_encOk
  refine within_bind h (within_checkIn h) fun _ => within_bind h (within_checkExt h) fun _ =>
    within_bind h (within_modify fun _ => id) fun _ => within_getAny h fun s =>
      within_bind h (writeBits_within h hW _ _) fun _ => within_bind h (emitBytes_within h hW _) fun _ =>
        within_bind h (writeBits_within h hW _ _) fun _ => within_bind h ?_ fun _ => within_modify endCall_encOk
  unfold lzwWriteForm
  split
  · exact within_bind h (emitByte_within h hW _) fun _ => within_bind h (emitBytes_within h hW _) fun _ =>
      within_modify fun _ => id
  · exact within_bind h (emitByte_within h hW _) fun _ => within_bind h (writeBits_within h hW _ _) fun _ =>
      within_bind h (within_modify fun _ => EncOk.started) fun _ =>
        within_bind h (within_forEach h encByte_encOk _) fun _ => within_bind h encEnd_encOk fun _ =>
          within_bind h hW.flush fun _ => within_modify fun _ => id

/-- Every command keeps the encoder's part of the invariant. -/
theorem commandOf_encOk (i : Instr) : Cmd.Within (Keeps EncOk) (commandOf i) := by
  have h := steady_keeps EncOk
  have hW := output_encOk
  have hR := input_encOk
  refine commandOf_within_domain h hW hR (fun _ _ => id) i (fun hc => ?_)
    (huffman_within h hR (fun _ _ => id) fun _ _ _ _ => id) (fun hl => ?_)
    (arithmetic_within h hW hR (fun _ _ => id) (fun _ _ => id) (fun _ => id) fun _ _ _ _ => id) fun hw => ?_
  · cases i with
    | argLo imm | argHi imm | clrErr | bsWinit => exact within_modify fun _ => id
    | bsRinit => exact within_bind h (within_checkIn h) fun _ => within_modify fun _ => id
    | _ => cases hc
  · cases i with
    | lzwEncReset => exact within_modify fun _ => EncOk.started
    | lzwEncByte sym => exact within_bind h (within_need h _) fun _ => encByte_encOk _
    | lzwEncEnd => exact within_bind h (within_need h _) fun _ => encEnd_encOk
    | lzwDecReset => exact within_modify fun _ => id
    | lzwDecCode => exact lzwDecCode_within h hW hR (fun _ _ => id) (fun _ _ => id) fun _ => id
    | _ => cases hl
  · cases i with
    | hufCompress => exact hufCompress_within h hW (fun _ _ => id) (fun _ => id) endCall_encOk
    | hufDecompress =>
      exact hufDecompress_within h hW hR (fun _ _ => id) (fun _ _ => id) (fun _ => id) endCall_encOk (fun _ _ => id)
        fun _ _ => id
    | lzwCompress => exact lzwCompress_encOk
    | lzwDecompress =>
      exact lzwDecompress_within h hW hR (fun _ _ => id) (fun _ _ => id) (fun _ => id) endCall_encOk (fun _ _ => id)
        (fun _ _ => id) (fun _ _ => id) fun _ _ => id
    | ariCompress => exact ariCompress_within h (fun _ _ => id) hW (fun _ => id) endCall_encOk
    | ariDecompress =>
      exact ariDecompress_within h hW hR (fun _ _ => id) (fun _ _ => id) (fun _ => id) endCall_encOk (fun _ _ => id)
        (fun _ _ => id) (fun _ _ => id) fun _ => id
    | _ => cases hw

theorem exec_encOk {i : Instr} {s t : State} (hs : EncOk s) (h : exec i s = .next t) : EncOk t := by
  obtain hk | ⟨e, u, rfl, hk, -⟩ := exec_within (commandOf_encOk i) h
  · exact hk hs
  · exact ⟨(hk hs).1, nofun⟩

/-! ### The decoder -/

/-- What `State.LzwSound` promises of a decoder while its session is open. -/
def LzwDec.Ok (d : LzwDec) : Prop := d.Sound ∧ DictOk d.dict d.next.toNat

/-- The decoder's part of `State.LzwSound`. -/
def DecOk (s : State) : Prop := s.lzwD.NextOk ∧ (s.valid.lzwD = true → s.lzwD.Ok)

/-- The decoder is as in an open session. -/
def DecOpen (s : State) : Prop := s.lzwD.Ok

/-- A data code that the decoder may remember (R274). -/
def Rememberable (c : Nat) (s : State) : Prop := s.lzwD.Ok ∧ StringCode s.lzwD.next.toNat c

theorem DecOpen.decOk {s : State} (h : DecOpen s) : DecOk s := ⟨h.1.next, fun _ => h⟩

theorem LzwDec.Ok.started (d : LzwDec) : d.started.Ok := ⟨LzwDec.Sound.started d, DictOk.empty _⟩

theorem LzwDec.Ok.clear (d : LzwDec) : d.clear.Ok := ⟨LzwDec.Sound.clear d, DictOk.empty _⟩

theorem LzwDec.Ok.insert {d : LzwDec} (h : d.Ok) (hp : d.prevV = true) (hn : d.next.toNat ≠ 4096) (b : Byte) :
    (d.insert b).Ok := ⟨h.1.insert hn b, DictOk.insert h.1 h.2 hp hn b⟩

/-- Pseudocode that does not touch the decoder. -/
theorem takes_of_sameDec {α : Type} {c : Cmd α} {J : State → Prop} (hc : Cmd.Within (Same State.lzwD) c)
    (hJ : ∀ {s t}, Same State.lzwD s t → J s → J t) (ho : ∀ {s}, J s → DecOpen s) :
    Cmd.Takes J c (fun _ => J) DecOk :=
  takes_of_within hc (fun _ _ => hJ) fun _ _ h hs => (ho (hJ h hs)).decOk

/-- After the insertion a resolved code stands for a string, the self-referencing code too (R269, R272, R273). -/
theorem resolve_insert_takes (c : Nat) :
    Cmd.Takes DecOpen
      (resolveCode c >>= fun str => insertEntry str >>= fun _ => emitBytes str >>= fun _ => rememberCode c)
      (fun _ => DecOpen) DecOk := by
  intro s hs
  have hrun := resolveCode_run c s
  cases hr : s.lzwD.resolve c with
  | none =>
    rw [hr] at hrun
    rw [Cmd.bind_of_error hrun]
    exact hs.decOk
  | some str =>
    rw [hr] at hrun
    rw [Cmd.bind_of_ok hrun]
    have h := steady_same State.lzwD
    have inserted : Cmd.Takes (· = s) (insertEntry str) (fun _ => Rememberable c) DecOk := by
      rintro s rfl
      obtain ⟨hn1, hn2⟩ := hs.1.next
      have hcode := LzwDec.resolve_code hr
      rw [insertEntry_run]
      by_cases hp : s.lzwD.prevV = true
      · rw [if_pos hp]
        by_cases hfull : s.lzwD.next.toNat = 4096
        · rw [if_pos hfull]
          exact hs.decOk
        · rw [if_neg hfull]
          refine ⟨hs.insert hp hfull _, ?_⟩
          show StringCode (s.lzwD.next + 1).toNat c
          rw [toNat_succ_next (by omega)]
          exact ⟨by omega, by omega, by omega⟩
      · rw [if_neg hp]
        have known : c ≤ 255 ∨ (258 ≤ c ∧ c < s.lzwD.next.toNat) :=
          hcode.imp_right fun hc => hc.resolve_right fun hself => hp hself.2
        exact ⟨hs, by omega, by omega, by omega⟩
    have emitted : Cmd.Takes (Rememberable c) (emitBytes str) (fun _ => Rememberable c) DecOk :=
      takes_of_sameDec (emitBytes_within h (output_of_blind h fun _ _ _ => rfl) str)
        (fun hst hs => by unfold Rememberable at *; rwa [hst]) And.left
    refine takes_bind inserted (fun _ => takes_bind emitted fun _ => takes_modify fun t ht => ?_) s rfl
    obtain ⟨⟨hsound, hdict⟩, hc⟩ := ht
    have hlt := hsound.next.2
    have hc1 := hc.1
    refine ⟨⟨hsound.next, fun _ => ?_⟩, hdict⟩
    show StringCode _ (BitVec.ofNat 12 c).toNat
    rw [BitVec.toNat_ofNat, Nat.mod_eq_of_lt (by omega)]
    exact hc

theorem decStep_takes (c : Nat) : Cmd.Takes DecOpen (decStep c) (fun _ => DecOpen) DecOk := by
  unfold decStep
  split
  · exact takes_modify fun _ => id
  · split
    · exact takes_modify fun s _ => LzwDec.Ok.clear s.lzwD
    · exact resolve_insert_takes c

theorem lzwDecCode_takes : Cmd.Takes DecOk lzwDecCode (fun _ => DecOpen) DecOk := by
  have h := steady_same State.lzwD
  have opened : Cmd.Takes DecOk (need (·.lzwD)) (fun _ => DecOpen) DecOk := by
    intro s hs
    rw [need_run]
    by_cases hv : s.valid.lzwD = false
    · rw [if_pos hv]
      exact hs
    · rw [if_neg hv]
      exact hs.2 (Bool.eq_true_of_not_eq_false hv)
  have code : Cmd.Takes DecOpen readCode (fun _ => DecOpen) DecOk :=
    takes_of_sameDec (readCode_within h (input_of_blind h (fun _ _ => rfl) fun _ => rfl))
      (fun hst hs => by unfold DecOpen at *; rwa [hst]) id
  exact takes_bind opened fun _ => takes_bind code fun c =>
    takes_bind (Q := fun _ => DecOpen) (takes_modify fun _ => id) fun _ => decStep_takes c

/-- The other commands that are not whole-buffer commands keep the decoder's part: LZW_DEC_RESET starts the decoder, the
others do not reach it. -/
theorem commandOf_decOk {i : Instr} (hcode : i ≠ .lzwDecCode) (hw : domainOf i ≠ .whole) :
    Cmd.Within (Keeps DecOk) (commandOf i) := by
  have h := steady_keeps DecOk
  have hW : Output (Keeps DecOk) := output_of_blind h fun _ _ _ => id
  have hR : Input (Keeps DecOk) := input_of_blind h (fun _ _ => id) fun _ => id
  refine commandOf_within_domain h hW hR (fun _ _ => id) i (fun hc => ?_)
    (huffman_within h hR (fun _ _ => id) fun _ _ _ _ => id) (fun hl => ?_)
    (arithmetic_within h hW hR (fun _ _ => id) (fun _ _ => id) (fun _ => id) fun _ _ _ _ => id)
    fun hi => absurd hi hw
  · cases i with
    | argLo imm | argHi imm | clrErr | bsWinit => exact within_modify fun _ => id
    | bsRinit => exact within_bind h (within_checkIn h) fun _ => within_modify fun _ => id
    | _ => cases hc
  · cases i with
    | lzwEncReset => exact within_modify fun _ => id
    | lzwEncByte sym => exact within_bind h (within_need h _) fun _ => encByte_within h hW (fun _ _ => id) _
    | lzwEncEnd =>
      exact within_bind h (within_need h _) fun _ => within_getAny h fun _ =>
        within_bind h (emitCodes_within h hW _ _) fun _ => within_modify fun _ => id
    | lzwDecReset => exact within_modify fun s _ => DecOpen.decOk (LzwDec.Ok.started s.lzwD)
    | lzwDecCode => exact absurd rfl hcode
    | _ => cases hl

/-- D_NEXT is within its bounds (R51). -/
def NextSound (s : State) : Prop := s.lzwD.NextOk

/-- A whole-buffer command keeps D_NEXT within its bounds, where it ends and where it raises. -/
theorem wholeBuffer_nextSound {i : Instr} (hi : domainOf i = .whole) :
    Cmd.Takes NextSound (commandOf i) (fun _ => NextSound) NextSound := by
  have h := steady_keeps NextSound
  have hW : Output (Keeps NextSound) := output_of_blind h fun _ _ _ => id
  have hEnd : ∀ s : State, Keeps NextSound s (endCall s) := fun _ _ => LzwDec.discarded_next _
  have decompress (hd : i = .hufDecompress ∨ i = .lzwDecompress ∨ i = .ariDecompress) :
      Cmd.Takes NextSound (commandOf i) (fun _ => NextSound) NextSound :=
    takes_of_cases (fun s _ t hs hc => ((decompress_reading hd).of_ok rfl hc).next hs)
      fun s _ t hs hc => ((decompress_reading hd).of_error rfl hc).next hs
  have compress (hc : Cmd.Within (Keeps NextSound) (commandOf i)) :
      Cmd.Takes NextSound (commandOf i) (fun _ => NextSound) NextSound :=
    takes_of_within hc (fun _ _ => id) fun _ _ => id
  cases i with
  | hufCompress => exact compress (hufCompress_within h hW (fun _ _ => id) (fun _ => id) hEnd)
  | lzwCompress =>
    exact compress (lzwCompress_within h hW (fun _ _ => id) (fun _ _ => id) (fun _ _ => id) (fun _ => id) hEnd)
  | ariCompress => exact compress (ariCompress_within h (fun _ _ => id) hW (fun _ => id) hEnd)
  | hufDecompress => exact decompress (.inl rfl)
  | lzwDecompress => exact decompress (.inr (.inl rfl))
  | ariDecompress => exact decompress (.inr (.inr rfl))
  | _ => cases hi

theorem exec_decOk {i : Instr} {s t : State} (hs : DecOk s) (h : exec i s = .next t) : DecOk t := by
  by_cases hw : domainOf i = .whole
  · have hv := (wholeBufferCommandsEndClean i s t (wholeBuffer_of_domainOf hw) h).1
    refine ⟨?_, by rw [hv]; nofun⟩
    obtain ht | ⟨e, u, rfl, hu⟩ := exec_takes (wholeBuffer_nextSound hw) hs.1 h
    · exact ht
    · exact hu
  · by_cases hcode : i = .lzwDecCode
    · subst hcode
      obtain ht | ⟨e, u, rfl, hu⟩ := exec_takes lzwDecCode_takes hs h
      · exact ht.decOk
      · exact ⟨hu.1, nofun⟩
    · obtain hk | ⟨e, u, rfl, hk, -⟩ := exec_within (commandOf_decOk hcode hw) h
      · exact hk hs
      · exact ⟨(hk hs).1, nofun⟩

/-! ### The invariant -/

theorem lzwSound_iff {s : State} : s.LzwSound ↔ EncOk s ∧ DecOk s :=
  ⟨fun h => ⟨⟨h.enc, h.encDict⟩, h.decNext, h.dec⟩, fun ⟨⟨he, hd⟩, hn, ho⟩ => ⟨he, hn, hd, ho⟩⟩

theorem stable_lzwSound : Stable State.LzwSound :=
  stable_of_units
    (fun hu hs => by
      obtain ⟨-, hv, -, he, hd, -⟩ : _ ∧ _ ∧ _ ∧ _ ∧ _ ∧ _ := by simpa only [State.units, Prod.mk.injEq] using hu
      exact ⟨he ▸ hs.enc, hd ▸ hs.decNext, by rw [hv, he]; exact hs.encDict, by rw [hv, hd]; exact hs.dec⟩)
    (fun {s} _ => resetWith_lzwSound s.params s.draws s.tape s.bus) (fun h => ⟨h.enc, h.decNext, nofun, nofun⟩)
    fun _ hs h => by
      obtain ⟨he, hd⟩ := lzwSound_iff.1 hs
      exact lzwSound_iff.2 ⟨exec_encOk he h, exec_decOk hd h⟩

/-- Settles O24: the encoder's half and the decoder's half are kept by the commands that reach them, and an error
clears both sessions. -/
theorem stepKeepsLzwSound : Obligations.StepKeepsLzwSound := fun _ _ => stable_lzwSound.step

end Sys2Proof.Machine

namespace Sys2Proof.Machine

/-! ## The arithmetic unit -/

/-! ### What the invariant speaks of -/

/-- The RAMs and TOTAL. -/
def Arith.table (a : Arith) : Store Word × Store Word × Store Word × Word := (a.occ, a.cnt, a.cum, a.total)

/-- The unit's valid bits, the RAMs and TOTAL. -/
def State.ariFrame (s : State) : Bool × Bool × Bool × Store Word × Store Word × Store Word × Word :=
  (s.valid.ariModel, s.valid.ariEnc, s.valid.ariDec, s.ari.table)

/-- The part of the state that `State.AriSound` speaks of: all of the unit but PENDING. -/
def State.ariPart (s : State) :
    (Bool × Bool × Bool × Store Word × Store Word × Store Word × Word) × Word × Word × Word :=
  (s.ariFrame, s.ari.low, s.ari.high, s.ari.value)

theorem Arith.HoldsModel.of_table {a b : Arith} {occ : Nat → Nat} (h : a.HoldsModel occ) (e : b.table = a.table) :
    b.HoldsModel occ := by
  obtain ⟨e1, e2, e3, e4⟩ : _ ∧ _ ∧ _ ∧ _ := by simpa only [Arith.table, Prod.mk.injEq] using e
  obtain ⟨ho, hc, hu, ht, hb⟩ := h
  refine ⟨?_, ?_, ?_, ?_, hb⟩
  · unfold Arith.occAt
    rwa [e1]
  · unfold Arith.cntAt
    rwa [e2]
  · unfold Arith.cumAt
    rwa [e3]
  · rwa [e4]

theorem ariSound_of_same {s t : State} (h : Same State.ariPart s t) (hs : s.AriSound) : t.AriSound := by
  obtain ⟨⟨hm, he, hd, hf⟩, hl, hh, hv⟩ : (_ ∧ _ ∧ _ ∧ _) ∧ _ ∧ _ ∧ _ := by
    simpa only [Same, State.ariPart, State.ariFrame, Prod.mk.injEq] using h
  refine ⟨fun ho => ?_, by rw [he, hd, hl, hh]; exact hs.bounds, by rw [hd, hl, hh, hv]; exact hs.value,
    by rw [he, hd]; exact hs.single⟩
  obtain ⟨occ, hocc⟩ := hs.model (hm ▸ ho)
  exact ⟨occ, hocc.of_table hf⟩

theorem output_ariPart : Output (Same State.ariPart) := output_of_blind (steady_same _) fun _ _ _ => rfl

/-- `OutputBit(b)` changes PENDING only (R315). -/
theorem outputBit_ariPart (b : Bool) : Cmd.Within (Same State.ariPart) (outputBit b) :=
  outputBit_within (steady_same _) output_ariPart (fun _ => rfl) b

/-! ### The encoder's loop on the bounds (R315) -/

/-- `t` has the model of `s` and the bounds `low` and `high`. -/
def AtBounds (s : State) (low high : Nat) (t : State) : Prop :=
  t.ariFrame = s.ariFrame ∧ t.ari.low.toNat = low ∧ t.ari.high.toNat = high

section

variable {s t u : State} {low high : Nat}

theorem AtBounds.of_same (h : AtBounds s low high t) (hu : Same State.ariPart t u) : AtBounds s low high u := by
  obtain ⟨hf, hl, hh, -⟩ : _ ∧ _ ∧ _ ∧ _ := by simpa only [Same, State.ariPart, Prod.mk.injEq] using hu
  obtain ⟨h1, h2, h3⟩ := h
  exact ⟨hf.trans h1, hl ▸ h2, hh ▸ h3⟩

/-- One pass of the loop: the bounds doubled, nothing lost in 32 bits. -/
theorem AtBounds.doubled {c : Rescale} (h : AtBounds s low high t) (hle : low ≤ high)
    (hlt : 2 * (high - c.offset) + 1 < 2 ^ 32) :
    AtBounds s (2 * (low - c.offset)) (2 * (high - c.offset) + 1) (t.setAri (t.ari.doubled c)) := by
  obtain ⟨hf, rfl, rfl⟩ := h
  exact ⟨hf, doubled_low (by omega), doubled_high hlt⟩

theorem outputBit_atBounds (b : Bool) :
    Cmd.Takes (AtBounds s low high) (outputBit b) (fun _ => AtBounds s low high) Anything :=
  takes_of_within (outputBit_ariPart b) (fun _ _ ht h => h.of_same ht) fun _ _ _ _ => trivial

/-- A pass of EncRescale that outputs a bit (R315). -/
theorem outputPass_atBounds {c : Rescale} {b : Bool} {passes l h : Nat} (hle : low ≤ high)
    (hlt : 2 * (high - c.offset) + 1 < 2 ^ 32)
    (rest : Cmd.Takes (AtBounds s (2 * (low - c.offset)) (2 * (high - c.offset) + 1)) (encRescale passes)
      (fun _ => AtBounds s l h) Anything) :
    Cmd.Takes (AtBounds s low high)
      (outputBit b >>= fun _ => (modify fun t => t.setAri (t.ari.doubled c)) >>= fun _ => encRescale passes)
      (fun _ => AtBounds s l h) Anything :=
  takes_bind (outputBit_atBounds b) fun _ => takes_bind (takes_modify fun _ ht => ht.doubled hle hlt) fun _ => rest

/-- EncRescale goes through the cases of the loop, to the bounds at its exit. -/
theorem Rescales.encRescale_takes {low high l h : Nat} {cs : List Rescale} (r : Rescales low high cs l h) (s : State) :
    ∀ passes, cs.length ≤ passes → low ≤ high → high < 2 ^ 32 →
      Cmd.Takes (AtBounds s low high) (encRescale passes) (fun _ => AtBounds s l h) Anything := by
  have hhalf : Config.half = 0x80000000 := rfl
  have hquarter : Config.quarter = 0x40000000 := rfl
  have hthree : Config.threeQuarter = 0xC0000000 := rfl
  have h1 : Rescale.e1.offset = 0 := rfl
  have h2 : Rescale.e2.offset = 0x80000000 := rfl
  have h3 : Rescale.e3.offset = 0x40000000 := rfl
  induction r with
  | @exit low high a b c =>
    rintro (_ | passes) - - -
    · exact takes_pure _ fun _ => id
    · rintro t ⟨hf, rfl, rfl⟩
      have hcase : rescaleCase t.ari.low.toNat t.ari.high.toNat = .stop := by
        unfold rescaleCase
        rw [if_neg a, if_neg b, if_neg c]
      rw [encRescale, Cmd.get_bind_run, hcase]
      exact ⟨hf, rfl, rfl⟩
  | @e1 low high l h cs a _ ih =>
    rintro (_ | passes) hlen hle hlt t ht
    · exact absurd hlen (Nat.not_succ_le_zero _)
    · have hcase : rescaleCase low high = .e1 := by unfold rescaleCase; rw [if_pos a]
      rw [encRescale, Cmd.get_bind_run, ht.2.1, ht.2.2, hcase]
      exact outputPass_atBounds (c := .e1) hle (by omega)
        (ih passes (Nat.le_of_succ_le_succ hlen) (by omega) (by omega)) t ht
  | @e2 low high l h cs a b _ ih =>
    rintro (_ | passes) hlen hle hlt t ht
    · exact absurd hlen (Nat.not_succ_le_zero _)
    · have hcase : rescaleCase low high = .e2 := by unfold rescaleCase; rw [if_neg a, if_pos b]
      rw [encRescale, Cmd.get_bind_run, ht.2.1, ht.2.2, hcase]
      exact outputPass_atBounds (c := .e2) hle (by omega)
        (ih passes (Nat.le_of_succ_le_succ hlen) (by omega) (by omega)) t ht
  | @e3 low high l h cs a b c1 c2 _ ih =>
    rintro (_ | passes) hlen hle hlt t ht
    · exact absurd hlen (Nat.not_succ_le_zero _)
    · have hcase : rescaleCase low high = .e3 := by unfold rescaleCase; rw [if_neg a, if_neg b, if_pos ⟨c1, c2⟩]
      rw [encRescale, Cmd.get_bind_run, ht.2.1, ht.2.2, hcase]
      exact ih passes (Nat.le_of_succ_le_succ hlen) (by omega) (by omega) _
        (AtBounds.doubled (c := .e3) (t := t.setAri { t.ari with pending := t.ari.pending + 1 }) ht hle (by omega))

end

/-- The model of `s` is there and the bounds are settled. -/
def SettledWith (s t : State) : Prop := t.ariFrame = s.ariFrame ∧ Settled t.ari.low.toNat t.ari.high.toNat

/-- Narrow's bounds are stored without loss (R311). -/
theorem narrow_atBounds {s : State} {occ : Nat → Nat} {sym : Nat} (hm : s.ari.HoldsModel occ)
    (hs : Settled s.ari.low.toNat s.ari.high.toNat) (hsym : sym ≤ 256) :
    AtBounds s (narrowLow s.ari.low.toNat s.ari.high.toNat (modelCum occ sym) (modelCum occ 257))
      (narrowHigh s.ari.low.toNat s.ari.high.toNat (modelCum occ (sym + 1)) (modelCum occ 257))
      (s.setAri (s.ari.narrow sym)) := by
  obtain ⟨h1, h2, h3⟩ := hm.narrow_bounds hs hsym
  have hb := s.ari.high.isLt
  rw [narrow_eq hm hsym]
  exact ⟨rfl, toNat_ofNat32 (by omega), toNat_ofNat32 (by omega)⟩

/-- `Narrow(s); EncRescale()` leaves settled bounds, whatever is pending and where OBUF ends (R316, R325). -/
theorem encodeSymbol_takes {s : State} {occ : Nat → Nat} {sym : Nat} (hm : s.ari.HoldsModel occ)
    (hs : Settled s.ari.low.toNat s.ari.high.toNat) (hsym : sym ≤ 256) :
    Cmd.Takes (· = s) (encodeSymbol sym) (fun _ => SettledWith s) Anything := by
  obtain ⟨cs, l, h, r, hset, hlen, -⟩ := hm.rescales hs hsym
  obtain ⟨-, h2, h3⟩ := hm.narrow_bounds hs hsym
  have hb := s.ari.high.isLt
  refine takes_of_cases (fun t _ u ht hu => ?_) fun _ _ _ _ _ => trivial
  subst ht
  unfold encodeSymbol at hu
  rw [Cmd.modify_bind_run] at hu
  obtain ⟨hf, rfl, rfl⟩ :=
    (r.encRescale_takes t rescalePasses hlen h2 (by omega)).of_ok (narrow_atBounds hm hs hsym) hu
  exact ⟨hf, hset⟩

/-! ### The table read back (R322) -/

/-- The counts of a table sum to `sum`, and the symbols from `least` on have none yet. -/
def TableSums (least sum : Nat) (s : State) : Prop :=
  (∀ i, least ≤ i → i < 256 → s.ari.occAt i = 0) ∧ ((List.range 256).map fun i => (s.ari.occAt i).toNat).sum = sum

/-- The sum of a table after one zero entry is filled. -/
theorem sum_map_range_update {f g : Nat → Nat} {k n : Nat} (hk : k < n) (hf : f k = 0)
    (hg : ∀ i, i ≠ k → g i = f i) : ((List.range n).map g).sum = ((List.range n).map f).sum + g k := by
  have hp := List.perm_cons_erase (List.mem_range.2 hk)
  have rest : ((List.range n).erase k).map g = ((List.range n).erase k).map f :=
    List.map_congr_left fun i hi => hg i (List.nodup_range.mem_erase_iff.1 hi).1
  rw [(hp.map g).sum_eq, (hp.map f).sum_eq, List.map_cons, List.map_cons, List.sum_cons, List.sum_cons, rest, hf]
  omega

/-- An entry at or above `least` (R322). -/
theorem TableSums.put {s : State} {least sum k : Nat} (h : TableSums least sum s) (hk : least ≤ k) (hlt : k < 256)
    (v : Word) : TableSums (k + 1) (sum + v.toNat) (s.setAri { s.ari with occ := s.ari.occ.put k v }) := by
  obtain ⟨hzero, hsum⟩ := h
  have hread : ∀ i, (s.setAri { s.ari with occ := s.ari.occ.put k v }).ari.occAt i =
      if k = i then v else s.ari.occAt i := fun i => Store.read_put ..
  refine ⟨fun i hi hi' => ?_, ?_⟩
  · rw [hread, if_neg (by omega)]
    exact hzero i (by omega) hi'
  · rw [sum_map_range_update (f := fun i => (s.ari.occAt i).toNat) hlt (by rw [hzero k hk hlt]; rfl)
      fun i hi => by rw [hread, if_neg (Ne.symm hi)], hsum, hread, if_pos rfl]

theorem readEntriesFrom_takes : (k least sum : Nat) →
    Cmd.Takes (TableSums least sum) (readEntriesFrom k least sum) (fun n s => ∃ l, TableSums l n s) Anything
  | 0, least, _ => fun _ hs => ⟨least, hs⟩
  | k + 1, least, sum => by
    intro s hs
    have hsym : (BitVec.ofNat 32 (bitsValue (s.inBits 8))).toNat < 256 := by
      have h8 := bitsValue_lt (s.inBits 8)
      rw [State.length_inBits] at h8
      rwa [toNat_ofNat32 (by omega)]
    rw [readEntriesFrom, Cmd.bind_of_ok (readBits_run 8 s), Cmd.bind_of_ok (readBits_run 32 _), raiseIf_bind_run]
    generalize BitVec.ofNat 32 (bitsValue (s.inBits 8)) = sym at *
    generalize BitVec.ofNat 32 (bitsValue _) = v
    by_cases hbad : sym.toNat < least ∨ v = 0
    · rw [if_pos hbad]
      trivial
    · rw [if_neg hbad, Cmd.modify_bind_run]
      simp only [not_or, Nat.not_lt] at hbad
      exact readEntriesFrom_takes k _ _ _ (TableSums.put (s := (s.afterRead 8).afterRead 32) hs hbad.1 hsym v)

/-- The counts of a table sum to at most ARI_MAX (R322). -/
def TableFits (s : State) : Prop := ((List.range 256).map fun i => (s.ari.occAt i).toNat).sum ≤ Config.ariMax

theorem readEntries_takes (k : Nat) : Cmd.Takes Anything (readEntries k) (fun _ => TableFits) Anything := by
  have cleared : ∀ s : State, TableSums 0 0 (s.setAri { s.ari with occ := s.ari.occ.fill 256 0 }) := fun s => by
    have hzero : ∀ i, i < 256 → (s.setAri { s.ari with occ := s.ari.occ.fill 256 0 }).ari.occAt i = 0 := fun i hi =>
      Store.read_of_written (by
        show (s.ari.occ.fill 256 0).written i = _
        rw [Store.written_fill, if_pos hi])
    refine ⟨fun i _ => hzero i, List.sum_eq_zero fun x hx => ?_⟩
    obtain ⟨i, hi, rfl⟩ := List.mem_map.1 hx
    rw [hzero i (List.mem_range.1 hi)]
    rfl
  refine takes_bind (takes_modify fun s _ => cleared s) fun _ => takes_bind (readEntriesFrom_takes k 0 0) fun sum =>
    takes_bind (takes_raiseIf _ _ fun _ _ => trivial) fun _ => takes_pure _ ?_
  rintro s ⟨⟨-, -, rfl⟩, hle⟩
  exact Nat.le_of_not_lt hle

/-! ### The unit's commands -/

theorem ariModel_ariSound : Cmd.Takes State.AriSound ariModel (fun _ => State.AriSound) Anything := by
  intro s _
  unfold ariModel
  rw [checkIn_bind_run]
  by_cases h1 : s.inLen.toNat > s.params.ibufSize
  · rw [if_pos h1]
    trivial
  · rw [if_neg h1, Cmd.get_bind_run, raiseIf_bind_run]
    by_cases h2 : s.inLen.toNat > Config.ariMax
    · rw [if_pos h2]
      trivial
    · rw [if_neg h2]
      exact ⟨fun _ => ⟨_, fillModel_holds (Nat.le_of_not_lt h2)⟩, fun h => h.elim nofun nofun, nofun, .inl rfl⟩

theorem ariRdtbl_ariSound : Cmd.Takes State.AriSound ariRdtbl (fun _ => State.AriSound) Anything := by
  have table : Cmd.Takes Anything ariRdtbl (fun _ => State.AriSound) Anything :=
    takes_last fun _ => takes_last fun _ => takes_bind (readEntries_takes _) fun _ => takes_modify fun s hs =>
      ⟨fun _ => ⟨_, buildModel_holds (fun _ _ => rfl) hs⟩, fun h => h.elim nofun nofun, nofun, .inl rfl⟩
  exact fun s _ => table s trivial

/-- The bounds an encoder or a decoder starts from (R314, R318). -/
theorem settled_fullRange : Settled 0 0xFFFFFFFF := by
  unfold Settled
  decide

theorem toNat_le_fullRange (v : Word) : v.toNat ≤ (0xFFFFFFFF : Word).toNat := by
  have hv := v.isLt
  rw [show (0xFFFFFFFF : Word).toNat = 4294967295 from rfl]
  omega

theorem ariEncInit_ariSound : Cmd.Takes State.AriSound (commandOf .ariEncInit) (fun _ => State.AriSound) Anything :=
  takes_modify fun _ hs =>
    ⟨fun hm => (hs.model hm).imp fun _ h => h.of_table rfl, fun _ => settled_fullRange, nofun, .inr rfl⟩

theorem ariDecInit_ariSound : Cmd.Takes State.AriSound ariDecInit (fun _ => State.AriSound) Anything := by
  intro s hs
  have start : startRangeDecoder s = .ok ⟨⟩ ((s.afterRead 32).setAri
      { s.ari.fullRange with value := BitVec.ofNat 32 (bitsValue (s.inBits 32)) }) := by
    unfold startRangeDecoder
    rw [Cmd.modify_bind_run, Cmd.bind_of_ok (readBits_run 32 _)]
    rfl
  unfold ariDecInit
  rw [Cmd.bind_of_ok start]
  exact ⟨fun hm => (hs.model hm).imp fun _ h => h.of_table rfl, fun _ => settled_fullRange,
    fun _ => ⟨Nat.zero_le _, toNat_le_fullRange _⟩, .inl rfl⟩

theorem ariEncSym_ariSound {sym : Nat} (hsym : sym ≤ 256) :
    Cmd.Takes State.AriSound (ariEncSym sym) (fun _ => State.AriSound) Anything := by
  intro s hs
  unfold ariEncSym
  rw [need_bind_run]
  by_cases hmodel : s.valid.ariModel = false
  · rw [if_pos hmodel]
    trivial
  · rw [if_neg hmodel, need_bind_run]
    by_cases hopen : s.valid.ariEnc = false
    · rw [if_pos hopen]
      trivial
    · rw [if_neg hopen]
      obtain ⟨occ, hm⟩ := hs.model (Bool.eq_true_of_not_eq_false hmodel)
      have hset := hs.bounds (.inl (Bool.eq_true_of_not_eq_false hopen))
      have hclosed : s.valid.ariDec = false := hs.single.resolve_left hopen
      refine takes_of_cases (P := (· = s)) (fun t _ u ht hu => ?_) (fun _ _ _ _ _ => trivial) s rfl
      obtain ⟨hf, hset'⟩ := (encodeSymbol_takes hm hset hsym).of_ok ht hu
      obtain ⟨-, -, hd, ht⟩ : _ ∧ _ ∧ _ ∧ _ := by simpa only [State.ariFrame, Prod.mk.injEq] using hf
      rw [hclosed] at hd
      exact ⟨fun _ => ⟨occ, hm.of_table ht⟩, fun _ => hset', fun h => Bool.noConfusion (hd.symm.trans h), .inr hd⟩

/-- A session that ends leaves the rest of the invariant. -/
theorem State.AriSound.closed {s : State} (hs : s.AriSound) (e d : Bool) (he : e = true → s.valid.ariEnc = true)
    (hd : d = true → s.valid.ariDec = true) : (s.setValid { s.valid with ariEnc := e, ariDec := d }).AriSound where
  model := hs.model
  bounds := fun h => hs.bounds (h.imp he hd)
  value := fun h => hs.value (hd h)
  single := by
    cases e
    · exact .inl rfl
    · cases d
      · exact .inr rfl
      · exact absurd (he rfl) (by have := hs.single; rw [hd rfl] at this; simpa using this)

theorem ariEncFlush_ariSound : Cmd.Takes State.AriSound ariEncFlush (fun _ => State.AriSound) Anything := by
  have h := steady_same State.ariPart
  have flushed : Cmd.Within (Same State.ariPart) flushRangeEncoder :=
    within_bind h (within_modify fun _ => rfl) fun _ => within_getAny h fun _ => outputBit_ariPart _
  have keeps {α : Type} {c : Cmd α} (hc : Cmd.Within (Same State.ariPart) c) :
      Cmd.Takes State.AriSound c (fun _ => State.AriSound) Anything :=
    takes_of_within hc (fun _ _ => ariSound_of_same) fun _ _ _ _ => trivial
  exact takes_bind (keeps (within_need h _)) fun _ => takes_bind (keeps flushed) fun _ =>
    takes_modify fun s hs => hs.closed false s.valid.ariDec nofun id

theorem ariDecSym_ariSound : Cmd.Takes State.AriSound ariDecSym (fun _ => State.AriSound) Anything := by
  intro s hs
  unfold ariDecSym
  rw [need_bind_run]
  by_cases hmodel : s.valid.ariModel = false
  · rw [if_pos hmodel]
    trivial
  · rw [if_neg hmodel, need_bind_run]
    by_cases hopen : s.valid.ariDec = false
    · rw [if_pos hopen]
      trivial
    · rw [if_neg hopen]
      obtain ⟨occ, hm⟩ := hs.model (Bool.eq_true_of_not_eq_false hmodel)
      have hset := hs.bounds (.inr (Bool.eq_true_of_not_eq_false hopen))
      obtain ⟨hv1, hv2⟩ := hs.value (Bool.eq_true_of_not_eq_false hopen)
      obtain ⟨sym, hsym, hc, hd, hrun⟩ := lookup_run hm hv1 hv2
      rw [Cmd.bind_of_ok hrun, Cmd.modify_bind_run]
      have hres : (s.setRes (BitVec.ofNat 32 sym)).AriSound :=
        ariSound_of_same (s := s) rfl hs
      unfold afterLookup
      by_cases heof : sym = Config.eofSymbol
      · rw [if_pos heof]
        exact hres.closed s.valid.ariEnc false id nofun
      · rw [if_neg heof]
        obtain ⟨cs, l, h, r, hset', hlen, -⟩ := hm.rescales hset hsym
        obtain ⟨hgo, hlo, hhi⟩ :=
          consumeSymbol_run (s := s.setRes (BitVec.ofNat 32 sym)) hm hset hsym hv1 hc hd r hlen
        have hmax : h ≤ 0xFFFFFFFF := hset'.2.2.1
        have hl : (BitVec.ofNat 32 l).toNat = l := toNat_ofNat32 (by omega)
        have hh : (BitVec.ofNat 32 h).toNat = h := toNat_ofNat32 (by omega)
        rw [hgo]
        refine ⟨fun _ => ⟨occ, hm.of_table rfl⟩, fun _ => ?_, fun _ => ?_, hs.single⟩
        · show Settled (BitVec.ofNat 32 l).toNat (BitVec.ofNat 32 h).toNat
          rwa [hl, hh]
        · show (BitVec.ofNat 32 l).toNat ≤ (BitVec.ofNat 32 _).toNat ∧
            (BitVec.ofNat 32 _).toNat ≤ (BitVec.ofNat 32 h).toNat
          rw [hl, hh, toNat_ofNat32 (by omega)]
          exact ⟨hlo, hhi⟩

theorem arithmetic_ariSound {i : Instr} (hw : WellFormed i) (hi : domainOf i = .arithmetic) :
    Cmd.Takes State.AriSound (commandOf i) (fun _ => State.AriSound) Anything := by
  cases i with
  | ariModel => exact ariModel_ariSound
  | ariRdtbl => exact ariRdtbl_ariSound
  | ariEncInit => exact ariEncInit_ariSound
  | ariEncSym sym => exact ariEncSym_ariSound (of_decide_eq_true hw)
  | ariEncFlush => exact ariEncFlush_ariSound
  | ariDecInit => exact ariDecInit_ariSound
  | ariDecSym => exact ariDecSym_ariSound
  | _ => cases hi

/-! ### The invariant -/

/-- The other commands that are not whole-buffer commands do not reach the arithmetic unit. -/
theorem commandOf_ariPart {i : Instr} (ha : domainOf i ≠ .arithmetic) (hw : domainOf i ≠ .whole) :
    Cmd.Within (Same State.ariPart) (commandOf i) := by
  have h := steady_same State.ariPart
  have hW := output_ariPart
  have hR : Input (Same State.ariPart) := input_of_blind h (fun _ _ => rfl) fun _ => rfl
  refine commandOf_within_domain h hW hR (fun _ _ => rfl) i (fun hi => ?_)
    (huffman_within h hR (fun _ _ => rfl) fun _ _ _ _ => rfl)
    (lzw_within h hW hR (fun _ _ => rfl) (fun _ _ => rfl) (fun _ _ => rfl) (fun _ _ => rfl) fun _ _ _ => rfl)
    (fun hi => absurd hi ha) fun hi => absurd hi hw
  cases i with
  | argLo imm | argHi imm | clrErr | bsWinit => exact within_modify fun _ => rfl
  | bsRinit => exact within_bind h (within_checkIn h) fun _ => within_modify fun _ => rfl
  | _ => cases hi

theorem exec_ariSound {i : Instr} {s t : State} (hwf : WellFormed i) (hs : s.AriSound) (h : exec i s = .next t) :
    t.AriSound := by
  by_cases hw : domainOf i = .whole
  · exact ariSound_of_cleared (wholeBufferCommandsEndClean i s t (wholeBuffer_of_domainOf hw) h).1
  · by_cases ha : domainOf i = .arithmetic
    · obtain ht | ⟨e, u, rfl, -⟩ := exec_takes (arithmetic_ariSound hwf ha) hs h
      · exact ht
      · exact ariSound_of_cleared rfl
    · obtain ht | ⟨e, u, rfl, -⟩ := exec_within (commandOf_ariPart ha hw) h
      · exact ariSound_of_same ht hs
      · exact ariSound_of_cleared rfl

theorem stable_ariSound : Stable State.AriSound :=
  stable_of_units (fun {s t} hu => ariSound_of_same (by
      obtain ⟨-, hv, -, -, -, ha⟩ : _ ∧ _ ∧ _ ∧ _ ∧ _ ∧ _ := by simpa only [State.units, Prod.mk.injEq] using hu
      show t.ariPart = s.ariPart
      unfold State.ariPart State.ariFrame
      rw [hv, ha]))
    (fun _ => ariSound_of_cleared rfl) (fun _ => ariSound_of_cleared rfl) exec_ariSound

/-- Settles O26: Narrow and the rescale loop lead from settled bounds to settled bounds, with VALUE within them. -/
theorem stepKeepsAriSound : Obligations.StepKeepsAriSound := fun _ _ => stable_ariSound.step

end Sys2Proof.Machine

namespace Sys2Proof.Machine

/-! ## Bus errors -/

theorem hostRead_of_busError_none {bits off : Nat} {s : State} (h : busError s.params bits (placeOf off) = none) :
    hostRead bits off s = .next ((s.setBus (readPlace s (placeOf off))).setDraws (s.draws + 1)) := by
  unfold hostRead
  rw [h]

theorem hostRead_of_busError_some {bits off : Nat} {s : State} {f : Fault}
    (h : busError s.params bits (placeOf off) = some f) : hostRead bits off s = .fault f := by
  unfold hostRead
  rw [h]

theorem hostWrite_of_busError_none {bits off : Nat} {w : Word} {s : State}
    (h : busError s.params bits (placeOf off) = none) :
    hostWrite bits off w s =
      .next (if s.seq.phase = .busy then writeBusy s (placeOf off) else writeIdle w s (placeOf off)) := by
  unfold hostWrite
  rw [h]

theorem hostWrite_of_busError_some {bits off : Nat} {w : Word} {s : State} {f : Fault}
    (h : busError s.params bits (placeOf off) = some f) : hostWrite bits off w s = .fault f := by
  unfold hostWrite
  rw [h]

/-- An access that the map, the widths and the alignment do not allow has a fault to name (R95, R96). -/
theorem busError_some_of_not_allowed {p : Params} (hp : p.Ok) {bits off : Nat} (h : ¬ AccessAllowed p bits off) :
    ∃ f, busError p bits (placeOf off) = some f :=
  Option.ne_none_iff_exists'.1 (mt (busError_none_iff p hp bits off).1 h)

/-- Settles O16: the host port asks `busError` before it does anything else, and that is `none` for the allowed accesses
alone. -/
theorem busErrorsAreExactlyTheBadAccesses : Obligations.BusErrorsAreExactlyTheBadAccesses := by
  intro s bits off w rest hp
  have carried : AccessAllowed s.params bits off → busError (s.setTape rest).params bits (placeOf off) = none :=
    (busError_none_iff s.params hp bits off).2
  refine ⟨fun ht => ?_, fun ht => ?_⟩
  · rw [step_read_eq ht]
    refine ⟨fun ha => ⟨_, hostRead_of_busError_none (carried ha)⟩, fun hna => ?_⟩
    obtain ⟨f, hf⟩ := busError_some_of_not_allowed hp hna
    exact ⟨f, hostRead_of_busError_some hf⟩
  · rw [step_write_eq ht]
    refine ⟨fun ha => ⟨_, hostWrite_of_busError_none (carried ha)⟩, fun hna => ?_⟩
    obtain ⟨f, hf⟩ := busError_some_of_not_allowed hp hna
    exact ⟨f, hostWrite_of_busError_some hf⟩

end Sys2Proof.Machine

namespace Sys2Proof.Machine

/-! ## Command words -/

/-! ### Each class on a word of its fields (R122) -/

theorem classZ_commandWord (o : BitVec 8) (i : Instr) : classZ (commandWord o 0 0) i = .ok i :=
  legalIf_eq_ok.2 ⟨rsvField_commandWord _ _ _, decide_eq_true (cntField_commandWord _ _ _),
    decide_eq_true (immField_commandWord _ _ _), rfl⟩

theorem classI16_commandWord (o : BitVec 8) (m : BitVec 16) (i : BitVec 16 → Instr) :
    classI16 (commandWord o 0 m) i = .ok (i m) :=
  legalIf_eq_ok.2 ⟨rsvField_commandWord _ _ _, decide_eq_true (cntField_commandWord _ _ _), rfl,
    congrArg i (immField_commandWord _ _ _)⟩

theorem classC32_commandWord (o : BitVec 8) {c : BitVec 6} (h : c.toNat ≤ 32) (i : BitVec 6 → Instr) :
    classC32 (commandWord o c 0) i = .ok (i c) :=
  legalIf_eq_ok.2 ⟨rsvField_commandWord _ _ _, decide_eq_true (by rwa [cntField_commandWord]),
    decide_eq_true (immField_commandWord _ _ _), congrArg i (cntField_commandWord _ _ _)⟩

theorem classCI16_commandWord (o : BitVec 8) {c : BitVec 6} (h : c.toNat ≤ 16) (m : BitVec 16)
    (i : BitVec 6 → BitVec 16 → Instr) : classCI16 (commandWord o c m) i = .ok (i c m) :=
  legalIf_eq_ok.2 ⟨rsvField_commandWord _ _ _, decide_eq_true (by rwa [cntField_commandWord]), rfl,
    congrArg₂ i (cntField_commandWord _ _ _) (immField_commandWord _ _ _)⟩

theorem classS8_commandWord (o sym : BitVec 8) (i : BitVec 8 → Instr) :
    classS8 (commandWord o 0 (sym.setWidth 16)) i = .ok (i sym) := by
  refine legalIf_eq_ok.2 ⟨rsvField_commandWord _ _ _, decide_eq_true (cntField_commandWord _ _ _), ?_, congrArg i ?_⟩
  · rw [immField_commandWord]
    exact decide_eq_true (Laws.FieldsPlaced.setWidth_sixteen_le_of_eight sym)
  · rw [immField_commandWord]
    exact BitVec.setWidth_setWidth_of_le sym (by decide)

theorem classS9_commandWord (o : BitVec 8) {sym : BitVec 9} (h : sym.toNat ≤ 256) (i : BitVec 9 → Instr) :
    classS9 (commandWord o 0 (sym.setWidth 16)) i = .ok (i sym) := by
  refine legalIf_eq_ok.2 ⟨rsvField_commandWord _ _ _, decide_eq_true (cntField_commandWord _ _ _), ?_, congrArg i ?_⟩
  · rw [immField_commandWord, Laws.FieldsPlaced.toNat_setWidth_sixteen_of_nine]
    exact decide_eq_true h
  · rw [immField_commandWord]
    exact BitVec.setWidth_setWidth_of_le sym (by decide)

/-- Settles O1: the opcode field picks the row of the decoder, and the row's class gives the operands back. -/
theorem decodeInvertsEncode : Obligations.DecodeInvertsEncode := by
  intro i h
  cases i with
  | argLo imm | argHi imm =>
    unfold decode encode
    rw [opcField_commandWord]
    exact classI16_commandWord _ imm _
  | bsWrite cnt | bsRead cnt =>
    unfold decode encode
    rw [opcField_commandWord]
    exact classC32_commandWord _ (of_decide_eq_true h) _
  | bsWritei cnt imm =>
    unfold decode encode
    rw [opcField_commandWord]
    exact classCI16_commandWord _ (of_decide_eq_true h) imm _
  | hufEncsym sym | hufFreqRd sym | hufCodelen sym | lzwEncByte sym =>
    unfold decode encode
    rw [opcField_commandWord]
    exact classS8_commandWord _ sym _
  | ariEncSym sym =>
    unfold decode encode
    rw [opcField_commandWord]
    exact classS9_commandWord _ (of_decide_eq_true h) _
  | _ =>
    unfold decode encode
    rw [opcField_commandWord]
    exact classZ_commandWord _ _

/-! ### Each legal word as the word of its fields (R120, R124) -/

theorem commandWord_eq_of_fields {w : Word} {o : BitVec 8} {c : BitVec 6} {m : BitVec 16} (hr : rsvField w = 0)
    (ho : (opcField w).toNat = o.toNat) (hc : cntField w = c) (hm : immField w = m) : commandWord o c m = w := by
  rw [← BitVec.eq_of_toNat_eq ho, ← hc, ← hm, commandWord_fields w hr]

theorem encode_of_decode {w : Word} {i : Instr} (h : decode w = .ok i) : encode i = w := by
  unfold decode at h
  split at h <;>
    simp only [classZ, classI16, classC32, classCI16, classS8, classS9, legalIf_eq_ok, reduceCtorEq] at h <;>
    obtain ⟨hr, hc, hm, rfl⟩ := h
  case h_2 | h_3 => exact commandWord_eq_of_fields hr ‹_› (of_decide_eq_true hc) rfl
  case h_6 | h_10 => exact commandWord_eq_of_fields hr ‹_› rfl (of_decide_eq_true hm)
  case h_7 => exact commandWord_eq_of_fields hr ‹_› rfl rfl
  case h_17 | h_19 | h_20 | h_24 =>
    exact commandWord_eq_of_fields hr ‹_› (of_decide_eq_true hc)
      (setWidth_setWidth_eight _ (of_decide_eq_true hm)).symm
  case h_34 =>
    exact commandWord_eq_of_fields hr ‹_› (of_decide_eq_true hc)
      (setWidth_setWidth_nine _ (of_decide_eq_true hm)).symm
  all_goals exact commandWord_eq_of_fields hr ‹_› (of_decide_eq_true hc) (of_decide_eq_true hm)

/-- Settles O2: the class checks say that no field outside the operands holds a bit. -/
theorem encodeInvertsDecode : Obligations.EncodeInvertsDecode := fun _ _ h =>
  ⟨wellFormed_of_decode h, encode_of_decode h⟩

/-- Settles O4: each word is evaluated by the decoder. -/
theorem specWordsDecode : Obligations.SpecWordsDecode := by
  unfold Obligations.SpecWordsDecode
  decide

/-! ## The halves of ARG -/

theorem low_withLowHalf (w : Word) (m : BitVec 16) : (withLowHalf w m).extractLsb' 0 16 = m := by
  unfold withLowHalf
  rw [BitVec.extractLsb'_append_eq_right]

theorem high_withLowHalf (w : Word) (m : BitVec 16) :
    (withLowHalf w m).extractLsb' 16 16 = w.extractLsb' 16 16 := by
  unfold withLowHalf
  rw [BitVec.extractLsb'_append_eq_left]

theorem high_withHighHalf (w : Word) (m : BitVec 16) : (withHighHalf w m).extractLsb' 16 16 = m := by
  unfold withHighHalf
  rw [BitVec.extractLsb'_append_eq_left]

theorem low_withHighHalf (w : Word) (m : BitVec 16) : (withHighHalf w m).extractLsb' 0 16 = w.extractLsb' 0 16 := by
  unfold withHighHalf
  rw [BitVec.extractLsb'_append_eq_right]

/-- LI32's two halves make the whole word (R127). -/
theorem withHighHalf_withLowHalf (w v : Word) :
    withHighHalf (withLowHalf w (v.extractLsb' 0 16)) (v.extractLsb' 16 16) = v := by
  show v.extractLsb' 16 16 ++ (withLowHalf w _).extractLsb' 0 16 = v
  rw [low_withLowHalf]
  exact (BitVec.extractLsb'_append_extractLsb'_eq_extractLsb' (by decide)).trans (BitVec.extractLsb'_eq_self)

/-- Settles O27: ARG's new value is its two halves, one of them the immediate. -/
theorem controlCommands : Obligations.ControlCommands := by
  refine ⟨fun imm s => ⟨_, rfl, rfl, low_withLowHalf _ _, high_withLowHalf _ _⟩,
    fun imm s => ⟨_, rfl, rfl, high_withHighHalf _ _, low_withHighHalf _ _⟩,
    fun v s => ⟨rfl, _, rfl, ?_⟩, fun s => rfl, fun s => rfl⟩
  show Host.Outcome.next (s.setArg (withHighHalf (withLowHalf s.arg _) _)) = _
  rw [withHighHalf_withLowHalf]

/-! ### Legal words and the rows of the opcode map (R122 to R124) -/

section

variable (w : Word)

theorem decide_cntField_eq_zero : decide (cntField w = 0) = decide ((cntField w).toNat ≤ 0) :=
  decide_eq_decide.2 ((BitVec.toNat_inj (y := 0)).symm.trans Nat.le_zero.symm)

theorem decide_immField_eq_zero : decide (immField w = 0) = decide ((immField w).toNat ≤ 0) :=
  decide_eq_decide.2 ((BitVec.toNat_inj (y := 0)).symm.trans Nat.le_zero.symm)

theorem true_eq_decide_immField : true = decide ((immField w).toNat ≤ 0xFFFF) :=
  (decide_eq_true (Nat.le_of_lt_succ (immField w).isLt)).symm

end

/-- The checks of a row: CNT and IMM up to its limits. -/
def CommandRow.check (r : CommandRow) (w : Word) (i : Instr) : Except Reject Instr :=
  legalIf w (decide ((cntField w).toNat ≤ r.cntMax)) (decide ((immField w).toNat ≤ r.immMax)) i

/-- A word with the opcode of a row is decoded to a command of that row's mnemonic, by that row's checks. -/
theorem decode_of_row {w : Word} {r : CommandRow} (hr : r ∈ commandRows) (ho : (opcField w).toNat = r.opc) :
    ∃ i, mnemonic i = r.name ∧ decode w = r.check w i := by
  unfold decode classZ classI16 classC32 classCI16 classS8 classS9 CommandRow.check
  rw [ho, decide_cntField_eq_zero, decide_immField_eq_zero, true_eq_decide_immField]
  fin_cases hr <;> exact ⟨_, rfl, rfl⟩

theorem CommandRow.check_eq_ok {r : CommandRow} {w : Word} {i j : Instr} (ho : (opcField w).toNat = r.opc) :
    r.check w i = .ok j ↔ r.Fits w ∧ i = j := by
  unfold CommandRow.check CommandRow.Fits
  rw [legalIf_eq_ok, decide_eq_true_iff, decide_eq_true_iff]
  exact ⟨fun ⟨hr, hc, hm, hi⟩ => ⟨⟨ho, hr, hc, hm⟩, hi⟩, fun ⟨⟨_, hr, hc, hm⟩, hi⟩ => ⟨hr, hc, hm, hi⟩⟩

/-- A legal word has the opcode of a row. -/
theorem row_of_decode {w : Word} {i : Instr} (h : decode w = .ok i) :
    ∃ r ∈ commandRows, (opcField w).toNat = r.opc := by
  have hmem : (opcField w).toNat ∈ commandRows.map CommandRow.opc := by
    unfold decode at h
    split at h
    case h_40 => cases h
    all_goals
      rw [‹(opcField w).toNat = _›]
      decide
  obtain ⟨r, hr, ho⟩ := List.mem_map.1 hmem
  exact ⟨r, hr, ho.symm⟩

theorem legal_iff_fits (w : Word) : (∃ i, decode w = .ok i) ↔ ∃ r ∈ commandRows, r.Fits w := by
  constructor
  · rintro ⟨i, h⟩
    obtain ⟨r, hr, ho⟩ := row_of_decode h
    obtain ⟨j, -, hj⟩ := decode_of_row hr ho
    exact ⟨r, hr, ((CommandRow.check_eq_ok ho).1 (hj.symm.trans h)).1⟩
  · rintro ⟨r, hr, hf⟩
    obtain ⟨j, -, hj⟩ := decode_of_row hr hf.1
    exact ⟨j, hj.trans ((CommandRow.check_eq_ok hf.1).2 ⟨hf, rfl⟩)⟩

theorem mnemonic_of_fits {w : Word} {i : Instr} {r : CommandRow} (h : decode w = .ok i) (hr : r ∈ commandRows)
    (hf : r.Fits w) : mnemonic i = r.name := by
  obtain ⟨j, hn, hj⟩ := decode_of_row hr hf.1
  obtain ⟨-, rfl⟩ := (CommandRow.check_eq_ok hf.1).1 (hj.symm.trans h)
  exact hn

theorem commandStep_of_illegal {s : State} (h : Illegal s.seq.cmdWord) :
    commandStep exec s = .next (complete (if s.status.err then s else takeError .illegalCommand s)) := by
  have hne : s.seq.cmdWord ≠ 0x00000003 := fun he => h .clrErr (by rw [he]; decide)
  unfold commandStep gated
  rw [decide_eq_true hne, Bool.and_true]
  split
  · rfl
  · cases hd : decode s.seq.cmdWord with
    | ok i => exact absurd hd (h i)
    | error e => rfl

/-- Settles O3: a row is its opcode and its limits on CNT and IMM, which are the decoder's checks; an illegal word is not
CLR_ERR's, so the ERR gate stops it. -/
theorem legalWordsAreTheOpcodeMap : Obligations.LegalWordsAreTheOpcodeMap := by
  refine ⟨legal_iff_fits, fun w i r => mnemonic_of_fits, rfl, fun s rest hb ht hi => ?_⟩
  rw [step_core_eq ht]
  exact (if_pos (show (s.setTape rest).seq.phase = .busy from hb)).trans (commandStep_of_illegal (s := s.setTape rest) hi)

end Sys2Proof.Machine

namespace Sys2Proof.Machine

/-! ## Reading known bits -/

theorem inBits_append {s : State} {l m : List Bool} (h : s.inBits (l ++ m).length = l ++ m) :
    s.inBits l.length = l ∧ (s.afterRead l.length).inBits m.length = m := by
  rw [List.length_append, State.inBits_add] at h
  exact List.append_inj h (State.length_inBits _ _)

theorem readBits_of_inBits {s : State} {v : Word} {n : Nat} (hv : v.toNat < 2 ^ n) (h : s.inBits n = wordBits v n) :
    readBits n s = .ok v (s.afterRead n) := by
  rw [readBits_run, h, bitsValue_wordBits, Nat.mod_eq_of_lt hv, BitVec.ofNat_toNat, BitVec.setWidth_eq]

/-! ## Serialized trees and tables -/

/-- Settles O37: HUF_SERTREE is `serTree` on the unit's tree. -/
theorem hufSertreeWritesTheTree : Obligations.HufSertreeWritesTheTree := by
  intro s T hv hT hr
  obtain ⟨t, ht, hw⟩ := serTree_writes T hr
  have hrun : hufSertree s = .ok () t := by
    unfold hufSertree
    rw [need_bind_run, if_neg (by simp [hv]), Cmd.bind_of_ok (currentTree_run hT)]
    exact ht
  exact ⟨length_treeBits T, t, exec_of_ok hrun, hw⟩

theorem toNat_length_observedSymbols (occ : Nat → Nat) :
    (BitVec.ofNat 32 (observedSymbols occ).length).toNat = (observedSymbols occ).length := by
  have := length_observedSymbols occ
  exact toNat_ofNat32 (by omega)

theorem ariWrtbl_run {s : State} {occ : Nat → Nat} (hv : s.valid.ariModel = true) (hm : s.ari.HoldsModel occ)
    (hr : s.Room (tableBits occ).length) : ∃ t, ariWrtbl s = .ok () t ∧ Writes (tableBits occ) s t := by
  unfold ariWrtbl
  rw [need_bind_run, if_neg (by simp [hv]), Cmd.get_bind_run]
  exact emits_writeTable hm.occurred s hr

theorem ariRdtbl_run {s : State} {occ : Nat → Nat} (hs : ((List.range 256).map occ).sum ≤ Config.ariMax)
    (hb : s.inBits (tableBits occ).length = tableBits occ) :
    ∃ st : Store Word, ({ s.ari with occ := st } : Arith).buildModel.HoldsModel occ ∧
      ariRdtbl s =
        .ok () (((s.afterRead (tableBits occ).length).setAri ({ s.ari with occ := st } : Arith).buildModel).setValid
          s.valid.afterModel) := by
  have hk := length_observedSymbols occ
  obtain ⟨hcount, hentries⟩ := inBits_append hb
  rw [length_wordBits] at hcount hentries
  obtain ⟨st, hst, hocc⟩ := readEntries_run hs hentries
  refine ⟨st, buildModel_holds hocc hs, ?_⟩
  unfold ariRdtbl
  rw [Cmd.bind_of_ok (readBits_of_inBits (by rw [toNat_length_observedSymbols]; omega) hcount), raiseIf_bind_run,
    toNat_length_observedSymbols, if_neg (by omega), Cmd.bind_of_ok hst, State.afterRead_add, Cmd.modify_run,
    tableBits, List.length_append, length_wordBits]
  rfl

/-- Settles O53: the count field is read back as it was written, and the entries fill the cleared table. -/
theorem ariTables : Obligations.AriTables := by
  refine ⟨fun s occ hv hm hr => ?_, fun s occ hs hb => ?_⟩
  · obtain ⟨t, ht, hw⟩ := ariWrtbl_run hv hm hr
    exact ⟨t, exec_of_ok ht, hw⟩
  · obtain ⟨st, hmodel, ht⟩ := ariRdtbl_run hs hb
    exact ⟨_, exec_of_ok ht, hmodel, rfl⟩

/-! ## Bits written, whatever else of the units changes -/

/-- What a whole-buffer command leaves as it is, whatever it decodes (R168). -/
def State.kept (s : State) :
    Params × Seq × Ctrl × ErrRegs × Word × Word × Word × Memory × Memory × List Move × BusReply :=
  (s.params, s.seq, s.ctrl, s.err, s.arg, s.res, s.inLen, s.ibuf, s.extbuf, s.tape, s.bus)

/-- `State.kept` and the registers a whole-buffer command sets. -/
def State.settings (s : State) := (s.kept, s.status, s.ext, s.origSize)

/-- `t` is `s` with the bits `l` written, the reader and the units being any: what `Writes` says of the output. -/
structure Yields (l : List Bool) (s t : State) : Prop where
  settings : t.settings = s.settings
  bits : t.outBits = s.outBits ++ l
  outLen : t.writer.outLen.toNat = s.writer.outLen.toNat + (s.writer.nbits.toNat + l.length) / 8
  nbits : t.writer.nbits.toNat = (s.writer.nbits.toNat + l.length) % 8
  others : ∀ a, t.writer.outLen.toNat ≤ a → t.obufByte a = s.obufByte a

section

variable {l m : List Bool} {s t u : State}

theorem Writes.yields (h : Writes l s t) : Yields l s t where
  settings := by
    rw [h.frame]
    rfl
  bits := h.bits
  outLen := h.outLen
  nbits := h.nbits
  others := fun a ha => h.others a (.inr ha)

/-- A change of the reader and the units is no output. -/
theorem yields_nil (hs : t.settings = s.settings) (hw : t.writer = s.writer) (ho : t.obuf = s.obuf) :
    Yields [] s t := by
  have hbyte : t.obufByte = s.obufByte := by
    unfold State.obufByte
    rw [ho]
  have hn := s.writer.nbits.isLt
  refine ⟨hs, ?_, ?_, ?_, fun a _ => congrFun hbyte a⟩
  · unfold State.outBits State.outBytes
    rw [hw, hbyte, List.append_nil]
  · rw [hw, List.length_nil]
    omega
  · rw [hw, List.length_nil]
    omega

theorem yields_setReader (s : State) (r : Reader) : Yields [] s (s.setReader r) := yields_nil rfl rfl rfl

theorem yields_setHuf (s : State) (h : Huffman) : Yields [] s (s.setHuf h) := yields_nil rfl rfl rfl

theorem yields_setLzwE (s : State) (e : LzwEnc) : Yields [] s (s.setLzwE e) := yields_nil rfl rfl rfl

theorem yields_setLzwD (s : State) (d : LzwDec) : Yields [] s (s.setLzwD d) := yields_nil rfl rfl rfl

theorem yields_setAri (s : State) (a : Arith) : Yields [] s (s.setAri a) := yields_nil rfl rfl rfl

theorem yields_setValid (s : State) (v : UnitValid) : Yields [] s (s.setValid v) := yields_nil rfl rfl rfl

theorem Yields.trans (h : Yields l s t) (g : Yields m t u) : Yields (l ++ m) s u := by
  have h1 := h.outLen
  have h2 := g.outLen
  have h3 := h.nbits
  have h4 := g.nbits
  refine ⟨g.settings.trans h.settings, ?_, ?_, ?_, fun a ha => ?_⟩
  · rw [g.bits, h.bits, List.append_assoc]
  · rw [List.length_append]
    omega
  · rw [List.length_append]
    omega
  · rw [g.others a ha, h.others a (by omega)]

theorem Yields.trans_nil (h : Yields l s t) (g : Yields [] t u) : Yields l s u := by
  have hg := h.trans g
  rwa [List.append_nil] at hg

theorem Yields.status (h : Yields l s t) : t.status = s.status := congrArg (fun x => x.2.1) h.settings

theorem Yields.ext (h : Yields l s t) : t.ext = s.ext := congrArg (fun x => x.2.2.1) h.settings

theorem Yields.origSize (h : Yields l s t) : t.origSize = s.origSize := congrArg (fun x => x.2.2.2) h.settings

theorem Yields.kept (h : Yields l s t) : t.kept = s.kept := congrArg (fun x => x.1) h.settings

theorem Yields.params (h : Yields l s t) : t.params = s.params := congrArg (fun x => x.1) h.kept

theorem Yields.room {n : Nat} (h : Yields l s t) (hr : s.Room (l.length + n)) : t.Room n := by
  refine ⟨h.params ▸ hr.1, ?_⟩
  rw [h.params, h.outLen, h.nbits]
  have := hr.2
  omega

theorem frame_of_kept (h : t.kept = s.kept) :
    t =
      { s with
        status := t.status, ext := t.ext, origSize := t.origSize, valid := t.valid
        writer := t.writer, reader := t.reader, huf := t.huf, lzwE := t.lzwE, lzwD := t.lzwD, ari := t.ari
        obuf := t.obuf, draws := t.draws } := by
  cases s
  cases t
  simp only [State.kept, Prod.mk.injEq] at h
  obtain ⟨rfl, rfl, rfl, rfl, rfl, rfl, rfl, rfl, rfl, rfl, rfl⟩ := h
  rfl

/-- A whole-buffer command that starts the writer and writes whole bytes ends as `CallEnds` says. -/
theorem Yields.callEnds {b : State} (h : Yields l b t) (hk : b.kept = s.kept) (hw : b.writer = (startWriter s).writer)
    (ho : b.obuf = s.obuf) (hl : l.length % 8 = 0) :
    CallEnds s (endCall t) ∧ (endCall t).status = b.status ∧ (endCall t).ext = b.ext ∧
      (endCall t).origSize = b.origSize ∧ bytesBits (endCall t).outBytes = l := by
  have hempty : b.outBits = [] := by
    unfold State.outBits State.outBytes Writer.held
    rw [hw]
    rfl
  have hn : t.writer.nbits = 0 := BitVec.eq_of_toNat_eq (by
    rw [h.nbits, hw]
    exact (congrArg (· % 8) (Nat.zero_add _)).trans hl)
  refine ⟨callEnds_of (frame_of_kept (h.kept.trans hk)) hn fun a ha => ?_, h.status, h.ext, h.origSize, ?_⟩
  · rw [h.others a ha]
    unfold State.obufByte
    rw [ho]
  · calc bytesBits t.outBytes = t.outBits := by
          unfold State.outBits Writer.held
          rw [hn]
          exact (List.append_nil _).symm
      _ = l := by rw [h.bits, hempty, List.nil_append]

end

end Sys2Proof.Machine

namespace Sys2Proof.Machine

/-! ## Parts of a container written -/

section

variable {l m : List Bool} {s t u : State}

theorem Emits.yields {c : Cmd Unit} (h : Emits c l) (hr : s.Room l.length) : ∃ t, c s = .ok () t ∧ Yields l s t := by
  obtain ⟨t, ht, hw⟩ := h s hr
  exact ⟨t, ht, hw.yields⟩

/-- Bits written and flushed from a byte boundary (R182). -/
theorem Emits.flushed {c : Cmd Unit} (h : Emits c l) (h0 : s.writer.nbits = 0) (hr : s.Room (zeroPad l).length) :
    ∃ t u, c s = .ok () t ∧ flushBits t = .ok () u ∧ Writes (zeroPad l) s u ∧ u.writer.nbits = 0 := by
  obtain ⟨t, ht, hw⟩ := h s (hr.le (by rw [length_zeroPad]; omega))
  obtain ⟨u, hu, hz, hn⟩ := flush_writes h0 hw hr
  exact ⟨t, u, ht, hu, hz, hn⟩

end

/-! ## HUF_COMPRESS -/

theorem writePayload_writes (h : Huffman) (data : List Byte) {p : Nat} (hp : p < 8) {s : State}
    (hr : s.Room (data.flatMap fun b => h.codeAt b.toNat).length) :
    ∃ t, writePayload h data p s = .ok ((p + (data.flatMap fun b => h.codeAt b.toNat).length) % 8) t ∧
      Writes (data.flatMap fun b => h.codeAt b.toNat) s t := by
  induction data generalizing p s with
  | nil =>
    exact ⟨s, congrArg (fun n => EStateM.Result.ok n s) (Nat.mod_eq_of_lt hp).symm, Writes.refl s⟩
  | cons b bs ih =>
    rw [List.flatMap_cons] at hr ⊢
    rw [List.length_append] at hr ⊢
    obtain ⟨t, ht, hw⟩ := emits_writeBitString (h.codeAt b.toNat) s (hr.le (Nat.le_add_right _ _))
    obtain ⟨u, hu, hv⟩ := ih (Nat.mod_lt _ (by omega)) (hw.room hr)
    refine ⟨u, ?_, hw.trans hv⟩
    rw [writePayload, Cmd.bind_of_ok ht, hu, Nat.mod_add_mod, Nat.add_assoc]

/-- The tree, the payload and the trailing byte of R129. -/
def hufBody (T : HTree) (data : List Byte) : List Bool :=
  zeroPad (treeBits T) ++ (zeroPad (payloadCodes T data) ++
    byteBits (BitVec.ofNat 8 ((payloadCodes T data).length % 8)))

theorem hufCompressBody_yields {s : State} {h : Huffman} {T : HTree}
    (hbuild : buildTree (fillFreq s) = .ok ⟨⟩ ((fillFreq s).setHuf h)) (hT : h.tree = some T)
    (h0 : s.writer.nbits = 0) (hr : s.Room (hufBody T s.input).length) :
    ∃ t, hufCompressBody s = .ok () t ∧ Yields (hufBody T s.input) s t := by
  obtain ⟨b, hb⟩ : ∃ b, b = fillCodes T ((fillFreq s).setHuf h) := ⟨_, rfl⟩
  have hcodes : ∀ v : Byte, b.huf.codeAt v.toNat = T.codeFor v := hb ▸ fillCodes_codeAt T _
  have hbase : Yields [] s b := hb ▸ yields_nil rfl rfl rfl
  have hin : b.input = s.input := by subst hb; rfl
  have hb0 : b.writer.nbits = 0 := by subst hb; exact h0
  have hbr : b.Room (hufBody T s.input).length := by subst hb; exact hr
  unfold hufBody at hbr ⊢
  rw [List.length_append, List.length_append] at hbr
  obtain ⟨t1, t2, h1, h2, hw, hn⟩ := (emits_serTree T).flushed hb0 (hbr.le (Nat.le_add_right _ _))
  have hr2 := hw.room hbr
  have hcodes2 : (t2.input.flatMap fun v => t2.huf.codeAt v.toNat) = payloadCodes T s.input := by
    rw [hw.frame]
    show b.input.flatMap (fun v => b.huf.codeAt v.toNat) = _
    rw [hin]
    exact List.flatMap_congr fun v _ => hcodes v
  obtain ⟨t3, h3, hw3⟩ := writePayload_writes t2.huf t2.input (p := 0) (by omega) (s := t2)
    (by rw [hcodes2]; exact hr2.le (by rw [length_zeroPad]; omega))
  rw [hcodes2] at h3 hw3
  obtain ⟨t4, h4, hw4, -⟩ := flush_writes hn hw3 (hr2.le (Nat.le_add_right _ _))
  obtain ⟨t5, h5, hw5⟩ := emits_emitByte (BitVec.ofNat 8 ((payloadCodes T s.input).length % 8)) t4 (hw4.room hr2)
  refine ⟨t5, ?_, hbase.trans (hw.yields.trans (hw4.trans hw5).yields)⟩
  unfold hufCompressBody
  rw [Cmd.modify_bind_run, Cmd.bind_of_ok hbuild, Cmd.bind_of_ok (currentTree_run hT), Cmd.modify_bind_run, ← hb,
    Cmd.bind_of_ok h1, Cmd.bind_of_ok h2, Cmd.get_bind_run, Cmd.bind_of_ok h3, Cmd.bind_of_ok h4, Nat.zero_add, h5]

/-- The header of R129: the flag and the length. -/
def hufHeader (isbin : Bool) (n : Word) : List Bool := byteBits (boolByte isbin) ++ wordBits n 32

theorem length_hufHeader (isbin : Bool) (n : Word) : (hufHeader isbin n).length = 40 := by
  unfold hufHeader
  rw [List.length_append, length_byteBits, length_wordBits]

/-- HUF_COMPRESS is its checks and header, then what `hufCompressRest` writes. -/
theorem hufCompress_of_rest {s : State} {l : List Bool} (hlen : s.inLen.toNat ≤ s.params.ibufSize)
    (hr : s.Holds (hufHeader s.ctrl.isbin s.inLen ++ l).length) (hl : l.length % 8 = 0)
    (hrest : ∀ t, Writes (hufHeader s.ctrl.isbin s.inLen) ((startWriter s).setOrigSize s.inLen) t →
      t.Room l.length → ∃ u, hufCompressRest s.inLen t = .ok () u ∧ Yields l t u) :
    ∃ t, exec .hufCompress s = .next t ∧ CallEnds s t ∧ t.status = s.status ∧ t.ext = s.ext ∧
      t.origSize = s.inLen ∧ bytesBits t.outBytes = hufHeader s.ctrl.isbin s.inLen ++ l := by
  have hroom : ((startWriter s).setOrigSize s.inLen).Room (hufHeader s.ctrl.isbin s.inLen ++ l).length :=
    startWriter_room hr
  rw [List.length_append] at hroom
  have hemit := (emits_emitByte (boolByte s.ctrl.isbin)).bind (f := fun _ => writeBits s.inLen 32)
    (emits_writeBits s.inLen 32)
  obtain ⟨t, ht, hw⟩ := hemit _ (hroom.le (Nat.le_add_right _ _))
  obtain ⟨u, hu, hy⟩ := hrest t hw (hw.room hroom)
  have hall : Yields (hufHeader s.ctrl.isbin s.inLen ++ l) _ u := hw.yields.trans hy
  obtain ⟨hend, hstatus, hext, horig, hbits⟩ := hall.callEnds (s := s) rfl rfl rfl (by
    rw [List.length_append, length_hufHeader]
    omega)
  refine ⟨_, exec_of_ok (t := endCall u) ?_, hend, hstatus, hext, horig, hbits⟩
  show hufCompress s = _
  unfold hufCompress
  rw [checkIn_bind_run, if_neg (Nat.not_lt.2 hlen), Cmd.modify_bind_run, Cmd.get_bind_run]
  have hassoc : ∀ f : Unit → Cmd Unit, (emitByte (boolByte s.ctrl.isbin) >>= fun _ => writeBits s.inLen 32 >>= f)
      ((startWriter s).setOrigSize s.inLen) = f () t := fun f => by
    have h := Cmd.bind_of_ok (f := f) ht
    rwa [bind_assoc] at h
  exact (hassoc _).trans ((Cmd.bind_of_ok hu).trans (Cmd.modify_run _ _))

/-- Settles O43: the header, then for the empty input one byte, else the flushed tree, the flushed payload and the
trailing byte. -/
theorem hufCompressWritesTheContainer : Obligations.HufCompressWritesTheContainer := by
  intro s hlen
  refine ⟨fun hnil hr => ?_, fun hp hne => ?_⟩
  · have hz : s.inLen = 0 := BitVec.eq_of_toNat_eq (by rw [← length_input, hnil]; rfl)
    have hc : hufEmptyContainer s.ctrl.isbin = hufHeader s.ctrl.isbin s.inLen ++ byteBits 0 := by rw [hz]; rfl
    rw [hc]
    refine hufCompress_of_rest hlen hr rfl fun t _ hroom => ?_
    unfold hufCompressRest
    rw [if_pos hz]
    exact (emits_emitByte 0).yields hroom
  · have hsize : s.params.ibufSize ≤ 0x1000000 := hp.1.2
    have hcount : ∀ i, i < 256 → ((fillFreq s).huf.freqAt i).toNat = occurrences s.input i := fun i =>
      fillFreq_freqAt s
    have hobs : observedSymbols (occurrences s.input) ≠ [] := by
      obtain ⟨b, hb⟩ := List.exists_mem_of_ne_nil _ hne
      exact List.ne_nil_of_mem (observed_of_mem hb)
    obtain ⟨T, hbuilt, hT, -⟩ := Huffman.build_spec hcount
      (by rw [sum_occurrences, length_input]; omega) hobs
    refine ⟨T, hbuilt, ?_⟩
    have hc : hufContainer s.ctrl.isbin T s.input = hufHeader s.ctrl.isbin s.inLen ++ hufBody T s.input := by
      unfold hufContainer hufHeader hufBody
      rw [length_input, BitVec.ofNat_toNat, BitVec.setWidth_eq]
      simp only [List.append_assoc]
    rw [hc]
    intro hr
    refine hufCompress_of_rest hlen hr ?_ fun t hw hroom => ?_
    · unfold hufBody
      rw [List.length_append, List.length_append, length_byteBits, Nat.add_mod, length_zeroPad_mod,
        Nat.add_mod (zeroPad _).length, length_zeroPad_mod]
    · have hz : s.inLen ≠ 0 := fun hz => hne (List.eq_nil_of_length_eq_zero (by rw [length_input, hz]; rfl))
      have hin : t.input = s.input := by rw [hw.frame]; rfl
      have hfill : (fillFreq t).huf = (fillFreq s).huf := by rw [hw.frame]; rfl
      unfold hufCompressRest
      rw [if_neg hz, ← hin]
      have hbuild : buildTree (fillFreq t) = .ok ⟨⟩ ((fillFreq t).setHuf (fillFreq s).huf.build) := by
        rw [buildTree_run, hfill, symbols_eq hcount, if_neg hobs]
      refine hufCompressBody_yields hbuild hT
        (hw.aligned rfl (by rw [length_hufHeader])) (by rw [hin]; exact hroom)

end Sys2Proof.Machine

namespace Sys2Proof.Machine

/-! ## Parts of a container read -/

/-- `s` with the reader `n` bits further on and RD_OVR as it was. -/
def State.skip (s : State) (n : Nat) : State := s.setReader (s.reader.advance n)

theorem State.skip_skip (s : State) (m n : Nat) : (s.skip m).skip n = s.skip (m + n) :=
  congrArg s.setReader (Reader.advance_advance s.reader m n)

/-- The reader stands at bit `p` of the input, and the bits `l` come next, all of them before RD_END. -/
structure State.Ahead (s : State) (p : Nat) (l : List Bool) : Prop where
  pos : s.inPos = p
  input : l <+: s.inputBits.drop p
  within : p + l.length ≤ 8 * s.reader.fin.toNat

section

variable {s t : State} {p : Nat} {l m : List Bool}

theorem length_inputBits (s : State) : s.inputBits.length = 8 * s.inLen.toNat := by
  unfold State.inputBits
  rw [length_bytesBits, length_input]

/-- At the start of a whole-buffer decompress the whole input lies ahead. -/
theorem startReader_ahead (s : State) : (startReader (startWriter s)).Ahead 0 s.inputBits where
  pos := rfl
  input := List.prefix_refl _
  within := by
    rw [length_inputBits, Nat.zero_add]
    exact Nat.le_refl _

theorem State.Ahead.prefix (h : s.Ahead p (l ++ m)) : s.Ahead p l where
  pos := h.pos
  input := (List.prefix_append l m).trans h.input
  within := by
    have := h.within
    rw [List.length_append] at this
    omega

theorem State.Ahead.inBits (h : s.Ahead p l) : s.inBits l.length = l := by
  obtain rfl | hne := eq_or_ne l []
  · rfl
  · have hl := h.input.length_le
    have hpos := List.length_pos_iff.2 hne
    rw [List.length_drop] at hl
    rw [inBits_input (by rw [h.pos]; omega) (h.pos ▸ h.within), h.pos]
    exact (List.prefix_iff_eq_take.1 h.input).symm

/-- Reading what lies ahead sets no RD_OVR. -/
theorem State.Ahead.afterRead (h : s.Ahead p l) : s.afterRead l.length = s.skip l.length := by
  have hover : s.runsOver l.length = false := by
    have hw := h.within
    unfold State.runsOver
    rw [h.pos]
    by_cases hz : 0 < l.length
    · rw [decide_eq_false (show ¬ s.reader.fin.toNat ≤ (p + l.length - 1) / 8 by omega), Bool.and_false]
    · rw [decide_eq_false hz, Bool.false_and]
  unfold State.afterRead
  rw [hover, Bool.or_false]
  rfl

theorem State.Ahead.skip (h : s.Ahead p (l ++ m)) : (s.skip l.length).Ahead (p + l.length) m where
  pos := by
    have hp := h.pos
    have hw := h.within
    have hf := s.reader.fin.isLt
    rw [List.length_append] at hw
    unfold State.inPos at hp ⊢
    show 8 * (s.reader.advance l.length).ptr.toNat + (s.reader.advance l.length).bit.toNat = _
    rw [Reader.advance_ptr, Reader.advance_bit]
    omega
  input := by
    obtain ⟨r, hr⟩ := h.input
    refine ⟨r, ?_⟩
    show _ = s.inputBits.drop (p + l.length)
    rw [← List.drop_drop, ← hr, List.append_assoc, List.drop_left]
  within := by
    have hw := h.within
    rw [List.length_append] at hw
    show p + l.length + m.length ≤ 8 * s.reader.fin.toNat
    omega

/-- Changing RD_END does not change what lies ahead of it. -/
theorem State.Ahead.setFin (h : s.Ahead p (l ++ m)) {e : Word} (he : p + l.length ≤ 8 * e.toNat) :
    (s.setReader { s.reader with fin := e }).Ahead p l where
  pos := h.pos
  input := h.prefix.input
  within := he

/-- What lies ahead depends on the reader, IBUF and IN_LEN alone. -/
theorem State.Ahead.congr (h : s.Ahead p l) (hr : t.reader = s.reader) (hi : t.ibuf = s.ibuf)
    (hn : t.inLen = s.inLen) : t.Ahead p l := by
  have hin : t.inputBits = s.inputBits := by
    unfold State.inputBits State.input State.ibufBytes State.ibufByte
    rw [hi, hn]
  refine ⟨?_, hin ▸ h.input, hr ▸ h.within⟩
  unfold State.inPos
  rw [hr]
  exact h.pos

theorem State.Ahead.of_writes (h : s.Ahead p l) (hw : Writes m s t) : t.Ahead p l := by
  rw [hw.frame]
  exact h.congr rfl rfl rfl

theorem State.Ahead.ptr (h : s.Ahead p l) : s.reader.ptr.toNat = p / 8 := by
  have hp := h.pos
  have hb := s.reader.bit.isLt
  unfold State.inPos at hp
  omega

theorem State.Ahead.bit (h : s.Ahead p l) : s.reader.bit.toNat = p % 8 := by
  have hp := h.pos
  have hb := s.reader.bit.isLt
  unfold State.inPos at hp
  omega

theorem State.Ahead.readBit {b : Bool} (h : s.Ahead p (b :: m)) : readBit s = .ok b (s.skip 1) := by
  have h1 : s.Ahead p ([b] ++ m) := h
  have hb := h1.prefix.inBits
  rw [List.length_singleton, inBits_one, List.cons.injEq] at hb
  rw [readBit_run, hb.1]
  exact congrArg (EStateM.Result.ok b) h1.prefix.afterRead

theorem State.Ahead.readBits {v : Word} {n : Nat} (h : s.Ahead p (wordBits v n ++ m)) (hv : v.toNat < 2 ^ n) :
    readBits n s = .ok v (s.skip n) := by
  have hb := h.prefix.inBits
  have ha := h.prefix.afterRead
  rw [length_wordBits] at hb ha
  rw [readBits_of_inBits hv hb, ha]

theorem State.Ahead.skipWord {v : Word} {n : Nat} (h : s.Ahead p (wordBits v n ++ m)) : (s.skip n).Ahead (p + n) m := by
  have := h.skip
  rwa [length_wordBits] at this

/-- A jump of RD_PTR over `k` bytes, from a byte boundary. -/
theorem State.Ahead.jump {a : Nat} {e : List Byte} (h : s.Ahead p (bytesBits e ++ m)) (hp : p = 8 * a) :
    s.setReader { s.reader with ptr := BitVec.ofNat 32 (a + e.length) } = s.skip (bytesBits e).length := by
  have hw := h.within
  have hf := s.reader.fin.isLt
  have hptr := h.ptr
  have hbit := h.bit
  rw [List.length_append, length_bytesBits] at hw
  have h1 : BitVec.ofNat 32 (a + e.length) = (s.reader.advance (bytesBits e).length).ptr := by
    apply BitVec.eq_of_toNat_eq
    rw [Reader.advance_ptr, toNat_ofNat32 (by omega), length_bytesBits]
    omega
  have h2 : s.reader.bit = (s.reader.advance (bytesBits e).length).bit := by
    apply BitVec.eq_of_toNat_eq
    rw [Reader.advance_bit, length_bytesBits]
    omega
  show s.setReader { ptr := _, bit := s.reader.bit, fin := s.reader.fin } = _
  rw [h1, h2]
  rfl

/-- The last byte of the input by its bits. -/
theorem ibufByte_last {b : Byte} (h : s.inputBits = l ++ byteBits b) : s.ibufByte (s.inLen.toNat - 1) = b := by
  have hlen := congrArg List.length h
  rw [length_inputBits, List.length_append, length_byteBits] at hlen
  have hsplit : s.input = s.ibufBytes 0 (s.inLen.toNat - 1) ++ [s.ibufByte (s.inLen.toNat - 1)] := by
    unfold State.input State.ibufBytes
    conv_lhs => rw [show s.inLen.toNat = s.inLen.toNat - 1 + 1 by omega, List.range_succ, List.map_append]
    simp
  unfold State.inputBits at h
  rw [hsplit, bytesBits_append] at h
  have hlast := (List.append_inj' h (by rw [length_byteBits]; exact length_bytesBits [_])).2
  exact List.singleton_inj.1 (bytesBits_inj (m := [b]) (by simpa [bytesBits] using hlast))

theorem yields_skip (s : State) (n : Nat) : Yields [] s (s.skip n) := yields_setReader s _

end

theorem byteWord_lt (b : Byte) : (byteWord b).toNat < 2 ^ 8 := by
  have := b.isLt
  unfold byteWord
  rw [BitVec.toNat_setWidth]
  omega

theorem decide_byteWord_ne_zero (b : Byte) : decide (byteWord b ≠ 0) = decide (b ≠ 0) := by
  refine decide_eq_decide.2 (not_congr ⟨fun h => BitVec.eq_of_toNat_eq ?_, fun h => h ▸ rfl⟩)
  have hn := congrArg BitVec.toNat h
  have := b.isLt
  unfold byteWord at hn
  rw [BitVec.toNat_setWidth, Nat.mod_eq_of_lt (by omega)] at hn
  exact hn

end Sys2Proof.Machine

namespace Sys2Proof.Machine

/-! ## HUF_DECOMPRESS -/

/-! ### The payload (R222) -/

theorem State.skip_zero (s : State) : s.skip 0 = s := congrArg s.setReader (Reader.advance_zero s.reader)

/-- The payload loop at the node `T`: a leaf's byte and the root again, or the loop at the node's children. -/
def decodeAt (l0 r0 : HTree) (avail : Nat) (T : HTree) (left : Nat) : Cmd Unit :=
  match T with
  | .leaf v => emitByte v >>= fun _ => decodePayload l0 r0 avail l0 r0 left
  | .internal l r => decodePayload l0 r0 avail l r (left + 1)

theorem decodePayload_bit {l0 r0 l r : HTree} {s : State} {p : Nat} {b : Bool} {m : List Bool} (avail left : Nat)
    (ha : s.Ahead p (b :: m)) :
    decodePayload l0 r0 (avail + 1) l r (left + 1) s =
      decodeAt l0 r0 avail (if b then r else l) left (s.skip 1) := by
  rw [decodePayload, Cmd.bind_of_ok ha.readBit]
  cases (if b then r else l) <;> rfl

/-- One symbol: the bits of its path, then the leaf's byte, then the walk starts at the root again. -/
theorem decodeAt_symbol {l0 r0 T : HTree} {path : List Bool} {v : Byte} (hT : T.Reaches path v) {s : State} {p : Nat}
    {m : List Bool} (k left : Nat) (ha : s.Ahead p (path ++ m)) :
    decodeAt l0 r0 (path.length + k) T left s =
      (emitByte v >>= fun _ => decodePayload l0 r0 k l0 r0 left) (s.skip path.length) := by
  induction hT generalizing s p with
  | leaf v =>
    rw [List.length_nil, Nat.zero_add, State.skip_zero]
    rfl
  | left _ ih =>
    rw [List.length_cons, Nat.add_right_comm]
    refine (decodePayload_bit _ _ ha).trans ((ih (State.Ahead.skip (l := [false]) ha)).trans ?_)
    rw [State.skip_skip, List.length_singleton, Nat.add_comm]
  | right _ ih =>
    rw [List.length_cons, Nat.add_right_comm]
    refine (decodePayload_bit _ _ ha).trans ((ih (State.Ahead.skip (l := [true]) ha)).trans ?_)
    rw [State.skip_skip, List.length_singleton, Nat.add_comm]

theorem decodePayload_zero (l0 r0 l r : HTree) (avail : Nat) (s : State) :
    decodePayload l0 r0 avail l r 0 s = .ok () s := by
  cases avail <;> rfl

/-- The payload loop produces the bytes that the bits ahead spell; `k` more available bits stay unread. -/
theorem decodePayload_spells {l r : HTree} {pay : List Bool} {data : List Byte}
    (h : (HTree.internal l r).Spells pay data) {s : State} {p k : Nat} {m : List Bool} (ha : s.Ahead p (pay ++ m))
    (hr : s.Room (bytesBits data).length) :
    ∃ t, decodePayload l r (pay.length + k) l r data.length s = .ok () t ∧ Yields (bytesBits data) s t := by
  induction h generalizing s p with
  | nil => exact ⟨s, decodePayload_zero _ _ _ _ _ s, yields_nil rfl rfl rfl⟩
  | @cons path q v data hv _ ih =>
    rw [List.append_assoc] at ha
    have hbits : bytesBits (v :: data) = byteBits v ++ bytesBits data := rfl
    rw [hbits, List.length_append] at hr
    have hr' : (s.skip path.length).Room _ := hr
    obtain ⟨t, ht, hw⟩ := emits_emitByte v (s.skip path.length) (hr'.le (Nat.le_add_right _ _))
    obtain ⟨u, hu, hy⟩ := ih (ha.skip.of_writes hw) (hw.room hr')
    refine ⟨u, ?_, hbits ▸ (yields_skip s path.length).trans (hw.yields.trans hy)⟩
    rw [List.length_append, Nat.add_assoc]
    exact (decodeAt_symbol hv (q.length + k) data.length ha).trans ((Cmd.bind_of_ok ht).trans hu)

theorem HTree.Spells.pay_pos {l r : HTree} {pay : List Bool} {data : List Byte}
    (h : (HTree.internal l r).Spells pay data) (hne : data ≠ []) : 0 < pay.length := by
  cases h with
  | nil => exact absurd rfl hne
  | cons hv _ =>
    cases hv <;> exact Nat.succ_pos _

/-- `avail` of R222 counts the payload bits without the padding of the last byte. -/
theorem payloadBits_eq {n pad k : Nat} (hn : 0 < n) (hpad : pad < 8) (hk : n + pad = 8 * k) :
    payloadBits k (n % 8) = n := by
  unfold payloadBits
  split
  · omega
  · split <;> omega

/-! ### The tree and what follows it (R222) -/

theorem parseRoot_ahead {s : State} {T : HTree} {p : Nat} {m : List Bool} (hn : T.nodes ≤ 511)
    (ha : s.Ahead p (treeBits T ++ m)) :
    ∃ h : Huffman, h.tree = some T ∧ parseRoot s = .ok ⟨⟩ ((s.skip (treeBits T).length).setHuf h) := by
  obtain ⟨t, ht, hT, -, -, hf⟩ := parseRoot_of_bits hn ha.prefix.inBits
  rw [ha.prefix.afterRead] at hf
  exact ⟨t.huf, hT, ht.trans (congrArg _ (hf.trans (congrArg _ (congrArg State.huf hf).symm)))⟩

/-- AlignRead skips the padding that fills the byte. -/
theorem alignRead_ahead {s : State} {p : Nat} {pad m : List Bool} (ha : s.Ahead p (pad ++ m)) (hpad : pad.length < 8)
    (hp : (p + pad.length) % 8 = 0) : alignRead s = .ok ⟨⟩ (s.skip pad.length) := by
  have hb := ha.bit
  rw [alignRead_run, show (8 - s.reader.bit.toNat) % 8 = pad.length by omega]
  rfl

/-- HUF_DECOMPRESS up to the payload: `u` has the tree, and the reader stands at the payload's first byte. -/
theorem hufDecompressBody_tree {s : State} {T : HTree} {pad pay : List Bool} {tr : Byte} (hn : T.nodes ≤ 511)
    (ha : s.Ahead 40 (treeBits T ++ (pad ++ (pay ++ byteBits tr)))) (hpad : pad.length < 8)
    (halign : (treeBits T ++ pad).length % 8 = 0) (htr : tr.toNat ≤ 7)
    (hin : ∃ l, s.inputBits = l ++ byteBits tr)
    (hlen : 40 + (treeBits T ++ pad).length + pay.length + 8 = 8 * s.inLen.toNat) :
    ∃ u : State, Yields [] s u ∧ u.Ahead (40 + (treeBits T).length + pad.length) (pay ++ byteBits tr) ∧
      ∀ g : State → HTree → Cmd Unit,
        (parseRoot >>= fun _ => alignRead >>= fun _ => get >>= fun u =>
          raiseIf (u.reader.ptr.toNat > s.inLen.toNat - 1) .invalidContainer >>= fun _ =>
            raiseIf ((u.ibufByte (s.inLen.toNat - 1)).toNat > 7) .invalidContainer >>= fun _ =>
              currentTree >>= g u) s = g u T u := by
  obtain ⟨h, hT, hparse⟩ := parseRoot_ahead hn ha
  have ha1 : ((s.skip (treeBits T).length).setHuf h).Ahead (40 + (treeBits T).length) (pad ++ (pay ++ byteBits tr)) :=
    ha.skip.congr rfl rfl rfl
  rw [List.length_append] at halign hlen
  have ha2 := ha1.skip
  have hptr := ha2.ptr
  obtain ⟨l, hl⟩ := hin
  refine ⟨((s.skip (treeBits T).length).setHuf h).skip pad.length,
    (yields_skip _ _).trans ((yields_setHuf _ _).trans (yields_skip _ _)), ha2, fun g => ?_⟩
  rw [Cmd.bind_of_ok hparse, Cmd.bind_of_ok (alignRead_ahead ha1 hpad (by omega)), Cmd.get_bind_run, raiseIf_bind_run,
    if_neg (by rw [hptr]; omega), raiseIf_bind_run, if_neg, Cmd.bind_of_ok (currentTree_run hT)]
  rw [show (((s.skip (treeBits T).length).setHuf h).skip pad.length).ibufByte (s.inLen.toNat - 1) = tr from
    ibufByte_last hl]
  omega

/-- HUF_DECOMPRESS is its header, then what `hufDecompressRest` produces. -/
theorem hufDecompress_of_rest {s : State} {f : Byte} {n : Word} {m l : List Bool}
    (hlen : s.inLen.toNat ≤ s.params.ibufSize) (hin : s.inputBits = byteBits f ++ (wordBits n 32 ++ m))
    (hl : l.length % 8 = 0)
    (hrest : ∀ t : State, t.kept = s.kept → t.writer = (startWriter s).writer → t.Ahead 40 m →
      ∃ u, hufDecompressRest s.inLen.toNat n.toNat t = .ok () u ∧ Yields l t u) :
    ∃ t, exec .hufDecompress s = .next t ∧ CallEnds s t ∧ t.ext = s.ext ∧ t.origSize = n ∧
      bytesBits t.outBytes = l ∧ t.status = { s.status with isbinIn := decide (f ≠ 0), rdOvr := false } := by
  have hbytes : ¬ s.inLen.toNat < 5 := by
    have := congrArg List.length hin
    rw [length_inputBits, List.length_append, List.length_append, length_byteBits, length_wordBits] at this
    omega
  have ha : (startReader (startWriter s)).Ahead 0 (wordBits (byteWord f) 8 ++ (wordBits n 32 ++ m)) := by
    have := startReader_ahead s
    rwa [hin] at this
  obtain ⟨b, hb⟩ : ∃ b, b = decide (byteWord f ≠ 0) := ⟨_, rfl⟩
  have ha1 : (((startReader (startWriter s)).skip 8).setIsbinIn b).Ahead 8 (wordBits n 32 ++ m) :=
    ha.skipWord.congr rfl rfl rfl
  obtain ⟨u, hu, hy⟩ := hrest (((((startReader (startWriter s)).skip 8).setIsbinIn b).skip 32).setOrigSize n)
    (by simp [State.kept, State.skip, startReader, startWriter])
    (by simp [State.skip, startReader, startWriter]) (ha1.skipWord.congr rfl rfl rfl)
  obtain ⟨hend, hstatus, hext, horig, hbits⟩ := hy.callEnds (s := s)
    (by simp [State.kept, State.skip, startReader, startWriter]) (by simp [State.skip, startReader, startWriter])
    (by simp [State.skip, startReader, startWriter]) hl
  refine ⟨endCall u, exec_of_ok ?_, hend, hext.trans (by simp [State.skip, startReader, startWriter]),
    horig.trans (State.setOrigSize_origSize _ _), hbits,
    hstatus.trans ?_⟩
  · show hufDecompress s = _
    unfold hufDecompress
    rw [checkIn_bind_run, if_neg (Nat.not_lt.2 hlen), Cmd.modify_bind_run, Cmd.get_bind_run, raiseIf_bind_run,
      show (startReader (startWriter s)).inLen = s.inLen from rfl, if_neg hbytes,
      Cmd.bind_of_ok (ha.readBits (byteWord_lt f)), ← hb, Cmd.modify_bind_run,
      Cmd.bind_of_ok (ha1.readBits n.isLt), Cmd.modify_bind_run]
    exact Cmd.bind_of_ok hu
  · rw [← decide_byteWord_ne_zero, ← hb]
    simp [State.skip, startReader, startWriter, State.setIsbinIn, State.setRdOvr]

/-- A writer just started takes as many bytes as OBUF holds. -/
theorem room_of_started {s t : State} {data : List Byte} (hk : t.kept = s.kept)
    (hw : t.writer = (startWriter s).writer) (hp : s.params.Ok) (hd : data.length ≤ s.params.obufSize) :
    t.Room (bytesBits data).length := by
  have hparams : t.params = s.params := congrArg (fun x => x.1) hk
  refine ⟨hparams ▸ hp, ?_⟩
  rw [hparams, hw, length_bytesBits]
  show 0 + (0 + 8 * data.length) / 8 ≤ _
  omega

theorem emits_repeat (v : Byte) : (n : Nat) → Emits (repeatN n (emitByte v)) (bytesBits (List.replicate n v))
  | 0 => emits_pure
  | n + 1 => (emits_emitByte v).bind (emits_repeat v n)

theorem length_treeBits_leaf (v : Byte) : (treeBits (.leaf v)).length = 9 := congrArg (· + 1) (length_byteBits v)

theorem inputBits_of_kept {s t : State} (hk : t.kept = s.kept) :
    t.inLen = s.inLen ∧ t.ibuf = s.ibuf ∧ t.inputBits = s.inputBits := by
  simp only [State.kept, Prod.mk.injEq] at hk
  obtain ⟨-, -, -, -, -, -, hlen, hbuf, -⟩ := hk
  refine ⟨hlen, hbuf, ?_⟩
  unfold State.inputBits State.input State.ibufBytes State.ibufByte
  rw [hlen, hbuf]

/-- A leaf root's value is repeated, whatever the payload (R222). -/
theorem hufDecompressBody_leaf {s : State} {v : Byte} {pad pay : List Bool} {tr : Byte} {n : Nat}
    (ha : s.Ahead 40 (treeBits (.leaf v) ++ (pad ++ (pay ++ byteBits tr)))) (hpad : pad.length = 7)
    (htr : tr.toNat ≤ 7) (hin : ∃ l, s.inputBits = l ++ byteBits tr)
    (hlen : 40 + (treeBits (.leaf v) ++ pad).length + pay.length + 8 = 8 * s.inLen.toNat)
    (hr : s.Room (bytesBits (List.replicate n v)).length) :
    ∃ u, hufDecompressBody s.inLen.toNat n s = .ok () u ∧ Yields (bytesBits (List.replicate n v)) s u := by
  obtain ⟨t, hy, -, hrun⟩ := hufDecompressBody_tree (Nat.le_of_ble_eq_true rfl) ha (by omega)
    (by rw [List.length_append, hpad, length_treeBits_leaf]) htr hin hlen
  obtain ⟨u, hu, hw⟩ := emits_repeat v n t (hy.room (by rwa [List.length_nil, Nat.zero_add]))
  exact ⟨u, (hrun _).trans hu, hy.trans hw.yields⟩

/-- Under an internal root the payload's bits spell the data (R222). -/
theorem hufDecompressBody_internal {s : State} {l r : HTree} {pad pay more tail : List Bool} {data : List Byte}
    {tr : Byte} (htree : (HTree.internal l r).nodes ≤ 511) (hspell : (HTree.internal l r).Spells pay data)
    (hne : data ≠ []) (hpad : pad.length < 8) (halign : (treeBits (.internal l r) ++ pad).length % 8 = 0)
    (htail : tail.length < 8) (hpay : (pay ++ more ++ tail).length % 8 = 0)
    (htr : tr = BitVec.ofNat 8 ((pay ++ more).length % 8))
    (ha : s.Ahead 40 (treeBits (.internal l r) ++ (pad ++ ((pay ++ more ++ tail) ++ byteBits tr))))
    (hin : ∃ l, s.inputBits = l ++ byteBits tr)
    (hlen : 40 + (treeBits (.internal l r) ++ pad).length + (pay ++ more ++ tail).length + 8 = 8 * s.inLen.toNat)
    (hr : s.Room (bytesBits data).length) :
    ∃ u, hufDecompressBody s.inLen.toNat data.length s = .ok () u ∧ Yields (bytesBits data) s u := by
  have htr' : tr.toNat = (pay ++ more).length % 8 := by
    rw [htr, BitVec.toNat_ofNat]
    omega
  obtain ⟨t, hy, hat, hrun⟩ := hufDecompressBody_tree htree ha hpad halign (by omega) hin hlen
  have hn := s.inLen.isLt
  have hlast : t.ibufByte (s.inLen.toNat - 1) = tr := by
    obtain ⟨l', hl'⟩ := hin
    unfold State.ibufByte
    rw [(inputBits_of_kept hy.kept).2.1]
    exact ibufByte_last hl'
  have hptr := hat.ptr
  have hend : (BitVec.ofNat 32 (s.inLen.toNat - 1)).toNat = s.inLen.toNat - 1 := toNat_ofNat32 (by omega)
  rw [List.length_append] at halign hlen
  have hpos := hspell.pay_pos hne
  have havail : payloadBits (s.inLen.toNat - 1 - t.reader.ptr.toNat) (t.ibufByte (s.inLen.toNat - 1)).toNat =
      pay.length + more.length := by
    rw [hlast, htr', hptr, ← List.length_append]
    rw [List.length_append] at hlen hpay
    exact payloadBits_eq (by rw [List.length_append]; omega) htail (by omega)
  have hat' := hat.setFin (e := BitVec.ofNat 32 (s.inLen.toNat - 1)) (by rw [hend]; omega)
  rw [List.append_assoc] at hat'
  obtain ⟨u, hu, hw⟩ := decodePayload_spells hspell (k := more.length) hat'
    (hy.room (by rwa [List.length_nil, Nat.zero_add]))
  have hfin : Yields [] t (t.setReader { t.reader with fin := BitVec.ofNat 32 (s.inLen.toNat - 1) }) :=
    yields_setReader _ _
  refine ⟨u, (hrun _).trans ?_, hy.trans (hfin.trans hw)⟩
  refine (Cmd.modify_bind_run _ _ _).trans ?_
  show decodePayload l r (payloadBits _ _) l r data.length _ = _
  rw [havail]
  exact hu

/-- Settles O44: the header, then nothing, the repeated leaf or the spelt bytes. -/
theorem hufDecompressReadsTheContainer : Obligations.HufDecompressReadsTheContainer := by
  intro s f hp hlen
  refine ⟨fun rest hin => ?_, fun n v pad pay tr hn hfits hpad htr hin => ?_,
    fun l r pad pay more tail data htree hspell hne hfits hpad halign htail hpay hin => ?_⟩
  · obtain ⟨t, ht, hend, hext, horig, hbits, hstatus⟩ := hufDecompress_of_rest (n := 0) (l := []) hlen
      (hin.trans (List.append_assoc _ _ _)) rfl fun t _ _ _ => ⟨t, rfl, yields_nil rfl rfl rfl⟩
    exact ⟨t, ht, hend, hext, horig, bytesBits_inj (m := []) hbits, hstatus⟩
  · have hz : n.toNat ≠ 0 := fun h => hn (BitVec.eq_of_toNat_eq h)
    have hfields := hin
    simp only [List.append_assoc] at hfields
    obtain ⟨t, ht, hend, hext, horig, hbits, hstatus⟩ := hufDecompress_of_rest
      (l := bytesBits (List.replicate n.toNat v)) hlen hfields
      (by rw [length_bytesBits]; omega) fun t hk hw ha => by
        obtain ⟨hn', -, hin'⟩ := inputBits_of_kept hk
        unfold hufDecompressRest
        rw [if_neg hz, ← hn']
        refine hufDecompressBody_leaf ha hpad htr ⟨_, hin'.trans hin⟩ ?_
          (room_of_started hk hw hp (by rwa [List.length_replicate]))
        have hl := congrArg List.length hin
        simp only [List.length_append, length_byteBits, length_wordBits, length_inputBits] at hl ⊢
        rw [hn']
        omega
    exact ⟨t, ht, hend, hext, horig, bytesBits_inj hbits, hstatus⟩
  · have hsize : s.params.obufSize ≤ 0x1000000 := hp.2.1.2
    have hlenD : (BitVec.ofNat 32 data.length).toNat = data.length := toNat_ofNat32 (by omega)
    have hz : data.length ≠ 0 := fun h => hne (List.length_eq_zero_iff.1 h)
    have hfields := hin
    simp only [List.append_assoc] at hfields
    obtain ⟨t, ht, hend, hext, horig, hbits, hstatus⟩ := hufDecompress_of_rest
      (l := bytesBits data) hlen hfields
      (by rw [length_bytesBits]; omega) fun t hk hw ha => by
        obtain ⟨hn', -, hin'⟩ := inputBits_of_kept hk
        unfold hufDecompressRest
        rw [hlenD, if_neg hz, ← hn']
        refine hufDecompressBody_internal htree hspell hne hpad halign htail hpay rfl
          (by simpa only [List.append_assoc] using ha) ⟨_, hin'.trans hin⟩ ?_ (room_of_started hk hw hp hfits)
        have hl := congrArg List.length hin
        simp only [List.length_append, length_byteBits, length_wordBits, length_inputBits] at hl ⊢
        rw [hn']
        omega
    exact ⟨t, ht, hend, hext, horig, bytesBits_inj hbits, hstatus⟩

end Sys2Proof.Machine

namespace Sys2Proof.Machine

/-! ## LZW dictionaries as lists of strings (R52, R260) -/

section

variable {f g : Nat → DictEntry} {next next' c : Nat} {l m : List Byte}

theorem Stands.mono (h : Stands f next c l) (hf : ∀ x, 258 ≤ x → x < next → g x = f x) (hn : next ≤ next') :
    Stands g next' c l := by
  induction h with
  | literal hc => exact .literal hc
  | entry h1 h2 _ ih =>
    rw [← hf _ h1 h2] at ih ⊢
    exact .entry h1 (by omega) ih

theorem Stands.unique (h : Stands f next c l) (h' : Stands f next c m) : l = m := by
  induction h generalizing m with
  | literal hc =>
    cases h' with
    | literal _ => rfl
    | entry h1 _ _ => omega
  | entry h1 _ _ ih =>
    cases h' with
    | literal hc => omega
    | entry _ _ hm => rw [ih hm]

theorem Stands.two_le_length (h : Stands f next c l) (hc : 258 ≤ c) : 2 ≤ l.length := by
  cases h with
  | literal h' => omega
  | entry _ _ hm =>
    have := List.length_pos_iff.2 hm.ne_nil
    rw [List.length_append, List.length_singleton]
    omega

/-- The entries 258, 259, ... of `f` stand for the strings of `dict`. -/
def Lists (f : Nat → DictEntry) (dict : List (List Byte)) : Prop :=
  ∀ i (h : i < dict.length), Stands f (258 + dict.length) (258 + i) dict[i]

theorem lists_nil (f : Nat → DictEntry) : Lists f [] := fun _ h => absurd h (Nat.not_lt_zero _)

/-- The string of an assigned code is listed at the code's place. -/
theorem Lists.getElem?_of_stands {dict : List (List Byte)} (hd : Lists f dict)
    (h : Stands f (258 + dict.length) c l) (hc : 258 ≤ c) : dict[c - 258]? = some l := by
  have hlt : c - 258 < dict.length := by
    have := h.code_lt
    omega
  have hs := hd (c - 258) hlt
  rw [show 258 + (c - 258) = c by omega] at hs
  rw [List.getElem?_eq_getElem hlt, hs.unique h]

theorem codeOfString_of_two_le {dict : List (List Byte)} (h : 2 ≤ l.length) : codeOfString dict l = 258 + dict.idxOf l := by
  match l, h with
  | _ :: _ :: _, _ => rfl

/-- A code is the code of its string. -/
theorem Lists.codeOfString {dict : List (List Byte)} (hd : Lists f dict) (hn : dict.Nodup)
    (h : Stands f (258 + dict.length) c l) : codeOfString dict l = c := by
  by_cases hc : 258 ≤ c
  · obtain ⟨hlt, rfl⟩ := List.getElem?_eq_some_iff.1 (hd.getElem?_of_stands h hc)
    rw [codeOfString_of_two_le (h.two_le_length hc), hn.idxOf_getElem]
    omega
  · cases h with
    | literal h' =>
      show (BitVec.ofNat 8 c).toNat = c
      rw [BitVec.toNat_ofNat]
      omega
    | entry h1 _ _ => exact absurd h1 hc

/-- One more entry: a listed string and one byte. -/
theorem Lists.snoc {dict : List (List Byte)} {e : DictEntry} (hd : Lists f dict)
    (hp : Stands f (258 + dict.length) e.pre.toNat l) (hg : ∀ x, x ≠ 258 + dict.length → g x = f x)
    (hnew : g (258 + dict.length) = e) : Lists g (dict ++ [l ++ [e.suf]]) := by
  intro i hi
  have hold : ∀ x, 258 ≤ x → x < 258 + dict.length → g x = f x := fun x _ hx => hg x (by omega)
  rw [List.length_append, List.length_singleton] at hi ⊢
  obtain hi' | rfl := Nat.lt_succ_iff_lt_or_eq.1 hi
  · rw [List.getElem_append_left hi']
    exact (hd i hi').mono hold (by omega)
  · rw [List.getElem_concat_length rfl, ← hnew]
    exact .entry (by omega) (by omega) (hnew ▸ hp.mono hold (by omega))

end

/-! ## LZW_COMPRESS -/

/-! ### The encoder on strings (R264, R265) -/

/-- The encoder's dictionary holds the strings `dict`, each once, and its pattern's code stands for `pat`. -/
structure LzwEnc.Follows (e : LzwEnc) (dict : List (List Byte)) (pat : List Byte) : Prop where
  sound : e.Sound
  ok : DictOk e.dict e.next.toNat
  distinct : DictDistinct e.dict e.next.toNat
  next : e.next.toNat = 258 + dict.length
  lists : Lists e.entryAt dict
  nodup : dict.Nodup
  patV : e.patV = true ↔ pat ≠ []
  pat : pat ≠ [] → Stands e.entryAt (258 + dict.length) e.pat.toNat pat

/-- The bits of EmitCode for each code (R261). -/
def emitted (w : Nat) (codes : List (BitVec 12)) : List Bool := codes.flatMap fun x => wordBits (x.setWidth 32) w

theorem length_emitted (w : Nat) (codes : List (BitVec 12)) : (emitted w codes).length = w * codes.length := by
  unfold emitted
  induction codes with
  | nil => rfl
  | cons x xs ih => rw [List.flatMap_cons, List.length_append, ih, length_wordBits, List.length_cons,
      Nat.mul_succ, Nat.add_comm]

section

variable {e : LzwEnc} {dict : List (List Byte)} {pat : List Byte}

theorem LzwEnc.Follows.emitWidth (h : e.Follows dict pat) (fixed12 : Bool) :
    e.emitWidth fixed12 = if fixed12 then 12 else widthFor (258 + dict.length) := by
  unfold LzwEnc.emitWidth encWidth
  rw [h.next]

theorem LzwEnc.Follows.codeBits_eq (h : e.Follows dict pat) (fixed12 : Bool) (c : BitVec 12) :
    codeBits fixed12 dict c.toNat = wordBits (c.setWidth 32) (e.emitWidth fixed12) := by
  unfold codeBits
  rw [h.emitWidth, BitVec.ofNat_toNat]

theorem LzwEnc.Follows.patBits_eq (h : e.Follows dict pat) (hne : pat ≠ []) (fixed12 : Bool) :
    codeBits fixed12 dict (codeOfString dict pat) = wordBits (e.pat.setWidth 32) (e.emitWidth fixed12) := by
  rw [h.lists.codeOfString h.nodup (h.pat hne), h.codeBits_eq]

theorem LzwEnc.Follows.started (h : e.Sound) (fixed12 : Bool) : (e.started fixed12).Follows [] [] where
  sound := h.started fixed12
  ok := DictOk.empty _
  distinct := DictDistinct.empty _
  next := rfl
  lists := lists_nil _
  nodup := List.nodup_nil
  patV := ⟨nofun, fun h => absurd rfl h⟩
  pat := fun h => absurd rfl h

theorem LzwEnc.entryAt_of_written {x : Nat} {d : DictEntry} (h : e.dict.written x = some d) : e.entryAt x = d :=
  Store.read_of_written h

/-- The search finds the code of the pattern and the byte, if that string is listed. -/
theorem LzwEnc.Follows.find_some (h : e.Follows dict pat) (hne : pat ≠ []) {c : Byte} {x : Nat}
    (hx : e.find e.pat c = some x) : Stands e.entryAt (258 + dict.length) x (pat ++ [c]) ∧ pat ++ [c] ∈ dict := by
  obtain ⟨h1, h2, hw⟩ := LzwEnc.find_eq_some h.sound.dict hx
  have hentry := LzwEnc.entryAt_of_written hw
  have hs : Stands e.entryAt (258 + dict.length) x (pat ++ [(e.entryAt x).suf]) :=
    .entry h1 (h.next ▸ h2) (by rw [hentry]; exact h.pat hne)
  rw [hentry] at hs
  exact ⟨hs, List.mem_of_getElem? (h.lists.getElem?_of_stands hs h1)⟩

theorem LzwEnc.Follows.find_none (h : e.Follows dict pat) (hne : pat ≠ []) {c : Byte} (hx : e.find e.pat c = none) :
    pat ++ [c] ∉ dict := by
  intro hmem
  obtain ⟨i, hi, hget⟩ := List.mem_iff_getElem.1 hmem
  have hs := h.lists i hi
  rw [hget] at hs
  generalize hl : pat ++ [c] = l at hs
  cases hs with
  | literal hc => omega
  | @entry _ p h1 h2 hp =>
    obtain ⟨rfl, hsuf⟩ := List.append_inj' hl rfl
    obtain ⟨d, hw, -⟩ := h.ok (258 + i) h1 (h.next ▸ h2)
    have hentry := LzwEnc.entryAt_of_written hw
    rw [hentry] at hp hsuf
    have hcode := (h.lists.codeOfString h.nodup hp).symm.trans (h.lists.codeOfString h.nodup (h.pat hne))
    refine LzwEnc.find_eq_none hx h1 (h.next ▸ h2) (hw.trans (congrArg some ?_))
    rw [← BitVec.eq_of_toNat_eq hcode, List.singleton_inj.1 hsuf]

/-- One byte of the input: the encoder's step writes what the stream has for it, and follows the stream on. -/
theorem LzwEnc.Follows.encodeByte (h : e.Follows dict pat) (fixed12 : Bool) (c : Byte) :
    ∃ dict' pat', (encodeByte fixed12 e c).next.Follows dict' pat' ∧
      ∀ cs, lzwStream fixed12 dict pat (c :: cs) =
        emitted (e.emitWidth fixed12) (Machine.encodeByte fixed12 e c).codes ++ lzwStream fixed12 dict' pat' cs := by
  have hsound := h.sound.encodeByte fixed12 c
  obtain ⟨hok, hdistinct⟩ := encodeByte_dict h.sound h.ok h.distinct fixed12 c
  have hlit : ∀ (f : Nat → DictEntry) n, Stands f n (c.setWidth 12 : BitVec 12).toNat [c] := fun f n => by
    have hc := c.isLt
    have h12 : (c.setWidth 12 : BitVec 12).toNat = c.toNat := by
      rw [BitVec.toNat_setWidth]
      omega
    rw [h12]
    have hs : Stands f n c.toNat [BitVec.ofNat 8 c.toNat] := .literal (by omega)
    rwa [BitVec.ofNat_toNat, BitVec.setWidth_eq] at hs
  unfold Machine.encodeByte at hsound hok hdistinct ⊢
  by_cases hpv : e.patV = false
  · have hnil : pat = [] := by
      by_contra hne
      rw [h.patV.2 hne] at hpv
      cases hpv
    rw [if_pos hpv] at hsound hok hdistinct ⊢
    refine ⟨dict, [c], ⟨hsound, hok, hdistinct, h.next, h.lists, h.nodup, by simp, fun _ => hlit _ _⟩, fun cs => ?_⟩
    rw [lzwStream, if_pos hnil]
    rfl
  · have hne : pat ≠ [] := h.patV.1 (by simpa using hpv)
    rw [if_neg hpv] at hsound hok hdistinct ⊢
    cases hfind : e.find e.pat c with
    | some x =>
      rw [hfind] at hsound hok hdistinct
      obtain ⟨hs, hmem⟩ := h.find_some hne hfind
      have hx : (BitVec.ofNat 12 x).toNat = x := by
        have := h.sound.next.2
        have := (LzwEnc.find_eq_some h.sound.dict hfind).2.1
        rw [BitVec.toNat_ofNat]
        omega
      refine ⟨dict, pat ++ [c], ⟨hsound, hok, hdistinct, h.next, h.lists, h.nodup, ?_, fun _ => ?_⟩, fun cs => ?_⟩
      · simpa using hpv
      · rw [hx]
        exact hs
      · rw [lzwStream, if_neg hne, if_pos hmem]
        rfl
    | none =>
      rw [hfind] at hsound hok hdistinct
      have hmem := h.find_none hne hfind
      have hnext := h.next
      by_cases hfull : e.next.toNat < Config.codeLimit
      · have hlt : e.next.toNat < 4096 := hfull
        simp only [if_pos hfull] at hsound hok hdistinct ⊢
        refine ⟨dict ++ [pat ++ [c]], [c], ⟨hsound, hok, hdistinct, ?_, ?_, ?_, ?_, fun _ => hlit _ _⟩, fun cs => ?_⟩
        · show (e.next + 1).toNat = _
          rw [toNat_succ_next hlt, hnext, List.length_append]
          rfl
        · refine h.lists.snoc (e := { pre := e.pat, suf := c }) (h.pat hne) (fun x hx => ?_) ?_
          · exact (Store.read_put _ _ _ _ _).trans (if_neg (by omega))
          · exact (Store.read_put _ _ _ _ _).trans (if_pos hnext)
        · exact List.nodup_append.2 ⟨h.nodup, List.nodup_singleton _, fun a ha b hb => by
            rw [List.mem_singleton.1 hb]
            exact fun he => hmem (he ▸ ha)⟩
        · simpa using hpv
        · rw [lzwStream, if_neg hne, if_neg hmem, if_pos (by omega), h.patBits_eq hne]
          simp [emitted]
      · have hlt : ¬ e.next.toNat < 4096 := hfull
        simp only [if_neg hfull] at hsound hok hdistinct ⊢
        refine ⟨[], [c], ⟨hsound, hok, hdistinct, rfl, lists_nil _, List.nodup_nil, ?_, fun _ => hlit _ _⟩,
          fun cs => ?_⟩
        · simpa using hpv
        · rw [lzwStream, if_neg hne, if_neg hmem, if_neg (by omega), h.patBits_eq hne]
          simp [emitted, ← h.codeBits_eq, Config.clearCode]

theorem LzwEnc.Follows.endCodes (h : e.Follows dict pat) (fixed12 : Bool) :
    lzwStream fixed12 dict pat [] = emitted (e.emitWidth fixed12) (endCodes e) := by
  have heos := h.codeBits_eq fixed12 (BitVec.ofNat 12 Config.eosCode)
  rw [lzwStream, Machine.endCodes]
  by_cases hne : pat = []
  · have hpv : ¬ e.patV = true := fun hp => h.patV.1 hp hne
    rw [if_pos hne, if_neg hpv, List.nil_append]
    exact heos.trans (by simp [emitted])
  · rw [if_neg hne, if_pos (h.patV.2 hne), h.patBits_eq hne]
    exact (congrArg _ heos).trans (by simp [emitted])

/-- Pass 1 of LZW_COMPRESS measures the stream (R277). -/
theorem LzwEnc.Follows.measureBits (h : e.Follows dict pat) (fixed12 : Bool) (data : List Byte) :
    measureBits fixed12 e data = (lzwStream fixed12 dict pat data).length := by
  induction data generalizing e dict pat with
  | nil => rw [h.endCodes, length_emitted, Machine.measureBits]
  | cons c cs ih =>
    obtain ⟨dict', pat', h', hs⟩ := h.encodeByte fixed12 c
    rw [hs, List.length_append, length_emitted, Machine.measureBits, ih h']

end

end Sys2Proof.Machine

namespace Sys2Proof.Machine

/-! ### The code stream written (R277) -/

section

variable {l m : List Bool} {s t u : State}

theorem Yields.ctrl (h : Yields l s t) : t.ctrl = s.ctrl := congrArg (fun x => x.2.2.1) h.kept

/-- Running on after two commands in sequence. -/
theorem Cmd.bind_bind_of_ok {α β γ : Type} {c : Cmd α} {d : α → Cmd β} {f : β → Cmd γ} {b : β}
    (h : (c >>= d) s = .ok b t) : (c >>= fun a => d a >>= f) s = f b t := by
  have := Cmd.bind_of_ok (f := f) h
  rwa [bind_assoc] at this

theorem Yields.setStored (h : Yields l s t) (b : Bool) : Yields l (s.setStored b) (t.setStored b) where
  settings := by
    show (t.kept, { t.status with stored := b }, t.ext, t.origSize) = _
    rw [h.kept, h.status, h.ext, h.origSize]
    rfl
  bits := h.bits
  outLen := h.outLen
  nbits := h.nbits
  others := h.others

/-- A flush after bits written from a byte boundary (R182). -/
theorem Yields.flush (h : Yields l s t) (h0 : s.writer.nbits = 0) (hr : s.Room (zeroPad l).length) :
    ∃ u, flushBits t = .ok () u ∧ Yields (zeroPad l) s u := by
  have hpad : padLength t = (8 - l.length % 8) % 8 := by
    unfold padLength
    rw [h.nbits, h0]
    show (8 - (0 + l.length) % 8) % 8 = _
    rw [Nat.zero_add]
  rw [length_zeroPad] at hr
  obtain ⟨u, hu, hw, -⟩ := flushBits_writes (s := t) (by rw [hpad]; exact h.room hr)
  rw [hpad] at hw
  exact ⟨u, hu, h.trans hw.yields⟩

theorem Yields.aligned (h : Yields l s t) (h0 : s.writer.nbits = 0) (hl : l.length % 8 = 0) : t.writer.nbits = 0 := by
  apply BitVec.eq_of_toNat_eq
  rw [h.nbits, h0]
  show (0 + l.length) % 8 = 0
  rw [Nat.zero_add, hl]

end

theorem emitCodes_emitted {s : State} (w : Nat) (codes : List (BitVec 12)) (hr : s.Room (emitted w codes).length) :
    ∃ t, emitCodes w codes s = .ok ⟨⟩ t ∧ Writes (emitted w codes) s t :=
  emitCodes_writes w codes (by rwa [length_emitted, Nat.mul_comm] at hr)

theorem encByte_yields {s : State} (c : Byte)
    (hr : s.Room (emitted (s.lzwE.emitWidth s.ctrl.lzwFixed12) (encodeByte s.ctrl.lzwFixed12 s.lzwE c).codes).length) :
    ∃ t, encByte c s = .ok () t ∧ t.lzwE = (encodeByte s.ctrl.lzwFixed12 s.lzwE c).next ∧
      Yields (emitted (s.lzwE.emitWidth s.ctrl.lzwFixed12) (encodeByte s.ctrl.lzwFixed12 s.lzwE c).codes) s t := by
  obtain ⟨t, ht, hw⟩ := emitCodes_emitted _ _ hr
  refine ⟨t.setLzwE (encodeByte s.ctrl.lzwFixed12 s.lzwE c).next, ?_, rfl, ?_⟩
  · unfold encByte
    rw [Cmd.get_bind_run, Cmd.bind_of_ok ht]
    rfl
  · exact hw.yields.trans_nil (yields_setLzwE _ _)

theorem encEnd_yields {s : State}
    (hr : s.Room (emitted (s.lzwE.emitWidth s.ctrl.lzwFixed12) (endCodes s.lzwE)).length) :
    ∃ t, encEnd s = .ok () t ∧ Yields (emitted (s.lzwE.emitWidth s.ctrl.lzwFixed12) (endCodes s.lzwE)) s t := by
  obtain ⟨t, ht, hw⟩ := emitCodes_emitted _ _ hr
  refine ⟨(t.setLzwE { t.lzwE with patV := false }).setValid { t.valid with lzwE := false }, ?_, ?_⟩
  · unfold encEnd
    rw [Cmd.get_bind_run, Cmd.bind_of_ok ht]
    rfl
  · exact hw.yields.trans_nil ((yields_setLzwE _ _).trans (yields_setValid _ _))

/-- Pass 2 of LZW_COMPRESS writes the stream (R277). -/
theorem LzwEnc.Follows.writes {s : State} {dict : List (List Byte)} {pat : List Byte}
    (h : s.lzwE.Follows dict pat) (data : List Byte)
    (hr : s.Room (lzwStream s.ctrl.lzwFixed12 dict pat data).length) :
    ∃ t, (forEach data encByte >>= fun _ => encEnd) s = .ok () t ∧
      Yields (lzwStream s.ctrl.lzwFixed12 dict pat data) s t := by
  induction data generalizing s dict pat with
  | nil =>
    rw [h.endCodes] at hr ⊢
    exact encEnd_yields hr
  | cons c cs ih =>
    obtain ⟨dict', pat', h', hs⟩ := h.encodeByte s.ctrl.lzwFixed12 c
    rw [hs, List.length_append] at hr
    obtain ⟨t, ht, hnext, hy⟩ := encByte_yields c (hr.le (Nat.le_add_right _ _))
    have hroom := hy.room hr
    rw [← hy.ctrl] at hroom
    obtain ⟨u, hu, hyu⟩ := ih (hnext ▸ h') hroom
    rw [hy.ctrl] at hyu
    refine ⟨u, ?_, hs cs ▸ hy.trans hyu⟩
    rw [forEach_cons, bind_assoc, Cmd.bind_of_ok ht]
    exact hu

/-! ### The two forms (R131, R277) -/

theorem payloadBytes_eq {s : State} (h : s.lzwE.Sound) : payloadBytes s = lzwBytes s.ctrl.lzwFixed12 s.input := by
  unfold payloadBytes lzwBytes
  rw [← (LzwEnc.Follows.started h s.ctrl.lzwFixed12).measureBits]
  rfl

theorem lzwWriteStored_yields {s : State} (data : List Byte) (hr : s.Room (byteBits 0 ++ bytesBits data).length) :
    ∃ t, lzwWriteStored data s = .ok () t ∧ Yields (byteBits 0 ++ bytesBits data) (s.setStored true) t := by
  obtain ⟨t, ht, hw⟩ := ((emits_emitByte 0).bind (f := fun _ => emitBytes data) (emits_emitBytes data)).yields hr
  exact ⟨t.setStored true, (Cmd.bind_bind_of_ok ht).trans (Cmd.modify_run _ _), hw.setStored true⟩

/-- The compressed form after the header: flag, length, flushed stream. -/
def lzwPayload (fixed12 : Bool) (data : List Byte) : List Bool :=
  byteBits 1 ++ wordBits (BitVec.ofNat 32 (lzwBytes fixed12 data)) 32 ++ zeroPad (lzwStream fixed12 [] [] data)

theorem lzwWriteCompressed_yields {s : State} (hs : s.lzwE.Sound) (h0 : s.writer.nbits = 0) (data : List Byte)
    (hr : s.Room (lzwPayload s.ctrl.lzwFixed12 data).length) :
    ∃ t, lzwWriteCompressed (lzwBytes s.ctrl.lzwFixed12 data) data s = .ok () t ∧
      Yields (lzwPayload s.ctrl.lzwFixed12 data) (s.setStored false) t := by
  unfold lzwPayload at hr ⊢
  rw [List.length_append] at hr
  obtain ⟨t, ht, hw⟩ := ((emits_emitByte 1).bind (f := fun _ => writeBits _ 32)
    (emits_writeBits (BitVec.ofNat 32 (lzwBytes s.ctrl.lzwFixed12 data)) 32)) s (hr.le (Nat.le_add_right _ _))
  obtain ⟨b, hb⟩ : ∃ b, b = (startEncoder t).setValid { t.valid with lzwE := true } := ⟨_, rfl⟩
  have hbase : Yields [] t b := hb ▸ (yields_setLzwE _ _).trans (yields_setValid _ _)
  have hctrl : b.ctrl = s.ctrl := hbase.ctrl.trans hw.yields.ctrl
  have hfollows : b.lzwE.Follows [] [] := by
    have hlzw : t.lzwE = s.lzwE := by rw [hw.frame]; rfl
    subst hb
    exact LzwEnc.Follows.started (hlzw ▸ hs) t.ctrl.lzwFixed12
  have hroom : b.Room (zeroPad (lzwStream s.ctrl.lzwFixed12 [] [] data)).length :=
    hbase.room (by rw [List.length_nil, Nat.zero_add]; exact hw.room hr)
  obtain ⟨u, hu, hyu⟩ := hfollows.writes data (by rw [hctrl]; exact hroom.le (by rw [length_zeroPad]; omega))
  rw [hctrl] at hyu
  obtain ⟨v, hv, hyv⟩ := hyu.flush
    (hbase.aligned (hw.aligned h0 (by rw [List.length_append, length_byteBits, length_wordBits])) rfl) hroom
  refine ⟨v.setStored false, ?_, (hw.yields.trans (hbase.trans hyv)).setStored false⟩
  unfold lzwWriteCompressed
  rw [Cmd.bind_bind_of_ok ht, Cmd.modify_bind_run, ← hb, Cmd.bind_bind_of_ok hu, Cmd.bind_of_ok hv]
  rfl

/-- The form written after the header, and STORED with it. -/
theorem lzwWriteForm_yields {s t : State} {stored : Bool} (hs : s.lzwE.Sound)
    (hstored : stored = (s.ctrl.lzwFallbackEn && decide (s.input.length ≤ lzwBytes s.ctrl.lzwFixed12 s.input)))
    (hctrl : t.ctrl = s.ctrl) (hlzw : t.lzwE = s.lzwE) (h0 : t.writer.nbits = 0) {l : List Bool}
    (hl : l = if stored then byteBits 0 ++ bytesBits s.input else lzwPayload s.ctrl.lzwFixed12 s.input)
    (hr : t.Room l.length) : ∃ u, lzwWriteForm s t = .ok () u ∧ Yields l (t.setStored stored) u := by
  have hcond : (s.ctrl.lzwFallbackEn = true ∧ payloadBytes s ≥ s.inLen.toNat) ↔ stored = true := by
    rw [hstored, Bool.and_eq_true, decide_eq_true_iff, payloadBytes_eq hs, length_input]
  unfold lzwWriteForm
  cases stored with
  | true =>
    rw [if_pos (hcond.2 rfl)]
    rw [if_pos rfl] at hl
    subst hl
    exact lzwWriteStored_yields s.input hr
  | false =>
    rw [if_neg (fun h => nomatch hcond.1 h), payloadBytes_eq hs, ← hctrl]
    rw [if_neg nofun, ← hctrl] at hl
    subst hl
    exact lzwWriteCompressed_yields (hlzw ▸ hs) h0 s.input hr

theorem length_extension (s : State) : s.extension.length = s.ext.len.toNat := by simp [State.extension]

theorem length_lzwHeader_mod (ext data : List Byte) : (lzwHeader ext data).length % 8 = 0 := by
  unfold lzwHeader
  rw [List.length_append, List.length_append, length_wordBits, length_wordBits, length_bytesBits]
  omega

/-- Settles O49: the header, then the form that the measured stream decides. -/
theorem lzwCompressWritesTheContainer : Obligations.LzwCompressWritesTheContainer := by
  intro s stored out hs hlen hext hstored hout hr
  obtain ⟨l, hl⟩ : ∃ l, l = if stored then byteBits 0 ++ bytesBits s.input
      else lzwPayload s.ctrl.lzwFixed12 s.input := ⟨_, rfl⟩
  have hsplit : out = lzwHeader s.extension s.input ++ l := by
    rw [hout, hl]
    cases stored with
    | true => exact List.append_assoc _ _ _
    | false => simp [lzwCompressed, lzwPayload]
  have hl8 : l.length % 8 = 0 := by
    rw [hl]
    cases stored with
    | true =>
      rw [if_pos rfl, List.length_append, length_byteBits, length_bytesBits]
      omega
    | false =>
      have := length_zeroPad_mod (lzwStream s.ctrl.lzwFixed12 [] [] s.input)
      rw [if_neg nofun, lzwPayload, List.length_append, List.length_append, length_byteBits, length_wordBits]
      omega
  obtain ⟨b, hb⟩ : ∃ b, b = (startWriter s).setOrigSize s.inLen := ⟨_, rfl⟩
  have hroom : b.Room (lzwHeader s.extension s.input ++ l).length := hb ▸ startWriter_room (hsplit ▸ hr)
  rw [List.length_append] at hroom
  have hheader : Emits (writeBits (immWord s.ext.len) 16 >>= fun _ => emitBytes s.extension >>= fun _ =>
      writeBits s.inLen 32) (lzwHeader s.extension s.input) := by
    unfold lzwHeader
    rw [length_extension, length_input, BitVec.ofNat_toNat, BitVec.ofNat_toNat, BitVec.setWidth_eq, List.append_assoc]
    exact (emits_writeBits _ _).bind ((emits_emitBytes _).bind (emits_writeBits _ _))
  obtain ⟨t, ht, hw⟩ := hheader b (hroom.le (Nat.le_add_right _ _))
  have hctrl : t.ctrl = s.ctrl := by rw [hw.frame, hb]; rfl
  have hlzw : t.lzwE = s.lzwE := by rw [hw.frame, hb]; rfl
  have h0 : t.writer.nbits = 0 := hw.aligned (by rw [hb]; rfl) (length_lzwHeader_mod _ _)
  obtain ⟨u, hu, hy⟩ := lzwWriteForm_yields (s := b) (stored := stored) (by rw [hb]; exact hs.enc)
    (hb ▸ hstored)
    (hctrl.trans (by rw [hb]; rfl)) (hlzw.trans (by rw [hb]; rfl)) h0 (hb ▸ hl) (hw.room hroom)
  obtain ⟨hend, hstatus, hextEnd, horig, hbits⟩ := ((hw.yields.setStored stored).trans hy).callEnds (s := s)
    (by rw [hb]; rfl) (by rw [hb]; rfl) (by rw [hb]; rfl) (by
      rw [List.length_append, Nat.add_mod, length_lzwHeader_mod, hl8])
  refine ⟨endCall u, exec_of_ok ?_, hend, hstatus.trans (by rw [hb]; rfl), hextEnd.trans (by rw [hb]; rfl),
    horig.trans (by rw [hb]; rfl), hbits.trans hsplit.symm⟩
  show lzwCompress s = _
  unfold lzwCompress
  rw [checkIn_bind_run, if_neg (Nat.not_lt.2 hlen), checkExt_bind_run, if_neg (Nat.not_lt.2 hext), Cmd.modify_bind_run,
    ← hb, Cmd.get_bind_run]
  have hrun := Cmd.bind_of_ok (f := fun _ => lzwWriteForm b >>= fun _ => modify endCall) ht
  simp only [bind_assoc] at hrun
  subst hb
  exact hrun.trans (Cmd.bind_of_ok hu)

end Sys2Proof.Machine

namespace Sys2Proof.Machine

/-! ## LZW_DECOMPRESS -/

/-! ### The decoder behind the encoder (R271 to R274) -/

/-- The string `pat` has a code under `dict`: a literal, or an entry. -/
def Coded (dict : List (List Byte)) (pat : List Byte) : Prop := (∃ b, pat = [b]) ∨ (pat ∈ dict ∧ 2 ≤ pat.length)

theorem stands_literal (f : Nat → DictEntry) (n : Nat) (b : Byte) : Stands f n b.toNat [b] := by
  have hb := b.isLt
  have hs : Stands f n b.toNat [BitVec.ofNat 8 b.toNat] := .literal (by omega)
  rwa [BitVec.ofNat_toNat, BitVec.setWidth_eq] at hs

theorem Lists.stands_code {f : Nat → DictEntry} {dict : List (List Byte)} {pat : List Byte} (hd : Lists f dict)
    (h : Coded dict pat) : Stands f (258 + dict.length) (Machine.codeOfString dict pat) pat := by
  obtain ⟨b, rfl⟩ | ⟨hmem, hlen⟩ := h
  · exact stands_literal _ _ b
  · have hidx := List.idxOf_lt_length_of_mem hmem
    have hs := hd _ hidx
    rw [List.getElem_idxOf] at hs
    rw [codeOfString_of_two_le hlen]
    exact hs

/-- The decoder holds `dict` and remembers the code of `pat`, the string it wrote last. -/
structure LzwDec.Synced (d : LzwDec) (dict : List (List Byte)) (pat : List Byte) : Prop where
  ok : d.Ok
  prevV : d.prevV = true
  next : d.next.toNat = 258 + dict.length
  lists : Lists d.entryAt dict
  prev : Stands d.entryAt (258 + dict.length) d.prev.toNat pat

/-- The decoder is where the encoder, holding `dict`, was before its last entry: that entry is the decoder's last string
and the first byte of the encoder's pattern `pat`, which is to come. -/
inductive LzwDec.Lags (d : LzwDec) : List (List Byte) → List Byte → Prop where
  | fresh {pat : List Byte} : d.Ok → d.prevV = false → d.next.toNat = 258 → LzwDec.Lags d [] pat
  | behind {dict : List (List Byte)} {last pat : List Byte} {b : Byte} : d.Synced dict last → dict.length < 3838 →
    LzwDec.Lags d (dict ++ [last ++ [b]]) (b :: pat)

section

variable {d : LzwDec} {dict : List (List Byte)} {pat : List Byte}

theorem LzwDec.Lags.size (h : d.Lags dict pat) : dict.length ≤ 3838 := by
  cases h with
  | fresh => exact Nat.zero_le _
  | behind _ hlt => rw [List.length_append]; exact hlt

theorem LzwDec.Lags.ok (h : d.Lags dict pat) : d.Ok := by
  cases h with
  | fresh hok => exact hok
  | behind hs => exact hs.ok

/-- The pattern grows at its end. -/
theorem LzwDec.Lags.extend (h : d.Lags dict pat) (c : Byte) : d.Lags dict (pat ++ [c]) := by
  cases h with
  | fresh hok hp hn => exact .fresh hok hp hn
  | behind hs hlt => exact .behind hs hlt

/-- The width of a code under a dictionary (R261). -/
def codeWidth (fixed12 : Bool) (dict : List (List Byte)) : Nat := if fixed12 then 12 else widthFor (258 + dict.length)

theorem length_codeBits (fixed12 : Bool) (dict : List (List Byte)) (c : Nat) :
    (codeBits fixed12 dict c).length = codeWidth fixed12 dict := length_wordBits _ _

theorem codeWidth_pos (fixed12 : Bool) (dict : List (List Byte)) : 0 < codeWidth fixed12 dict := by
  have := widthFor_le (258 + dict.length)
  unfold codeWidth
  split <;> omega

/-- Every code fits its width (R261). -/
theorem lt_two_pow_codeWidth (fixed12 : Bool) {dict : List (List Byte)} (hd : dict.length ≤ 3838) {c : Nat}
    (hc : c < 258 + dict.length) : c < 2 ^ codeWidth fixed12 dict := by
  unfold codeWidth widthFor
  split
  · omega
  · split
    · omega
    · split
      · omega
      · split <;> omega

/-- The decoder reads in the width the encoder wrote in (R267). -/
theorem LzwDec.Lags.decWidth (h : d.Lags dict pat) (fixed12 : Bool) : decWidth fixed12 d = codeWidth fixed12 dict := by
  unfold Machine.decWidth codeWidth
  cases h with
  | fresh _ hp hn =>
    rw [hp, hn]
    rfl
  | behind hs hlt =>
    rw [hs.prevV, hs.next, List.length_append, List.length_singleton, Nat.min_eq_left]
    · rfl
    · show 258 + _ + 1 ≤ 4096
      omega

/-- A full dictionary's width is that of the CLEAR code that follows (R264, R270). -/
theorem LzwDec.Synced.decWidth_full (h : d.Synced dict pat) (hfull : dict.length = 3838) (fixed12 : Bool) :
    decWidth fixed12 d = codeWidth fixed12 dict := by
  unfold Machine.decWidth codeWidth
  rw [h.prevV, h.next, hfull]
  rfl

/-- The pattern's code resolves to the pattern, the entry not yet inserted being the self-reference (R272). -/
theorem LzwDec.Lags.resolves (h : d.Lags dict pat) (hc : Coded dict pat) :
    d.Resolves (codeOfString dict pat) pat := by
  obtain ⟨b, rfl⟩ | ⟨hmem, hlen⟩ := hc
  · exact .inl (stands_literal _ _ b)
  · rw [codeOfString_of_two_le hlen]
    cases h with
    | fresh => exact absurd hmem List.not_mem_nil
    | @behind dict last pat b hs _ =>
      by_cases hold : b :: pat ∈ dict
      · have hst := hs.lists.stands_code (.inr ⟨hold, hlen⟩)
        rw [codeOfString_of_two_le hlen, ← hs.next] at hst
        rw [List.idxOf_append_of_mem hold]
        exact .inl hst
      · have hlast : b :: pat = last ++ [b] := by
          simpa [hold] using hmem
        rw [List.idxOf_append_of_notMem hold, hlast, List.idxOf_cons_self, Nat.add_zero]
        obtain ⟨a, m, rfl⟩ := List.exists_cons_of_ne_nil hs.prev.ne_nil
        cases hlast
        exact .inr ⟨hs.next.symm, hs.prevV, _, _, hs.next ▸ hs.prev, rfl⟩

/-- The decoder after the pattern's code: the entry inserted, the code remembered (R273, R274). -/
def LzwDec.after (d : LzwDec) (c : Nat) (str : List Byte) : LzwDec :=
  { (if d.prevV then d.insert (str.headD 0) else d) with prev := BitVec.ofNat 12 c, prevV := true }

theorem synced_of_lists {d : LzwDec} (hok : d.Ok) (hn : d.next.toNat = 258 + dict.length) (hl : Lists d.entryAt dict)
    (hc : Coded dict pat) :
    LzwDec.Synced { d with prev := BitVec.ofNat 12 (codeOfString dict pat), prevV := true } dict pat := by
  have hst := hl.stands_code hc
  have hlt := hst.code_lt
  have hbound := hok.1.next.2
  have hprev : (BitVec.ofNat 12 (codeOfString dict pat)).toNat = codeOfString dict pat := by
    rw [BitVec.toNat_ofNat]
    omega
  refine ⟨⟨⟨hok.1.next, fun _ => ?_⟩, hok.2⟩, rfl, hn, hl, ?_⟩
  · show StringCode d.next.toNat (BitVec.ofNat 12 _).toNat
    rw [hprev, hn]
    exact ⟨by omega, by omega, by omega⟩
  · show Stands d.entryAt _ (BitVec.ofNat 12 _).toNat _
    rw [hprev]
    exact hst

theorem LzwDec.Lags.after (h : d.Lags dict pat) (hc : Coded dict pat) :
    (d.after (codeOfString dict pat) pat).Synced dict pat := by
  unfold LzwDec.after
  cases h with
  | fresh hok hp hn =>
    rw [if_neg (by simp [hp])]
    exact synced_of_lists hok hn (lists_nil _) hc
  | @behind dict last pat b hs hlt =>
    have hn := hs.next
    rw [if_pos hs.prevV]
    refine synced_of_lists (hs.ok.insert hs.prevV (by omega) b) ?_ ?_ hc
    · show (d.next + 1).toNat = _
      rw [toNat_succ_next (by omega), hn, List.length_append]
      rfl
    · refine hs.lists.snoc (e := { pre := d.prev, suf := b }) hs.prev (fun x hx => ?_) ?_
      · exact (Store.read_put _ _ _ _ _).trans (if_neg (by omega))
      · exact (Store.read_put _ _ _ _ _).trans (if_pos hn)

theorem LzwDec.Lags.insertable (h : d.Lags dict pat) : d.prevV = true → d.next.toNat ≠ 4096 := by
  intro hp
  cases h with
  | fresh _ hp' => exact absurd (hp'.symm.trans hp) nofun
  | behind hs hlt =>
    rw [hs.next]
    omega

end

/-! ### The loop (R278) -/

theorem codeBits_eq (fixed12 : Bool) (dict : List (List Byte)) (c : Nat) :
    codeBits fixed12 dict c = wordBits (BitVec.ofNat 32 c) (codeWidth fixed12 dict) := rfl

/-- A code ahead, in the decoder's width, is read. -/
theorem readCode_ahead {s : State} {dict : List (List Byte)} {p c : Nat} {m : List Bool} (hd : dict.length ≤ 3838)
    (hw : decWidth s.ctrl.lzwFixed12 s.lzwD = codeWidth s.ctrl.lzwFixed12 dict) (hc : c < 258 + dict.length)
    (ha : s.Ahead p (codeBits s.ctrl.lzwFixed12 dict c ++ m)) :
    readCode s = .ok c (s.skip (codeBits s.ctrl.lzwFixed12 dict c).length) := by
  have hnum : (BitVec.ofNat 32 c).toNat = c := toNat_ofNat32 (by omega)
  have hlt := lt_two_pow_codeWidth s.ctrl.lzwFixed12 hd hc
  rw [length_codeBits]
  rw [codeBits_eq] at ha
  unfold readCode
  rw [Cmd.get_bind_run, hw, Cmd.bind_of_ok (ha.readBits (by rwa [hnum])), hnum]
  rfl

theorem insertEntry_ok {s : State} (h : s.lzwD.prevV = true → s.lzwD.next.toNat ≠ 4096) (str : List Byte) :
    insertEntry str s = .ok ⟨⟩ (s.setLzwD (if s.lzwD.prevV then s.lzwD.insert (str.headD 0) else s.lzwD)) := by
  rw [insertEntry_run]
  cases hp : s.lzwD.prevV with
  | true => rw [if_pos rfl, if_neg (h hp), if_pos rfl]
  | false => rfl

/-- The pattern's code: its string is written and the decoder is in step with the encoder. -/
theorem decompressCode_pat {s : State} {dict : List (List Byte)} {pat : List Byte} {p left : Nat} {m : List Bool}
    (h : s.lzwD.Lags dict pat) (hc : Coded dict pat) (hleft : pat.length ≤ left)
    (ha : s.Ahead p (codeBits s.ctrl.lzwFixed12 dict (codeOfString dict pat) ++ m))
    (hr : s.Room (bytesBits pat).length) :
    ∃ t q, decompressCode left s = .ok pat.length t ∧ t.lzwD.Synced dict pat ∧ t.Ahead q m ∧
      Yields (bytesBits pat) s t := by
  have hsync := h.after hc
  have hlt := (hsync.lists.stands_code hc).code_lt
  have hread := readCode_ahead h.size (h.decWidth _) (by omega) ha
  have hresolve := (LzwDec.resolve_eq_some h.ok.2 h.ok.1.next.1 _ pat).2 (h.resolves hc)
  generalize codeOfString dict pat = c at ha hread hlt hsync hresolve
  obtain ⟨u, hu⟩ : ∃ u, u = s.skip (codeBits s.ctrl.lzwFixed12 dict c).length := ⟨_, rfl⟩
  have hinsert := insertEntry_ok (s := u) (by rw [hu]; exact h.insertable) pat
  obtain ⟨d, hd⟩ : ∃ d, d = if u.lzwD.prevV then u.lzwD.insert (pat.headD 0) else u.lzwD := ⟨_, rfl⟩
  rw [← hd] at hinsert
  have hyu : Yields [] s (u.setLzwD d) := hu ▸ (yields_skip _ _).trans (yields_setLzwD _ _)
  have hau : (u.setLzwD d).Ahead _ m := (hu ▸ ha.skip).congr rfl rfl rfl
  obtain ⟨t, ht, hw⟩ := emits_emitBytes pat (u.setLzwD d) (hyu.room (by rwa [List.length_nil, Nat.zero_add]))
  refine ⟨t.setLzwD { t.lzwD with prev := BitVec.ofNat 12 c, prevV := true }, _, ?_, ?_,
    (hau.of_writes hw).congr rfl rfl rfl, (hyu.trans hw.yields).trans_nil (yields_setLzwD _ _)⟩
  · have heos : c ≠ Config.eosCode := by
      show c ≠ 256
      omega
    have hclear : c ≠ Config.clearCode := by
      show c ≠ 257
      omega
    have hresolve' : resolveCode c u = .ok pat u := by
      rw [resolveCode_run, hu]
      show (match s.lzwD.resolve c with | some l => _ | none => _) = _
      rw [hresolve]
    unfold decompressCode
    rw [Cmd.bind_of_ok hread, if_neg heos, if_neg hclear, ← hu]
    unfold decompressData
    rw [Cmd.bind_of_ok hresolve', Cmd.bind_of_ok hinsert, raiseIf_bind_run, if_neg (Nat.not_lt.2 hleft),
      Cmd.bind_of_ok ht]
    rfl
  · have hlzw : t.lzwD = d := by rw [hw.frame]; rfl
    show LzwDec.Synced { t.lzwD with prev := BitVec.ofNat 12 c, prevV := true } dict pat
    rw [hlzw, hd, hu]
    exact hsync

theorem decompressLoop_step {s t : State} {rounds left k : Nat} (hleft : 0 < left)
    (h : decompressCode left s = .ok k t) :
    decompressLoop (rounds + 1) left s = decompressLoop rounds (left - k) t := by
  obtain ⟨n, rfl⟩ := Nat.exists_eq_add_of_lt hleft
  rw [Nat.zero_add] at h ⊢
  rw [decompressLoop, Cmd.bind_of_ok h]

theorem decompressLoop_zero (rounds : Nat) (s : State) : decompressLoop rounds 0 s = .ok () s := by
  cases rounds <;> rfl

/-- CLEAR in a full dictionary: nothing is written, and the decoder starts again (R270). -/
theorem decompressCode_clear {s : State} {dict : List (List Byte)} {pat : List Byte} {p : Nat} {m : List Bool}
    (left : Nat) (h : s.lzwD.Synced dict pat) (hfull : dict.length = 3838) (b : Byte)
    (ha : s.Ahead p (codeBits s.ctrl.lzwFixed12 dict 257 ++ m)) :
    ∃ t q, decompressCode left s = .ok 0 t ∧ t.lzwD.Lags [] [b] ∧ t.Ahead q m ∧ Yields [] s t := by
  have hread := readCode_ahead (by omega) (h.decWidth_full hfull _) (by omega) ha
  obtain ⟨u, hu⟩ : ∃ u, u = s.skip (codeBits s.ctrl.lzwFixed12 dict 257).length := ⟨_, rfl⟩
  refine ⟨u.setLzwD u.lzwD.clear, _, ?_, .fresh (LzwDec.Ok.clear _) rfl rfl, (hu ▸ ha.skip).congr rfl rfl rfl,
    hu ▸ (yields_skip _ _).trans (yields_setLzwD _ _)⟩
  unfold decompressCode
  rw [Cmd.bind_of_ok hread, if_neg (show (257 : Nat) ≠ Config.eosCode by decide),
    if_pos (show (257 : Nat) = Config.clearCode from rfl), ← hu]
  rfl

/-- The loop on an encoder's stream writes the pattern and the bytes that the stream was made of; EOS is not read. -/
theorem decompressLoop_stream (data : List Byte) {s : State} {dict : List (List Byte)} {pat : List Byte}
    {p left rounds : Nat} {m : List Bool} (h : s.lzwD.Lags dict pat) (hc : pat ≠ [] → Coded dict pat)
    (ha : s.Ahead p (lzwStream s.ctrl.lzwFixed12 dict pat data ++ m)) (hleft : left = (pat ++ data).length)
    (hrounds : (lzwStream s.ctrl.lzwFixed12 dict pat data).length ≤ rounds)
    (hr : s.Room (bytesBits (pat ++ data)).length) :
    ∃ t, decompressLoop rounds left s = .ok () t ∧ Yields (bytesBits (pat ++ data)) s t := by
  induction data generalizing s dict pat p left rounds with
  | nil =>
    rw [List.append_nil] at hleft hr ⊢
    by_cases hne : pat = []
    · subst hne
      rw [hleft]
      exact ⟨s, decompressLoop_zero _ s, yields_nil rfl rfl rfl⟩
    · have hpos := List.length_pos_iff.2 hne
      have hw := codeWidth_pos s.ctrl.lzwFixed12 dict
      rw [lzwStream, if_neg hne] at ha hrounds
      rw [List.length_append, length_codeBits] at hrounds
      rw [List.append_assoc] at ha
      obtain ⟨t, q, ht, -, -, hy⟩ := decompressCode_pat h (hc hne) (Nat.le_of_eq hleft.symm) ha hr
      obtain ⟨k, rfl⟩ := Nat.exists_eq_add_of_lt (show 0 < rounds by omega)
      refine ⟨t, ?_, hy⟩
      rw [decompressLoop_step (by omega) ht, hleft, Nat.sub_self, decompressLoop_zero]
  | cons c cs ih =>
    have hsplit : pat ++ c :: cs = pat ++ [c] ++ cs := List.append_cons ..
    -- the pattern grows by `c`, and no code is read
    have grow : lzwStream s.ctrl.lzwFixed12 dict pat (c :: cs) = lzwStream s.ctrl.lzwFixed12 dict (pat ++ [c]) cs →
        Coded dict (pat ++ [c]) →
          ∃ t, decompressLoop rounds left s = .ok () t ∧ Yields (bytesBits (pat ++ c :: cs)) s t := fun hs hcoded => by
      rw [hs] at ha hrounds
      rw [hsplit] at hleft hr ⊢
      exact ih (h.extend c) (fun _ => hcoded) ha hleft hrounds hr
    by_cases hne : pat = []
    · refine grow ?_ (.inl ⟨c, by rw [hne]; rfl⟩)
      rw [lzwStream, if_pos hne, hne]
      rfl
    · by_cases hmem : pat ++ [c] ∈ dict
      · refine grow ?_ (.inr ⟨hmem, ?_⟩)
        · rw [lzwStream, if_neg hne, if_pos hmem]
        · have := List.length_pos_iff.2 hne
          rw [List.length_append, List.length_singleton]
          omega
      · have hbits : bytesBits (pat ++ c :: cs) = bytesBits pat ++ bytesBits ([c] ++ cs) := bytesBits_append _ _
        have hw := codeWidth_pos s.ctrl.lzwFixed12 dict
        rw [lzwStream, if_neg hne, if_neg hmem] at ha hrounds
        rw [hbits, List.length_append] at hr
        rw [List.length_append, ← List.singleton_append, List.length_append] at hleft
        rw [hbits]
        by_cases hfull : dict.length < 3838
        · rw [if_pos hfull, List.length_append, length_codeBits] at hrounds
          rw [if_pos hfull, List.append_assoc] at ha
          obtain ⟨t, q, ht, hsync, hat, hy⟩ := decompressCode_pat (left := left) h (hc hne) (by omega) ha
            (hr.le (Nat.le_add_right _ _))
          obtain ⟨k, rfl⟩ := Nat.exists_eq_add_of_lt (show 0 < rounds by omega)
          rw [← hy.ctrl] at hat hrounds hw
          obtain ⟨u, hu, hyu⟩ := ih (left := left - pat.length) (rounds := 0 + k) (.behind hsync hfull)
            (fun _ => .inl ⟨c, rfl⟩) hat (by rw [List.length_append]; omega) (by omega) (hy.room hr)
          exact ⟨u, (decompressLoop_step (by have := List.length_singleton (a := c); omega) ht).trans hu, hy.trans hyu⟩
        · rw [if_neg hfull, List.length_append, List.length_append, length_codeBits, length_codeBits] at hrounds
          rw [if_neg hfull, List.append_assoc, List.append_assoc] at ha
          have hsize := h.size
          obtain ⟨t, q, ht, hsync, hat, hy⟩ := decompressCode_pat (left := left) h (hc hne) (by omega) ha
            (hr.le (Nat.le_add_right _ _))
          rw [← hy.ctrl] at hat
          obtain ⟨v, q', hv, hfresh, hav, hyv⟩ := decompressCode_clear (left - pat.length) hsync (by omega) c hat
          obtain ⟨k, rfl⟩ : ∃ k, rounds = k + 1 + 1 := ⟨rounds - 2, by omega⟩
          have hyt := hy.trans_nil hyv
          rw [← hyv.ctrl] at hav
          rw [← hyt.ctrl] at hrounds hw
          obtain ⟨u, hu, hyu⟩ := ih (left := left - pat.length) (rounds := k) hfresh (fun _ => .inl ⟨c, rfl⟩) hav
            (by rw [List.length_append]; omega) (by omega) (hyt.room hr)
          have hone := List.length_singleton (a := c)
          refine ⟨u, ?_, hyt.trans hyu⟩
          rw [decompressLoop_step (by omega) ht, decompressLoop_step (by omega) hv, Nat.sub_zero]
          exact hu

end Sys2Proof.Machine

namespace Sys2Proof.Machine

/-! ### The container read (R131, R278) -/

theorem ibufBytes_eq_take_drop {s : State} {k n : Nat} (h : k + n ≤ s.inLen.toNat) :
    s.ibufBytes k n = (s.input.drop k).take n := by
  unfold State.input State.ibufBytes
  apply List.ext_getElem
  · simp only [List.length_map, List.length_range, List.length_take, List.length_drop]
    omega
  · intro i h1 h2
    simp

/-- A piece of the input by its bits. -/
theorem take_of_bytesBits {l data : List Byte} {m : List Bool} (h : bytesBits l = bytesBits data ++ m) :
    l.take data.length = data := by
  have hlen := congrArg List.length h
  rw [length_bytesBits, List.length_append, length_bytesBits] at hlen
  rw [← List.take_append_drop data.length l, bytesBits_append] at h
  exact bytesBits_inj (List.append_inj h (by
    rw [length_bytesBits, length_bytesBits, List.length_take]
    omega)).1

theorem ibufBytes_of_inputBits {s : State} {l m : List Bool} {data : List Byte} {k : Nat}
    (h : s.inputBits = l ++ (bytesBits data ++ m)) (hl : l.length = 8 * k) : s.ibufBytes k data.length = data := by
  have hlen := congrArg List.length h
  rw [length_inputBits, List.length_append, List.length_append, length_bytesBits] at hlen
  rw [ibufBytes_eq_take_drop (by omega)]
  unfold State.inputBits at h
  rw [← List.take_append_drop k s.input, bytesBits_append] at h
  refine take_of_bytesBits (m := m) (List.append_inj h ?_).2
  rw [length_bytesBits, List.length_take, length_input, hl]
  omega

/-- The stored form: the bytes at `start`, copied (R278). -/
theorem lzwReadStored_yields {s : State} {data : List Byte} {start : Nat} {l rest : List Bool}
    (hin : s.inputBits = l ++ (bytesBits data ++ rest)) (hl : l.length = 8 * start)
    (hr : s.Room (bytesBits data).length) :
    ∃ t, lzwReadStored s.inLen.toNat start data.length s = .ok () t ∧ Yields (bytesBits data) (s.setStored true) t := by
  have hlen := congrArg List.length hin
  rw [length_inputBits, List.length_append, List.length_append, length_bytesBits] at hlen
  have hdata : (s.setStored true).ibufBytes start data.length = data := ibufBytes_of_inputBits hin hl
  obtain ⟨t, ht, hw⟩ := emits_emitBytes data (s.setStored true) hr
  refine ⟨t, ?_, hw.yields⟩
  unfold lzwReadStored
  rw [raiseIf_bind_run, if_neg (by omega), Cmd.modify_bind_run, Cmd.get_bind_run, hdata]
  exact ht

/-- The compressed form: `m` bytes that start with the stream of the data (R278). -/
theorem lzwReadCompressed_yields {s : State} {data : List Byte} {start p : Nat} {rest : List Bool}
    (ha : s.Ahead p (wordBits (BitVec.ofNat 32 (lzwBytes s.ctrl.lzwFixed12 data)) 32 ++
      (zeroPad (lzwStream s.ctrl.lzwFixed12 [] [] data) ++ rest)))
    (hp : p = 8 * start) (hfin : s.reader.fin = s.inLen) (hr : s.Room (bytesBits data).length) :
    ∃ t, lzwReadCompressed s.inLen.toNat start data.length s = .ok () t ∧
      Yields (bytesBits data) ((s.setStored false).setLzwEos false) t := by
  have hn := s.inLen.isLt
  have hwithin := ha.within
  rw [List.length_append, length_wordBits, List.length_append, length_zeroPad, hfin] at hwithin
  have hbytes : 8 * lzwBytes s.ctrl.lzwFixed12 data = (zeroPad (lzwStream s.ctrl.lzwFixed12 [] [] data)).length := by
    rw [length_zeroPad]
    unfold lzwBytes
    omega
  have hstream : (lzwStream s.ctrl.lzwFixed12 [] [] data).length ≤ 8 * lzwBytes s.ctrl.lzwFixed12 data := by
    rw [hbytes, length_zeroPad]
    omega
  rw [← length_zeroPad, ← hbytes] at hwithin
  generalize lzwBytes s.ctrl.lzwFixed12 data = k at ha hwithin hbytes hstream
  have hk : (BitVec.ofNat 32 k).toNat = k := toNat_ofNat32 (by omega)
  have hend : (BitVec.ofNat 32 (start + 4 + k)).toNat = start + 4 + k := toNat_ofNat32 (by omega)
  have ha1 : (s.setStored false).Ahead p _ := ha.congr rfl rfl rfl
  have ha2 := ha1.skipWord
  obtain ⟨u, hu⟩ : ∃ u, u = (s.setStored false).skip 32 := ⟨_, rfl⟩
  rw [← hu] at ha2
  have ha3 := ha2.setFin (e := BitVec.ofNat 32 (start + 4 + k)) (by rw [hend, ← hbytes]; omega)
  obtain ⟨v, hv⟩ : ∃ v, v = startDecoder (u.setReader { u.reader with fin := BitVec.ofNat 32 (start + 4 + k) }) :=
    ⟨_, rfl⟩
  have hctrl : v.ctrl = s.ctrl := by rw [hv, hu]; rfl
  have hav : v.Ahead (p + 32) (zeroPad (lzwStream v.ctrl.lzwFixed12 [] [] data)) := by
    rw [hctrl]
    exact hv ▸ ha3.congr rfl rfl rfl
  have hyv : Yields [] ((s.setStored false).setLzwEos false) v := by
    rw [hv, hu]
    exact yields_nil (by simp [State.settings, State.kept, State.skip, startDecoder, State.setLzwEos]) rfl rfl
  obtain ⟨t, ht, hy⟩ := decompressLoop_stream data (left := data.length) (rounds := data.length + 8 * k)
    (.fresh (hv ▸ LzwDec.Ok.started _) (hv ▸ rfl) (hv ▸ rfl)) (fun h => absurd rfl h) hav rfl (by rw [hctrl]; omega)
    (hyv.room (by rw [List.length_nil, Nat.zero_add]; exact hr))
  refine ⟨t, ?_, hyv.trans hy⟩
  unfold lzwReadCompressed
  rw [Cmd.modify_bind_run, raiseIf_bind_run, if_neg (by omega), Cmd.bind_of_ok (ha1.readBits (BitVec.isLt _)), hk,
    raiseIf_bind_run, if_neg (by omega), Cmd.modify_bind_run, ← hu, ← hv]
  exact ht

theorem setWidth_sixteen_ofNat (n : Nat) : (BitVec.ofNat 32 n).setWidth 16 = BitVec.ofNat 16 n := by
  apply BitVec.eq_of_toNat_eq
  rw [BitVec.toNat_setWidth, BitVec.toNat_ofNat, BitVec.toNat_ofNat]
  omega

/-- LZW_DECOMPRESS is its header, then what `lzwReadForm` produces; `st` is STATUS then. -/
theorem lzwDecompress_of_form {s : State} {ext : List Byte} {n : Word} {flag : Byte} {m l : List Bool} {st : Status}
    (hlen : s.inLen.toNat ≤ s.params.ibufSize) (hext : ext.length < 2 ^ 16)
    (hin : s.inputBits =
      wordBits (BitVec.ofNat 32 ext.length) 16 ++ (bytesBits ext ++ (wordBits n 32 ++ (byteBits flag ++ m))))
    (hl : l.length % 8 = 0)
    (hform : ∀ t : State, t.kept = s.kept → t.writer = (startWriter s).writer →
      t.status = { s.status with rdOvr := false } → t.reader.fin = s.inLen → t.Ahead (8 * (ext.length + 7)) m →
      ∃ u, lzwReadForm (byteWord flag) s.inLen.toNat (ext.length + 7) n.toNat t = .ok () u ∧
        Yields l (t.setStatus st) u) :
    ∃ t, exec .lzwDecompress s = .next t ∧ CallEnds s t ∧ bytesBits t.outBytes = l ∧ t.origSize = n ∧
      t.ext = { len := BitVec.ofNat 16 ext.length, off := 2 } ∧ t.status = st := by
  have hnum : (BitVec.ofNat 32 ext.length).toNat = ext.length := toNat_ofNat32 (by omega)
  have hbytes := congrArg List.length hin
  simp only [length_inputBits, List.length_append, length_byteBits, length_wordBits, length_bytesBits] at hbytes
  have ha := startReader_ahead s
  rw [hin] at ha
  obtain ⟨u, hu⟩ : ∃ u, u = ((startReader (startWriter s)).skip 16).setExt
      { len := BitVec.ofNat 16 ext.length, off := 2 } := ⟨_, rfl⟩
  have hau : u.Ahead 16 (bytesBits ext ++ (wordBits n 32 ++ (byteBits flag ++ m))) :=
    hu ▸ ha.skipWord.congr rfl rfl rfl
  have hjump : (((startReader (startWriter s)).skip 16).setExt
      { len := BitVec.ofNat 16 ext.length, off := 2 }).setReader
      { ((startReader (startWriter s)).skip 16).reader with ptr := BitVec.ofNat 32 (2 + ext.length) } =
      u.skip (bytesBits ext).length := by
    rw [← hau.jump (a := 2) rfl, hu]
    rfl
  have hav : (((u.skip (bytesBits ext).length).skip 32).setOrigSize n).Ahead (8 * (ext.length + 6))
      (wordBits (byteWord flag) 8 ++ m) := by
    have := hau.skip.skipWord
    rw [length_bytesBits] at this ⊢
    exact (show 16 + 8 * ext.length + 32 = 8 * (ext.length + 6) by omega) ▸ this.congr rfl rfl rfl
  obtain ⟨t, ht, hy⟩ := hform _ (by rw [hu]; simp [State.kept, State.skip, startReader, startWriter])
    (by rw [hu]; simp [State.skip, startReader, startWriter])
    (by rw [hu]; simp [State.skip, startReader, startWriter, State.setRdOvr]) (by rw [hu]; rfl) hav.skipWord
  obtain ⟨hend, hstatus, hextEnd, horig, hbits⟩ := hy.callEnds (s := s)
    (by rw [hu]; simp [State.kept, State.skip, startReader, startWriter])
    (by rw [hu]; simp [State.skip, startReader, startWriter])
    (by rw [hu]; simp [State.skip, startReader, startWriter]) hl
  refine ⟨endCall t, exec_of_ok ?_, hend, hbits, horig.trans (by simp [State.skip]),
    hextEnd.trans (by rw [hu]; simp [State.skip]), hstatus.trans (by simp)⟩
  show lzwDecompress s = _
  unfold lzwDecompress
  rw [checkIn_bind_run, if_neg (Nat.not_lt.2 hlen), Cmd.modify_bind_run, Cmd.get_bind_run, raiseIf_bind_run,
    show (startReader (startWriter s)).inLen = s.inLen from rfl, if_neg (by omega),
    Cmd.bind_of_ok (ha.readBits (by rw [hnum]; exact hext)), raiseIf_bind_run, hnum, if_neg (by omega),
    Cmd.modify_bind_run, setWidth_sixteen_ofNat, hjump, Cmd.bind_of_ok (hau.skip.readBits n.isLt),
    Cmd.modify_bind_run, Cmd.bind_of_ok (hav.readBits (byteWord_lt flag)), Cmd.bind_of_ok ht]
  rfl

/-- Settles O50: the header, then the stored bytes, or the decoder in step with the encoder that made the stream. -/
theorem lzwDecompressReadsTheContainer : Obligations.LzwDecompressReadsTheContainer := by
  intro s ext data rest hp hlen hext hfits
  have hsize : s.params.obufSize ≤ 0x1000000 := hp.2.1.2
  have hnum : (BitVec.ofNat 32 data.length).toNat = data.length := toNat_ofNat32 (by omega)
  have hl : (bytesBits data).length % 8 = 0 := by
    rw [length_bytesBits]
    omega
  refine ⟨fun hin => ?_, fun hin => ?_⟩
  · have hfields := hin
    unfold lzwStored lzwHeader at hfields
    simp only [List.append_assoc] at hfields
    obtain ⟨t, ht, hend, hbits, hrest⟩ := lzwDecompress_of_form (st := { s.status with stored := true, rdOvr := false })
      hlen hext hfields hl fun t hk hw hst _ _ => by
        obtain ⟨hn, -, hin'⟩ := inputBits_of_kept hk
        have hsplit : t.inputBits = (lzwHeader ext data ++ byteBits 0) ++ (bytesBits data ++ rest) := by
          rw [hin', hin, lzwStored, List.append_assoc]
        obtain ⟨u, hu, hy⟩ := lzwReadStored_yields (start := ext.length + 7) hsplit (by
          unfold lzwHeader
          simp only [List.length_append, length_wordBits, length_bytesBits, length_byteBits]
          omega) (room_of_started hk hw hp hfits)
        refine ⟨u, ?_, ?_⟩
        · rw [hnum, ← hn]
          exact hu
        · unfold State.setStored at hy
          rwa [hst] at hy
    exact ⟨t, ht, hend, bytesBits_inj hbits, hrest⟩
  · have hfields := hin
    unfold lzwCompressed lzwHeader at hfields
    simp only [List.append_assoc] at hfields
    obtain ⟨t, ht, hend, hbits, hrest⟩ := lzwDecompress_of_form
      (st := { s.status with stored := false, lzwEos := false, rdOvr := false }) hlen hext hfields hl
      fun t hk hw hst hfin ha => by
        obtain ⟨hn, -, -⟩ := inputBits_of_kept hk
        have hctrl : t.ctrl = s.ctrl := congrArg (fun x => x.2.2.1) hk
        rw [← hctrl] at ha
        obtain ⟨u, hu, hy⟩ := lzwReadCompressed_yields ha rfl (hfin.trans hn.symm) (room_of_started hk hw hp hfits)
        refine ⟨u, ?_, ?_⟩
        · rw [hnum, ← hn]
          exact hu
        · unfold State.setLzwEos State.setStored at hy
          rw [hst] at hy
          exact hy
    exact ⟨t, ht, hend, bytesBits_inj hbits, hrest⟩

end Sys2Proof.Machine

namespace Sys2Proof.Machine

/-! ## ARI_COMPRESS (R323) -/

theorem WritesAri.yields {l : List Bool} {a : Arith} {s t : State} (h : WritesAri l a s t) : Yields l s t := by
  obtain ⟨u, hw, rfl⟩ := h
  exact hw.yields.trans_nil (yields_setAri u a)

/-- Each case of a rescale loop leaves at most one bit more pending (R315). -/
theorem rescalePending_le (p : Nat) (cs : List Rescale) : rescalePending p cs ≤ p + cs.length := by
  induction cs generalizing p with
  | nil => exact Nat.le_refl _
  | cons c cs ih =>
    rw [List.length_cons]
    cases c with
    | e1 => exact Nat.le_trans (ih 0) (by omega)
    | e2 => exact Nat.le_trans (ih 0) (by omega)
    | e3 => exact Nat.le_trans (ih (p + 1)) (by omega)
    | stop => exact Nat.le_trans (ih p) (by omega)

/-- The range encoder's bounds and pending count (R315). -/
structure Arith.At (a : Arith) (low high p : Nat) : Prop where
  low : a.low.toNat = low
  high : a.high.toNat = high
  pending : a.pending.toNat = p

/-- From settled bounds every list of symbols has a stream, and the range encoder writes it (R316, R317). -/
theorem rangeCoded_writes {occ : Nat → Nat} {a : Arith} (hm : a.HoldsModel occ) (syms : List Nat)
    (hsyms : ∀ x ∈ syms, x ≤ 256) {low high p : Nat} (hs : Settled low high)
    (hp : p + 32 * syms.length + 1 < 2 ^ 64) :
    ∃ bits, RangeCoded occ low high p syms bits ∧
      ∀ s : State, s.ari.HoldsModel occ → s.ari.At low high p → s.Room bits.length →
        ∃ t, (forEach syms encodeSymbol >>= fun _ => flushRangeEncoder) s = .ok () t ∧ Yields bits s t := by
  induction syms generalizing low high p with
  | nil =>
    refine ⟨_, .flush low high p, fun s _ ⟨hl, _, hpn⟩ hr => ?_⟩
    rw [List.length_nil] at hp
    subst hl hpn
    obtain ⟨t, ht, hw⟩ := flushRangeEncoder_writes (by omega) hr
    exact ⟨t, ht, hw.yields⟩
  | cons sym syms ih =>
    have hsym := hsyms sym (List.mem_cons_self ..)
    obtain ⟨cs, l, h, hcases, hsettled, hlen, hle⟩ := hm.rescales hs hsym
    have hpend := rescalePending_le p cs
    rw [List.length_cons] at hp
    obtain ⟨bits, hcoded, hrun⟩ := ih (fun x hx => hsyms x (List.mem_cons_of_mem _ hx)) hsettled
      (p := rescalePending p cs) (by omega)
    refine ⟨_, .symbol hcases hcoded, fun s hms hat hr => ?_⟩
    obtain ⟨hl, hh, hpn⟩ := hat
    subst hl hh hpn
    rw [List.length_append] at hr
    obtain ⟨t, ht, hw⟩ := encodeSymbol_writes hms hs hsym hcases hlen (by omega) (hr.le (Nat.le_add_right _ _))
    have hbound := hsettled.2.2.1
    obtain ⟨u, hu, hy⟩ := hrun t (hw.ari ▸ hms.of_table rfl)
      (hw.ari ▸ ⟨toNat_ofNat32 (by omega), toNat_ofNat32 (by omega), by
        show (BitVec.ofNat 64 _).toNat = _
        rw [BitVec.toNat_ofNat]
        exact Nat.mod_eq_of_lt (by omega)⟩) (hw.room hr)
    refine ⟨u, ?_, hw.yields.trans hy⟩
    rw [forEach_cons, bind_assoc, Cmd.bind_of_ok ht]
    exact hu

theorem forEach_append {α : Type} (l m : List α) (body : α → Cmd Unit) :
    forEach (l ++ m) body = (forEach l body >>= fun _ => forEach m body) := by
  induction l with
  | nil => exact (pure_bind _ _).symm
  | cons x xs ih => rw [List.cons_append, forEach_cons, forEach_cons, ih, bind_assoc]

theorem forEach_map {α β : Type} (f : α → β) (l : List α) (body : β → Cmd Unit) :
    forEach (l.map f) body = forEach l fun x => body (f x) := by
  induction l with
  | nil => rfl
  | cons x xs ih => rw [List.map_cons, forEach_cons, forEach_cons, ih]

/-- The symbols of ARI_COMPRESS: the input's bytes, then EOF. -/
def rangeSymbols (data : List Byte) : List Nat := data.map BitVec.toNat ++ [Config.eofSymbol]

theorem length_rangeSymbols (data : List Byte) : (rangeSymbols data).length = data.length + 1 := by
  simp [rangeSymbols]

theorem rangeSymbols_le {data : List Byte} : ∀ x ∈ rangeSymbols data, x ≤ 256 := by
  intro x hx
  obtain hx | hx := List.mem_append.1 hx
  · obtain ⟨b, -, rfl⟩ := List.mem_map.1 hx
    have := b.isLt
    omega
  · exact Nat.le_of_eq (List.mem_singleton.1 hx)

theorem encodeData_eq (data : List Byte) :
    (forEach data (fun b => encodeSymbol b.toNat) >>= fun _ => encodeSymbol Config.eofSymbol >>= fun _ =>
      flushRangeEncoder) = (forEach (rangeSymbols data) encodeSymbol >>= fun _ => flushRangeEncoder) := by
  unfold rangeSymbols
  rw [forEach_append, forEach_map, bind_assoc, forEach_cons, bind_assoc]
  rfl

/-- The arithmetic container's fields before the table (R133). -/
def ariFields (flag : Byte) (ext data : List Byte) : List Bool :=
  byteBits flag ++ (wordBits (BitVec.ofNat 32 ext.length) 16 ++ (bytesBits ext ++
    wordBits (BitVec.ofNat 32 data.length) 32))

theorem ariHeader_eq (flag : Byte) (ext data : List Byte) :
    ariHeader flag ext data = ariFields flag ext data ++ tableBits (occurrences data) := by
  unfold ariHeader ariFields
  simp only [List.append_assoc]

theorem length_tableBits (occ : Nat → Nat) : (tableBits occ).length = 16 + 40 * (observedSymbols occ).length := by
  unfold tableBits
  rw [List.length_append, length_wordBits]
  exact congrArg (16 + ·) (length_entryBits occ _)

theorem length_ariFields (flag : Byte) (ext data : List Byte) :
    (ariFields flag ext data).length = 8 * (ext.length + 7) := by
  unfold ariFields
  simp only [List.length_append, length_byteBits, length_wordBits, length_bytesBits]
  omega

theorem emits_ariFields (s : State) :
    Emits (emitByte (boolByte s.ctrl.isbin) >>= fun _ => writeBits (immWord s.ext.len) 16 >>= fun _ =>
      forEach s.extension emitByte >>= fun _ => writeBits s.inLen 32)
      (ariFields (boolByte s.ctrl.isbin) s.extension s.input) := by
  unfold ariFields
  rw [length_extension, length_input, BitVec.ofNat_toNat, BitVec.ofNat_toNat, BitVec.setWidth_eq]
  exact (emits_emitByte _).bind ((emits_writeBits _ _).bind ((emits_emitBytes _).bind (emits_writeBits _ _)))

/-- The model, its table, and the stream flushed: ARI_COMPRESS after its fields (R323). -/
def ariCompressBody (data : List Byte) : Cmd Unit := do
  modify fillModel
  let u ← get
  writeTable u.ari
  modify startRangeEncoder
  forEach data fun b => encodeSymbol b.toNat
  encodeSymbol Config.eofSymbol
  flushRangeEncoder
  flushBits

theorem ariCompressBody_yields {s : State} {bits : List Bool} (hmax : s.inLen.toNat ≤ Config.ariMax)
    (h0 : s.writer.nbits = 0)
    (hrun : ∀ t : State, t.ari.HoldsModel (occurrences s.input) → t.ari.At 0 0xFFFFFFFF 0 → t.Room bits.length →
      ∃ u, (forEach (rangeSymbols s.input) encodeSymbol >>= fun _ => flushRangeEncoder) t = .ok () u ∧ Yields bits t u)
    (hr : s.Room (tableBits (occurrences s.input) ++ zeroPad bits).length) :
    ∃ t, ariCompressBody s.input s = .ok () t ∧ Yields (tableBits (occurrences s.input) ++ zeroPad bits) s t := by
  have hmodel := fillModel_holds hmax
  have hbase : Yields [] s (fillModel s) := yields_setAri _ _
  have hr' : (fillModel s).Room _ := hr
  rw [List.length_append] at hr'
  obtain ⟨t, ht, hw⟩ := emits_writeTable hmodel.occurred (fillModel s) (hr'.le (Nat.le_add_right _ _))
  have hstart : Yields [] t (startRangeEncoder t) := yields_setAri _ _
  have hroom : (startRangeEncoder t).Room (zeroPad bits).length := hw.room hr'
  obtain ⟨u, hu, hy⟩ := hrun (startRangeEncoder t)
    (Arith.HoldsModel.of_table (hw.ari ▸ hmodel : t.ari.HoldsModel _) rfl) ⟨rfl, rfl, rfl⟩
    (hroom.le (by rw [length_zeroPad]; omega))
  have hn : (startRangeEncoder t).writer.nbits = 0 :=
    hw.aligned h0 (by rw [length_tableBits]; omega)
  obtain ⟨v, hv, hz⟩ := hy.flush hn hroom
  refine ⟨v, ?_, hbase.trans (hw.yields.trans (hstart.trans hz))⟩
  unfold ariCompressBody
  rw [Cmd.modify_bind_run, Cmd.get_bind_run, Cmd.bind_of_ok ht, Cmd.modify_bind_run]
  rw [← encodeData_eq] at hu
  have := Cmd.bind_of_ok (f := fun _ => flushBits) hu
  simp only [bind_assoc] at this
  exact this.trans hv

/-- Settles O57: the fields, the table of the input's model, and the stream the range encoder writes under it. -/
theorem ariCompressWritesTheContainer : Obligations.AriCompressWritesTheContainer := by
  intro s hp hlen hext
  have hsize : s.params.ibufSize ≤ 0x1000000 := hp.1.2
  have hmax : s.inLen.toNat ≤ Config.ariMax := by
    unfold Config.ariMax
    omega
  obtain ⟨bits, hstream, hrun⟩ := rangeCoded_writes (p := 0) (fillModel_holds hmax) (rangeSymbols s.input)
    rangeSymbols_le settled_fullRange (by rw [length_rangeSymbols, length_input]; omega)
  refine ⟨bits, hstream, fun hr => ?_⟩
  rw [ariHeader_eq, List.append_assoc] at hr ⊢
  obtain ⟨b, hb⟩ : ∃ b, b = (startWriter s).setOrigSize s.inLen := ⟨_, rfl⟩
  have hroom : b.Room (ariFields (boolByte s.ctrl.isbin) s.extension s.input ++
      (tableBits (occurrences s.input) ++ zeroPad bits)).length := hb ▸ startWriter_room hr
  rw [List.length_append] at hroom
  obtain ⟨t, ht, hw⟩ := emits_ariFields s b (hroom.le (Nat.le_add_right _ _))
  have hlenT : t.inLen = s.inLen := by rw [hw.frame, hb]; rfl
  have hinT : t.input = s.input := by rw [hw.frame, hb]; rfl
  have h0 : t.writer.nbits = 0 := hw.aligned (by rw [hb]; rfl) (by rw [length_ariFields]; omega)
  obtain ⟨u, hu, hy⟩ := ariCompressBody_yields (hlenT ▸ hmax) h0 (hinT ▸ hrun) (hinT ▸ hw.room hroom)
  rw [hinT] at hu hy
  obtain ⟨hend, hstatus, hextEnd, horig, hbits⟩ := (hw.yields.trans hy).callEnds (s := s)
    (by rw [hb]; rfl) (by rw [hb]; rfl) (by rw [hb]; rfl) (by
      have := length_zeroPad_mod bits
      rw [List.length_append, List.length_append, length_ariFields, length_tableBits]
      omega)
  refine ⟨endCall u, exec_of_ok ?_, hend, hstatus.trans (by rw [hb]; rfl), hextEnd.trans (by rw [hb]; rfl),
    horig.trans (by rw [hb]; rfl), hbits⟩
  show ariCompress s = _
  unfold ariCompress
  rw [checkIn_bind_run, if_neg (Nat.not_lt.2 hlen), checkExt_bind_run, if_neg (Nat.not_lt.2 hext), Cmd.modify_bind_run,
    Cmd.get_bind_run, raiseIf_bind_run, show ((startWriter s).setOrigSize s.inLen).inLen = s.inLen from rfl,
    if_neg (Nat.not_lt.2 hmax)]
  have hbody := Cmd.bind_of_ok (f := fun _ => modify endCall) hu
  have hall := (Cmd.bind_of_ok (f := fun _ => ariCompressBody s.input >>= fun _ => modify endCall) ht).trans hbody
  unfold ariCompressBody at hall
  simp only [bind_assoc] at hall
  subst hb
  exact hall

end Sys2Proof.Machine

namespace Sys2Proof.Machine

/-! ## ARI_DECOMPRESS (R324, R325)

The decoder's VALUE is a window of 32 bits on the stream. A stream is read from the point of view of the decoder: the
bits that E3 defers stand where they are written, so the encoder's pending count is not part of it. -/

/-- `p` complements of the first bit put in after it: the bits written for a stream while `p` are pending (R315). -/
def defer (p : Nat) : List Bool → List Bool
  | [] => []
  | b :: x => b :: (List.replicate p (!b) ++ x)

/-- The stream that one case of the rescale loop shifts to `x` (R320). -/
def Rescale.unshift : Rescale → List Bool → List Bool
  | .e1, x => false :: x
  | .e2, x => true :: x
  | .e3, x => defer 1 x
  | .stop, x => x

/-- The stream of `syms` from settled bounds with nothing pending. -/
inductive RangeSpells (occ : Nat → Nat) : Nat → Nat → List Nat → List Bool → Prop where
  | flush (low high : Nat) :
    RangeSpells occ low high [] [decide (Config.quarter ≤ low), !decide (Config.quarter ≤ low)]
  | symbol {low high l h sym : Nat} {cs : List Rescale} {syms : List Nat} {x : List Bool} :
    Rescales (narrowLow low high (modelCum occ sym) (modelCum occ 257))
      (narrowHigh low high (modelCum occ (sym + 1)) (modelCum occ 257)) cs l h →
    RangeSpells occ l h syms x → RangeSpells occ low high (sym :: syms) (cs.foldr Rescale.unshift x)

section

variable {occ : Nat → Nat} {low high l h p : Nat} {cs : List Rescale} {syms : List Nat} {x : List Bool}

theorem defer_zero (x : List Bool) : defer 0 x = x := by
  cases x <;> rfl

theorem defer_defer_one (p : Nat) (x : List Bool) : defer p (defer 1 x) = defer (p + 1) x := by
  cases x with
  | nil => rfl
  | cons b x =>
    show b :: (List.replicate p (!b) ++ ([!b] ++ x)) = b :: (List.replicate (p + 1) (!b) ++ x)
    rw [List.replicate_succ', List.append_assoc]

theorem Rescale.unshift_ne_nil (c : Rescale) (hx : x ≠ []) : c.unshift x ≠ [] := by
  cases x with
  | nil => exact absurd rfl hx
  | cons b x => cases c <;> exact List.cons_ne_nil _ _

theorem foldr_unshift_ne_nil (cs : List Rescale) (hx : x ≠ []) : cs.foldr Rescale.unshift x ≠ [] := by
  induction cs with
  | nil => exact hx
  | cons c cs ih => exact c.unshift_ne_nil ih

theorem RangeSpells.ne_nil (r : RangeSpells occ low high syms x) : x ≠ [] := by
  induction r with
  | flush => exact List.cons_ne_nil _ _
  | symbol _ _ ih => exact foldr_unshift_ne_nil _ ih

/-- What one rescale loop writes goes before the deferred rest of the stream. -/
theorem rescaleBits_defer (p : Nat) (cs : List Rescale) (x : List Bool) :
    rescaleBits p cs ++ defer (rescalePending p cs) x = defer p (cs.foldr Rescale.unshift x) := by
  induction cs generalizing p with
  | nil => rfl
  | cons c cs ih =>
    cases c with
    | e1 =>
      show (resolvedBits p false ++ rescaleBits 0 cs) ++ defer (rescalePending 0 cs) x = _
      rw [List.append_assoc, ih 0, defer_zero]
      rfl
    | e2 =>
      show (resolvedBits p true ++ rescaleBits 0 cs) ++ defer (rescalePending 0 cs) x = _
      rw [List.append_assoc, ih 0, defer_zero]
      rfl
    | e3 => exact (ih (p + 1)).trans (defer_defer_one p _).symm
    | stop => exact ih p

/-- The encoder's stream, its pending bits put off (R316, R317). -/
theorem RangeCoded.spells {bits : List Bool} (r : RangeCoded occ low high p syms bits) :
    ∃ x, RangeSpells occ low high syms x ∧ bits = defer p x := by
  induction r with
  | flush low high p =>
    refine ⟨_, .flush low high, ?_⟩
    show _ :: List.replicate (p + 1) _ = _ :: (List.replicate p _ ++ [_])
    rw [List.replicate_succ']
  | symbol hcases _ ih =>
    obtain ⟨x, hx, rfl⟩ := ih
    exact ⟨_, .symbol hcases hx, rescaleBits_defer _ _ _⟩

/-! ### The window moves on (R320) -/

/-- One case of the loop moves the window by the bit `b`: the stream after it is a prefix of the window and the bits
that follow, and VALUE is within the half that the case keeps. -/
def Rescale.Moves (c : Rescale) : Prop :=
  ∀ {w m x : List Bool} {b : Bool}, w.length = 32 → x ≠ [] → c.unshift x <+: w ++ b :: m →
    ∃ w', w'.length = 32 ∧ x <+: w' ++ m ∧ bitsValue w' = 2 * (bitsValue w - c.offset) + b.toNat ∧
      c.offset ≤ bitsValue w

theorem bitsValue_concat (w : List Bool) (b : Bool) : bitsValue (w ++ [b]) = 2 * bitsValue w + b.toNat := by
  rw [bitsValue_append, bitsValue_cons]
  show bitsValue w * 2 + (b.toNat * 1 + 0) = _
  omega

theorem prefix_snoc {w m : List Bool} {b : Bool} (hx : x <+: w ++ b :: m) : x <+: (w ++ [b]) ++ m := by
  rwa [List.append_assoc]

theorem moves_e1 : Rescale.e1.Moves := by
  intro w m x b hw _ hx
  obtain ⟨a, w, rfl⟩ := List.exists_cons_of_length_eq_add_one hw
  obtain ⟨rfl, htail⟩ : false = a ∧ x <+: w ++ b :: m := List.cons_prefix_cons.1 hx
  have ho : Rescale.e1.offset = 0 := rfl
  refine ⟨w ++ [b], by simpa using hw, prefix_snoc htail, ?_, Nat.zero_le _⟩
  rw [bitsValue_concat, bitsValue_cons, ho, Bool.toNat_false]
  omega

theorem moves_e2 : Rescale.e2.Moves := by
  intro w m x b hw _ hx
  obtain ⟨a, w, rfl⟩ := List.exists_cons_of_length_eq_add_one hw
  obtain ⟨rfl, htail⟩ : true = a ∧ x <+: w ++ b :: m := List.cons_prefix_cons.1 hx
  have ho : Rescale.e2.offset = 2 ^ 31 := rfl
  have hl : w.length = 31 := by simpa using hw
  refine ⟨w ++ [b], by simpa using hw, prefix_snoc htail, ?_, ?_⟩ <;>
    rw [bitsValue_cons, ho, hl, Bool.toNat_true]
  · rw [bitsValue_concat]
    omega
  · omega

theorem moves_e3 : Rescale.e3.Moves := by
  intro w m x b hw hne hx
  obtain ⟨a, x, rfl⟩ := List.exists_cons_of_ne_nil hne
  obtain ⟨a', w, rfl⟩ := List.exists_cons_of_length_eq_add_one hw
  obtain ⟨a'', w, rfl⟩ := List.exists_cons_of_length_eq_add_one (show w.length = 30 + 1 by simpa using hw)
  obtain ⟨rfl, hnext⟩ : a = a' ∧ (!a) :: x <+: a'' :: (w ++ b :: m) := List.cons_prefix_cons.1 hx
  obtain ⟨rfl, htail⟩ := List.cons_prefix_cons.1 hnext
  have ho : Rescale.e3.offset = 2 ^ 30 := rfl
  have hl : w.length = 30 := by simpa using hw
  have hbits : a.toNat + (!a).toNat = 1 := by cases a <;> rfl
  refine ⟨a :: (w ++ [b]), by simp [hl], List.cons_prefix_cons.2 ⟨rfl, prefix_snoc htail⟩, ?_, ?_⟩ <;>
    rw [bitsValue_cons, bitsValue_cons, ho, List.length_cons, hl]
  · rw [bitsValue_cons, bitsValue_concat, List.length_append, List.length_singleton, hl]
    omega
  · omega

/-- The rescale loop on a window with the cases `cs`: it moves on by one bit for each case, and if the bounds at the
exit hold it, the bounds before held it (R320). -/
def Windows (low high : Nat) (cs : List Rescale) (l h : Nat) : Prop :=
  ∀ {x w m m' : List Bool}, w.length = 32 → x ≠ [] → m.length = cs.length →
    cs.foldr Rescale.unshift x <+: w ++ (m ++ m') →
    ∃ w', w'.length = 32 ∧ x <+: w' ++ m' ∧ rescaleValue (bitsValue w) cs m = bitsValue w' ∧
      (l ≤ bitsValue w' → bitsValue w' ≤ h → low ≤ bitsValue w ∧ bitsValue w ≤ high)

theorem Windows.cons {c : Rescale} (hc : c.Moves) (hhigh : c.offset ≤ high)
    (ih : Windows (2 * (low - c.offset)) (2 * (high - c.offset) + 1) cs l h) : Windows low high (c :: cs) l h := by
  intro x w m m' hw hx hm hpre
  obtain ⟨b, m, rfl⟩ := List.exists_cons_of_length_eq_add_one hm
  obtain ⟨w1, hw1, hpre1, hv1, ho⟩ := hc hw (foldr_unshift_ne_nil cs hx) hpre
  obtain ⟨w2, hw2, hpre2, hv2, hb⟩ := ih hw1 hx (Nat.succ.inj hm) hpre1
  refine ⟨w2, hw2, hpre2, ?_, fun h1 h2 => ?_⟩
  · rw [← hv2, hv1]
    rfl
  · obtain ⟨k1, k2⟩ := hb h1 h2
    have := Bool.toNat_le b
    omega

theorem Rescales.window (r : Rescales low high cs l h) : Windows low high cs l h := by
  have o2 : Rescale.e2.offset = Config.half := rfl
  have o3 : Rescale.e3.offset = Config.quarter := rfl
  have hq : Config.quarter = 0x40000000 := rfl
  have hh : Config.half = 0x80000000 := rfl
  induction r with
  | exit =>
    intro x w m m' hw _ hm hpre
    obtain rfl := List.eq_nil_of_length_eq_zero hm
    exact ⟨w, hw, hpre, rfl, fun h1 h2 => ⟨h1, h2⟩⟩
  | e1 _ _ ih => exact Windows.cons moves_e1 (Nat.zero_le _) ih
  | e2 _ _ _ ih => exact Windows.cons moves_e2 (by omega) ih
  | e3 _ _ _ _ _ ih => exact Windows.cons moves_e3 (by omega) ih

/-! ### The window is within the bounds (R325) -/

/-- A window that starts with `b` and its complement lies in the second or the third quarter. -/
theorem bitsValue_flush {w m : List Bool} {b : Bool} (hw : w.length = 32) (hx : [b, !b] <+: w ++ m) :
    (1 + b.toNat) * 2 ^ 30 ≤ bitsValue w ∧ bitsValue w < (2 + b.toNat) * 2 ^ 30 := by
  obtain ⟨a, w, rfl⟩ := List.exists_cons_of_length_eq_add_one hw
  obtain ⟨a', w, rfl⟩ := List.exists_cons_of_length_eq_add_one (show w.length = 30 + 1 by simpa using hw)
  obtain ⟨rfl, hnext⟩ : b = a ∧ [!b] <+: a' :: (w ++ m) := List.cons_prefix_cons.1 hx
  obtain ⟨rfl, -⟩ := List.cons_prefix_cons.1 hnext
  have hl : w.length = 30 := by simpa using hw
  have hlt := bitsValue_lt w
  have hbits : b.toNat + (!b).toNat = 1 := by cases b <;> rfl
  rw [bitsValue_cons, bitsValue_cons, List.length_cons, hl]
  rw [hl] at hlt
  omega

/-- A window on the stream of settled bounds lies within them (R325). -/
theorem RangeSpells.within {a : Arith} (hm : a.HoldsModel occ) (r : RangeSpells occ low high syms x)
    (hsyms : ∀ s ∈ syms, s ≤ 256) (hs : Settled low high) {w m : List Bool} (hw : w.length = 32) (hx : x <+: w ++ m) :
    low ≤ bitsValue w ∧ bitsValue w ≤ high := by
  induction r generalizing w m with
  | flush low high =>
    obtain ⟨h1, h2⟩ := bitsValue_flush hw hx
    obtain ⟨k1, k2, k3, k4⟩ := hs
    have hq : Config.quarter = 0x40000000 := rfl
    have hh : Config.half = 0x80000000 := rfl
    have ht : Config.threeQuarter = 0xC0000000 := rfl
    by_cases hlow : Config.quarter ≤ low
    · rw [decide_eq_true hlow, Bool.toNat_true] at h1 h2
      omega
    · rw [decide_eq_false hlow, Bool.toNat_false] at h1 h2
      omega
  | @symbol low high l h sym cs syms x hcases hspells ih =>
    have hsym := hsyms sym (List.mem_cons_self ..)
    obtain ⟨cs', l', h', hcases', hsettled, -, -⟩ := hm.rescales hs hsym
    obtain ⟨rfl, rfl, rfl⟩ := hcases.unique hcases'
    obtain ⟨n1, n2, n3⟩ := hm.narrow_bounds hs hsym
    have hlong : cs.length ≤ (m ++ List.replicate cs.length false).length := by
      rw [List.length_append, List.length_replicate]
      omega
    obtain ⟨w', hw', hx', -, hb⟩ := hcases.window hw hspells.ne_nil (List.length_take_of_le hlong)
      (m' := (m ++ List.replicate cs.length false).drop cs.length) (by
        rw [List.take_append_drop, ← List.append_assoc]
        exact hx.trans (List.prefix_append _ _))
    obtain ⟨h1, h2⟩ := ih (fun s hs => hsyms s (List.mem_cons_of_mem _ hs)) hsettled hw' hx'
    obtain ⟨k1, k2⟩ := hb h1 h2
    omega

end

end Sys2Proof.Machine

namespace Sys2Proof.Machine

/-! ### One symbol (R319, R321) -/

/-- The scaled value of a VALUE within a symbol's bounds lies in the symbol's interval (R319). -/
theorem scaledValue_of_narrow {low high value total c d : Nat} (ht : 0 < total) (hr : total ≤ high - low + 1)
    (hcd : c < d) (h1 : narrowLow low high c total ≤ value) (h2 : value ≤ narrowHigh low high d total) :
    c ≤ scaledValue low high value total ∧ scaledValue low high value total < d := by
  have hshare := share_lt ht hr hcd
  unfold narrowLow at h1
  unfold narrowHigh at h2
  obtain ⟨j1, j2⟩ : (high - low + 1) * c / total < value - low + 1 ∧
      value - low + 1 ≤ (high - low + 1) * d / total := by
    generalize (high - low + 1) * c / total = x at *
    generalize (high - low + 1) * d / total = y at *
    omega
  rw [Nat.div_lt_iff_lt_mul ht] at j1
  rw [Nat.le_div_iff_mul_le ht] at j2
  have hpos : 0 < (value - low + 1) * total := Nat.mul_pos (Nat.succ_pos _) ht
  unfold scaledValue
  constructor
  · rw [Nat.le_div_iff_mul_le (Nat.succ_pos _), Nat.mul_comm]
    show (high - low + 1) * c ≤ _
    omega
  · rw [Nat.div_lt_iff_lt_mul (Nat.succ_pos _), Nat.mul_comm d]
    show _ < (high - low + 1) * d
    omega

/-- The range decoder stands on a stream of `syms`: VALUE and the bits to come start with it. -/
structure State.Ranges (s : State) (occ : Nat → Nat) (syms : List Nat) : Prop where
  model : s.ari.HoldsModel occ
  settled : Settled s.ari.low.toNat s.ari.high.toNat
  stream : ∃ x w n, RangeSpells occ s.ari.low.toNat s.ari.high.toNat syms x ∧ w.length = 32 ∧
    s.ari.value.toNat = bitsValue w ∧ x <+: w ++ s.inBits n

section

variable {occ : Nat → Nat} {syms : List Nat} {l m : List Bool} {s t u : State}

theorem State.Ranges.of_writes (h : s.Ranges occ syms) (hw : Writes l s t) : t.Ranges occ syms := by
  rw [hw.frame]
  exact ⟨h.model, h.settled, h.stream⟩

/-- The lookup finds the stream's next symbol, and consuming it leaves the decoder on the rest (R319, R321). -/
theorem State.Ranges.next {sym : Nat} (h : s.Ranges occ (sym :: syms)) (hsyms : ∀ x ∈ sym :: syms, x ≤ 256) :
    lookup s = .ok sym s ∧
      ∃ n a, consumeSymbol sym s = .ok () ((s.afterRead n).setAri a) ∧ ((s.afterRead n).setAri a).Ranges occ syms := by
  obtain ⟨hm, hs, x, w, n, hx, hw, hvalue, hpre⟩ := h
  have hrest : ∀ x ∈ syms, x ≤ 256 := fun x hx => hsyms x (List.mem_cons_of_mem _ hx)
  have hsym := hsyms sym (List.mem_cons_self ..)
  obtain ⟨hlow, hhigh⟩ := hx.within hm hsyms hs hw hpre
  rw [← hvalue] at hlow hhigh
  obtain ⟨sym', hsym', hc', hd', hlookup⟩ := lookup_run hm hlow hhigh
  cases hx with
  | @symbol _ _ lo hi _ cs _ x hcases hspells =>
    obtain ⟨cs', lo', hi', hcases', hsettled, hlen, -⟩ := hm.rescales hs hsym
    obtain ⟨rfl, rfl, rfl⟩ := hcases.unique hcases'
    have hmore : cs.foldr Rescale.unshift x <+: w ++ (s.inBits cs.length ++ (s.afterRead cs.length).inBits n) := by
      rw [← State.inBits_add, Nat.add_comm, State.inBits_add, ← List.append_assoc]
      exact hpre.trans (List.prefix_append _ _)
    obtain ⟨w', hw', hpre', hv', hb⟩ := hcases.window hw hspells.ne_nil (State.length_inBits _ _) hmore
    obtain ⟨hl', hh'⟩ := hspells.within hm hrest hsettled hw' hpre'
    obtain ⟨k1, k2⟩ := hb hl' hh'
    have htotal := hm.total_le
    have hpos := modelCum_lt occ (show 0 < 257 by omega)
    have hrange := hs.range.2
    rw [← hvalue] at k1 k2 hv'
    obtain ⟨hc, hd⟩ := scaledValue_of_narrow (by omega) (by omega) (modelCum_lt occ (Nat.lt_succ_self sym)) k1 k2
    obtain rfl := modelCum_unique occ hc' hd' hc hd
    have hlt := bitsValue_lt w'
    have hbound := hsettled.2.2.1
    rw [hw'] at hlt
    refine ⟨hlookup, cs.length, _, (consumeSymbol_run hm hs hsym hlow hc hd hcases hlen).1, hm.of_table rfl, ?_,
      x, w', n, ?_, hw', ?_, hpre'⟩
    · show Settled (BitVec.ofNat 32 lo).toNat (BitVec.ofNat 32 hi).toNat
      rwa [toNat_ofNat32 (by omega), toNat_ofNat32 (by omega)]
    · show RangeSpells occ (BitVec.ofNat 32 lo).toNat (BitVec.ofNat 32 hi).toNat syms x
      rwa [toNat_ofNat32 (by omega), toNat_ofNat32 (by omega)]
    · show (BitVec.ofNat 32 _).toNat = _
      rw [hv', toNat_ofNat32 hlt]

theorem Yields.setRdOvr (h : Yields l s t) (b : Bool) : Yields l (s.setRdOvr b) (t.setRdOvr b) where
  settings := by
    show (t.kept, { t.status with rdOvr := b }, t.ext, t.origSize) = _
    rw [h.kept, h.status, h.ext, h.origSize]
    rfl
  bits := h.bits
  outLen := h.outLen
  nbits := h.nbits
  others := h.others

/-- Output with reads that may run past RD_END: RD_OVR ends as it may. -/
def YieldsOver (l : List Bool) (s t : State) : Prop := ∃ b, Yields l (s.setRdOvr b) t

theorem YieldsOver.trans (h : YieldsOver l s t) (g : YieldsOver m t u) : YieldsOver (l ++ m) s u := by
  obtain ⟨b, h⟩ := h
  obtain ⟨c, g⟩ := g
  exact ⟨c, (h.setRdOvr c).trans g⟩

theorem Yields.over (h : Yields l s t) : YieldsOver l s t := ⟨s.status.rdOvr, h⟩

theorem yieldsOver_afterRead (s : State) (n : Nat) (a : Arith) : YieldsOver [] s ((s.afterRead n).setAri a) :=
  ⟨s.status.rdOvr || s.runsOver n, yields_nil rfl rfl rfl⟩

theorem YieldsOver.room {n : Nat} (h : YieldsOver l s t) (hr : s.Room (l.length + n)) : t.Room n := by
  obtain ⟨b, h⟩ := h
  exact h.room hr

/-- ARI_DECOMPRESS's loop on the stream of the data (R324). -/
theorem decompressSymbols_yields (data : List Byte) (h : s.Ranges occ (rangeSymbols data))
    (hr : s.Room (bytesBits data).length) :
    ∃ t, repeatN data.length decompressSymbol s = .ok () t ∧ YieldsOver (bytesBits data) s t := by
  induction data generalizing s with
  | nil => exact ⟨s, rfl, (yields_nil rfl rfl rfl : Yields [] s s).over⟩
  | cons c cs ih =>
    obtain ⟨hlookup, n, a, hconsume, hnext⟩ := State.Ranges.next (sym := c.toNat) (syms := rangeSymbols cs) h
      (rangeSymbols_le (data := c :: cs))
    have hc := c.isLt
    have hread := yieldsOver_afterRead s n a
    have hbits : bytesBits (c :: cs) = byteBits c ++ bytesBits cs := rfl
    rw [hbits, List.length_append] at hr
    have hroom := hread.room (n := (byteBits c).length + (bytesBits cs).length)
      (by rwa [List.length_nil, Nat.zero_add])
    obtain ⟨t, ht, hw⟩ := emits_emitByte c _ (hroom.le (Nat.le_add_right _ _))
    obtain ⟨u, hu, hy⟩ := ih (hnext.of_writes hw) (hw.room hroom)
    refine ⟨u, ?_, hread.trans (hw.yields.over.trans hy)⟩
    have hone : decompressSymbol s = .ok () t := by
      unfold decompressSymbol
      rw [Cmd.bind_of_ok hlookup, raiseIf_bind_run, if_neg (by show ¬ c.toNat = 256; omega), Cmd.bind_of_ok hconsume,
        BitVec.ofNat_toNat, BitVec.setWidth_eq]
      exact ht
    exact (Cmd.bind_of_ok hone).trans hu

/-- ARI_DEC_INIT at the first bit of a stream (R318). -/
theorem startRangeDecoder_ranges {x : List Bool} (hm : s.ari.HoldsModel occ)
    (hx : RangeSpells occ 0 0xFFFFFFFF syms x) (hin : s.inBits x.length = x) :
    ∃ t, startRangeDecoder s = .ok () t ∧ t.Ranges occ syms ∧ YieldsOver [] s t := by
  refine ⟨_, ?_, ?_, yieldsOver_afterRead s 32 { s.ari.fullRange with value := BitVec.ofNat 32 (bitsValue (s.inBits 32)) }⟩
  · unfold startRangeDecoder
    rw [Cmd.modify_bind_run, Cmd.bind_of_ok (readBits_run 32 _)]
    rfl
  · have hlt := bitsValue_lt (s.inBits 32)
    have hlen := State.length_inBits s 32
    rw [hlen] at hlt
    refine ⟨hm.of_table rfl, settled_fullRange, x, s.inBits 32, x.length, hx, hlen, toNat_ofNat32 hlt, ?_⟩
    show x <+: s.inBits 32 ++ (s.afterRead 32).inBits x.length
    rw [← State.inBits_add, Nat.add_comm, State.inBits_add, hin]
    exact List.prefix_append _ _

/-! ### The container read (R133, R324) -/

/-- The header of ARI_DECOMPRESS (R324). -/
theorem ariReadHeader_run {flag : Byte} {ext : List Byte} {n k : Word} {len : Nat} (hext : ext.length < 2 ^ 16)
    (hk : k.toNat ≤ 256) (hlen : ext.length + 9 + 5 * k.toNat ≤ len)
    (ha : s.Ahead 0 (wordBits (byteWord flag) 8 ++ (wordBits (BitVec.ofNat 32 ext.length) 16 ++ (bytesBits ext ++
      (wordBits n 32 ++ (wordBits k 16 ++ m)))))) :
    ∃ t, ariReadHeader len s = .ok (n, k) t ∧ t.Ahead (8 * (ext.length + 9)) m ∧
      Yields [] (((s.setIsbinIn (decide (flag ≠ 0))).setExt
        { len := BitVec.ofNat 16 ext.length, off := 3 }).setOrigSize n) t := by
  have hnum : (BitVec.ofNat 32 ext.length).toNat = ext.length := toNat_ofNat32 (by omega)
  obtain ⟨b, hb⟩ : ∃ b, b = decide (byteWord flag ≠ 0) := ⟨_, rfl⟩
  rw [← decide_byteWord_ne_zero, ← hb]
  obtain ⟨u, hu⟩ : ∃ u, u = (s.skip 8).setIsbinIn b := ⟨_, rfl⟩
  have hau : u.Ahead 8 (wordBits (BitVec.ofNat 32 ext.length) 16 ++ (bytesBits ext ++
      (wordBits n 32 ++ (wordBits k 16 ++ m)))) := hu ▸ ha.skipWord.congr rfl rfl rfl
  obtain ⟨v, hv⟩ : ∃ v, v = (u.skip 16).setExt { len := BitVec.ofNat 16 ext.length, off := 3 } := ⟨_, rfl⟩
  have hav : v.Ahead 24 (bytesBits ext ++ (wordBits n 32 ++ (wordBits k 16 ++ m))) := hv ▸ hau.skipWord.congr rfl rfl rfl
  have hjump : ((u.skip 16).setExt { len := BitVec.ofNat 16 ext.length, off := 3 }).setReader
      { (u.skip 16).reader with ptr := BitVec.ofNat 32 (3 + ext.length) } = v.skip (bytesBits ext).length := by
    rw [← hav.jump (a := 3) rfl, hv]
    rfl
  have haw : (((v.skip (bytesBits ext).length).skip 32).setOrigSize n).Ahead _ _ :=
    hav.skip.skipWord.congr rfl rfl rfl
  refine ⟨(((v.skip (bytesBits ext).length).skip 32).setOrigSize n).skip 16, ?_, ?_, ?_⟩
  · unfold ariReadHeader
    rw [raiseIf_bind_run, if_neg (by omega), Cmd.bind_of_ok (ha.readBits (byteWord_lt flag)), ← hb,
      Cmd.modify_bind_run, ← hu, Cmd.bind_of_ok (hau.readBits (by rw [hnum]; exact hext)), raiseIf_bind_run, hnum,
      if_neg (by omega), Cmd.modify_bind_run, setWidth_sixteen_ofNat, hjump,
      Cmd.bind_of_ok (hav.skip.readBits n.isLt), Cmd.modify_bind_run, Cmd.bind_of_ok (haw.readBits (by omega)),
      raiseIf_bind_run, if_neg (by omega)]
    rfl
  · have := haw.skipWord
    rw [length_bytesBits] at this ⊢
    exact (show 24 + 8 * ext.length + 32 + 16 = 8 * (ext.length + 9) by omega) ▸ this
  · rw [hv, hu]
    exact yields_nil (by simp [State.settings, State.kept, State.skip, State.setIsbinIn])
      (by simp [State.skip]) (by simp [State.skip])

/-- ARI_DECOMPRESS after its header (R324). -/
def ariDecompressBody (n k : Word) : Cmd Unit := do
  let sum ← readEntries k.toNat
  raiseIf (sum ≠ n.toNat) .invalidContainer
  modify fun u => u.setAri u.ari.buildModel
  startRangeDecoder
  repeatN n.toNat decompressSymbol

theorem ariDecompressBody_yields {data : List Byte} {bits : List Bool} {p : Nat} (hmax : data.length ≤ Config.ariMax)
    (hstream : RangeStream data bits) (ha : s.Ahead p (tableEntryBits (occurrences data) ++ (bits ++ m)))
    (hr : s.Room (bytesBits data).length) :
    ∃ t, ariDecompressBody (BitVec.ofNat 32 data.length)
        (BitVec.ofNat 32 (observedSymbols (occurrences data)).length) s = .ok () t ∧
      YieldsOver (bytesBits data) s t := by
  have hmax' : data.length ≤ 0x3FFFFEFF := hmax
  have hsum := sum_occurrences data
  obtain ⟨st, hrun, hocc⟩ := readEntries_run (hsum ▸ hmax) ha.prefix.inBits
  rw [hsum, ha.prefix.afterRead] at hrun
  obtain ⟨v, hv⟩ : ∃ v, v = ((s.skip (tableEntryBits (occurrences data)).length).setAri
      ({ s.ari with occ := st } : Arith).buildModel) := ⟨_, rfl⟩
  have hmodel : v.ari.HoldsModel (occurrences data) := hv ▸ buildModel_holds hocc (hsum ▸ hmax)
  have hbase : Yields [] s v := hv ▸ (yields_skip _ _).trans (yields_setAri _ _)
  have hav : v.Ahead (p + (tableEntryBits (occurrences data)).length) (bits ++ m) := hv ▸ ha.skip.congr rfl rfl rfl
  obtain ⟨x, hx, hbits⟩ := hstream.spells
  rw [defer_zero] at hbits
  subst hbits
  obtain ⟨t, ht, hranges, hyt⟩ := startRangeDecoder_ranges hmodel hx hav.prefix.inBits
  have hover : YieldsOver [] s t := hbase.over.trans hyt
  obtain ⟨u, hu, hy⟩ := decompressSymbols_yields data hranges (hover.room (by rwa [List.length_nil, Nat.zero_add]))
  refine ⟨u, ?_, hover.trans hy⟩
  unfold ariDecompressBody
  rw [toNat_length_observedSymbols, toNat_ofNat32 (by omega), Cmd.bind_of_ok hrun, raiseIf_bind_run,
    if_neg (fun h => h rfl), Cmd.modify_bind_run]
  subst hv
  exact (Cmd.bind_of_ok ht).trans hu

end

/-- Settles O58: the header, the table, and the decoder's window moving along the encoder's stream. -/
theorem ariDecompressReadsTheContainer : Obligations.AriDecompressReadsTheContainer := by
  intro s flag ext data bits rest hp hlen hext hfits hstream hin
  have hsize : s.params.obufSize ≤ 0x1000000 := hp.2.1.2
  have hmax : data.length ≤ 0x3FFFFEFF := by omega
  have hk := length_observedSymbols (occurrences data)
  have hknum := toNat_length_observedSymbols (occurrences data)
  have hbytes := congrArg List.length hin
  rw [ariHeader_eq] at hbytes
  simp only [length_inputBits, List.length_append, length_ariFields, length_tableBits] at hbytes
  have ha := startReader_ahead s
  rw [hin, ariHeader_eq, ariFields, tableBits] at ha
  simp only [List.append_assoc] at ha
  obtain ⟨t, ht, hat, hyt⟩ := ariReadHeader_run (len := s.inLen.toNat) hext (by rw [hknum]; exact hk)
    (by rw [hknum]; omega) ha
  obtain ⟨b, hb⟩ : ∃ b, b = (((startReader (startWriter s)).setIsbinIn (decide (flag ≠ 0))).setExt
      { len := BitVec.ofNat 16 ext.length, off := 3 }).setOrigSize (BitVec.ofNat 32 data.length) := ⟨_, rfl⟩
  rw [← hb] at hyt
  have hkept : b.kept = s.kept := by
    rw [hb]
    simp [State.kept, startReader, startWriter, State.setIsbinIn]
  have hwriter : b.writer = (startWriter s).writer := by
    rw [hb]
    simp [startReader, startWriter, State.setIsbinIn]
  obtain ⟨u, hu, hyu⟩ := ariDecompressBody_yields hmax hstream hat (hyt.room (by
    rw [List.length_nil, Nat.zero_add]
    exact room_of_started hkept hwriter hp hfits))
  obtain ⟨rdOvr, hy⟩ := hyt.over.trans hyu
  obtain ⟨hend, hstatus, hextEnd, horig, hbits⟩ := hy.callEnds (s := s) hkept hwriter
    (by rw [hb]; simp [startReader, startWriter, State.setIsbinIn]) (by
      rw [List.nil_append, length_bytesBits]
      omega)
  refine ⟨endCall u, exec_of_ok ?_, hend, bytesBits_inj hbits, horig.trans (by rw [hb]; rfl),
    hextEnd.trans (by rw [hb]; rfl), ?_⟩
  · show ariDecompress s = _
    unfold ariDecompress
    rw [checkIn_bind_run, if_neg (Nat.not_lt.2 hlen), Cmd.modify_bind_run, Cmd.get_bind_run,
      show (startReader (startWriter s)).inLen = s.inLen from rfl, Cmd.bind_of_ok ht]
    have hall := Cmd.bind_of_ok (f := fun _ => modify endCall) hu
    unfold ariDecompressBody at hall
    simp only [bind_assoc] at hall
    exact hall
  · rw [hstatus, hb]
    simp [startReader, startWriter, State.setIsbinIn, State.setRdOvr]

end Sys2Proof.Machine

namespace Sys2Proof.Machine

/-! ## The command frame -/

/-- A command word goes to CMD: the access is allowed, whatever the parameters (R32, R95). -/
theorem hostWrite_cmd (w : Word) (s : State) :
    hostWrite 32 0x18 w s =
      .next (if s.seq.phase = .busy then s.setStatus { s.status with cmdLost := true } else acceptCommand w s) := by
  have hplace : placeOf 0x18 = .regs Reg.cmd.offset := rfl
  rw [hostWrite_of_busError_none rfl, hplace, writeIdle_offset]
  rfl

/-- Settles O8: the first two clauses are the write to CMD in the two phases, the others the core's move. -/
theorem commandAcceptance : Obligations.CommandAcceptance := by
  refine fun s w rest => ⟨fun ht hi => ?_, fun ht hb => ?_, fun ht hb => ?_, fun ht hi => ?_⟩
  · rw [step_write_eq ht, hostWrite_cmd, if_neg (idle_ne_busy (s := s.setTape rest) hi)]
    rfl
  · rw [step_write_eq ht, hostWrite_cmd, if_pos (show (s.setTape rest).seq.phase = .busy from hb)]
    rfl
  · rw [step_core_eq ht]
    exact if_pos hb
  · rw [step_core_eq ht]
    exact if_neg (idle_ne_busy hi)

/-- The gate lets a command run when ERR is clear, and CLR_ERR always: its word is the exact one (R161). -/
theorem gated_eq_false {s : State} {i : Instr} (hd : decode s.seq.cmdWord = .ok i)
    (hg : s.status.err = false ∨ i = .clrErr) : gated s = false := by
  unfold gated
  obtain herr | rfl := hg
  · rw [herr, Bool.false_and]
  · have hword : s.seq.cmdWord = 0x00000003 := (encode_of_decode hd).symm
    rw [hword, decide_eq_false (not_not_intro rfl), Bool.and_false]

/-- Settles O5: the core's move is the command's meaning and the completion, with or without a move left on the tape. -/
theorem stepRunsTheDecodedCommand : Obligations.StepRunsTheDecodedCommand := by
  intro s t i hb hd hg
  have hopen := gated_eq_false hd hg
  refine ⟨fun ht he => ?_, fun rest ht he => ?_⟩
  · rw [step_idle_tape ht, coreMove_of_decode hb hopen hd he]
  · rw [step_core_eq ht]
    exact coreMove_of_decode (s := s.setTape rest) hb hopen hd he

/-- The core's move under the ERR gate is the completion alone (R161, R370). -/
theorem coreMove_of_gated {s : State} (hb : s.seq.phase = .busy) (herr : s.status.err = true)
    (hw : s.seq.cmdWord ≠ 0x00000003) : coreMove exec s = .next (complete s) := by
  have hgate : gated s = true := by
    unfold gated
    rw [herr, decide_eq_true hw, Bool.and_true]
  unfold coreMove commandStep
  rw [if_pos hb, if_pos hgate]

/-- Settles O7: the gate is asked before the decoder. -/
theorem errGateIgnoresCommands : Obligations.ErrGateIgnoresCommands := by
  intro s rest hb herr hw
  refine ⟨fun ht => ?_, fun ht => ?_⟩
  · rw [step_idle_tape ht, coreMove_of_gated hb herr hw]
  · rw [step_core_eq ht]
    exact coreMove_of_gated (s := s.setTape rest) hb herr hw

/-! ## Commands that check IN_LEN first -/

section

variable {s : State} {i : Instr} {c : Unit → Cmd Unit}

theorem exec_inputTooLong (hc : commandOf i = checkIn >>= c) (h : s.params.ibufSize < s.inLen.toNat) :
    exec i s = .next (takeError .ioFailure s) := by
  apply exec_of_error
  rw [hc, checkIn_bind_run, if_pos h]

/-- With IN_LEN in range the check leaves the state as it is, and the rest of the command's pseudocode runs. -/
theorem commandOf_inputFits (hc : commandOf i = checkIn >>= c) (h : s.inLen.toNat ≤ s.params.ibufSize) :
    commandOf i s = c () s := by
  rw [hc, checkIn_bind_run, if_neg (Nat.not_lt.2 h)]

end

/-- Settles O32: after the check, BS_RINIT is one update. -/
theorem readerStart : Obligations.ReaderStart := fun _ =>
  ⟨fun h => exec_of_ok (commandOf_inputFits (i := .bsRinit) rfl h), exec_inputTooLong rfl⟩

/-- Settles O34: after the check, HUF_FREQ is `fillFreq` and the flags. -/
theorem hufFreqCounts : Obligations.HufFreqCounts := fun s =>
  ⟨fun h => ⟨(fillFreq s).setValid s.valid.afterFreq, exec_of_ok (commandOf_inputFits (i := .hufFreq) rfl h), rfl,
    fun _ => fillFreq_freqAt s⟩, exec_inputTooLong rfl⟩

/-- Every whole-buffer command checks IN_LEN before anything else (R168). -/
theorem wholeBuffer_checksInput {i : Instr} (hi : i.wholeBuffer = true) : ∃ c, commandOf i = checkIn >>= c := by
  cases i with
  | hufCompress | hufDecompress | lzwCompress | lzwDecompress | ariCompress | ariDecompress => exact ⟨_, rfl⟩
  | _ => cases hi

/-! ## Containers refused by their lengths -/

section

variable {s : State} {p k : Nat} {l : List Bool}

theorem State.Ahead.readField (h : s.Ahead p l) (hk : k ≤ l.length) :
    Machine.readBits k s = .ok (BitVec.ofNat 32 (bitsValue (l.take k))) (s.skip k) := by
  have hfield : s.Ahead p (l.take k) := State.Ahead.prefix (m := l.drop k) (by rwa [List.take_append_drop])
  have hlen : (l.take k).length = k := List.length_take_of_le hk
  have hbits := hfield.inBits
  have hread := hfield.afterRead
  rw [hlen] at hbits hread
  rw [readBits_run, hbits, hread]

theorem State.Ahead.skipField (h : s.Ahead p l) (hk : k ≤ l.length) : (s.skip k).Ahead (p + k) (l.drop k) := by
  have hskip : (s.skip (l.take k).length).Ahead (p + (l.take k).length) (l.drop k) :=
    State.Ahead.skip (by rwa [List.take_append_drop])
  rwa [List.length_take_of_le hk] at hskip

end

section

variable {s : State}

/-- EXT_LEN is checked right after IN_LEN. -/
theorem exec_extensionTooLong {i : Instr} {c : Unit → Cmd Unit}
    (hc : commandOf i = checkIn >>= fun _ => checkExt >>= c) (h : s.inLen.toNat ≤ s.params.ibufSize)
    (hext : s.params.extMax < s.ext.len.toNat) : exec i s = .next (takeError .ioFailure s) := by
  apply exec_of_error
  rw [commandOf_inputFits hc h, checkExt_bind_run, if_pos hext]

theorem toNat_bitsValue_take (l : List Bool) {k : Nat} (hk : k ≤ 32) :
    (BitVec.ofNat 32 (bitsValue (l.take k))).toNat = bitsValue (l.take k) :=
  toNat_ofNat32 ((bitsValue_lt _).trans_le (Nat.pow_le_pow_right (by decide)
    ((List.length_take_le _ _).trans hk)))

/-- A whole-buffer decompress whose IN_LEN is in range works on the state with the writer and the reader started. -/
theorem decompress_run (f : State → Cmd Unit) (h : s.inLen.toNat ≤ s.params.ibufSize) :
    (checkIn >>= fun _ => (modify fun s => startReader (startWriter s) : Cmd PUnit) >>= fun _ => get >>= f) s =
      f (startReader (startWriter s)) (startReader (startWriter s)) := by
  rw [checkIn_bind_run, if_neg (Nat.not_lt.2 h), Cmd.modify_bind_run, Cmd.get_bind_run]

theorem hufDecompress_short (h : s.inLen.toNat ≤ s.params.ibufSize) (hshort : s.inLen.toNat < 5) :
    hufDecompress s = .error .invalidContainer (startReader (startWriter s)) := by
  refine (decompress_run _ h).trans ?_
  rw [raiseIf_bind_run]
  exact if_pos hshort

theorem lzwDecompress_short (h : s.inLen.toNat ≤ s.params.ibufSize) (hshort : s.inLen.toNat < 2) :
    lzwDecompress s = .error .invalidContainer (startReader (startWriter s)) := by
  refine (decompress_run _ h).trans ?_
  rw [raiseIf_bind_run]
  exact if_pos hshort

/-- The extension length LZW_DECOMPRESS reads is the container's first 16 bits (R131, R278). -/
theorem lzwDecompress_shortForExtension (h : s.inLen.toNat ≤ s.params.ibufSize) (h2 : 2 ≤ s.inLen.toNat)
    (hshort : s.inLen.toNat < bitsValue (s.inputBits.take 16) + 7) :
    lzwDecompress s = .error .invalidContainer ((startReader (startWriter s)).skip 16) := by
  have hread := (startReader_ahead s).readField (k := 16) (by rw [length_inputBits]; omega)
  refine (decompress_run _ h).trans ?_
  rw [raiseIf_bind_run, show (startReader (startWriter s)).inLen = s.inLen from rfl, if_neg (Nat.not_lt.2 h2),
    Cmd.bind_of_ok hread, raiseIf_bind_run, toNat_bitsValue_take _ (by decide), if_pos hshort]

/-- ARI_DECOMPRESS raises what its header raises. -/
theorem ariDecompress_of_header {e : ErrCode} {u : State} (h : s.inLen.toNat ≤ s.params.ibufSize)
    (hheader : ariReadHeader s.inLen.toNat (startReader (startWriter s)) = .error e u) :
    ariDecompress s = .error e u :=
  (decompress_run _ h).trans (Cmd.bind_of_error hheader)

theorem ariReadHeader_short {len : Nat} (hshort : len < 3) : ariReadHeader len s = .error .invalidContainer s := by
  unfold ariReadHeader
  rw [raiseIf_bind_run, if_pos hshort]

/-- The extension length ARI_DECOMPRESS reads is the 16 bits after the first byte (R133, R324). -/
theorem ariReadHeader_shortForExtension {l : List Bool} {len : Nat} (ha : s.Ahead 0 l) (hl : l.length = 8 * len)
    (h3 : 3 ≤ len) (hshort : len < bitsValue ((l.drop 8).take 16) + 9) :
    ∃ u, ariReadHeader len s = .error .invalidContainer u := by
  obtain ⟨b, hb⟩ : ∃ b, b = decide (BitVec.ofNat 32 (bitsValue (l.take 8)) ≠ 0) := ⟨_, rfl⟩
  have hfield : ((s.skip 8).setIsbinIn b).Ahead 8 (l.drop 8) :=
    (Nat.zero_add 8 ▸ ha.skipField (k := 8) (by omega)).congr rfl rfl rfl
  refine ⟨((s.skip 8).setIsbinIn b).skip 16, ?_⟩
  unfold ariReadHeader
  rw [raiseIf_bind_run, if_neg (Nat.not_lt.2 h3), Cmd.bind_of_ok (ha.readField (k := 8) (by omega)),
    Cmd.modify_bind_run, ← hb, Cmd.bind_of_ok (hfield.readField (k := 16) (by rw [List.length_drop]; omega)),
    raiseIf_bind_run, toNat_bitsValue_take _ (by decide), if_pos hshort]

/-! ## The LZW flag -/

/-- LZW_DECOMPRESS past the fields before the flag is what `lzwReadForm` does with the flag (R131, R278). -/
theorem lzwDecompress_eq_readForm {ext : List Byte} {n : Word} {flag : Byte} {m : List Bool}
    (hlen : s.inLen.toNat ≤ s.params.ibufSize) (hext : ext.length < 2 ^ 16)
    (hin : s.inputBits =
      wordBits (BitVec.ofNat 32 ext.length) 16 ++ (bytesBits ext ++ (wordBits n 32 ++ (byteBits flag ++ m)))) :
    ∃ t, lzwDecompress s =
      (lzwReadForm (byteWord flag) s.inLen.toNat (ext.length + 7) n.toNat >>= fun _ => modify endCall) t := by
  have hnum : (BitVec.ofNat 32 ext.length).toNat = ext.length := toNat_ofNat32 (by omega)
  have hbytes := congrArg List.length hin
  simp only [length_inputBits, List.length_append, length_byteBits, length_wordBits, length_bytesBits] at hbytes
  have ha := startReader_ahead s
  rw [hin] at ha
  obtain ⟨u, hu⟩ : ∃ u, u = ((startReader (startWriter s)).skip 16).setExt
      { len := (BitVec.ofNat 32 ext.length).setWidth 16, off := 2 } := ⟨_, rfl⟩
  have hau : u.Ahead 16 (bytesBits ext ++ (wordBits n 32 ++ (byteBits flag ++ m))) :=
    hu ▸ ha.skipWord.congr rfl rfl rfl
  have hjump := hau.jump (a := 2) rfl
  have hav : (((u.skip (bytesBits ext).length).skip 32).setOrigSize n).Ahead _ (wordBits (byteWord flag) 8 ++ m) :=
    hau.skip.skipWord.congr rfl rfl rfl
  refine ⟨(((u.skip (bytesBits ext).length).skip 32).setOrigSize n).skip 8, (decompress_run _ hlen).trans ?_⟩
  rw [raiseIf_bind_run, show (startReader (startWriter s)).inLen = s.inLen from rfl, if_neg (by omega),
    Cmd.bind_of_ok (ha.readBits (by rw [hnum]; exact hext)), raiseIf_bind_run, hnum, if_neg (by omega),
    Cmd.modify_bind_run, ← hu, show ((startReader (startWriter s)).skip 16).reader = u.reader by rw [hu]; rfl, hjump,
    Cmd.bind_of_ok (hau.skip.readBits n.isLt), Cmd.modify_bind_run, Cmd.bind_of_ok (hav.readBits (byteWord_lt flag))]

theorem byteWord_injective : Function.Injective byteWord := fun a b h =>
  BitVec.eq_of_getLsbD_eq fun i _ => by rw [← getLsbD_byteWord a, h, getLsbD_byteWord]

theorem lzwReadForm_badFlag {flag : Byte} (h0 : flag ≠ 0) (h1 : flag ≠ 1) (len start n : Nat) :
    lzwReadForm (byteWord flag) len start n s = .error .invalidContainer s := by
  have hw0 : byteWord flag ≠ 0 := byteWord_injective.ne (a₂ := 0) h0
  have hw1 : byteWord flag ≠ 1 := byteWord_injective.ne (a₂ := 1) h1
  unfold lzwReadForm
  rw [if_neg hw0, if_neg hw1, raise_run]

theorem lzwDecompress_badFlag {ext : List Byte} {n : Word} {flag : Byte} {m : List Bool}
    (hlen : s.inLen.toNat ≤ s.params.ibufSize) (hext : ext.length < 2 ^ 16)
    (hin : s.inputBits =
      wordBits (BitVec.ofNat 32 ext.length) 16 ++ (bytesBits ext ++ (wordBits n 32 ++ (byteBits flag ++ m))))
    (h0 : flag ≠ 0) (h1 : flag ≠ 1) : ∃ u, lzwDecompress s = .error .invalidContainer u := by
  obtain ⟨t, ht⟩ := lzwDecompress_eq_readForm hlen hext hin
  exact ⟨t, ht.trans (Cmd.bind_of_error (lzwReadForm_badFlag h0 h1 _ _ _))⟩

end

theorem exec_refused {i : Instr} {s : State} {e : ErrCode} (h : ∃ u, commandOf i s = .error e u) :
    ∃ u, exec i s = .next (takeError e u) :=
  h.imp fun _ => exec_of_error

/-- Settles O60: the checks in the order of the pseudocode; a container's extension length is read where the header says
it stands. -/
theorem badContainersAreRefused : Obligations.BadContainersAreRefused := by
  intro s
  refine ⟨fun i hi h => ?_, fun h => ⟨fun hext => ⟨?_, ?_⟩, fun hs => ?_, fun hs => ?_, fun h2 hs => ?_,
    fun hs => ?_, fun h3 hs => ?_, fun ext n f rest _ hext hin h0 h1 => ?_⟩⟩
  · obtain ⟨c, hc⟩ := wholeBuffer_checksInput hi
    exact exec_inputTooLong hc h
  · exact exec_extensionTooLong rfl h hext
  · exact exec_extensionTooLong rfl h hext
  · exact exec_refused (i := .hufDecompress) ⟨_, hufDecompress_short h hs⟩
  · exact exec_refused (i := .lzwDecompress) ⟨_, lzwDecompress_short h hs⟩
  · exact exec_refused (i := .lzwDecompress) ⟨_, lzwDecompress_shortForExtension h h2 hs⟩
  · exact exec_refused (i := .ariDecompress) ⟨_, ariDecompress_of_header h (ariReadHeader_short hs)⟩
  · obtain ⟨u, hu⟩ := ariReadHeader_shortForExtension (startReader_ahead s) (length_inputBits s) h3 hs
    exact exec_refused (i := .ariDecompress) ⟨u, ariDecompress_of_header h hu⟩
  · simp only [List.append_assoc] at hin
    exact exec_refused (i := .lzwDecompress) (lzwDecompress_badFlag h hext hin h0 h1)

end Sys2Proof.Machine

namespace Sys2Proof.Machine

/-! ## The bit-stream commands -/

/-- Settles O29: both commands are `writeBits`, on ARG or on the extended immediate. -/
theorem writeCommandsAppendBits : Obligations.WriteCommandsAppendBits := by
  refine ⟨fun cnt s _ hr => ?_, fun cnt imm s _ hr => ?_⟩
  · obtain ⟨t, ht, hw⟩ := writeBits_writes s.arg cnt.toNat hr
    exact ⟨t, exec_of_ok (i := .bsWrite cnt) ht, hw⟩
  · obtain ⟨t, ht, hw⟩ := writeBits_writes (immWord imm) cnt.toNat hr
    exact ⟨t, exec_of_ok (i := .bsWritei cnt imm) ht, hw⟩

theorem flushBits_of_aligned {s : State} (h : s.writer.nbits = 0) : flushBits s = .ok ⟨⟩ s := by
  unfold flushBits
  rw [Cmd.get_bind_run, if_pos h, Cmd.pure_run]

/-- Settles O30: an aligned writer skips the byte; any other writes the held bits over zeros. -/
theorem flushPadsTheHeldBits : Obligations.FlushPadsTheHeldBits := by
  refine fun s => ⟨fun h => exec_of_ok (i := .bsFlush) (flushBits_of_aligned h), fun hr => ?_⟩
  obtain ⟨t, ht, hw, hn, -⟩ := flushBits_writes hr
  exact ⟨t, exec_of_ok (i := .bsFlush) ht, hw, hn⟩

theorem writeBits_full {s : State} (v : Word) (n : Nat) (hp : s.params.Ok)
    (ho : s.writer.outLen.toNat ≤ s.params.obufSize) (hr : ¬ s.Room n) :
    ∃ u, writeBits v n s = .error .ioFailure u ∧ u = (s.setWriter u.writer).setObuf u.obuf := by
  rw [writeBits_eq]
  exact writeBitString_full _ hp ho (by rwa [length_wordBits])

/-- Settles O31: the bit that completes a byte finds OBUF full, after bits that changed the writer and OBUF only. -/
theorem fullOutputRaisesIoFailure : Obligations.FullOutputRaisesIoFailure := by
  refine fun s hp ho => ⟨fun cnt hr => ?_, fun cnt imm hr => ?_, fun hr => ?_⟩
  · obtain ⟨u, hu, hf⟩ := writeBits_full s.arg cnt.toNat hp ho hr
    exact ⟨u, exec_of_error (i := .bsWrite cnt) hu, hf⟩
  · obtain ⟨u, hu, hf⟩ := writeBits_full (immWord imm) cnt.toNat hp ho hr
    exact ⟨u, exec_of_error (i := .bsWritei cnt imm) hu, hf⟩
  · exact exec_of_error (i := .bsFlush) (flushBits_full hp ho hr)

theorem bsRead_run (n : Nat) (s : State) :
    bsRead n s = .ok ⟨⟩ ((s.afterRead n).setRes (BitVec.ofNat 32 (bitsValue (s.inBits n)))) := by
  unfold bsRead
  rw [Cmd.bind_of_ok (readBits_run n s), Cmd.modify_run]

/-- Settles O33: BS_READ is `readBits` with RES set, BS_ALIGN the reader's advance to a byte boundary. -/
theorem readerCommands : Obligations.ReaderCommands :=
  ⟨fun cnt s _ => exec_of_ok (i := .bsRead cnt) (bsRead_run cnt.toNat s),
    fun s => exec_of_ok (i := .bsAlign) (alignRead_run s)⟩

/-! ## The starts of streams and sessions -/

/-- The width of the first assigned code (R261). -/
theorem encWidth_first (fixed12 : Bool) : BitVec.ofNat 4 (encWidth fixed12 258) = if fixed12 then 12 else 9 := by
  cases fixed12 <;> rfl

theorem execLzwEncReset_eq (s : State) :
    exec .lzwEncReset s =
      .next
        ((s.setLzwE
            { s.lzwE with
              next := 258, width := (if s.ctrl.lzwFixed12 then 12 else 9), pat := 0, patV := false }).setValid
          { s.valid with lzwE := true }) := by
  rw [← encWidth_first]
  rfl

theorem startRangeDecoder_run (s : State) :
    startRangeDecoder s =
      .ok ⟨⟩ ((s.afterRead 32).setAri
        { s.ari with low := 0, high := 0xFFFFFFFF, value := BitVec.ofNat 32 (bitsValue (s.inBits 32)) }) := by
  unfold startRangeDecoder
  rw [Cmd.modify_bind_run, Cmd.bind_of_ok (readBits_run 32 _)]
  rfl

theorem ariDecInit_run (s : State) :
    ariDecInit s =
      .ok ⟨⟩ (((s.afterRead 32).setAri
          { s.ari with low := 0, high := 0xFFFFFFFF, value := BitVec.ofNat 32 (bitsValue (s.inBits 32)) }).setValid
        { s.valid with ariDec := true, ariEnc := false }) := by
  unfold ariDecInit
  rw [Cmd.bind_of_ok (startRangeDecoder_run s), Cmd.modify_run]
  rfl

/-- Settles O28: each start is one update of the state, ARI_DEC_INIT's after the 32 bits it reads. -/
theorem sessionStarts : Obligations.SessionStarts := fun s =>
  ⟨rfl, execLzwEncReset_eq s, rfl, rfl, exec_of_ok (i := .ariDecInit) (ariDecInit_run s)⟩

end Sys2Proof.Machine

namespace Sys2Proof.Machine

/-! ## The Huffman unit's commands -/

/-- With its valid bit set a command's need changes nothing (R45). -/
theorem need_bind_of_valid {α : Type} {bit : UnitValid → Bool} {f : Unit → Cmd α} {s : State}
    (h : bit s.valid = true) : (need bit >>= f) s = f () s := by
  rw [need_bind_run, if_neg (ne_false_of_eq_true h)]

/-- Settles O41: past the need, each command is one update of RES. -/
theorem hufObservers : Obligations.HufObservers := fun v _ =>
  ⟨fun hv => exec_of_ok (i := .hufFreqRd v) (need_bind_of_valid hv),
    fun hv => exec_of_ok (i := .hufCodelen v) (need_bind_of_valid hv)⟩

/-- Settles O39: the code is a bit string, which `writeBitString` writes. -/
theorem hufEncsymWritesTheCode : Obligations.HufEncsymWritesTheCode := by
  intro v s hv
  have hrun : hufEncsym v s =
      if s.huf.codeAt v.toNat = [] then .error .stateError s else writeBitString (s.huf.codeAt v.toNat) s := by
    unfold hufEncsym
    rw [need_bind_of_valid hv, Cmd.get_bind_run, raiseIf_bind_run]
  refine ⟨fun hcode hr => ?_, fun hcode => exec_of_error (i := .hufEncsym v) (hrun.trans (if_pos hcode))⟩
  obtain ⟨t, ht, hw⟩ := writeBitString_writes _ hr
  exact ⟨t, exec_of_ok (i := .hufEncsym v) (hrun.trans ((if_neg hcode).trans ht)), hw⟩

/-- Settles O40: HUF_DECSYM is `walkSymbol` on the unit's tree. -/
theorem hufDecsymWalksTheTree : Obligations.HufDecsymWalksTheTree := by
  intro s T hv hT
  obtain ⟨p, v, hreach, hbits, hwalk⟩ := walkSymbol_run T s
  refine ⟨p, v, hreach, hbits, exec_of_ok (i := .hufDecsym) ?_⟩
  show hufDecsym s = _
  unfold hufDecsym
  rw [need_bind_of_valid hv, Cmd.bind_of_ok (currentTree_run hT), Cmd.bind_of_ok hwalk, Cmd.modify_run]
  rfl

/-- Settles O36: HUF_CODES is `fillCodes` under the unit's tree. -/
theorem hufCodesArePaths : Obligations.HufCodesArePaths := by
  intro s T hv hT
  refine ⟨(fillCodes T s).setValid { s.valid with codes := true }, exec_of_ok (i := .hufCodes) ?_, rfl,
    fillCodes_codeAt T s⟩
  show hufCodes s = _
  unfold hufCodes
  rw [need_bind_of_valid hv, Cmd.bind_of_ok (currentTree_run hT), Cmd.modify_run]

/-- Settles O35: HUF_TREE is `Huffman.build` on a table with a symbol. -/
theorem hufTreeBuilds : Obligations.HufTreeBuilds := by
  intro s count hv hcount hsum
  have hbuild := buildTree_run s
  rw [symbols_eq hcount] at hbuild
  have hrun : hufTree s = (buildTree >>= fun _ => modify fun s => s.setValid s.valid.afterTree) s :=
    need_bind_of_valid hv
  refine ⟨fun hne => ?_, fun hempty => ?_⟩
  · obtain ⟨T, hT, htree, hcnt, hroot, hframe⟩ := Huffman.build_spec hcount hsum hne
    rw [if_neg hne] at hbuild
    refine ⟨(s.setHuf s.huf.build).setValid s.valid.afterTree, T,
      exec_of_ok (i := .hufTree) (hrun.trans (Cmd.bind_of_ok hbuild)), htree, hT, hcnt, hroot, ?_⟩
    exact congrArg (fun h => (s.setHuf h).setValid s.valid.afterTree) hframe
  · rw [if_pos hempty] at hbuild
    exact exec_of_error (i := .hufTree) (hrun.trans (Cmd.bind_of_error hbuild))

/-- `t` differs from `s` in the reader, RD_OVR and the Huffman unit only. -/
def ReaderAndHuf (s t : State) : Prop := t = ((s.setReader t.reader).setRdOvr t.status.rdOvr).setHuf t.huf

theorem steady_readerAndHuf : Steady ReaderAndHuf where
  refl := fun _ => rfl
  trans := fun {s t u} hst htu => by
    unfold ReaderAndHuf at *
    rw [htu, hst]
    rfl

/-- Parse changes the reader, RD_OVR and the Huffman unit only (R215). -/
theorem parseRoot_readerAndHuf : Cmd.Within ReaderAndHuf parseRoot :=
  parseRoot_within steady_readerAndHuf
    (input_of_blind steady_readerAndHuf (fun _ _ => rfl) fun _ => rfl) fun _ _ => rfl

/-- Settles O38: Parse reads a tree's own bits, and what it refuses holds no tree's bits. -/
theorem hufDestreeRebuilds : Obligations.HufDestreeRebuilds := by
  intro s
  refine ⟨fun T hn hb => ?_, fun hno => ?_⟩
  · obtain ⟨t, ht, htree, hcnt, hroot, hframe⟩ := parseRoot_of_bits hn hb
    refine ⟨t.setValid t.valid.afterDestree, exec_of_ok (i := .hufDestree) (Cmd.bind_of_ok ht), htree, hcnt, hroot,
      ?_⟩
    rw [hframe]
    rfl
  · obtain ⟨T, hn, hb⟩ | ⟨u, hu⟩ := parseRoot_cases s
    · exact absurd hb (hno T hn)
    · exact ⟨u, parseRoot_readerAndHuf.of_error hu, exec_of_error (i := .hufDestree) (Cmd.bind_of_error hu)⟩

/-! ## No code begins another (R220) -/

/-- Under an internal root every leaf is at least one bit away. -/
theorem HTree.Reaches.ne_nil {l r : HTree} {p : List Bool} {v : Byte} (h : (HTree.internal l r).Reaches p v) :
    p ≠ [] := by
  cases h <;> exact List.cons_ne_nil _ _

/-- Under an internal root the code of a value in the tree leads to a leaf of that value (R213). -/
theorem reaches_codeFor {l r : HTree} {v : Byte} (hv : v ∈ (HTree.internal l r).leaves) :
    (HTree.internal l r).Reaches ((HTree.internal l r).codeFor v) v := by
  obtain ⟨p, hp⟩ := HTree.pathTo_isSome hv
  unfold HTree.codeFor
  dsimp only
  rw [hp]
  exact HTree.reaches_of_pathTo hp

theorem codeFor_leaf (v : Byte) : (HTree.leaf v).codeFor v = [false] := if_pos rfl

theorem codeFor_ne_nil {T : HTree} {v : Byte} (hv : v ∈ T.leaves) : T.codeFor v ≠ [] := by
  cases T with
  | leaf x =>
    obtain rfl : v = x := List.mem_singleton.1 hv
    rw [codeFor_leaf]
    exact List.cons_ne_nil _ _
  | internal l r => exact (reaches_codeFor hv).ne_nil

theorem eq_of_codeFor_prefix {T : HTree} {v w : Byte} (hv : v ∈ T.leaves) (hw : w ∈ T.leaves)
    (h : T.codeFor v <+: T.codeFor w) : v = w := by
  cases T with
  | leaf x => exact (List.mem_singleton.1 hv).trans (List.mem_singleton.1 hw).symm
  | internal l r =>
    obtain ⟨m, hm⟩ := h
    exact ((reaches_codeFor hv).unique (n := []) (reaches_codeFor hw) (hm.trans (List.append_nil _).symm)).2

/-- Every byte of the input is a leaf of the tree of its counts (R212). -/
theorem BuiltFrom.mem_leaves {data : List Byte} {T : HTree} (h : BuiltFrom (occurrences data) T) {a : Byte}
    (ha : a ∈ data) : a ∈ T.leaves := by
  rw [h.leaves.mem_iff]
  exact List.mem_map.2 ⟨a.toNat, observed_of_mem ha, by rw [BitVec.ofNat_toNat, BitVec.setWidth_eq]⟩

theorem sum_occurrences_lt (s : State) : ((List.range 256).map (occurrences s.input)).sum < 2 ^ 32 := by
  rw [sum_occurrences, length_input]
  exact s.inLen.isLt

/-- Settles O42: the three commands leave the codes of the tree of the input's counts, and the input's bytes are its
leaves. -/
theorem hufCodesArePrefixFree : Obligations.HufCodesArePrefixFree := by
  intro s t u v hlen ht hu herr hv
  obtain ⟨t', ht', hframe, hcount⟩ := (hufFreqCounts s).1 hlen
  obtain rfl : t' = t := Host.Outcome.next.inj (ht'.symm.trans ht)
  have hfreq : t'.valid.freq = true := by rw [hframe]; rfl
  obtain ⟨hbuilt, hempty⟩ := hufTreeBuilds t' (occurrences s.input) hfreq hcount (sum_occurrences_lt s)
  by_cases hne : observedSymbols (occurrences s.input) = []
  · obtain rfl : takeError .emptyInput t' = u := Host.Outcome.next.inj ((hempty hne).symm.trans hu)
    cases herr
  · obtain ⟨u', T, hu', hT, hfrom, -, -, hframe'⟩ := hbuilt hne
    obtain rfl : u' = u := Host.Outcome.next.inj (hu'.symm.trans hu)
    obtain ⟨v', hv', -, hcode⟩ := hufCodesArePaths u' T (by rw [hframe']; rfl) hT
    obtain rfl : v' = v := Host.Outcome.next.inj (hv'.symm.trans hv)
    refine ⟨fun a ha => ?_, fun a ha b hb h => ?_⟩
    · rw [hcode]
      exact codeFor_ne_nil (hfrom.mem_leaves ha)
    · rw [hcode, hcode] at h
      exact eq_of_codeFor_prefix (hfrom.mem_leaves ha) (hfrom.mem_leaves hb) h

end Sys2Proof.Machine

namespace Sys2Proof.Machine

/-! ## Output that fits

A command that ended normally wrote all its bits, so OBUF took them (R181). -/

section

variable {b s t : State} {l m : List Bool}

theorem Writes.room_append {n : Nat} (h : Writes l s t) (hr : t.Room n) : s.Room (l.length + n) := by
  have hle := hr.2
  rw [h.params, h.outLen, h.nbits] at hle
  exact ⟨h.params ▸ hr.1, by omega⟩

/-- The bits `l` have been written since `b`, and OBUF took them. -/
structure Wrote (b : State) (l : List Bool) (s : State) : Prop where
  writes : Writes l b s
  room : b.Room l.length

theorem wrote_nil (h : b.Room 0) : Wrote b [] b := ⟨Writes.refl b, h⟩

theorem Wrote.append (h : Wrote b l s) (hw : Writes m s t) (hr : s.Room m.length) : Wrote b (l ++ m) t :=
  ⟨h.writes.trans hw, List.length_append ▸ h.writes.room_append hr⟩

theorem Wrote.outLen_le (h : Wrote b l s) : s.writer.outLen.toNat ≤ s.params.obufSize := by
  rw [h.writes.outLen, h.writes.params]
  exact h.room.2

theorem writeBitString_wrote (m : List Bool) :
    Cmd.Takes (Wrote b l) (writeBitString m) (fun _ => Wrote b (l ++ m)) Anything := by
  intro s hs
  by_cases hr : s.Room m.length
  · obtain ⟨t, ht, hw⟩ := writeBitString_writes m hr
    rw [ht]
    exact hs.append hw hr
  · obtain ⟨u, hu, -⟩ := writeBitString_full m (hs.writes.params ▸ hs.room.1) hs.outLen_le hr
    rw [hu]
    trivial

theorem writeBits_wrote (v : Word) (n : Nat) :
    Cmd.Takes (Wrote b l) (writeBits v n) (fun _ => Wrote b (l ++ wordBits v n)) Anything :=
  writeBits_eq v n ▸ writeBitString_wrote _

theorem emitByte_wrote (v : Byte) :
    Cmd.Takes (Wrote b l) (emitByte v) (fun _ => Wrote b (l ++ byteBits v)) Anything := writeBits_wrote _ 8

/-- Bits written from a byte boundary and flushed are padded to a byte boundary (R182). -/
theorem flushBits_wrote (h0 : b.writer.nbits = 0) :
    Cmd.Takes (Wrote b l) flushBits (fun _ => Wrote b (zeroPad l)) Anything := by
  intro s hs
  have hpad : padLength s = (8 - l.length % 8) % 8 := by
    unfold padLength
    rw [hs.writes.nbits, h0]
    show (8 - (0 + l.length) % 8) % 8 = _
    rw [Nat.zero_add]
  by_cases hr : s.Room (padLength s)
  · obtain ⟨t, ht, hw, -⟩ := flushBits_writes hr
    rw [ht]
    rw [hpad] at hr hw
    exact hs.append hw (by rwa [List.length_replicate])
  · rw [flushBits_full (hs.writes.params ▸ hs.room.1) hs.outLen_le hr]
    trivial

theorem serTree_wrote (T : HTree) :
    Cmd.Takes (Wrote b l) (serTree T) (fun _ => Wrote b (l ++ treeBits T)) Anything := by
  induction T generalizing l with
  | leaf v =>
    have hbits : l ++ treeBits (.leaf v) = l ++ wordBits 1 1 ++ byteBits v := by
      rw [List.append_assoc]
      rfl
    rw [hbits]
    exact takes_bind (writeBits_wrote 1 1) fun _ => writeBits_wrote (byteWord v) 8
  | internal x y ihx ihy =>
    have hbits : l ++ treeBits (.internal x y) = l ++ wordBits 0 1 ++ treeBits x ++ treeBits y := by
      rw [List.append_assoc, List.append_assoc]
      rfl
    rw [hbits]
    exact takes_bind (writeBits_wrote 0 1) fun _ => takes_bind ihx fun _ => ihy

theorem writePayload_wrote (h : Huffman) (data : List Byte) (p : Nat) :
    Cmd.Takes (Wrote b l) (writePayload h data p)
      (fun _ => Wrote b (l ++ data.flatMap fun v => h.codeAt v.toNat)) Anything := by
  induction data generalizing l p with
  | nil =>
    rw [List.flatMap_nil, List.append_nil]
    exact takes_pure p fun _ => id
  | cons v data ih =>
    rw [List.flatMap_cons, ← List.append_assoc]
    exact takes_bind (writeBitString_wrote _) fun _ => ih _

end

theorem zeroPad_append {l : List Bool} (h : l.length % 8 = 0) (m : List Bool) : zeroPad (l ++ m) = l ++ zeroPad m := by
  unfold zeroPad
  rw [List.length_append, Nat.add_mod, h, Nat.zero_add, Nat.mod_mod, List.append_assoc]

/-- The payload, flushed, and the trailing byte, whatever its value, after the flushed tree (R221). -/
theorem hufCompressPayload_wrote {b u : State} {T : HTree} (h0 : b.writer.nbits = 0)
    (hcode : ∀ v : Byte, b.huf.codeAt v.toNat = T.codeFor v) (hu : Wrote b (zeroPad (treeBits T)) u) :
    Cmd.Takes (· = u)
      (writePayload u.huf u.input 0 >>= fun p => flushBits >>= fun _ => emitByte (BitVec.ofNat 8 p))
      (fun _ _ => b.Room (hufBody T b.input).length) Anything := by
  have hpay : (u.input.flatMap fun v => u.huf.codeAt v.toNat) = payloadCodes T b.input := by
    rw [hu.writes.frame]
    exact List.flatMap_congr fun v _ => hcode v
  rintro _ rfl
  refine takes_bind (writePayload_wrote _ _ 0) (fun p => takes_bind (flushBits_wrote h0) fun _ => ?_) _ hu
  refine takes_of_cases (fun s _ t hs ht => ?_) fun _ _ _ _ _ => trivial
  have hroom := ((emitByte_wrote _).of_ok hs ht).room
  rw [hpay, zeroPad_append (length_zeroPad_mod _)] at hroom
  simpa only [hufBody, List.length_append, length_byteBits, Nat.add_assoc] using hroom

/-- HUF_COMPRESS's tree and payload fit where the command ends normally (R221). -/
theorem hufCompressBody_room {s t : State} {h : Huffman} {T : HTree}
    (hbuild : buildTree (fillFreq s) = .ok ⟨⟩ ((fillFreq s).setHuf h)) (hT : h.tree = some T)
    (h0 : s.writer.nbits = 0) (hr : s.Room 0) (ht : hufCompressBody s = .ok () t) :
    s.Room (hufBody T s.input).length := by
  obtain ⟨b, hb⟩ : ∃ b, b = fillCodes T ((fillFreq s).setHuf h) := ⟨_, rfl⟩
  have hcode : ∀ v : Byte, b.huf.codeAt v.toNat = T.codeFor v := hb ▸ fillCodes_codeAt T _
  have hb0 : b.writer.nbits = 0 := by subst hb; exact h0
  have hbr : b.Room 0 := by subst hb; exact hr
  unfold hufCompressBody at ht
  rw [Cmd.modify_bind_run, Cmd.bind_of_ok hbuild, Cmd.bind_of_ok (currentTree_run hT), Cmd.modify_bind_run,
    ← hb] at ht
  have hroom : b.Room (hufBody T b.input).length :=
    Cmd.Takes.of_ok (takes_bind (serTree_wrote T) fun _ => takes_bind (flushBits_wrote hb0) fun _ =>
      takes_get fun u hu => hufCompressPayload_wrote hb0 hcode hu) (wrote_nil hbr) ht
  subst hb
  exact hroom

end Sys2Proof.Machine

namespace Sys2Proof.Machine

/-! ## The Huffman round trip (R224) -/

/-! ### BuildTree's tie-break leaves one tree (R212) -/

theorem Sprout.leastOf.unique {S : List Sprout} {a b : Sprout} (hr : (S.map Sprout.rank).Nodup) (ha : a.leastOf S)
    (hb : b.leastOf S) : a = b := by
  have hab := ha.2 b hb.1
  have hba := hb.2 a ha.1
  unfold Sprout.before at hab hba
  exact Sprout.eq_of_rank hr ha.1 hb.1 (by omega)

/-- A tree alone is not combined. -/
theorem not_leastOf_erase_singleton {a b c : Sprout} (ha : a ∈ [c]) : ¬ b.leastOf ([c].erase a) := by
  rw [List.mem_singleton.1 ha, List.erase_cons_head]
  exact fun h => List.not_mem_nil h.1

theorem Grown.unique {k : Nat} {S : List Sprout} {T U : HTree} (hT : Grown k S T) (hU : Grown k S U)
    (hr : (S.map Sprout.rank).Nodup) (hk : ∀ a ∈ S, a.rank < k) : T = U := by
  induction hT generalizing U with
  | single k a =>
    cases hU with
    | single => rfl
    | combine ha hb _ => exact absurd hb (not_leastOf_erase_singleton ha.1)
  | @combine k S a b T ha hb _ ih =>
    cases hU with
    | single => exact absurd hb (not_leastOf_erase_singleton ha.1)
    | combine ha' hb' hU =>
      have hr1 : ((S.erase a).map Sprout.rank).Nodup := hr.sublist (List.erase_sublist.map _)
      have hrest : ∀ c ∈ (S.erase a).erase b, c.rank < k := fun c hc =>
        hk c (List.mem_of_mem_erase (List.mem_of_mem_erase hc))
      obtain rfl := ha.unique hr ha'
      obtain rfl := hb.unique hr1 hb'
      refine ih hU (List.nodup_cons.2 ⟨fun hmem => ?_, hr1.sublist (List.erase_sublist.map _)⟩)
        (List.forall_mem_cons.2 ⟨Nat.lt_succ_self k, fun c hc => Nat.lt_succ_of_lt (hrest c hc)⟩)
      obtain ⟨c, hc, hck⟩ := List.mem_map.1 hmem
      exact Nat.ne_of_lt (hrest c hc) hck

theorem BuiltFrom.unique {count : Nat → Nat} {T U : HTree} (hT : BuiltFrom count T) (hU : BuiltFrom count U) :
    T = U := by
  have hrank := sprouts_rank count
  refine Grown.unique hT hU (hrank ▸ List.nodup_range') fun a ha => ?_
  have hmem : a.rank ∈ (sprouts count).map Sprout.rank := List.mem_map_of_mem ha
  rw [hrank, List.mem_range'_1] at hmem
  omega

theorem BuiltFrom.nodes_le {count : Nat → Nat} {T : HTree} (h : BuiltFrom count T) : T.nodes ≤ 511 := by
  have hnodes := h.nodes
  have hle := length_observedSymbols count
  omega

/-! ### HUF_COMPRESS without an error wrote the container -/

/-- A command that ended without an error ran its pseudocode to the end. -/
theorem commandOf_of_noError {i : Instr} {s t : State} (h : exec i s = .next t) (hn : t.status.err = false) :
    commandOf i s = .ok () t := by
  obtain ⟨u, hu, hx⟩ | ⟨e, u, -, hx⟩ := exec_cases i s
  · rw [hu, Host.Outcome.next.inj (hx.symm.trans h)]
  · obtain rfl : takeError e u = t := Host.Outcome.next.inj (hx.symm.trans h)
    cases hn

section

variable {s t : State} {l : List Bool}

theorem input_eq_nil_iff (s : State) : s.input = [] ↔ s.inLen = 0 := by
  rw [← List.length_eq_zero_iff, length_input]
  exact ⟨fun h => BitVec.eq_of_toNat_eq h, fun h => congrArg BitVec.toNat h⟩

theorem observedSymbols_ne_nil {data : List Byte} (h : data ≠ []) : observedSymbols (occurrences data) ≠ [] := by
  obtain ⟨b, hb⟩ := List.exists_mem_of_ne_nil _ h
  exact List.ne_nil_of_mem (observed_of_mem hb)

/-- HUF_COMPRESS, started in `b`, ended without an error, so its header and what follows it fit. -/
theorem hufCompress_holds {b : State} (hp : s.params.Ok) (hlen : s.inLen.toNat ≤ s.params.ibufSize)
    (ht : exec .hufCompress s = .next t) (hn : t.status.err = false) (hb : b = (startWriter s).setOrigSize s.inLen)
    (hrest : Cmd.Takes (Wrote b (hufHeader s.ctrl.isbin s.inLen)) (hufCompressRest s.inLen)
      (fun _ _ => b.Room (hufHeader s.ctrl.isbin s.inLen ++ l).length) Anything) :
    s.Holds (hufHeader s.ctrl.isbin s.inLen ++ l).length := by
  have hstart : Wrote b [] b := wrote_nil (hb ▸ startWriter_room ⟨hp, Nat.zero_le _⟩)
  have hsize : Cmd.Takes (Wrote b ([] ++ byteBits (boolByte s.ctrl.isbin))) (writeBits s.inLen 32)
      (fun _ => Wrote b (hufHeader s.ctrl.isbin s.inLen)) Anything := writeBits_wrote s.inLen 32
  have hctrl : b.ctrl = s.ctrl := by rw [hb]; rfl
  have hinLen : b.inLen = s.inLen := by rw [hb]; rfl
  have hrun : hufCompress s = .ok () t := commandOf_of_noError ht hn
  unfold hufCompress at hrun
  rw [checkIn_bind_run, if_neg (Nat.not_lt.2 hlen), Cmd.modify_bind_run, Cmd.get_bind_run, ← hb, hctrl,
    hinLen] at hrun
  have hroom : b.Room (hufHeader s.ctrl.isbin s.inLen ++ l).length :=
    Cmd.Takes.of_ok (Q := fun _ _ => b.Room _) (E := Anything)
      (takes_bind (emitByte_wrote _) fun _ => takes_bind hsize fun _ => takes_bind hrest fun _ =>
        takes_modify (Q := fun _ => b.Room _) fun _ => id) hstart hrun
  have hle : 0 + (0 + (hufHeader s.ctrl.isbin s.inLen ++ l).length) / 8 ≤ s.params.obufSize := by
    rw [hb] at hroom
    exact hroom.2
  exact ⟨hp, by omega⟩

theorem hufCompress_wrote_empty (hp : s.params.Ok) (hlen : s.inLen.toNat ≤ s.params.ibufSize)
    (ht : exec .hufCompress s = .next t) (hn : t.status.err = false) (hnil : s.input = []) :
    bytesBits t.outBytes = hufEmptyContainer s.ctrl.isbin := by
  have hholds : s.Holds (hufHeader s.ctrl.isbin s.inLen ++ byteBits 0).length :=
    hufCompress_holds hp hlen ht hn rfl (by
      unfold hufCompressRest
      rw [if_pos ((input_eq_nil_iff s).1 hnil)]
      exact takes_of_cases (fun _ _ _ hs hc => ((emitByte_wrote 0).of_ok hs hc).room) fun _ _ _ _ _ => trivial)
  rw [List.length_append, length_hufHeader, length_byteBits] at hholds
  obtain ⟨t', ht', -, -, -, -, hbits⟩ := (hufCompressWritesTheContainer s hlen).1 hnil hholds
  obtain rfl : t' = t := Host.Outcome.next.inj (ht'.symm.trans ht)
  exact hbits

theorem hufContainer_eq (s : State) (T : HTree) :
    hufContainer s.ctrl.isbin T s.input = hufHeader s.ctrl.isbin s.inLen ++ hufBody T s.input := by
  unfold hufContainer hufHeader hufBody
  rw [length_input, BitVec.ofNat_toNat, BitVec.setWidth_eq]
  simp only [List.append_assoc]

theorem hufCompress_wrote (hp : s.params.Ok) (hlen : s.inLen.toNat ≤ s.params.ibufSize)
    (ht : exec .hufCompress s = .next t) (hn : t.status.err = false) (hne : s.input ≠ []) :
    ∃ T, BuiltFrom (occurrences s.input) T ∧ bytesBits t.outBytes = hufContainer s.ctrl.isbin T s.input := by
  have hcount : ∀ i, i < 256 → ((fillFreq s).huf.freqAt i).toNat = occurrences s.input i := fun _ =>
    fillFreq_freqAt s
  have hobs := observedSymbols_ne_nil hne
  obtain ⟨T, hbuilt, hT, -⟩ := Huffman.build_spec hcount (sum_occurrences_lt s) hobs
  obtain ⟨U, hU, hwrites⟩ := (hufCompressWritesTheContainer s hlen).2 hp hne
  obtain rfl := hU.unique hbuilt
  have hholds : s.Holds (hufHeader s.ctrl.isbin s.inLen ++ hufBody U s.input).length :=
    hufCompress_holds hp hlen ht hn rfl (by
      unfold hufCompressRest
      rw [if_neg (mt (input_eq_nil_iff s).2 hne)]
      refine takes_of_cases (fun u _ v hu hc => ?_) fun _ _ _ _ _ => trivial
      have hin : u.input = s.input := by rw [hu.writes.frame]; rfl
      have hfill : (fillFreq u).huf = (fillFreq s).huf := by rw [hu.writes.frame]; rfl
      have hbuild : buildTree (fillFreq u) = .ok ⟨⟩ ((fillFreq u).setHuf (fillFreq s).huf.build) := by
        rw [buildTree_run, hfill, symbols_eq hcount, if_neg hobs]
      have hbody := hufCompressBody_room hbuild hT (hu.writes.aligned rfl (by rw [length_hufHeader]))
        (hu.writes.room hu.room) hc
      rw [List.length_append, ← hin]
      exact hu.writes.room_append hbody)
  rw [← hufContainer_eq] at hholds
  obtain ⟨t', ht', -, -, -, -, hbits⟩ := hwrites hholds
  obtain rfl : t' = t := Host.Outcome.next.inj (ht'.symm.trans ht)
  exact ⟨U, hU, hbits⟩

end

/-! ### HUF_DECOMPRESS of that container -/

theorem decide_boolByte_ne_zero (b : Bool) : decide (boolByte b ≠ 0) = b := by cases b <;> rfl

theorem spells_payloadCodes {l r : HTree} (data : List Byte) (h : ∀ a ∈ data, a ∈ (HTree.internal l r).leaves) :
    (HTree.internal l r).Spells (payloadCodes (.internal l r) data) data := by
  induction data with
  | nil => exact .nil
  | cons a data ih =>
    obtain ⟨ha, hdata⟩ := List.forall_mem_cons.1 h
    exact .cons (reaches_codeFor ha) (ih hdata)

/-- HUF_DECOMPRESS produced `data` and its flag, without an error. -/
def Restores (u v : State) (isbin : Bool) (data : List Byte) : Prop :=
  v.status = { u.status with isbinIn := isbin, rdOvr := false } ∧ v.outBytes = data ∧
    v.origSize = BitVec.ofNat 32 data.length

/-- Under a leaf root every byte is the leaf's (R222). -/
theorem hufDecompress_leafContainer {u : State} {isbin : Bool} {x : Byte} {data : List Byte} (hp : u.params.Ok)
    (hlen : u.inLen.toNat ≤ u.params.ibufSize) (hroom : data.length ≤ u.params.obufSize) (hne : data ≠ [])
    (hx : ∀ a ∈ data, a = x) (hin : u.inputBits = hufContainer isbin (.leaf x) data) :
    ∃ v, exec .hufDecompress u = .next v ∧ Restores u v isbin data := by
  have hsize : u.params.obufSize ≤ 0x1000000 := hp.2.1.2
  have hnum : (BitVec.ofNat 32 data.length).toNat = data.length := toNat_ofNat32 (by omega)
  have hpos := List.length_pos_iff.2 hne
  have htr : (BitVec.ofNat 8 ((payloadCodes (.leaf x) data).length % 8)).toNat ≤ 7 := by
    rw [BitVec.toNat_ofNat]
    omega
  have hpad : zeroPad (treeBits (.leaf x)) = treeBits (.leaf x) ++ List.replicate 7 false := by
    unfold zeroPad
    rw [length_treeBits_leaf]
  rw [hufContainer, hpad] at hin
  obtain ⟨v, hv, -, -, horig, hout, hstatus⟩ := (hufDecompressReadsTheContainer u (boolByte isbin) hp hlen).2.1
    (BitVec.ofNat 32 data.length) x (List.replicate 7 false) (zeroPad (payloadCodes (.leaf x) data)) _
    (fun h => by rw [h] at hnum; exact hpos.ne hnum) (hnum.le.trans hroom) rfl htr hin
  rw [hnum, ← List.eq_replicate_of_mem hx] at hout
  exact ⟨v, hv, decide_boolByte_ne_zero isbin ▸ hstatus, hout, horig⟩

/-- Under an internal root the payload spells the data, one code for each byte (R222). -/
theorem hufDecompress_internalContainer {u : State} {isbin : Bool} {l r : HTree} {data : List Byte} (hp : u.params.Ok)
    (hlen : u.inLen.toNat ≤ u.params.ibufSize) (hroom : data.length ≤ u.params.obufSize) (hne : data ≠ [])
    (hn : (HTree.internal l r).nodes ≤ 511) (hleaves : ∀ a ∈ data, a ∈ (HTree.internal l r).leaves)
    (hin : u.inputBits = hufContainer isbin (.internal l r) data) :
    ∃ v, exec .hufDecompress u = .next v ∧ Restores u v isbin data := by
  have hpad : ∀ n : Nat, (List.replicate ((8 - n % 8) % 8) false).length < 8 := fun n => by
    rw [List.length_replicate]
    exact Nat.mod_lt _ (by decide)
  obtain ⟨v, hv, -, -, horig, hout, hstatus⟩ := (hufDecompressReadsTheContainer u (boolByte isbin) hp hlen).2.2
    l r _ _ [] _ data hn (spells_payloadCodes data hleaves) hne hroom (hpad _) (length_zeroPad_mod _) (hpad _)
    (by rw [List.append_nil]; exact length_zeroPad_mod _)
    (by rw [List.append_nil]; exact hin)
  exact ⟨v, hv, decide_boolByte_ne_zero isbin ▸ hstatus, hout, horig⟩

theorem hufDecompress_container {u : State} {isbin : Bool} {T : HTree} {data : List Byte} (hp : u.params.Ok)
    (hlen : u.inLen.toNat ≤ u.params.ibufSize) (hroom : data.length ≤ u.params.obufSize) (hne : data ≠ [])
    (hT : BuiltFrom (occurrences data) T) (hin : u.inputBits = hufContainer isbin T data) :
    ∃ v, exec .hufDecompress u = .next v ∧ Restores u v isbin data := by
  have hleaves : ∀ a ∈ data, a ∈ T.leaves := fun _ => hT.mem_leaves
  cases T with
  | leaf x =>
    exact hufDecompress_leafContainer hp hlen hroom hne (fun a ha => List.mem_singleton.1 (hleaves a ha)) hin
  | internal l r => exact hufDecompress_internalContainer hp hlen hroom hne hT.nodes_le hleaves hin

theorem hufDecompress_emptyContainer {u : State} {isbin : Bool} (hp : u.params.Ok)
    (hlen : u.inLen.toNat ≤ u.params.ibufSize) (hin : u.inputBits = hufEmptyContainer isbin) :
    ∃ v, exec .hufDecompress u = .next v ∧ Restores u v isbin [] := by
  obtain ⟨v, hv, -, -, horig, hout, hstatus⟩ :=
    (hufDecompressReadsTheContainer u (boolByte isbin) hp hlen).1 (byteBits 0) hin
  exact ⟨v, hv, decide_boolByte_ne_zero isbin ▸ hstatus, hout, horig⟩

/-- Settles O45: HUF_COMPRESS ended without an error, so it wrote its container, and HUF_DECOMPRESS reads that. -/
theorem hufRoundTrip : Obligations.HufRoundTrip := by
  intro s t u hp hlen _ ht hn hand
  have hin : u.inputBits = bytesBits t.outBytes := congrArg bytesBits hand.bytes
  have hrestored : ∃ v, exec .hufDecompress u = .next v ∧ Restores u v s.ctrl.isbin s.input := by
    by_cases hne : s.input = []
    · rw [hne]
      exact hufDecompress_emptyContainer hand.params hand.fits
        (hin.trans (hufCompress_wrote_empty hp hlen ht hn hne))
    · obtain ⟨T, hT, hbits⟩ := hufCompress_wrote hp hlen ht hn hne
      exact hufDecompress_container hand.params hand.fits (length_input s ▸ hand.room) hne hT (hin.trans hbits)
  obtain ⟨v, hv, hstatus, hout, horig⟩ := hrestored
  refine ⟨v, hv, by rw [hstatus], hout, ?_, by rw [hstatus]⟩
  rw [horig, length_input, BitVec.ofNat_toNat, BitVec.setWidth_eq]

end Sys2Proof.Machine

namespace Sys2Proof.Machine

/-! ## The LZW unit's commands -/

/-! ### The encoder's dictionary by its entries (R263) -/

section

variable {e : LzwEnc} {p : BitVec 12} {c : Byte} {x : Nat}

/-- Every assigned code's entry has been written. -/
theorem LzwEnc.written_of_dictOk (hd : DictOk e.dict e.next.toNat) (h1 : 258 ≤ x) (h2 : x < e.next.toNat) :
    e.dict.written x = some (e.entryAt x) := by
  obtain ⟨d, hw, -⟩ := hd x h1 h2
  rw [LzwEnc.entryAt_of_written hw, hw]

/-- `EFind` answers the assigned code whose entry is the pair it looks for: there is one at most. -/
theorem LzwEnc.find_of_entryAt (hw : e.dict.wf) (hd : DictOk e.dict e.next.toNat)
    (hx : DictDistinct e.dict e.next.toNat) (h1 : 258 ≤ x) (h2 : x < e.next.toNat)
    (h3 : e.entryAt x = { pre := p, suf := c }) : e.find p c = some x := by
  have hx' := h3 ▸ LzwEnc.written_of_dictOk hd h1 h2
  cases hf : e.find p c with
  | none => exact absurd hx' (LzwEnc.find_eq_none hf h1 h2)
  | some y =>
    obtain ⟨hy1, hy2, hy⟩ := LzwEnc.find_eq_some hw hf
    rw [hx y x hy1 hy2 h1 h2 (hy.trans hx'.symm)]

theorem LzwEnc.find_of_no_entry (hw : e.dict.wf)
    (h : ∀ x, 258 ≤ x → x < e.next.toNat → e.entryAt x ≠ { pre := p, suf := c }) : e.find p c = none := by
  cases hf : e.find p c with
  | none => rfl
  | some x =>
    obtain ⟨h1, h2, hx⟩ := LzwEnc.find_eq_some hw hf
    exact absurd (LzwEnc.entryAt_of_written hx) (h x h1 h2)

end

/-! ### LZW_ENC_BYTE's state machine (R264) -/

section

variable {fixed12 : Bool} {e : LzwEnc} {c : Byte}

theorem encodeByte_first (hp : e.patV = false) :
    encodeByte fixed12 e c = { codes := [], next := { e with pat := c.setWidth 12, patV := true } } := if_pos hp

theorem encodeByte_found {x : Nat} (hp : e.patV = true) (hf : e.find e.pat c = some x) :
    encodeByte fixed12 e c = { codes := [], next := { e with pat := BitVec.ofNat 12 x } } := by
  unfold encodeByte
  rw [if_neg (ne_false_of_eq_true hp), hf]

theorem encodeByte_assign (hp : e.patV = true) (hf : e.find e.pat c = none) (hlt : e.next.toNat < 4096) :
    encodeByte fixed12 e c =
      { codes := [e.pat]
        next :=
          { e with
            dict := e.dict.put e.next.toNat { pre := e.pat, suf := c }
            next := e.next + 1
            width := BitVec.ofNat 4 (if fixed12 then 12 else widthFor (e.next.toNat + 1))
            pat := c.setWidth 12 } } := by
  unfold encodeByte
  rw [if_neg (ne_false_of_eq_true hp), hf, ← toNat_succ_next hlt]
  exact if_pos hlt

theorem encodeByte_full (hp : e.patV = true) (hf : e.find e.pat c = none) (hfull : e.next.toNat = 4096) :
    encodeByte fixed12 e c =
      { codes := [e.pat, 257]
        next := { e with next := 258, width := (if fixed12 then 12 else 9), pat := c.setWidth 12 } } := by
  unfold encodeByte
  rw [if_neg (ne_false_of_eq_true hp), hf, ← encWidth_first]
  exact if_neg (Nat.not_lt.2 hfull.ge)

end

/-! ### The commands run (R261, R264, R265) -/

section

variable {s : State} {c : Byte} {e : LzwEnc} {codes : List (BitVec 12)}

theorem exec_lzwEncByte_of_silent (hv : s.valid.lzwE = true)
    (h : encodeByte s.ctrl.lzwFixed12 s.lzwE c = { codes := [], next := e }) :
    exec (.lzwEncByte c) s = .next (s.setLzwE e) := by
  refine exec_of_ok (i := .lzwEncByte c) ((need_bind_of_valid hv).trans ?_)
  unfold encByte
  rw [Cmd.get_bind_run, h]
  rfl

theorem exec_lzwEncByte (hv : s.valid.lzwE = true)
    (h : encodeByte s.ctrl.lzwFixed12 s.lzwE c = { codes := codes, next := e })
    (hr : s.Room (codes.length * s.lzwE.emitWidth s.ctrl.lzwFixed12)) :
    ∃ u, Writes (emitted (s.lzwE.emitWidth s.ctrl.lzwFixed12) codes) s u ∧
      exec (.lzwEncByte c) s = .next (u.setLzwE e) := by
  obtain ⟨u, hu, hw⟩ := emitCodes_writes _ _ hr
  refine ⟨u, hw, exec_of_ok (i := .lzwEncByte c) ((need_bind_of_valid hv).trans ?_)⟩
  unfold encByte
  rw [Cmd.get_bind_run, h, Cmd.bind_of_ok hu, Cmd.modify_run]

theorem emitted_singleton (w : Nat) (x : BitVec 12) : emitted w [x] = wordBits (x.setWidth 32) w := List.append_nil _

theorem emitted_pair (w : Nat) (x y : BitVec 12) :
    emitted w [x, y] = wordBits (x.setWidth 32) w ++ wordBits (y.setWidth 32) w :=
  congrArg (wordBits (x.setWidth 32) w ++ ·) (emitted_singleton w y)

end

/-- Settles O46: the search decides the case of R264, and the case the codes written. -/
theorem lzwEncByteFeeds : Obligations.LzwEncByteFeeds := by
  rintro c s w hv hs rfl
  have hwf := hs.enc.dict
  obtain ⟨hok, hdistinct⟩ := hs.encDict hv
  refine ⟨fun hp => exec_lzwEncByte_of_silent hv (encodeByte_first hp), fun x hp h1 h2 h3 => ?_, fun hp hno => ?_⟩
  · exact exec_lzwEncByte_of_silent hv (encodeByte_found hp (LzwEnc.find_of_entryAt hwf hok hdistinct h1 h2 h3))
  · have hf := LzwEnc.find_of_no_entry hwf hno
    refine ⟨fun hlt hr => ?_, fun hfull hr => ?_⟩
    · obtain ⟨u, hu, hx⟩ := exec_lzwEncByte hv (encodeByte_assign hp hf hlt) (hr.le (Nat.one_mul _).le)
      rw [emitted_singleton] at hu
      rw [hp] at hx
      exact ⟨u, _, hx, hu, rfl, (Store.read_put _ _ _ _ _).trans (if_pos rfl), fun x hx =>
        (Store.read_put _ _ _ _ _).trans (if_neg hx.symm)⟩
    · obtain ⟨u, hu, hx⟩ := exec_lzwEncByte hv (encodeByte_full hp hf hfull) hr
      rw [emitted_pair] at hu
      exact ⟨u, hu, hx⟩

/-- Settles O47: `endCodes` are the pattern, if there is one, and EOS. -/
theorem lzwEncEndCloses : Obligations.LzwEncEndCloses := by
  rintro s w hv rfl hr
  have hcodes : emitted (s.lzwE.emitWidth s.ctrl.lzwFixed12) (endCodes s.lzwE) =
      (if s.lzwE.patV then wordBits (s.lzwE.pat.setWidth 32) (s.lzwE.emitWidth s.ctrl.lzwFixed12) else []) ++
        wordBits 256 (s.lzwE.emitWidth s.ctrl.lzwFixed12) := by
    unfold endCodes
    split
    · exact emitted_pair _ _ _
    · exact emitted_singleton _ _
  have hlength : (endCodes s.lzwE).length = if s.lzwE.patV then 2 else 1 := by
    unfold endCodes
    split <;> rfl
  obtain ⟨u, hu, hw⟩ := emitCodes_writes (s.lzwE.emitWidth s.ctrl.lzwFixed12) (endCodes s.lzwE) (hlength ▸ hr)
  refine ⟨u, hcodes ▸ hw, exec_of_ok (i := .lzwEncEnd) ((need_bind_of_valid hv).trans ?_)⟩
  unfold encEnd
  rw [Cmd.get_bind_run, Cmd.bind_of_ok hu, Cmd.modify_run, hw.frame]
  rfl

/-! ### LZW_DEC_CODE (R274) -/

section

variable {s t : State} {l : List Bool}

/-- What is written does not depend on the decoder. -/
theorem Writes.withLzwD {d : LzwDec} (h : Writes l (s.setLzwD d) t) :
    ∃ u, Writes l s u ∧ t = u.setLzwD d := by
  refine ⟨t.setLzwD s.lzwD, ⟨?_, h.bits, h.outLen, h.nbits, h.tidy, h.others⟩, ?_⟩
  · rw [h.frame]
    rfl
  · rw [h.frame]
    rfl

theorem LzwDec.Resolves.ne_control {d : LzwDec} {c : Nat} {l : List Byte} (hn : 258 ≤ d.next.toNat)
    (h : d.Resolves c l) : c ≠ 256 ∧ c ≠ 257 := by
  have := h.code
  omega

theorem LzwDec.after_first {d : LzwDec} (hp : d.prevV = false) (c : Nat) (str : List Byte) :
    d.after c str = { d with prev := BitVec.ofNat 12 c, prevV := true } := by
  unfold LzwDec.after
  rw [hp]
  rfl

theorem LzwDec.after_next {d : LzwDec} (hp : d.prevV = true) (c : Nat) (str : List Byte) :
    d.after c str = { d.insert (str.headD 0) with prev := BitVec.ofNat 12 c, prevV := true } := by
  unfold LzwDec.after
  rw [hp]
  rfl

theorem resolveCode_of_some {c : Nat} {str : List Byte} (h : s.lzwD.resolve c = some str) :
    resolveCode c s = .ok str s := by
  rw [resolveCode_run, h]

/-- A data code that resolves, and whose entry, if there is one to insert, has a place (R271 to R274). -/
theorem decodeData_writes {c : Nat} {str : List Byte} (hstr : s.lzwD.resolve c = some str)
    (hplace : s.lzwD.prevV = true → s.lzwD.next.toNat ≠ 4096) (hr : s.Room (8 * str.length)) :
    ∃ u, Writes (bytesBits str) s u ∧ decodeData c s = .ok () (u.setLzwD (s.lzwD.after c str)) := by
  obtain ⟨t, ht, hwt⟩ := emitBytes_writes
    (s := s.setLzwD (if s.lzwD.prevV then s.lzwD.insert (str.headD 0) else s.lzwD)) str hr
  obtain ⟨u, hu, rfl⟩ := hwt.withLzwD
  refine ⟨u, hu, ?_⟩
  unfold decodeData
  rw [Cmd.bind_of_ok (resolveCode_of_some hstr), Cmd.bind_of_ok (insertEntry_ok hplace str), Cmd.bind_of_ok ht]
  rfl

theorem decodeData_unresolved {c : Nat} (h : s.lzwD.resolve c = none) :
    decodeData c s = .error .corruptStream s :=
  Cmd.bind_of_error (by rw [resolveCode_run, h])

theorem decodeData_full {c : Nat} {str : List Byte} (hstr : s.lzwD.resolve c = some str)
    (hp : s.lzwD.prevV = true) (hfull : s.lzwD.next.toNat = 4096) : decodeData c s = .error .corruptStream s := by
  have hinsert : insertEntry str s = .error .corruptStream s := by
    rw [insertEntry_run, if_pos hp, if_pos hfull]
  exact (Cmd.bind_of_ok (resolveCode_of_some hstr)).trans (Cmd.bind_of_error hinsert)

theorem decStep_data {c : Nat} (h256 : c ≠ 256) (h257 : c ≠ 257) : decStep c = decodeData c :=
  (if_neg h256).trans (if_neg h257)

/-- LZW_DEC_CODE is `decStep` of the next code, which RES shows (R267, R274). -/
theorem lzwDecCode_run (hv : s.valid.lzwD = true) :
    commandOf .lzwDecCode s =
      decStep (bitsValue (s.inBits (decWidth s.ctrl.lzwFixed12 s.lzwD)))
        ((s.afterRead (decWidth s.ctrl.lzwFixed12 s.lzwD)).setRes
          (BitVec.ofNat 32 (bitsValue (s.inBits (decWidth s.ctrl.lzwFixed12 s.lzwD))))) :=
  (need_bind_of_valid hv).trans (Cmd.bind_of_ok (readCode_run s))

end

/-- Settles O48: EOS, CLEAR and data codes are the branches of `decStep`; a data code is decided by `resolve` and by the
room for the entry. -/
theorem lzwDecCodeResolves : Obligations.LzwDecCodeResolves := by
  rintro s w c hv hs rfl hc
  obtain ⟨hsound, hok⟩ := hs.dec hv
  obtain ⟨hn, hn'⟩ := hsound.next
  have hrun := lzwDecCode_run hv
  have hresolve := LzwDec.resolve_eq_some hok hn
  change c = bitsValue (s.inBits (decWidth s.ctrl.lzwFixed12 s.lzwD)) at hc
  rw [← hc] at hrun
  refine ⟨fun h => ?_, fun h => ?_, fun l hl hplace hr => ?_, fun h => exec_of_error ?_⟩
  · subst h
    exact exec_of_ok hrun
  · subst h
    exact exec_of_ok hrun
  · obtain ⟨h256, h257⟩ := hl.ne_control hn
    obtain ⟨u, hu, ht⟩ := decodeData_writes (s := (s.afterRead _).setRes (BitVec.ofNat 32 c))
      ((hresolve c l).2 hl) (fun hp => (hplace hp).ne) hr
    rw [decStep_data h256 h257] at hrun
    refine ⟨u, u.setLzwD (s.lzwD.after c l), exec_of_ok (hrun.trans ht), hu, rfl, ?_, rfl, fun hp => ?_,
      fun hp => ?_⟩
    · have hlt : c < 4096 := by
        obtain h | ⟨-, h⟩ | ⟨h, hp⟩ := hl.code
        · omega
        · omega
        · exact h.trans_lt (hplace hp)
      exact Nat.mod_eq_of_lt hlt
    · rw [State.setLzwD_lzwD, LzwDec.after_first hp]
      exact ⟨rfl, rfl⟩
    · rw [State.setLzwD_lzwD, LzwDec.after_next hp]
      exact ⟨rfl, (Store.read_put _ _ _ _ _).trans (if_pos rfl), fun x hx =>
        (Store.read_put _ _ _ _ _).trans (if_neg hx.symm)⟩
  · obtain ⟨h256, h257, hno⟩ | ⟨⟨l, hl⟩, hp, hfull⟩ := h
    · rw [hrun, decStep_data h256 h257]
      exact decodeData_unresolved (Option.eq_none_iff_forall_ne_some.2 fun l hl => hno l ((hresolve c l).1 hl))
    · obtain ⟨h256, h257⟩ := hl.ne_control hn
      rw [hrun, decStep_data h256 h257]
      exact decodeData_full ((hresolve c l).2 hl) hp hfull

end Sys2Proof.Machine

namespace Sys2Proof.Machine

/-! ## The LZW round trip (R276 to R278) -/

/-! ### Output that fits, the units being any (R181) -/

section

variable {α β : Type} {b s t u : State} {l m : List Bool}

theorem Cmd.ok_of_bind {c : Cmd α} {f : α → Cmd β} {x : β} (h : (c >>= f) s = .ok x t) :
    ∃ a u, c s = .ok a u ∧ f a u = .ok x t := by
  cases hc : c s with
  | ok a u => exact ⟨a, u, rfl, (Cmd.bind_of_ok hc).symm.trans h⟩
  | error e u => cases (Cmd.bind_of_error hc).symm.trans h

theorem forEach_wrote {body : α → Cmd Unit} {f : α → List Bool}
    (hb : ∀ x l, Cmd.Takes (Wrote b l) (body x) (fun _ => Wrote b (l ++ f x)) Anything) (xs : List α) :
    Cmd.Takes (Wrote b l) (forEach xs body) (fun _ => Wrote b (l ++ xs.flatMap f)) Anything := by
  induction xs generalizing l with
  | nil =>
    rw [List.flatMap_nil, List.append_nil]
    exact takes_pure () fun _ => id
  | cons x xs ih =>
    rw [List.flatMap_cons, ← List.append_assoc]
    exact takes_bind (hb x l) fun _ => ih

theorem emitBytes_wrote (data : List Byte) :
    Cmd.Takes (Wrote b l) (emitBytes data) (fun _ => Wrote b (l ++ bytesBits data)) Anything :=
  forEach_wrote (fun x _ => emitByte_wrote x) data

theorem emitCodes_wrote (w : Nat) (codes : List (BitVec 12)) :
    Cmd.Takes (Wrote b l) (emitCodes w codes) (fun _ => Wrote b (l ++ emitted w codes)) Anything :=
  forEach_wrote (fun x _ => writeBits_wrote (x.setWidth 32) w) codes

/-- From `s` to `t` the bits `l` have been written, and OBUF took them: `Wrote` with the units being any. -/
structure Fitted (l : List Bool) (s t : State) : Prop where
  yields : Yields l s t
  room : s.Room l.length

theorem Wrote.fitted (h : Wrote s l t) : Fitted l s t := ⟨h.writes.yields, h.room⟩

theorem Yields.room_append {n : Nat} (h : Yields l s t) (hr : t.Room n) : s.Room (l.length + n) := by
  have hle := hr.2
  rw [h.params, h.outLen, h.nbits] at hle
  exact ⟨h.params ▸ hr.1, by omega⟩

theorem Fitted.trans (h : Fitted l s t) (g : Fitted m t u) : Fitted (l ++ m) s u :=
  ⟨h.yields.trans g.yields, List.length_append ▸ h.yields.room_append g.room⟩

theorem Fitted.trans_nil (h : Fitted l s t) (g : Yields [] t u) : Fitted l s u := ⟨h.yields.trans_nil g, h.room⟩

theorem Fitted.room_zero (h : Fitted l s t) : t.Room 0 := h.yields.room h.room

theorem State.Room.outLen_le {n : Nat} (h : s.Room n) : s.writer.outLen.toNat ≤ s.params.obufSize := by
  have := h.2
  omega

/-- A flush that ended normally found a place for its byte (R182). -/
theorem Fitted.flush (h : Fitted l s t) (h0 : s.writer.nbits = 0) (hu : flushBits t = .ok () u) :
    Fitted (zeroPad l) s u := by
  have hpad : padLength t = (8 - l.length % 8) % 8 := by
    unfold padLength
    rw [h.yields.nbits, h0]
    show (8 - (0 + l.length) % 8) % 8 = _
    rw [Nat.zero_add]
  have hr : t.Room (padLength t) := by
    by_contra hr
    cases (flushBits_full h.room_zero.1 h.room_zero.outLen_le hr).symm.trans hu
  have hroom : s.Room (zeroPad l).length := length_zeroPad l ▸ h.yields.room_append (hpad ▸ hr)
  obtain ⟨v, hv, hy⟩ := h.yields.flush h0 hroom
  cases hv.symm.trans hu
  exact ⟨hy, hroom⟩

end

/-! ### LZW_COMPRESS without an error wrote the container -/

section

variable {s t u : State} {c : Byte}

theorem encByte_fitted (hr : s.Room 0) (h : encByte c s = .ok () t) :
    Fitted (emitted (s.lzwE.emitWidth s.ctrl.lzwFixed12) (encodeByte s.ctrl.lzwFixed12 s.lzwE c).codes) s t ∧
      t.lzwE = (encodeByte s.ctrl.lzwFixed12 s.lzwE c).next := by
  rw [encByte, Cmd.get_bind_run] at h
  obtain ⟨_, u, hu, hset⟩ := Cmd.ok_of_bind h
  cases hset
  exact ⟨((emitCodes_wrote _ _).of_ok (wrote_nil hr) hu).fitted.trans_nil (yields_setLzwE _ _), rfl⟩

theorem encEnd_fitted (hr : s.Room 0) (h : encEnd s = .ok () t) :
    Fitted (emitted (s.lzwE.emitWidth s.ctrl.lzwFixed12) (endCodes s.lzwE)) s t := by
  rw [encEnd, Cmd.get_bind_run] at h
  obtain ⟨_, u, hu, hset⟩ := Cmd.ok_of_bind h
  cases hset
  exact ((emitCodes_wrote _ _).of_ok (wrote_nil hr) hu).fitted.trans_nil
    ((yields_setLzwE _ _).trans (yields_setValid _ _))

/-- Pass 2 of LZW_COMPRESS that ended normally wrote the stream (R277). -/
theorem LzwEnc.Follows.fitted {dict : List (List Byte)} {pat : List Byte} {data : List Byte}
    (h : s.lzwE.Follows dict pat) (hr : s.Room 0) (ht : forEach data encByte s = .ok () t)
    (hu : encEnd t = .ok () u) : Fitted (lzwStream s.ctrl.lzwFixed12 dict pat data) s u := by
  induction data generalizing s dict pat with
  | nil =>
    cases ht
    rw [h.endCodes]
    exact encEnd_fitted hr hu
  | cons c cs ih =>
    obtain ⟨_, v, hv, hrest⟩ := Cmd.ok_of_bind ht
    obtain ⟨hfit, hnext⟩ := encByte_fitted hr hv
    obtain ⟨dict', pat', h', hs⟩ := h.encodeByte s.ctrl.lzwFixed12 c
    have htail := ih (hnext ▸ h') hfit.room_zero hrest
    rw [hfit.yields.ctrl] at htail
    exact hs cs ▸ hfit.trans htail

/-- What LZW_COMPRESS writes after the header: the flag, then the input or the code stream (R131). -/
def lzwBody (fixed12 stored : Bool) (data : List Byte) : List Bool :=
  if stored then byteBits 0 ++ bytesBits data else lzwPayload fixed12 data

theorem lzwHeader_append_lzwBody (fixed12 stored : Bool) (ext data : List Byte) :
    lzwHeader ext data ++ lzwBody fixed12 stored data =
      if stored then lzwStored ext data else lzwCompressed fixed12 ext data := by
  cases stored with
  | true => exact (List.append_assoc _ _ _).symm
  | false => simp [lzwBody, lzwPayload, lzwCompressed]

theorem lzwWriteStored_room {data : List Byte} (hr : s.Room 0) (h : lzwWriteStored data s = .ok () t) :
    s.Room (byteBits 0 ++ bytesBits data).length :=
  Cmd.Takes.of_ok (Q := fun _ _ => s.Room _) (E := Anything)
    (takes_bind (emitByte_wrote 0) fun _ => takes_bind (emitBytes_wrote data) fun _ =>
      takes_modify (Q := fun _ => s.Room _) fun _ hs => hs.room) (wrote_nil hr) h

theorem lzwWriteCompressed_room {data : List Byte} (hs : s.lzwE.Sound) (h0 : s.writer.nbits = 0) (hr : s.Room 0)
    (h : lzwWriteCompressed (lzwBytes s.ctrl.lzwFixed12 data) data s = .ok () t) :
    s.Room (lzwPayload s.ctrl.lzwFixed12 data).length := by
  obtain ⟨_, u, hflag, h⟩ := Cmd.ok_of_bind h
  obtain ⟨_, v, hsize, h⟩ := Cmd.ok_of_bind h
  have hhead := (writeBits_wrote _ 32).of_ok ((emitByte_wrote 1).of_ok (wrote_nil hr) hflag) hsize
  have hlzw : v.lzwE = s.lzwE := by rw [hhead.writes.frame]; rfl
  obtain ⟨b, hb⟩ : ∃ b, b = (startEncoder v).setValid { v.valid with lzwE := true } := ⟨_, rfl⟩
  have hstart := hhead.fitted.trans_nil (u := b) (hb ▸ (yields_setLzwE _ _).trans (yields_setValid _ _))
  have hfollows : b.lzwE.Follows [] [] := by
    subst hb
    exact .started (hlzw ▸ hs) v.ctrl.lzwFixed12
  rw [Cmd.modify_bind_run, ← hb] at h
  obtain ⟨_, w, hbytes, h⟩ := Cmd.ok_of_bind h
  obtain ⟨_, x, hend, h⟩ := Cmd.ok_of_bind h
  obtain ⟨_, y, hflush, -⟩ := Cmd.ok_of_bind h
  have hstream := (hfollows.fitted hstart.room_zero hbytes hend).flush (hstart.yields.aligned h0 (by simp)) hflush
  rw [hstart.yields.ctrl] at hstream
  exact (hstart.trans hstream).room

/-- The form is decided by the length of the stream (R277). -/
theorem lzwWriteForm_eq {stored : Bool} (hs : s.lzwE.Sound)
    (hstored : stored = (s.ctrl.lzwFallbackEn && decide (s.input.length ≤ lzwBytes s.ctrl.lzwFixed12 s.input))) :
    lzwWriteForm s =
      if stored then lzwWriteStored s.input
      else lzwWriteCompressed (lzwBytes s.ctrl.lzwFixed12 s.input) s.input := by
  unfold lzwWriteForm
  rw [payloadBytes_eq hs]
  refine if_congr ?_ rfl rfl
  rw [hstored, length_input, Bool.and_eq_true, decide_eq_true_iff]

theorem lzwWriteForm_room {stored : Bool} (hs : s.lzwE.Sound)
    (hstored : stored = (s.ctrl.lzwFallbackEn && decide (s.input.length ≤ lzwBytes s.ctrl.lzwFixed12 s.input)))
    (hctrl : t.ctrl = s.ctrl) (hlzw : t.lzwE = s.lzwE) (h0 : t.writer.nbits = 0) (hr : t.Room 0)
    (h : lzwWriteForm s t = .ok () u) : t.Room (lzwBody s.ctrl.lzwFixed12 stored s.input).length := by
  rw [lzwWriteForm_eq hs hstored] at h
  cases stored with
  | true => exact lzwWriteStored_room hr h
  | false =>
    rw [← hctrl] at h ⊢
    exact lzwWriteCompressed_room (hlzw ▸ hs) h0 hr h

theorem lzwHeader_eq (s : State) :
    lzwHeader s.extension s.input =
      wordBits (immWord s.ext.len) 16 ++ bytesBits s.extension ++ wordBits s.inLen 32 := by
  unfold lzwHeader
  rw [length_extension, length_input, BitVec.ofNat_toNat, BitVec.ofNat_toNat, BitVec.setWidth_eq]
  rfl

theorem holds_of_room {n : Nat} (h : (startWriter s).Room n) : s.Holds n := by
  have hle : 0 + (0 + n) / 8 ≤ s.params.obufSize := h.2
  exact ⟨h.1, by omega⟩

/-- LZW_COMPRESS ended normally, so EXTBUF holds the extension and OBUF takes the container (R166, R277). -/
theorem lzwCompress_fits {stored : Bool} (hp : s.params.Ok) (hs : s.lzwE.Sound)
    (hlen : s.inLen.toNat ≤ s.params.ibufSize)
    (hstored : stored = (s.ctrl.lzwFallbackEn && decide (s.input.length ≤ lzwBytes s.ctrl.lzwFixed12 s.input)))
    (h : lzwCompress s = .ok () t) :
    s.ext.len.toNat ≤ s.params.extMax ∧
      s.Holds (lzwHeader s.extension s.input ++ lzwBody s.ctrl.lzwFixed12 stored s.input).length := by
  obtain ⟨b, hb⟩ : ∃ b, b = (startWriter s).setOrigSize s.inLen := ⟨_, rfl⟩
  have hbr : b.Room 0 := hb ▸ startWriter_room ⟨hp, Nat.zero_le _⟩
  unfold lzwCompress at h
  rw [checkIn_bind_run, if_neg (Nat.not_lt.2 hlen), checkExt_bind_run] at h
  split at h
  · cases h
  · rename_i hext
    rw [Cmd.modify_bind_run, Cmd.get_bind_run, ← hb] at h
    obtain ⟨_, u, hu, h⟩ := Cmd.ok_of_bind h
    obtain ⟨_, v, hv, h⟩ := Cmd.ok_of_bind h
    obtain ⟨_, w, hw, h⟩ := Cmd.ok_of_bind h
    obtain ⟨_, x, hx, -⟩ := Cmd.ok_of_bind h
    have hhead : Wrote b (lzwHeader b.extension b.input) w :=
      lzwHeader_eq b ▸ (writeBits_wrote _ 32).of_ok ((emitBytes_wrote _).of_ok
        ((writeBits_wrote _ 16).of_ok (wrote_nil hbr) hu) hv) hw
    have hform := lzwWriteForm_room (s := b) (stored := stored) (hb ▸ hs) (hb ▸ hstored) hhead.writes.yields.ctrl
      (by rw [hhead.writes.frame]; rfl) (hhead.writes.aligned (hb ▸ rfl) (length_lzwHeader_mod _ _))
      hhead.fitted.room_zero hx
    have hroom := hhead.writes.room_append hform
    rw [← List.length_append] at hroom
    subst hb
    exact ⟨Nat.not_lt.1 hext, holds_of_room hroom⟩

/-- LZW_COMPRESS that ended without an error wrote its container, and says in STORED which form. -/
theorem lzwCompress_wrote (hp : s.params.Ok) (hs : s.LzwSound) (hlen : s.inLen.toNat ≤ s.params.ibufSize)
    (ht : exec .lzwCompress s = .next t) (hn : t.status.err = false) :
    bytesBits t.outBytes =
      if t.status.stored then lzwStored s.extension s.input
      else lzwCompressed s.ctrl.lzwFixed12 s.extension s.input := by
  obtain ⟨stored, hstored⟩ : ∃ b, b = (s.ctrl.lzwFallbackEn &&
    decide (s.input.length ≤ lzwBytes s.ctrl.lzwFixed12 s.input)) := ⟨_, rfl⟩
  obtain ⟨hext, hholds⟩ := lzwCompress_fits hp hs.enc hlen hstored (commandOf_of_noError ht hn)
  rw [lzwHeader_append_lzwBody] at hholds
  obtain ⟨t', ht', -, hstatus, -, -, hbits⟩ :=
    lzwCompressWritesTheContainer s stored _ hs hlen hext hstored rfl hholds
  obtain rfl : t' = t := Host.Outcome.next.inj (ht'.symm.trans ht)
  rw [hbits, hstatus]

/-- LZW_DECOMPRESS of a container, in the form that `stored` says. -/
theorem lzwDecompress_container {stored : Bool} {ext data : List Byte} (hp : u.params.Ok)
    (hlen : u.inLen.toNat ≤ u.params.ibufSize) (hext : ext.length < 2 ^ 16)
    (hroom : data.length ≤ u.params.obufSize)
    (hin : u.inputBits = if stored then lzwStored ext data else lzwCompressed u.ctrl.lzwFixed12 ext data) :
    ∃ v, exec .lzwDecompress u = .next v ∧ v.outBytes = data ∧ v.origSize = BitVec.ofNat 32 data.length ∧
      v.ext.len = BitVec.ofNat 16 ext.length ∧ v.status.err = u.status.err ∧ v.status.stored = stored := by
  obtain ⟨hstoredForm, hcompressedForm⟩ := lzwDecompressReadsTheContainer u ext data [] hp hlen hext hroom
  rw [List.append_nil] at hstoredForm hcompressedForm
  cases stored with
  | true =>
    obtain ⟨v, hv, -, hout, horig, hextEnd, hstatus⟩ := hstoredForm hin
    exact ⟨v, hv, hout, horig, by rw [hextEnd], by rw [hstatus], by rw [hstatus]⟩
  | false =>
    obtain ⟨v, hv, -, hout, horig, hextEnd, hstatus⟩ := hcompressedForm hin
    exact ⟨v, hv, hout, horig, by rw [hextEnd], by rw [hstatus], by rw [hstatus]⟩

end

/-- Settles O51: LZW_COMPRESS ended without an error, so it wrote its container, and LZW_DECOMPRESS reads that. -/
theorem lzwRoundTrip : Obligations.LzwRoundTrip := by
  intro s t u hp hs hlen _ ht hn hand hfixed
  have hin : u.inputBits = bytesBits t.outBytes := congrArg bytesBits hand.bytes
  rw [lzwCompress_wrote hp hs hlen ht hn, ← hfixed] at hin
  obtain ⟨v, hv, hout, horig, hextEnd, herr, hstored⟩ := lzwDecompress_container hand.params hand.fits
    (length_extension s ▸ s.ext.len.isLt) (length_input s ▸ hand.room) hin
  rw [length_input, BitVec.ofNat_toNat, BitVec.setWidth_eq] at horig
  rw [length_extension, BitVec.ofNat_toNat, BitVec.setWidth_eq] at hextEnd
  exact ⟨v, hv, herr, hout, horig, hextEnd, hstored⟩

end Sys2Proof.Machine

namespace Sys2Proof.Machine

/-! ## The arithmetic commands -/

/-- Settles O54: the narrowed bounds settle in at most 32 passes, whose cases `encodeSymbol` writes. -/
theorem ariEncSymNarrows : Obligations.AriEncSymNarrows := by
  intro sym s occ hwf hmodel hopen hm hs hp
  have hsym : sym.toNat ≤ 256 := of_decide_eq_true hwf
  obtain ⟨cs, l, h, hcases, hsettled, hlen, -⟩ := hm.rescales hs hsym
  refine ⟨cs, l, h, hcases, hsettled, hlen, fun hr => ?_⟩
  obtain ⟨t, ht, u, hw, rfl⟩ := encodeSymbol_writes hm hs hsym hcases hlen hp hr
  exact ⟨u, hw, exec_of_ok (i := .ariEncSym sym)
    ((need_bind_of_valid hmodel).trans ((need_bind_of_valid hopen).trans ht))⟩

theorem length_rangeFlushBits (low p : Nat) : (rangeFlushBits low p).length = p + 2 := by
  simp [rangeFlushBits, resolvedBits]

/-- Settles O55: the flush writes its bits, and then the session's valid bit is cleared. -/
theorem ariEncFlushResolves : Obligations.AriEncFlushResolves := by
  intro s hopen hp hr
  obtain ⟨t, ht, u, hw, rfl⟩ := flushRangeEncoder_writes hp (by rwa [length_rangeFlushBits])
  have hvalid : s.valid = u.valid := by rw [hw.frame]; rfl
  refine ⟨u, hw, ?_⟩
  rw [hvalid]
  exact exec_of_ok (i := .ariEncFlush) ((need_bind_of_valid hopen).trans (Cmd.bind_of_ok ht))

/-- Settles O56: VALUE within the bounds makes the lookup hit, and the symbol's narrowed bounds hold VALUE again. -/
theorem ariDecSymFinds : Obligations.AriDecSymFinds := by
  intro s occ hmodel hopen hm hs hlow hhigh
  obtain ⟨sym, hsym, hc, hd, hlookup⟩ := lookup_run hm hlow hhigh
  have hrun : ariDecSym s = afterLookup sym (s.setRes (BitVec.ofNat 32 sym)) :=
    (need_bind_of_valid hmodel).trans ((need_bind_of_valid hopen).trans (Cmd.bind_of_ok hlookup))
  refine ⟨sym, hsym, hc, hd, fun heof => exec_of_ok (i := .ariDecSym) ?_, fun hdata => ?_⟩
  · subst heof
    exact hrun
  · obtain ⟨cs, l, h, hcases, hsettled, hlen, -⟩ := hm.rescales hs hsym
    obtain ⟨hgo, hlo, hhi⟩ :=
      consumeSymbol_run (s := s.setRes (BitVec.ofNat 32 sym)) hm hs hsym hlow hc hd hcases hlen
    have hafter : afterLookup sym = consumeSymbol sym := if_neg hdata
    rw [hafter] at hrun
    exact ⟨cs, l, h, _, hcases, hsettled, rfl, hlo, hhi, exec_of_ok (i := .ariDecSym) (hrun.trans hgo)⟩

end Sys2Proof.Machine

namespace Sys2Proof.Machine

/-! ## The arithmetic round trip (R325) -/

/-! ### The range encoder's output that fits (R181, R315 to R317) -/

section

variable {occ : Nat → Nat} {b s t : State} {l : List Bool} {low high p : Nat}

theorem repeatN_writeBit (n : Nat) (x : Bool) : repeatN n (writeBit x) = writeBitString (List.replicate n x) := by
  induction n with
  | zero => rfl
  | succ n ih =>
    rw [repeatN_succ, ih, List.replicate_succ]
    rfl

/-- `OutputBit(x)` that ended normally found room for its bits (R315). -/
theorem outputBit_fitted {x : Bool} (hr : s.Room 0) (h : outputBit x s = .ok () t) :
    Fitted (resolvedBits s.ari.pending.toNat x) s t ∧ t.ari = { s.ari with pending := 0 } := by
  have hstring : outputBit x s = (writeBitString (resolvedBits s.ari.pending.toNat x) >>= fun _ =>
      modify fun u => u.setAri { u.ari with pending := 0 }) s := by
    unfold outputBit
    rw [Cmd.get_bind_run, repeatN_writeBit, resolvedBits, writeBitString, writeBitString, forEach_cons, bind_assoc]
  rw [hstring] at h
  obtain ⟨_, u, hu, hset⟩ := Cmd.ok_of_bind h
  cases hset
  have hw := (writeBitString_wrote _).of_ok (wrote_nil hr) hu
  exact ⟨hw.fitted.trans_nil (yields_setAri _ _), by rw [State.setAri_ari, hw.writes.ari]⟩

/-- Since `b` the bits `l` have been written and OBUF took them; the range encoder is under the model of `occ`, at the
bounds `low` and `high` with `p` pending. -/
structure Coding (occ : Nat → Nat) (b : State) (l : List Bool) (low high p : Nat) (s : State) : Prop where
  fitted : Fitted l b s
  model : s.ari.HoldsModel occ
  bounds : s.ari.At low high p

theorem Coding.setAri {low' high' p' : Nat} {a : Arith} (h : Coding occ b l low high p s)
    (hm : a.table = s.ari.table) (hat : a.At low' high' p') : Coding occ b l low' high' p' (s.setAri a) :=
  ⟨h.fitted.trans_nil (yields_setAri s a), h.model.of_table hm, hat⟩

/-- The bounds doubled, nothing lost in 32 bits (R315). -/
theorem Coding.doubled {c : Rescale} (h : Coding occ b l low high p s) (hle : low ≤ high)
    (hlt : 2 * (high - c.offset) + 1 < 2 ^ 32) :
    Coding occ b l (2 * (low - c.offset)) (2 * (high - c.offset) + 1) p (s.setAri (s.ari.doubled c)) := by
  obtain ⟨hlow, hhigh, hpend⟩ := h.bounds
  subst hlow hhigh
  exact h.setAri rfl ⟨doubled_low (by omega), doubled_high hlt, hpend⟩

/-- One bit more pending (R315, R317). -/
theorem Coding.deferred (h : Coding occ b l low high p s) (hp : p + 1 < 2 ^ 64) :
    Coding occ b l low high (p + 1) (s.setAri { s.ari with pending := s.ari.pending + 1 }) := by
  obtain ⟨hlow, hhigh, hpend⟩ := h.bounds
  subst hpend
  exact h.setAri rfl ⟨hlow, hhigh, (BitVec.toNat_add ..).trans (Nat.mod_eq_of_lt hp)⟩

theorem outputBit_coding (x : Bool) :
    Cmd.Takes (Coding occ b l low high p) (outputBit x)
      (fun _ => Coding occ b (l ++ resolvedBits p x) low high 0) Anything := by
  refine takes_of_cases (fun s _ t hs ht => ?_) fun _ _ _ _ _ => trivial
  obtain ⟨hfit, hm, hlow, hhigh, hpend⟩ := hs
  obtain ⟨hout, hari⟩ := outputBit_fitted hfit.room_zero ht
  rw [hpend] at hout
  exact ⟨hfit.trans hout, hari ▸ hm.of_table rfl, hari ▸ ⟨hlow, hhigh, rfl⟩⟩

/-- A pass of EncRescale that outputs a bit (R315). -/
theorem outputPass_coding {c : Rescale} {x : Bool} {passes : Nat} {Q : Unit → State → Prop} (hle : low ≤ high)
    (hlt : 2 * (high - c.offset) + 1 < 2 ^ 32)
    (rest : Cmd.Takes (Coding occ b (l ++ resolvedBits p x) (2 * (low - c.offset)) (2 * (high - c.offset) + 1) 0)
      (encRescale passes) Q Anything) :
    Cmd.Takes (Coding occ b l low high p)
      (outputBit x >>= fun _ => (modify fun t => t.setAri (t.ari.doubled c)) >>= fun _ => encRescale passes)
      Q Anything :=
  takes_bind (outputBit_coding x) fun _ =>
    takes_bind (takes_modify fun _ ht => ht.doubled hle hlt) fun _ => rest

/-- EncRescale that ended normally wrote the bits of its cases (R315). -/
theorem Rescales.encRescale_coding {cs : List Rescale} {lo hi : Nat} (r : Rescales low high cs lo hi) (passes : Nat)
    (hlen : cs.length ≤ passes) (hle : low ≤ high) (hlt : high < 2 ^ 32) (hp : p + cs.length < 2 ^ 64) :
    Cmd.Takes (Coding occ b l low high p) (encRescale passes)
      (fun _ => Coding occ b (l ++ rescaleBits p cs) lo hi (rescalePending p cs)) Anything := by
  have hhalf : Config.half = 0x80000000 := rfl
  have hquarter : Config.quarter = 0x40000000 := rfl
  have hthree : Config.threeQuarter = 0xC0000000 := rfl
  have h1 : Rescale.e1.offset = 0 := rfl
  have h2 : Rescale.e2.offset = 0x80000000 := rfl
  have h3 : Rescale.e3.offset = 0x40000000 := rfl
  induction r generalizing l p passes with
  | @exit low high hn1 hn2 hn3 =>
    intro s hs
    have hdone : encRescale passes s = .ok () s := by
      cases passes with
      | zero => rfl
      | succ passes =>
        have hcase : rescaleCase low high = .stop := (if_neg hn1).trans ((if_neg hn2).trans (if_neg hn3))
        rw [encRescale, Cmd.get_bind_run, hs.bounds.low, hs.bounds.high, hcase]
        rfl
    rw [hdone]
    exact (List.append_nil l).symm ▸ hs
  | @e1 low high lo hi cs hin _ ih =>
    rw [List.length_cons] at hlen hp
    obtain ⟨passes, rfl⟩ := Nat.exists_eq_add_of_le' (show 1 ≤ passes by omega)
    intro s hs
    have hcase : rescaleCase low high = .e1 := if_pos hin
    rw [encRescale, Cmd.get_bind_run, hs.bounds.low, hs.bounds.high, hcase, rescaleBits, ← List.append_assoc]
    exact outputPass_coding (c := .e1) hle (by omega)
      (ih passes (by omega) (by omega) (by omega) (by omega)) s hs
  | @e2 low high lo hi cs hn1 hin _ ih =>
    rw [List.length_cons] at hlen hp
    obtain ⟨passes, rfl⟩ := Nat.exists_eq_add_of_le' (show 1 ≤ passes by omega)
    intro s hs
    have hcase : rescaleCase low high = .e2 := (if_neg hn1).trans (if_pos hin)
    rw [encRescale, Cmd.get_bind_run, hs.bounds.low, hs.bounds.high, hcase, rescaleBits, ← List.append_assoc]
    exact outputPass_coding (c := .e2) hle (by omega)
      (ih passes (by omega) (by omega) (by omega) (by omega)) s hs
  | @e3 low high lo hi cs hn1 hn2 hin1 hin2 _ ih =>
    rw [List.length_cons] at hlen hp
    obtain ⟨passes, rfl⟩ := Nat.exists_eq_add_of_le' (show 1 ≤ passes by omega)
    intro s hs
    have hcase : rescaleCase low high = .e3 := (if_neg hn1).trans ((if_neg hn2).trans (if_pos ⟨hin1, hin2⟩))
    rw [encRescale, Cmd.get_bind_run, hs.bounds.low, hs.bounds.high, hcase]
    exact ih passes (by omega) (by omega) (by omega) (by omega) _
      ((hs.deferred (by omega)).doubled (c := .e3) hle (by omega))

/-- `Narrow(s); EncRescale()` that ended normally wrote the symbol's bits (R316). -/
theorem encodeSymbol_coding {a : Arith} {sym lo hi : Nat} {cs : List Rescale} (hm : a.HoldsModel occ)
    (hs : Settled low high) (hsym : sym ≤ 256)
    (r : Rescales (narrowLow low high (modelCum occ sym) (modelCum occ 257))
      (narrowHigh low high (modelCum occ (sym + 1)) (modelCum occ 257)) cs lo hi)
    (hlen : cs.length ≤ 32) (hp : p + 32 < 2 ^ 64) :
    Cmd.Takes (Coding occ b l low high p) (encodeSymbol sym)
      (fun _ => Coding occ b (l ++ rescaleBits p cs) lo hi (rescalePending p cs)) Anything := by
  obtain ⟨-, hle, hhigh⟩ := hm.narrow_bounds hs hsym
  have hmax := hs.2.2.1
  refine takes_bind (takes_modify fun s h => ?_) fun _ =>
    r.encRescale_coding rescalePasses hlen hle (by omega) (by omega)
  obtain ⟨hl, hh, hpend⟩ := h.bounds
  subst hl hh
  obtain ⟨-, hl', hh'⟩ := narrow_atBounds h.model hs hsym
  exact h.setAri rfl ⟨hl', hh', hpend⟩

/-- The flush of the range encoder that ended normally wrote its bits (R317). -/
theorem flushRangeEncoder_coding (hp : p + 1 < 2 ^ 64) :
    Cmd.Takes (Coding occ b l low high p) flushRangeEncoder (fun _ => Fitted (l ++ rangeFlushBits low p) b)
      Anything := by
  refine takes_bind (takes_modify fun s h => h.deferred hp) fun _ => takes_get fun s hs => ?_
  refine takes_of_cases (fun _ _ t hst ht => ?_) fun _ _ _ _ _ => trivial
  subst hst
  rw [hs.bounds.low] at ht
  exact ((outputBit_coding _).of_ok hs ht).fitted

/-- The range encoder that ended normally wrote its stream (R316, R317). -/
theorem RangeCoded.fitted {a : Arith} {syms : List Nat} {bits : List Bool} (hm : a.HoldsModel occ)
    (r : RangeCoded occ low high p syms bits) (hs : Settled low high) (hsyms : ∀ x ∈ syms, x ≤ 256)
    (hp : p + 32 * syms.length + 1 < 2 ^ 64) :
    Cmd.Takes (Coding occ b l low high p) (forEach syms encodeSymbol >>= fun _ => flushRangeEncoder)
      (fun _ => Fitted (l ++ bits) b) Anything := by
  induction r generalizing l with
  | flush low high p =>
    exact takes_bind (takes_pure () fun _ => id) fun _ => flushRangeEncoder_coding (by omega)
  | @symbol low high p lo hi sym cs syms bits hcases _ ih =>
    have hsym := hsyms sym (List.mem_cons_self ..)
    obtain ⟨cs', lo', hi', hcases', hsettled, hlen, -⟩ := hm.rescales hs hsym
    obtain ⟨rfl, rfl, rfl⟩ := hcases.unique hcases'
    have hpend := rescalePending_le p cs
    rw [List.length_cons] at hp
    rw [forEach_cons, bind_assoc, ← List.append_assoc]
    exact takes_bind (encodeSymbol_coding hm hs hsym hcases hlen (by omega)) fun _ =>
      ih hsettled (fun x hx => hsyms x (List.mem_cons_of_mem _ hx)) (by omega)

end

/-! ### ARI_COMPRESS without an error wrote the container -/

section

variable {b s t : State} {l bits : List Bool}

theorem writeTable_wrote {a : Arith} {occ : Nat → Nat} (h : ∀ i, i < 256 → (a.occAt i).toNat = occ i) :
    Cmd.Takes (Wrote b l) (writeTable a) (fun _ => Wrote b (l ++ tableBits occ)) Anything := by
  have hentries : tableEntryBits occ =
      (observedSymbols occ).flatMap fun i => wordBits (BitVec.ofNat 32 i) 8 ++ wordBits (a.occAt i) 32 :=
    List.flatMap_congr fun i hi => by rw [← h i (observedSymbols_lt hi), BitVec.ofNat_toNat, BitVec.setWidth_eq]
  unfold writeTable tableBits
  rw [observed_eq h, hentries, ← List.append_assoc]
  refine takes_bind (writeBits_wrote _ 16) fun _ => forEach_wrote (fun i m => ?_) _
  rw [← List.append_assoc]
  exact takes_bind (writeBits_wrote _ 8) fun _ => writeBits_wrote _ 32

/-- The table and the stream fit where the body of ARI_COMPRESS ends normally (R323). -/
theorem ariCompressBody_room (hmax : s.inLen.toNat ≤ Config.ariMax) (h0 : s.writer.nbits = 0) (hr : s.Room 0)
    (hstream : RangeStream s.input bits) (h : ariCompressBody s.input s = .ok () t) :
    s.Room (tableBits (occurrences s.input) ++ zeroPad bits).length := by
  have hmodel := fillModel_holds hmax
  unfold ariCompressBody at h
  rw [Cmd.modify_bind_run, Cmd.get_bind_run] at h
  obtain ⟨_, u, hu, h⟩ := Cmd.ok_of_bind h
  rw [Cmd.modify_bind_run] at h
  obtain ⟨v, hv⟩ : ∃ v, v = startRangeEncoder u := ⟨_, rfl⟩
  have htable := (writeTable_wrote hmodel.occurred).of_ok (wrote_nil (b := fillModel s) hr) hu
  have hstart : Fitted (tableBits (occurrences s.input)) (fillModel s) v :=
    htable.fitted.trans_nil (hv ▸ yields_setAri _ _)
  have hcoding : Coding (occurrences s.input) v [] 0 0xFFFFFFFF 0 v := by
    refine ⟨(wrote_nil hstart.room_zero).fitted, Arith.HoldsModel.of_table (htable.writes.ari ▸ hmodel) ?_, ?_⟩
    · rw [hv]
      rfl
    · rw [hv]
      exact ⟨rfl, rfl, rfl⟩
  have hrun : ((forEach (rangeSymbols s.input) encodeSymbol >>= fun _ => flushRangeEncoder) >>= fun _ =>
      flushBits) v = .ok () t := by
    rw [← encodeData_eq, hv]
    simp only [bind_assoc]
    exact h
  obtain ⟨_, w, hw, hflush⟩ := Cmd.ok_of_bind hrun
  have hcoded := (hstream.fitted hmodel settled_fullRange rangeSymbols_le
    (by rw [← rangeSymbols, length_rangeSymbols, length_input]; omega)).of_ok hcoding hw
  exact (hstart.trans (hcoded.flush (hstart.yields.aligned h0 (by rw [length_tableBits]; omega)) hflush)).room

theorem ariFields_eq (s : State) :
    ariFields (boolByte s.ctrl.isbin) s.extension s.input =
      [] ++ byteBits (boolByte s.ctrl.isbin) ++ wordBits (immWord s.ext.len) 16 ++ bytesBits s.extension ++
        wordBits s.inLen 32 := by
  unfold ariFields
  rw [length_extension, length_input, BitVec.ofNat_toNat, BitVec.ofNat_toNat, BitVec.setWidth_eq]
  simp only [List.nil_append, List.append_assoc]
  rfl

theorem inLen_le_ariMax (hp : s.params.Ok) (hlen : s.inLen.toNat ≤ s.params.ibufSize) :
    s.inLen.toNat ≤ Config.ariMax := by
  have hsize : s.params.ibufSize ≤ 0x1000000 := hp.1.2
  unfold Config.ariMax
  omega

/-- ARI_COMPRESS, started in `b`, ended normally: EXTBUF holds the extension, the fields were written and the rest of
the command ran from there (R166, R323). -/
theorem ariCompress_parts (hp : s.params.Ok) (hlen : s.inLen.toNat ≤ s.params.ibufSize)
    (hb : b = (startWriter s).setOrigSize s.inLen) (h : ariCompress s = .ok () t) :
    s.ext.len.toNat ≤ s.params.extMax ∧ ∃ u v,
      Wrote b (ariFields (boolByte b.ctrl.isbin) b.extension b.input) u ∧ ariCompressBody b.input u = .ok () v := by
  have hbr : b.Room 0 := hb ▸ startWriter_room ⟨hp, Nat.zero_le _⟩
  have hmax : b.inLen.toNat ≤ Config.ariMax := hb ▸ inLen_le_ariMax hp hlen
  unfold ariCompress at h
  rw [checkIn_bind_run, if_neg (Nat.not_lt.2 hlen), checkExt_bind_run] at h
  split at h
  · cases h
  · rename_i hext
    rw [Cmd.modify_bind_run, Cmd.get_bind_run, ← hb, raiseIf_bind_run, if_neg (Nat.not_lt.2 hmax)] at h
    obtain ⟨_, _, hflag, h⟩ := Cmd.ok_of_bind h
    obtain ⟨_, _, hextLen, h⟩ := Cmd.ok_of_bind h
    obtain ⟨_, _, hextBytes, h⟩ := Cmd.ok_of_bind h
    obtain ⟨_, u, hsize, h⟩ := Cmd.ok_of_bind h
    have hfields := (writeBits_wrote _ 32).of_ok ((emitBytes_wrote _).of_ok ((writeBits_wrote _ 16).of_ok
      ((emitByte_wrote _).of_ok (wrote_nil hbr) hflag) hextLen) hextBytes) hsize
    have hrun : (ariCompressBody b.input >>= fun _ => modify endCall) u = .ok () t := by
      unfold ariCompressBody
      simp only [bind_assoc]
      exact h
    obtain ⟨_, v, hv, -⟩ := Cmd.ok_of_bind hrun
    exact ⟨Nat.not_lt.1 hext, u, v, ariFields_eq b ▸ hfields, hv⟩

/-- ARI_COMPRESS ended normally, so OBUF takes the container (R323). -/
theorem ariCompress_holds (hp : s.params.Ok) (hlen : s.inLen.toNat ≤ s.params.ibufSize)
    (hstream : RangeStream s.input bits) (h : ariCompress s = .ok () t) :
    s.Holds (ariHeader (boolByte s.ctrl.isbin) s.extension s.input ++ zeroPad bits).length := by
  obtain ⟨b, hb⟩ : ∃ b, b = (startWriter s).setOrigSize s.inLen := ⟨_, rfl⟩
  obtain ⟨-, u, v, hfields, hv⟩ := ariCompress_parts hp hlen hb h
  have hinput : u.input = b.input := by
    rw [hfields.writes.frame]
    rfl
  have hinLen : u.inLen = s.inLen := by
    rw [hfields.writes.frame, hb]
    rfl
  have hstream' : RangeStream b.input bits := hb ▸ hstream
  rw [← hinput] at hv hstream'
  have hbody := ariCompressBody_room (hinLen ▸ inLen_le_ariMax hp hlen)
    (hfields.writes.aligned (hb ▸ rfl) (by rw [length_ariFields]; omega)) hfields.fitted.room_zero hstream' hv
  have hroom := hfields.writes.room_append hbody
  rw [← List.length_append, ← List.append_assoc, hinput, ← ariHeader_eq] at hroom
  subst hb
  exact holds_of_room hroom

/-- ARI_COMPRESS that ended without an error wrote its container. -/
theorem ariCompress_wrote (hp : s.params.Ok) (hlen : s.inLen.toNat ≤ s.params.ibufSize)
    (ht : exec .ariCompress s = .next t) (hn : t.status.err = false) :
    ∃ bits, RangeStream s.input bits ∧
      bytesBits t.outBytes = ariHeader (boolByte s.ctrl.isbin) s.extension s.input ++ zeroPad bits := by
  have hrun : ariCompress s = .ok () t := commandOf_of_noError ht hn
  obtain ⟨hext, -⟩ := ariCompress_parts hp hlen rfl hrun
  obtain ⟨bits, hstream, hwrites⟩ := ariCompressWritesTheContainer s hp hlen hext
  obtain ⟨t', ht', -, -, -, -, hbits⟩ := hwrites (ariCompress_holds hp hlen hstream hrun)
  obtain rfl : t' = t := Host.Outcome.next.inj (ht'.symm.trans ht)
  exact ⟨bits, hstream, hbits⟩

end

/-- Settles O59: ARI_COMPRESS ended without an error, so it wrote its container, and ARI_DECOMPRESS reads that, the
padding of the flush being what follows the stream. -/
theorem ariRoundTrip : Obligations.AriRoundTrip := by
  intro s t u hp hlen _ ht hn hand
  obtain ⟨bits, hstream, hbits⟩ := ariCompress_wrote hp hlen ht hn
  have hin : u.inputBits = ariHeader (boolByte s.ctrl.isbin) s.extension s.input ++ zeroPad bits :=
    (congrArg bytesBits hand.bytes).trans hbits
  rw [zeroPad, ← List.append_assoc] at hin
  obtain ⟨v, hv, -, hout, horig, hext, hstatus⟩ := ariDecompressReadsTheContainer u _ s.extension s.input bits _
    hand.params hand.fits (length_extension s ▸ s.ext.len.isLt) (length_input s ▸ hand.room) hstream hin
  rw [length_input, BitVec.ofNat_toNat, BitVec.setWidth_eq] at horig
  rw [length_extension, BitVec.ofNat_toNat, BitVec.setWidth_eq] at hext
  exact ⟨v, hv, by rw [hstatus], hout, horig, by rw [hext], by rw [hstatus, decide_boolByte_ne_zero]⟩

end Sys2Proof.Machine

namespace Sys2Proof.Machine

/-! ## The error completion -/

/-- The accepted word, ERR and the error registers: what no command changes before it raises. -/
def State.errorPart (s : State) : Seq × Bool × ErrRegs := (s.seq, s.status.err, s.err)

theorem errorPart_eq_iff {s t : State} :
    t.errorPart = s.errorPart ↔ t.seq = s.seq ∧ t.status.err = s.status.err ∧ t.err = s.err := by
  simp [State.errorPart]

theorem exec_clrErr_err {s t : State} (h : exec .clrErr s = .next t) : t.status.err = false := by
  cases h
  rfl

/-- A command that ends with ERR set, having started without, is not CLR_ERR, so it raised on a state with the error
part it found. -/
theorem exec_raised {i : Instr} {s t : State} (h : exec i s = .next t) (hs : s.status.err = false)
    (ht : t.status.err = true) : ∃ e u, t = takeError e u ∧ e ≠ .noError ∧ u.errorPart = s.errorPart := by
  have hi : i ≠ .clrErr := by
    rintro rfl
    simp [exec_clrErr_err h] at ht
  have hc : Cmd.Within (Same State.errorPart) (commandOf i) :=
    commandOf_same State.errorPart i (hClr := fun hclr => absurd hclr hi)
  obtain hsame | ⟨e, u, he, hsame, hne⟩ := exec_within hc h
  · obtain ⟨-, herr, -⟩ := errorPart_eq_iff.1 hsame
    simp [herr, hs] at ht
  · exact ⟨e, u, he, hne, hsame⟩

/-- Settles O10: a command that sets ERR raised; what the error completion writes is its definition (R366). -/
theorem errorCompletionSavesAndDiscards : Obligations.ErrorCompletionSavesAndDiscards := by
  refine ⟨fun i s t h hs ht => ?_, fun _ _ => rfl⟩
  obtain ⟨e, u, he, hne, hpart⟩ := exec_raised h hs ht
  obtain ⟨hseq, herr, hregs⟩ := errorPart_eq_iff.1 hpart
  exact ⟨e, u, he, hne, hseq, herr.trans hs, hregs⟩

end Sys2Proof.Machine

namespace Sys2Proof.Machine

/-! ## Commands complete -/

/-- Settles O9: a command's pseudocode ends normally or in a raise, and both answer a next state. -/
theorem everyCommandCompletes : Obligations.EveryCommandCompletes := by
  intro i s
  obtain ⟨t, -, h⟩ | ⟨e, t, -, h⟩ := exec_cases i s
  · exact ⟨t, h⟩
  · exact ⟨takeError e t, h⟩

/-! ## Host accesses while BUSY -/

/-- The register window is the region's start: an offset in it is the place's own (R92). -/
theorem eq_of_placeOf_eq_regs {off o : Nat} (h : placeOf off = .regs o) : off = o := by
  unfold placeOf at h
  split_ifs at h
  exact Place.regs.inj h

/-- A write while BUSY anywhere but to CMD sets WR_LOST and nothing else (R401). -/
theorem writeBusy_of_ne_cmd (s : State) {off : Nat} (h : off ≠ 0x018) :
    writeBusy s (placeOf off) = s.setStatus { s.status with wrLost := true } :=
  if_neg fun hcmd => h (eq_of_placeOf_eq_regs hcmd)

theorem readRegBusy_of_isConstant (s : State) {r : Reg} (h : r.isConstant = true) : readRegBusy s r = readReg s r :=
  if_pos h

theorem readRegBusy_status (s : State) :
    readRegBusy s .status = (Config.freeValue .busRead s.draws 0 32 &&& 0x3FC) ||| 1 := rfl

/-- STATUS.BUSY reads 1 while BUSY (R402). -/
theorem getLsbD_zero_readRegBusy_status (s : State) : (readRegBusy s .status).getLsbD 0 = true := by
  simp [readRegBusy_status]

/-- STATUS.DONE reads 0 while BUSY (R402). -/
theorem getLsbD_one_readRegBusy_status (s : State) : (readRegBusy s .status).getLsbD 1 = false := by
  simp [readRegBusy_status]

/-- A read while BUSY of a register's offset returns `readRegBusy` (R402). -/
theorem step_read_reg_busy {s t : State} {bits : Nat} {rest : List Move} (r : Reg) (hb : s.seq.phase = .busy)
    (ht : s.tape = .read bits r.offset :: rest) (h : step s = .next t) :
    t.bus = .word (readRegBusy (s.setTape rest) r) := by
  have hbus : t.bus = readPlace (s.setTape rest) (placeOf r.offset) := by rw [step_read ht h]; rfl
  rw [hbus, placeOf_regs (Nat.lt_trans (offset_lt r) (by decide))]
  show BusReply.word (readWindow _ _) = _
  rw [readWindow_offset, if_pos (show (s.setTape rest).seq.phase = .busy from hb)]

/-- No register shows the host's moves to come. -/
theorem readReg_setTape (s : State) (rest : List Move) (r : Reg) : readReg (s.setTape rest) r = readReg s r := by
  cases r <;> rfl

/-- A read while BUSY of a constant register is exact (R402). -/
theorem step_read_constant_busy {s t : State} {bits : Nat} {rest : List Move} {r : Reg} (hr : r.isConstant = true)
    (hb : s.seq.phase = .busy) (ht : s.tape = .read bits r.offset :: rest) (h : step s = .next t) :
    t.bus = .word (readReg s r) := by
  rw [step_read_reg_busy r hb ht h, readRegBusy_of_isConstant _ hr, readReg_setTape]

/-- Settles O19: a write is `writeBusy` off CMD, and a read is exact in the constants and in the two STATUS bits. -/
theorem accessesWhileBusy : Obligations.AccessesWhileBusy := by
  intro s t rest hb h
  refine ⟨fun bits off w ht hoff => ?_, fun ht => ?_, fun ht => ?_, fun ht => ?_, fun ht => ?_, fun ht => ?_⟩
  · rw [step_write ht h, if_pos hb, writeBusy_of_ne_cmd _ hoff]
    rfl
  · exact step_read_constant_busy (r := .id) rfl hb ht h
  · exact step_read_constant_busy (r := .ibufSz) rfl hb ht h
  · exact step_read_constant_busy (r := .obufSz) rfl hb ht h
  · exact step_read_constant_busy (r := .extMaxR) rfl hb ht h
  · exact ⟨_, step_read_reg_busy .status hb ht h, getLsbD_zero_readRegBusy_status _, getLsbD_one_readRegBusy_status _⟩

end Sys2Proof.Machine
